-- ==== Sys2Proof/Word.lean ====
section
/-! DEFINITION. The machine's word types (R3, R85, R114). -/

namespace Sys2Proof

/-- One byte of memory. -/
abbrev Byte := BitVec 8

/-- One 32-bit lane register, and one 32-bit scalar instruction word. -/
abbrev Word := BitVec 32

/-- One 64-bit scalar register, virtual address or system register. -/
abbrev DWord := BitVec 64

/-- One lane mask of a team in Bunting form (R27): bit 32·g + j belongs to lane j of group g, so that the
group word M[g] is bits [32g+31:32g] and the summary word is computed from them. -/
abbrev Mask := BitVec 1024

end Sys2Proof
end

