-- ==== Sys2Proof/Syntax.lean ====
section
/-! DEFINITION. The instruction set as data: one constructor for each row of the opcode table. A scalar word carries its
fields (Table 4.1), a lane word the fields of Table 4.2, a packet its eight dwords (R255), and a step of a unit or of the
outside what names it. -/

namespace Sys2Proof

/-- The fields of a lane word (Table 4.2) but its opcode, which is the constructor. `hi` is bits [95:64]: IMM32
when `i` is set, otherwise MODB and SRC3. -/
structure LWord where
  pred : BitVec 4
  pn : Bool
  dst : BitVec 7
  src1 : BitVec 7
  src2 : BitVec 7
  ty : BitVec 5
  la : BitVec 4
  ord : BitVec 2
  scope : BitVec 3
  evict : BitVec 3
  use : BitVec 3
  i : Bool
  x1 : Bool
  x2 : Bool
  x3 : Bool
  aw : Bool
  fn : BitVec 3
  hi : BitVec 32
  deriving DecidableEq, Repr

/-- The fields of a lane word every field of which but its opcode is zero (R321). -/
def LWord.zero : LWord :=
  { pred := 0, pn := false, dst := 0, src1 := 0, src2 := 0, ty := 0, la := 0, ord := 0, scope := 0, evict := 0, use := 0, i := false,
    x1 := false, x2 := false, x3 := false, aw := false, fn := 0, hi := 0 }

/-- A command-queue packet: eight little-endian dwords (R254, R255, R257). -/
structure Packet where
  d0 : DWord
  d1 : DWord
  d2 : DWord
  d3 : DWord
  d4 : DWord
  d5 : DWord
  d6 : DWord
  d7 : DWord
  deriving DecidableEq, Repr

/-- Where uncorrectable data was met (Table 15.7). A team is named by core and slot. -/
inductive ErrWhere where
  /-- A read of the 64-byte block at physical `pa` by the named team (a load, SLD, SAMPLE, TRACE read, CPY or operand read). -/
  | block (pa core slot : Nat)
  /-- The 64-byte block at physical `pa`, met by the named team's next ATOM on it. -/
  | atomic (pa core slot : Nat)
  /-- The 64-byte block at physical `pa`, met by an instruction fetch of core `core` in context `ctx`. -/
  | fetch (pa core ctx : Nat)
  /-- The 64-byte block at physical `pa`, met by a table-entry read in context `ctx`. -/
  | table (pa ctx : Nat)
  /-- Lane register `reg` of `lane` of the named team. -/
  | laneReg (core slot lane reg : Nat)
  /-- The scratchpad byte at `off` of the named team's claim. -/
  | scratch (core slot off : Nat)
  /-- Element (row, col) of accumulator tile `acc` of the named team. -/
  | accumulator (core slot acc row col : Nat)
  /-- The 64-byte block at physical `pa`, at write-back: no team is named, and context `ctx` counts it. -/
  | writeBack (pa ctx : Nat)
  /-- The 64-byte block number `block` (the physical address / 64) in its version line of pennant `pennant` of context `ctx`. -/
  | version (ctx pennant block : Nat)
  deriving DecidableEq, Repr

/-- One constructor for each row of the opcode table. -/
inductive Instr where
  -- scalar words (§4.2, §5.2)
  /-- ADD, R325: Scalar register add: xd := (xs1 + xs2) mod 2^64. -/
  | add (d a b : BitVec 5)
  /-- SUB, R377: Scalar subtract: xd := (xs1 - xs2) mod 2^64. -/
  | sub (d a b : BitVec 5)
  /-- MUL, R377: Scalar multiply: the low 64 bits of xs1 times xs2. -/
  | mul (d a b : BitVec 5)
  /-- MULH, R377: Scalar multiply high, signed or unsigned by FN3. -/
  | mulh (u : Bool) (d a b : BitVec 5)
  /-- DIV, R349: Scalar integer divide toward zero, signed or unsigned; never faults; long-latency. -/
  | div (u : Bool) (d a b : BitVec 5)
  /-- REM, R378: Scalar remainder, signed or unsigned, with defined results for zero divisor and overflow. -/
  | rem (u : Bool) (d a b : BitVec 5)
  /-- MIN, R377: Scalar minimum, signed or unsigned. -/
  | min (u : Bool) (d a b : BitVec 5)
  /-- MAX, R377: Scalar maximum, signed or unsigned. -/
  | max (u : Bool) (d a b : BitVec 5)
  /-- AND, R325: Scalar bitwise AND of two registers. -/
  | and (d a b : BitVec 5)
  /-- OR, R377: Scalar bitwise OR of two registers. -/
  | or (d a b : BitVec 5)
  /-- XOR, R407: Scalar bitwise exclusive OR of two registers. -/
  | xor (d a b : BitVec 5)
  /-- ANDN, R325: Scalar xs1 AND NOT xs2. -/
  | andn (d a b : BitVec 5)
  /-- SHL, R379: Scalar shift left by the register count. -/
  | shl (d a b : BitVec 5)
  /-- SHR, R379: Scalar logical shift right by the register count. -/
  | shr (d a b : BitVec 5)
  /-- SRA, R379: Scalar arithmetic shift right by the register count. -/
  | sra (d a b : BitVec 5)
  /-- SLT, R377: Scalar set-less-than, signed or unsigned, writing 1 or 0. -/
  | slt (u : Bool) (d a b : BitVec 5)
  /-- CMP, R343: Scalar integer compare under the FN3 condition, writing 1 or 0 to xd. -/
  | cmp (c : BitVec 3) (d a b : BitVec 5)
  /-- SEL, R378: Scalar select: xd := xs1 if the old xd is nonzero, else xs2. -/
  | sel (d a b : BitVec 5)
  /-- MOV, R377: Scalar register copy. -/
  | mov (d a : BitVec 5)
  /-- CLZ, R324: Scalar count of leading zero bits. -/
  | clz (d a : BitVec 5)
  /-- POPC, R377: Scalar count of one bits. -/
  | popc (d a : BitVec 5)
  /-- BREV, R324: Scalar bit reversal of 64 bits. -/
  | brev (d a : BitVec 5)
  /-- SEXT, R378: Scalar sign extension from 8, 16 or 32 bits. -/
  | sext (w : BitVec 3) (d a : BitVec 5)
  /-- ZEXT, R409: Scalar zero extension from 8, 16 or 32 bits. -/
  | zext (w : BitVec 3) (d a : BitVec 5)
  /-- BFE, R335: Scalar bit-field extract, signed or unsigned, under a control word. -/
  | bfe (sgn : Bool) (d a b : BitVec 5)
  /-- BFI, R336: Scalar bit-field insert into xd of bits from xs1 under the control word in xs2. -/
  | bfi (d a b : BitVec 5)
  /-- ADD_IMM, R325: Scalar add of a sign-extended 12-bit immediate. -/
  | addImm (d a : BitVec 5) (imm : BitVec 12)
  /-- AND_IMM, R325: Scalar AND with a sign-extended 12-bit mask. -/
  | andImm (d a : BitVec 5) (imm : BitVec 12)
  /-- OR_IMM, R377: Scalar OR with a sign-extended 12-bit mask. -/
  | orImm (d a : BitVec 5) (imm : BitVec 12)
  /-- XOR_IMM, R407: Scalar XOR with a sign-extended 12-bit mask. -/
  | xorImm (d a : BitVec 5) (imm : BitVec 12)
  /-- SHL_IMM, R379: Scalar shift left by an immediate count. -/
  | shlImm (d a : BitVec 5) (c : BitVec 6)
  /-- SHR_IMM, R379: Scalar logical shift right by an immediate count. -/
  | shrImm (d a : BitVec 5) (c : BitVec 6)
  /-- SRA_IMM, R379: Scalar arithmetic shift right by an immediate count. -/
  | sraImm (d a : BitVec 5) (c : BitVec 6)
  /-- SLT_IMM, R377: Scalar signed set-less-than against a sign-extended immediate. -/
  | sltImm (d a : BitVec 5) (imm : BitVec 12)
  /-- LI, R374: Scalar load of a sign-extended 20-bit constant. -/
  | li (d : BitVec 5) (imm : BitVec 20)
  /-- LIH, R374: Scalar shift of xd left by 20 bits and insertion of an unsigned 20-bit constant. -/
  | lih (d : BitVec 5) (imm : BitVec 20)
  /-- J, R369: Scalar jump by a signed word displacement. -/
  | j (imm : BitVec 20)
  /-- JAL, R369: Scalar jump and link, writing PC + 4 to xd. -/
  | jal (d : BitVec 5) (imm : BitVec 20)
  /-- JR, R369: Scalar jump to register plus immediate, writing PC + 4 to xd. -/
  | jr (d a : BitVec 5) (imm : BitVec 12)
  /-- B, R333: Scalar conditional branch on xs under COND. -/
  | b (cond : BitVec 4) (a : BitVec 5) (disp : BitVec 13)
  /-- LD, R373: Scalar load of 1, 2, 4 or 8 bytes from virtual memory, zero-extended. -/
  | ld (off : BitVec 5) (evict scope : BitVec 3) (ord sz : BitVec 2) (b t : BitVec 5)
  /-- ST, R391: Scalar store of 1, 2, 4 or 8 bytes to virtual memory, bypassing the write-combining buffer. -/
  | st (off : BitVec 5) (evict scope : BitVec 3) (ord sz : BitVec 2) (b t : BitVec 5)
  /-- SRRD, R388: Scalar read of a system register into xd. -/
  | srrd (num : BitVec 10) (d : BitVec 5)
  /-- SRWR, R389: Scalar write of a system register from xs1; stalls for context registers. -/
  | srwr (num : BitVec 10) (a : BitVec 5)
  /-- LRUN, R52: Starts a lane block, taking the x-register snapshot and acting as a team-scope release. -/
  | lrun (imm : BitVec 20)
  /-- TIME, R395: Scalar read of device time into xd. -/
  | time (d : BitVec 5)
  /-- MIGRATE, R44: Moves the team to another core of its partition, writing a status. -/
  | migrate (d a : BitVec 5)
  /-- FENCE, R195: Scalar fence with acquire, release or acquire-release ordering at a scope. -/
  | fence (ord : BitVec 2) (scope : BitVec 3)
  /-- ICFLUSH, R96: Releases earlier stores and discards fetched instructions of a range in every core of the scope. -/
  | icflush (scope : BitVec 3) (a b : BitVec 5)
  /-- GRES_P, R57: Makes a guard slot pending and unbound. -/
  | gresP (g : BitVec 4)
  /-- GRES, R57: Resolves a guard slot true or false from xs1, releasing or discarding held commands. -/
  | gres (g : BitVec 4) (a : BitVec 5)
  /-- GRES_ANY, R57: Binds a guard slot to the latest block, resolving true if the predicate is true in any lane. -/
  | gresAny (g p : BitVec 4)
  /-- GRES_ALL, R57: Binds a guard slot to the latest block, resolving true only if the predicate is true in every lane. -/
  | gresAll (g p : BitVec 4)
  /-- GWAIT, R364: Stalls until the guard slot is no longer pending, or raises the guard-wait fault. -/
  | gwait (g : BitVec 4)
  /-- BCLOSE, R155: Closes the open batch and writes its number. -/
  | bclose (d : BitVec 5)
  /-- BWAIT, R156: Stalls until every batch up to the named number has completed. -/
  | bwait (a : BitVec 5)
  /-- TCFG, R150: Waits for blocks and the tile queue, then reshapes and zeroes the team's accumulator tiles. -/
  | tcfg (d a : BitVec 5)
  /-- TFETCH, R261: Takes the next work index from the tile dispenser; in a coverage launch, finishes the previous cell. -/
  | tfetch (d : BitVec 5)
  /-- LATCH, R248: Snapshots a coverage block's region map and hands it to the launches that use it. -/
  | latch (d a : BitVec 5)
  /-- AUDIT, R249: Reads a coverage controller item of the team's launch from the dispenser. -/
  | audit (d a : BitVec 5)
  /-- FORK, R221: Creates the named pennants as Live and records the pennant control block. -/
  | fork (d a b : BitVec 5)
  /-- COMMIT, R222: Makes one Live pennant the trunk, dropping the others. -/
  | commit (d a : BitVec 5)
  /-- SQUASH, R225: Drops one Live pennant and waits until it is Free. -/
  | squash (d a : BitVec 5)
  /-- RANK, R229: Scores every Live pennant against the actual input and reports the best. -/
  | rank (d : BitVec 5)
  /-- WARP, R406: Rotates the committed frame to the actual orientation and releases warp-held flips. -/
  | warp (d a : BitVec 5)
  /-- FLIP, R228: Queues a display flip, or buffers it under a pennant. -/
  | flip (d a b : BitVec 5)
  /-- CPY, R177: Queues a tile copy between memory and scratchpad, optionally under a guard. -/
  | cpy (ge : Bool) (g : BitVec 4) (a b c : BitVec 5)
  /-- TLD, R398: Queues a move of f32 values from scratchpad into a tile region. -/
  | tld (ge : Bool) (g : BitVec 4) (a b c : BitVec 5)
  /-- TST, R398: Queues a move of a tile region out to scratchpad. -/
  | tst (ge : Bool) (g : BitVec 4) (a b c : BitVec 5)
  /-- MMA, R132: Queues a two-operand matrix product op on the cube array. -/
  | mma (ge : Bool) (g : BitVec 4) (a b c : BitVec 5)
  /-- TRI, R410: Queues a tri-product op on the cube array, possibly split across the cluster. -/
  | tri (ge : Bool) (g : BitVec 4) (a b c : BitVec 5)
  /-- TLUT, R400: Queues a table-lookup product op on the cube array. -/
  | tlut (ge : Bool) (g : BitVec 4) (a b c : BitVec 5)
  /-- QFENCE, R181: Places a joint entry in the selected engine queues so they pass it together. -/
  | qfence (ge : Bool) (g : BitVec 4) (a : BitVec 5)
  -- the issue of a word that is no instruction (R102)
  /-- ILLEGAL_INSTRUCTION_ISSUE, R102: Issue of a word that is no instruction raises the illegal-instruction trap with cause 0x01 or 0x02. -/
  | illegalInstructionIssue (reserved : Bool)
  -- lane words (§4.3, §5.3)
  /-- ADD_LANE, R325: Lane integer add over the path's lanes. -/
  | addLane (w : LWord)
  /-- SUB_LANE, R377: Lane integer subtract. -/
  | subLane (w : LWord)
  /-- MUL_LANE, R377: Lane integer multiply, low half. -/
  | mulLane (w : LWord)
  /-- MULH_LANE, R377: Lane integer multiply, high half. -/
  | mulhLane (w : LWord)
  /-- MAD, R377: Lane integer multiply-add modulo 2^n. -/
  | mad (w : LWord)
  /-- DIV_LANE, R349: Lane integer divide toward zero; long-latency. -/
  | divLane (w : LWord)
  /-- MIN_LANE, R377: Lane integer minimum. -/
  | minLane (w : LWord)
  /-- MAX_LANE, R377: Lane integer maximum. -/
  | maxLane (w : LWord)
  /-- ABS, R324: Lane absolute value of an integer or float. -/
  | abs (w : LWord)
  /-- AND_LANE, R325: Lane bitwise AND. -/
  | andLane (w : LWord)
  /-- OR_LANE, R377: Lane bitwise OR. -/
  | orLane (w : LWord)
  /-- XOR_LANE, R407: Lane bitwise exclusive OR. -/
  | xorLane (w : LWord)
  /-- ANDN_LANE, R325: Lane a AND NOT b. -/
  | andnLane (w : LWord)
  /-- SHL_LANE, R379: Lane shift left. -/
  | shlLane (w : LWord)
  /-- SHR_LANE, R379: Lane logical shift right. -/
  | shrLane (w : LWord)
  /-- SRA_LANE, R379: Lane arithmetic shift right. -/
  | sraLane (w : LWord)
  /-- CLZ_LANE, R324: Lane count of leading zeros. -/
  | clzLane (w : LWord)
  /-- POPC_LANE, R377: Lane population count. -/
  | popcLane (w : LWord)
  /-- BREV_LANE, R324: Lane bit reversal. -/
  | brevLane (w : LWord)
  /-- BFE_LANE, R335: Lane bit-field extract. -/
  | bfeLane (w : LWord)
  /-- BFI_LANE, R336: Lane bit-field insert. -/
  | bfiLane (w : LWord)
  /-- SEXT_LANE, R378: Lane sign extension. -/
  | sextLane (w : LWord)
  /-- ZEXT_LANE, R409: Lane zero extension. -/
  | zextLane (w : LWord)
  /-- SEL_LANE, R378: Lane select between two sources by a predicate. -/
  | selLane (w : LWord)
  /-- MOV_LANE, R377: Lane register copy of 32, 64 or 128 bits. -/
  | movLane (w : LWord)
  /-- LI_LANE, R374: Lane load of an immediate constant. -/
  | liLane (w : LWord)
  /-- LIH_LANE, R374: Lane write of the high word of a register pair. -/
  | lihLane (w : LWord)
  /-- CMP_LANE, R343: Lane integer compare writing a predicate. -/
  | cmpLane (w : LWord)
  /-- SLT_LANE, R377: Lane set-less-than. -/
  | sltLane (w : LWord)
  /-- FADD, R354: Lane floating add, correctly rounded under FN. -/
  | fadd (w : LWord)
  /-- FSUB, R354: Lane floating subtract. -/
  | fsub (w : LWord)
  /-- FMUL, R354: Lane floating multiply. -/
  | fmul (w : LWord)
  /-- FMA, R354: Lane fused multiply-add rounded once. -/
  | fma (w : LWord)
  /-- FMIN, R355: Lane floating minimum with NaN and signed-zero rules. -/
  | fmin (w : LWord)
  /-- FMAX, R355: Lane floating maximum with NaN and signed-zero rules. -/
  | fmax (w : LWord)
  /-- FCMP, R357: Lane floating compare writing a predicate. -/
  | fcmp (w : LWord)
  /-- FDIV, R354: Lane floating divide; long-latency. -/
  | fdiv (w : LWord)
  /-- FRCP, R359: Lane approximate reciprocal. -/
  | frcp (w : LWord)
  /-- FRSQ, R359: Lane approximate reciprocal square root. -/
  | frsq (w : LWord)
  /-- FSQRT, R354: Lane correctly rounded square root. -/
  | fsqrt (w : LWord)
  /-- FEXP2, R359: Lane approximate base-2 exponential. -/
  | fexp2 (w : LWord)
  /-- FLOG2, R359: Lane approximate base-2 logarithm. -/
  | flog2 (w : LWord)
  /-- FSIN, R359: Lane approximate sine of pi times the argument. -/
  | fsin (w : LWord)
  /-- FCOS, R359: Lane approximate cosine of pi times the argument. -/
  | fcos (w : LWord)
  /-- FRND, R356: Lane rounding to an integral value under FN. -/
  | frnd (w : LWord)
  /-- FCLASS, R358: Lane classification of a float into a one-hot mask. -/
  | fclass (w : LWord)
  /-- DOT2, R350: Lane packed two-term dot product accumulated into f32. -/
  | dot2 (w : LWord)
  /-- CVT, R345: Lane type conversion under the rounding mode. -/
  | cvt (w : LWord)
  /-- BLKQ, R337: Lane quantisation of each quarter's eight f32 values into a block. -/
  | blkq (w : LWord)
  /-- BLKX, R338: Lane expansion of one block element to f32. -/
  | blkx (w : LWord)
  /-- PLOP, R382: Lane three-input predicate logic by truth table. -/
  | plop (w : LWord)
  /-- VOTE, R405: Lane vote or ballot over a group or the path. -/
  | vote (w : LWord)
  /-- SHFL, R386: Lane shuffle of values within a group. -/
  | shfl (w : LWord)
  /-- REDUCE, R383: Lane reduction over a group or the path. -/
  | reduce (w : LWord)
  /-- SCAN, R383: Lane inclusive or exclusive prefix scan. -/
  | scan (w : LWord)
  /-- BR, R339: Lane branch that may split the path into two arms with a rejoin point. -/
  | br (w : LWord)
  /-- BRX, R340: Lane indirect branch splitting the path by distinct targets. -/
  | brx (w : LWord)
  /-- CALL, R342: Lane call pushing the return point on the path's return stack. -/
  | call (w : LWord)
  /-- PRIO, R65: Sets the issuing path's priority. -/
  | prio (w : LWord)
  /-- EXIT, R353: Removes the participating lanes from the team for good. -/
  | exit (w : LWord)
  /-- BAR, R334: Arrives at a named barrier and waits for its completion. -/
  | bar (w : LWord)
  /-- BAR_E, R334: Barrier that also drains stores to the engine path. -/
  | barE (w : LWord)
  /-- ARRIVE, R327: Sets the path's arrived flags of a barrier without waiting. -/
  | arrive (w : LWord)
  /-- AWAIT, R332: Holds the path until the barrier's flags of its lanes are clear. -/
  | await (w : LWord)
  /-- AWAIT_E, R332: AWAIT that also drains arrivers' stores to the engine path. -/
  | awaitE (w : LWord)
  /-- LD_LANE, R372: Lane load from virtual, private or scratchpad space. -/
  | ldLane (w : LWord)
  /-- ST_LANE, R390: Lane store to virtual, private or scratchpad space. -/
  | stLane (w : LWord)
  /-- SLD, R387: Lane load through the sampler cache. -/
  | sld (w : LWord)
  /-- SAMPLE, R385: Lane filtered texel read through the sampler path. -/
  | sample (w : LWord)
  /-- ATOM, R330: Lane atomic read-modify-write of group A (add to xchg). -/
  | atom (w : LWord)
  /-- ATOM_GROUP_B, R330: Lane atomic of group B: cas, incwrap or max64. -/
  | atomGroupB (w : LWord)
  /-- FENCE_LANE, R195: Lane fence at a scope for each lane of the path. -/
  | fenceLane (w : LWord)
  /-- PATHFENCE, R183: Drains the path's stores, releases at a scope and invalidates sampler caches. -/
  | pathfence (w : LWord)
  /-- CPY_LANE, R179: Per-lane copy between memory and scratchpad; long-latency. -/
  | cpyLane (w : LWord)
  /-- MMA_LANE, R139: Queues one base MMA op per participating quarter. -/
  | mmaLane (w : LWord)
  /-- TRI_LANE, R410: Queues one base tri-product op per participating quarter. -/
  | triLane (w : LWord)
  /-- TLUT_LANE, R400: Queues one base table-lookup op per participating quarter. -/
  | tlutLane (w : LWord)
  /-- ATTR, R274: Evaluates a perspective-correct attribute or gradient of the bound triangle. -/
  | attr (w : LWord)
  /-- EMIT_PUT, R267: Copies a payload from the claim into a payload-ring slot, waiting for room. -/
  | emitPut (w : LWord)
  /-- EMIT_TAKE, R267: Takes the oldest matching payload from the ring into the claim. -/
  | emitTake (w : LWord)
  /-- EMIT_PRIM, R269: Copies a primitive block to the attribute store and classifies its triangles. -/
  | emitPrim (w : LWord)
  /-- EMIT_PIX, R273: Deals pixel items from the pixel queue to lanes and binds them. -/
  | emitPix (w : LWord)
  /-- OSBEGIN, R275: Tries to take the pixel's order token for each bound lane. -/
  | osbegin (w : LWord)
  /-- OSEND, R275: Releases and passes the order token of each holding lane. -/
  | osend (w : LWord)
  /-- TRACE, R280: Traces a ray through a bounding structure on the ray traversal unit. -/
  | trace (w : LWord)
  /-- LAUNCH, R264: Lane device-side launch of a record into the pending-launch store or push buffer. -/
  | launch (w : LWord)
  /-- SRRD_LANE, R388: Lane read of sr.laneid or sr.prio. -/
  | srrdLane (w : LWord)
  /-- SRWR_LANE, R388: Lane write of sr.prio for the whole path. -/
  | srwrLane (w : LWord)
  /-- TIME_LANE, R395: Lane read of device time into a pair. -/
  | timeLane (w : LWord)
  -- packets handed off by the command core (Table 12.3), with their queue
  /-- FLIP_PACKET, R255: Command packet that queues a flip as FLIP under the trunk. -/
  | flipPacket (q : Nat) (p : Packet)
  /-- COMMIT_PACKET, R255: Command packet that commits a pennant of the queue's context. -/
  | commitPacket (q : Nat) (p : Packet)
  /-- LATCH_PACKET, R248: Command packet with the effect of LATCH. -/
  | latchPacket (q : Nat) (p : Packet)
  /-- LAUNCH_PACKET, R259: Command packet accepted as a launch, read and checked, then held for placement. -/
  | launchPacket (q : Nat) (p : Packet)
  /-- COPY_PACKET, R255: Command packet that performs a tile copy. -/
  | copyPacket (q : Nat) (p : Packet)
  /-- FENCE_PACKET, R255: Command packet that waits for earlier packets, writes a value with release and may interrupt. -/
  | fencePacket (q : Nat) (p : Packet)
  /-- WAIT_PACKET, R255: Command packet that holds its queue until a memory value reaches a threshold. -/
  | waitPacket (q : Nat) (p : Packet)
  /-- CAPSTART_PACKET, R311: Command packet that zeroes and starts the context's counters. -/
  | capstartPacket (q : Nat) (p : Packet)
  /-- CAPSTOP_PACKET, R311: Command packet that stops the counters and dumps them to memory. -/
  | capstopPacket (q : Nat) (p : Packet)
  /-- NOP_PACKET, R255: Command packet with no effect. -/
  | nopPacket (q : Nat) (p : Packet)
  -- steps of the part's units and of the world outside (file 95)
  /-- QDB_DOORBELL, R251: Write to a queue doorbell, making the command core sample TAIL. -/
  | qdbDoorbell (q : Nat)
  /-- QUEUE_ENABLE, R253: Writing EN = 1 validates the header and control blocks and activates the queue or clears its error. -/
  | queueEnable (q : Nat)
  /-- QUEUE_DISABLE, R251: Writing EN = 0 disables the queue at the next packet boundary. -/
  | queueDisable (q : Nat)
  /-- COMMAND_CORE_SAMPLE_TAIL, R254: Command core samples a queue's TAIL and checks it, entering Error on a bad tail. -/
  | commandCoreSampleTail (q : Nat)
  /-- CONTEXT_LOAD, R286: Writing LOAD makes the part read and check the context record. -/
  | contextLoad (ctx : Nat)
  /-- CONTEXT_LOAD_COMPLETE, R421: The record read ends, values apply, last-page registers clear and LOADED returns to 1. -/
  | contextLoadComplete (ctx : Nat)
  /-- INVALIDATE_RANGE, R289: INVCTL GO with ALL clear removes a context's translations over a range. -/
  | invalidateRange (ctx : Nat) (vpn : BitVec 45) (log2len : BitVec 6)
  /-- INVALIDATE_ALL, R289: INVCTL GO with ALL set removes every translation of a context. -/
  | invalidateAll (ctx : Nat)
  /-- FREPLY_REPLAY, R296: Driver reply that replays one operand-log entry. -/
  | freplyReplay (ctx : Nat) (id : Nat)
  /-- FREPLY_FAIL, R296: Driver reply that raises the replay-refused stopping fault for the team. -/
  | freplyFail (ctx : Nat) (id : Nat)
  /-- FREPLY_REPLAY_ALL, R296: Driver reply that replays every entry of a context. -/
  | freplyReplayAll (ctx : Nat)
  /-- FREPLY_KILL, R296: Driver reply that cuts the team of a record. -/
  | freplyKill (ctx : Nat) (id : Nat)
  /-- PREEMPT_SAVE, R300: Save request halting every team of a partition and moving its state to the shadow slot. -/
  | preemptSave (part : Nat)
  /-- PREEMPT_RESTORE, R303: Restore request placing a partition's saved teams back like a launch. -/
  | preemptRestore (part : Nat)
  /-- PREEMPT_EVICT, R302: Evict request copying a saved slot to the save area and emptying it. -/
  | preemptEvict (part : Nat)
  /-- SAVE_COMPLETE, R301: A save's state transfer finishes; the slot reads saved and an interrupt is raised. -/
  | saveComplete (part : Nat)
  /-- RESTORE_COMPLETE, R303: A restore writes the state back, applies the reply log and lets the teams issue. -/
  | restoreComplete (part : Nat)
  /-- EVICT_COMPLETE, R302: The evict copy ends and the slot reads evicted. -/
  | evictComplete (part : Nat)
  /-- RESUME, R309: Writing a team identity to RESUME releases a debug-stopped team. -/
  | resume (id : BitVec 64)
  /-- HCFG_WRITE, R319: Write to a head's HCFG that restarts its frame period. -/
  | hcfgWrite (h : Nat) (v : BitVec 64)
  /-- REGISTER_WRITE, R305: Write to a window register with no behaviour of its own, such as INTEN, GOVCTL or TRCTL. -/
  | registerWrite (off : Nat) (v : BitVec 64)
  /-- VERTICAL_BLANK, R319: Expiry of a head's frame period: presents the oldest queued flip and sets VBL. -/
  | verticalBlank (h : Nat)
  /-- FLIP_ENTER_QUEUE, R228: A flip waiting outside a full head queue enters it when an entry frees. -/
  | flipEnterQueue (h : Nat)
  /-- LIMIT_EXCEEDED, R318: Package power or die temperature first exceeds its limit, setting THERM. -/
  | limitExceeded (thermal : Bool)
  /-- HOLD_TIMEOUT, R256: Expiry of 100 us ends the hold of a HOLD launch waiting for its class. -/
  | holdTimeout (launch : Nat)
  /-- LIGHT_IDLE_ENTRY, R316: A core idle for 1,000 ticks has its clock gated. -/
  | lightIdleEntry (core : Nat)
  /-- IDLE_STATE_ENTRY, R316: The part enters Deep or Sleep when its entry condition holds and LATTOL allows. -/
  | idleStateEntry (sleep : Bool)
  /-- LAUNCH_PLACEMENT, R39: All teams of a held launch are placed in one mesh clock once every core can take its team. -/
  | launchPlacement (launch : Nat)
  /-- SCRATCH_LEND, R169: An unclaimed 4 KB unit is given to the L1 at the next mesh clock. -/
  | scratchLend (core : Nat)
  /-- LAUNCH_AGED, R260: A launch held 4,096 mesh clocks becomes aged and reserves slots on its core set. -/
  | launchAged (launch : Nat)
  /-- LAUNCH_COMPLETE, R259: All teams retired and Fondant done; the status is written to STAT. -/
  | launchComplete (launch : Nat)
  /-- FONDANT_RECONSTRUCT_CELL, R241: Fondant fills a finished cell's skipped points and records audit errors. -/
  | fondantReconstructCell (launch cell : Nat)
  /-- LANE_BLOCK_BEGIN, R52: A started lane block begins with one path over the Bunting. -/
  | laneBlockBegin (core slot : Nat)
  /-- LANE_BLOCK_END, R54: A block ends when no lane remains on any path, clearing barrier flags. -/
  | laneBlockEnd (core slot : Nat)
  /-- BARRIER_COMPLETE, R326: Every counted lane has arrived; the barrier's flags clear. -/
  | barrierComplete (core slot bar : Nat)
  /-- PATH_MERGE, R63: All arms reach the rejoin point and their masks merge into the parent. -/
  | pathMerge (core slot split : Nat)
  /-- TEAM_RETIRE, R42: A halted team whose conditions are all met frees its registers and slot. -/
  | teamRetire (core slot : Nat)
  /-- DROP_COMPLETE, R213: A Dropping pennant becomes Free once everything is discarded. -/
  | dropComplete (ctx pennant : Nat)
  /-- COMMIT_SWITCH, R223: At tick T the pennant's versions become trunk and its log is applied. -/
  | commitSwitch (ctx : Nat)
  /-- PUSH_APPEND, R227: A committed pennant's buffered launch records enter the store as entries free. -/
  | pushAppend (ctx pennant : Nat)
  /-- MIGRATE_ARRIVAL, R46: A migrating team arrives at its target core and resumes. -/
  | migrateArrival (core slot : Nat)
  /-- ICFLUSH_COMPLETE, R96: All cores in the flush scope have discarded the range. -/
  | icflushComplete (core slot : Nat)
  /-- ENGINE_COMMAND_COMPLETE, R156: An engine command's writes are performed and it counts complete in its batch. -/
  | engineCommandComplete (core slot : Nat) (copyQueue : Bool)
  /-- CUBE_OP_START, R147: The array picks the next op from the slots' tile queues round-robin and starts it. -/
  | cubeOpStart (core : Nat)
  /-- CUBE_OP_END, R147: A started op finishes its passes and writes its tile. -/
  | cubeOpEnd (core : Nat)
  /-- SPLIT_RENDEZVOUS, R157: All cluster participants are ready for a split op, which then starts everywhere. -/
  | splitRendezvous (core slot : Nat)
  /-- PANEL_MULTICAST_SEND, R160: The origin sends a panel once every addressee has a free receive slot. -/
  | panelMulticastSend (core slot : Nat)
  /-- TILE_COPY_CHUNK, R178: The copy engine performs one 4 KB chunk of a tile copy. -/
  | tileCopyChunk (core slot : Nat)
  /-- WC_BUFFER_DRAIN, R170: A write-combining line drains to the L1. -/
  | wcBufferDrain (core idx : Nat)
  /-- WC_BUFFER_TIMEOUT, R170: Expiry of 256 clocks forces a buffered line to drain. -/
  | wcBufferTimeout (core idx : Nat)
  /-- QUANTUM_TIMEOUT, R202: Expiry of 64 ticks after issue performs a pending quantum at device scope. -/
  | quantumTimeout (core idx : Nat)
  /-- SAMPLER_LINE_FILL, R418: A sampler cache line is filled by one coherent read of the whole line. -/
  | samplerLineFill (core ctx pennant line : Nat)
  /-- PERSISTENT_REQUEST, R205: After 4 attempts or 512 mesh clocks a token request becomes persistent at the home slice. -/
  | persistentRequest (holder block : Nat) (write : Bool)
  /-- PERSISTENT_ACTIVATION, R205: The home activates the next persistent request and holders send it their tokens. -/
  | persistentActivation (block : Nat)
  /-- LONG_LATENCY_COMPLETE, R83: A long-latency instruction writes its result, freeing its lookahead window. -/
  | longLatencyComplete (core slot path : Nat)
  /-- FAULT_RECORD_WRITE, R295: A fault record is written to the fault ring once its slot is free, raising the fault interrupt. -/
  | faultRecordWrite (ctx : Nat)
  /-- TRACE_SAMPLE, R307: Expiry of the sample period writes a kind-1 record for each slot with a Running team. -/
  | traceSample (ctx : Nat)
  /-- OS_TIME_LIMIT, R277: Expiry of the ordered-section limit force-releases the order token. -/
  | osTimeLimit (core slot lane : Nat)
  /-- PAYLOAD_PUT_COPY, R267: A waiting EMIT.PUT finds a free ring slot and copies its payload. -/
  | payloadPutCopy (core slot path : Nat)
  /-- RASTERISE_BINS, R271: Binned triangles are rasterised in bin order at a draw's end mark or when the buffer fills. -/
  | rasteriseBins (core slot : Nat)
  /-- UNCORRECTABLE_ERROR, R312: Detection of uncorrectable data drops it, logs it and sets STICKY and ERR. -/
  | uncorrectableError (what : ErrWhere)
  /-- CORRECTABLE_ERROR, R312: A soft error is corrected and counted in ECORR. -/
  | correctableError (ctx : Nat)
  /-- CONTROL_STATE_ERROR, R313: An uncorrectable error in a team's control state cuts the team. -/
  | controlStateError (core slot : Nat)
  /-- SPARE_BRING_IN, R314: Firmware brings in a spare unit or finds none, setting SPARE. -/
  | spareBringIn (kind : Nat) (found : Bool)
  /-- PEER_LINK_REQUEST, R210: A write or read from the peer Balkai's copy engine arrives over the Kwenen link and is performed at this part's device scope. -/
  | peerLinkRequest (addr : Nat) (wr : Option (List Byte)) (len : Nat)
  /-- PEER_WRITE_ACKNOWLEDGE, R210: The peer acknowledges earlier link writes, letting a release or fence at .PEER scope that waits for it complete. -/
  | peerWriteAcknowledge (core slot : Nat)
  /-- COHERENCE_AGENT_REQUEST, R207: An application-core access reaches the coherence agent, which collects or surrenders tokens for it like any core's access. -/
  | coherenceAgentRequest (addr : Nat) (wr : Option (List Byte)) (len : Nat)
  /-- PCIE_ENDPOINT_DMA, R320: A PCIe endpoint makes a DMA access to GDDR-7, which is performed coherently at system scope. -/
  | pcieEndpointDma (addr : Nat) (wr : Option (List Byte)) (len : Nat)
  /-- OPERATING_POINT_REACHED, R256: A requested change of operating point completes, releasing HOLD launches whose class it reaches. -/
  | operatingPointReached (point : Nat)
  -- the rows without operands: of scalar words, of lane words whose every field but OPCODE is zero, of units and the outside
  /-- NOP, R380: Scalar no-operation. -/
  | nop
  /-- HALT, R365: Ends the scalar stream; the team becomes Retiring. -/
  | halt
  /-- LSYNC, R55: Stalls until every started lane block has ended, then acts as a team-scope acquire. -/
  | lsync
  /-- TRAP, R403: Scalar trap of cause 0x03, or a debug stop when BPSTOP is set. -/
  | trap
  /-- ERET, R297: Clears INH and resumes after the trap. -/
  | eret
  /-- RET, R384: Lane return, or end of the block for the path's lanes on an empty stack. -/
  | ret
  /-- JOIN, R370: Lane merge of arms at the rejoin point with team-scope ordering. -/
  | join
  /-- YIELD, R408: Sets the path's priority to 0 and skips its next issue slot. -/
  | yield
  /-- NOP_LANE, R380: Lane no-operation. -/
  | nopLane
  /-- TRAP_LANE, R403: Lane trap of cause 0x03 for the path. -/
  | trapLane
  /-- QUEUE_POLL, R251: Expiry of the 4,096-mesh-clock poll of every enabled queue. -/
  | queuePoll
  /-- COMMAND_CORE_STEP, R255: One lock-step step running the highest-ranked head packets or store records. -/
  | commandCoreStep
  /-- COMMAND_CORE_WATCHDOG, R253: Watchdog restart of the command core, revalidating every enabled queue's control blocks. -/
  | commandCoreWatchdog
  /-- INVALIDATION_COMPLETE, R289: Walks and accesses using removed translations are done, and BUSY returns to 0. -/
  | invalidationComplete
  /-- GOVERNOR_TICK, R250: Every 100 us the governor lowers GCAP or the operating point, or raises them when recovering. -/
  | governorTick
  /-- GOVERNOR_RECOVERY_TIMER, R250: Expiry of 1 ms with the limit met, starting recovery of operating point and GCAP. -/
  | governorRecoveryTimer
  /-- IDLE_EXIT, R316: A doorbell, LOAD, PREEMPT write or PCIe interrupt starts the exit from an idle state. -/
  | idleExit
  /-- CORE_MAPPING_CHANGE, R16: Firmware remaps logical cores to physical sites with no context resident on the partition. -/
  | coreMappingChange
  /-- DEVICE_RESET, R16: Device reset, after which fields take their reset values. -/
  | deviceReset
  /-- KWENEN_LINK_DOWN, R320: While the peer link is down, peer copy writes are dropped and reads return zero. -/
  | kwenenLinkDown
  /-- KWENEN_LINK_UP, R320: The Kwenen peer link comes back up, so copies to and from the peer are carried again rather than dropped or read as zero. -/
  | kwenenLinkUp
  deriving DecidableEq, Repr

end Sys2Proof
end

