-- ==== Sys2Proof/Machine/State.lean ====
section
/-! DEFINITION. The machine's state as plain data: every piece of state the spec gives the part, and the model's own
bookkeeping (`agenda`, `turn`, `free`). After a field: its width, the rule that gives it, its reset value. -/

namespace Sys2Proof.Machine

/-- A sparse map from numbers: strictly rising keys, no value equal to what an absent key reads as (see `SMap.get`). -/
abbrev SMap (α : Type) := List (Nat × α)

/-- Physical memory: one byte an address, an unlisted address reads 0 (assumption log 7). -/
abbrev Mem := List Host.Cell

/-! ## Teams -/

/-- Team states of Table 2.5; Held is a state of the launch (`Held`). -/
inductive Life where
  | running
  | stopped
  | retiring
  | retired
  deriving DecidableEq, Repr

/-- Why a team is Stopped (Table 2.5), which decides how it goes on. -/
inductive StopWhy where
  | none
  /-- Saved to a shadow slot or save area (R300). -/
  | saved
  /-- In transit between cores (R48). -/
  | transit
  /-- Halted by a stopping fault under record ID `id` (R290). -/
  | fault (id : Nat)
  deriving DecidableEq, Repr

/-- The binding of a guard slot to a lane block's predicate (R57). -/
structure GBind where
  block : Nat
  pred : BitVec 4
  all : Bool
  deriving DecidableEq, Repr

/-- The state of a guard slot (Table 3.1, R57). -/
inductive Guard where
  | resolved (v : Bool)
  | pending (bind : Option GBind)
  deriving DecidableEq, Repr

/-- A cube op queued with its descriptor copy (R132, R141). `rows` marks the rows to compute; `rowOff` is the lane form's. -/
structure CubeOp where
  kind : Nat                -- 0 MMA, 1 TRI, 2 TLUT
  aOff : Nat
  bOff : Nat
  descOff : Nat
  desc : List DWord
  rows : BitVec 128
  rowOff : Nat
  lane : Bool
  deriving DecidableEq, Repr

/-- Why a path holds its issue at an instruction it has begun. -/
inductive PathHold where
  | none
  /-- Arrived at barrier `b` and waiting (R332, R334); `e`: the .E form. -/
  | barrier (b : Nat) (e : Bool)
  /-- EMIT.PUT waiting for a ring slot (R267). -/
  | put (off count : Nat)
  /-- EMIT.PRIM waiting for room in the attribute store (R269): its block as read at issue, and the threshold then in force (R270). -/
  | prim (data : List Byte) (thr : Word)
  /-- A lane-form cube instruction whose ops are not all queued yet, the tile queue being full (R139, R153). -/
  | cube (ops : List CubeOp)
  /-- A debug stop at this path's instruction (R309), until RESUME; `passed`: released, the access issues now. -/
  | debug (passed : Bool)
  deriving DecidableEq, Repr

/-- One entry of the path table (R61). -/
structure Path where
  idx : Nat
  pc : DWord
  mask : Mask
  split : Option Nat        -- the split this path is an arm of; its rejoin PC stands there
  prio : BitVec 3           -- sr.prio (Table 3.3)
  rstack : List DWord       -- return stack, at most 16
  hold : PathHold
  yielded : Bool            -- YIELD: not eligible in the next issue slot (R65)
  last : Nat                -- the team's issue count when this path last issued (R64)
  windows : List (Nat × Nat) -- for each long-latency instruction with lanes under way, its issue number and the instructions that may still issue (R83, R292)
  joined : Bool             -- it stands merged at the rejoin point of a split, where JOIN issues once (R63)
  deriving DecidableEq, Repr

/-- A split in progress (R60, R63, R340): its parent's entry, what the parent takes back, and its arms. -/
structure Split where
  id : Nat
  parent : Nat
  outer : Option Nat
  prio : BitVec 3
  rejoin : DWord
  arms : List Nat
  arm : Nat                 -- the issuing arm it was made on
  conc : Bool               -- a split of the team's only path: its arms are concurrent (R62)
  deriving DecidableEq, Repr

/-- An issuing arm: its running path, its stack (top first) and its paths held at a barrier (last arrived first; R62, R68). -/
structure Arm where
  run : Option Nat
  stack : List Nat
  held : List Nat
  deriving DecidableEq, Repr

/-- A started lane block: its number among the team's LRUNs, its entry, its x snapshot (R52, R53). -/
structure Block where
  no : Nat
  entry : DWord
  snap : SMap DWord
  deriving DecidableEq, Repr

/-- One lane of an operand-log entry: its address and data operands as read at issue (R293). -/
structure LogLane where
  lane : Nat
  addr : DWord
  data : Nat
  deriving DecidableEq, Repr

/-- An operand-log entry (R293): one parked instruction for one group, or a parked access of the scalar stream, of an engine
command or of a fetch. -/
structure OpEntry where
  id : Nat
  record : Bool             -- it wrote a record and needs a reply; false: parked behind another entry (R292)
  instr : Option Instr      -- none: an instruction fetch (R99)
  tag : Nat                 -- the issue number of a lane instruction (R83); else 0
  access : Nat              -- its ACCESS code (Table 14.4)
  scalar : Bool
  pc : DWord
  path : Nat
  group : Nat
  lanes : List LogLane
  va : DWord                -- the virtual address its last fault met (R296)
  deriving DecidableEq, Repr

/-- What an entry of an engine queue does. -/
inductive EngBody where
  | cube (op : CubeOp)
  | tld (off : Nat) (region : DWord) (stride : Nat)
  | tst (off : Nat) (region : DWord) (stride : Nat)
  | copy (dst src shape : DWord)
  /-- A pass of a per-lane CPY (R179): its word, path and group, each lane's memory address and claim offset. -/
  | laneCopy (w : LWord) (path group : Nat) (lanes : List LogLane)
  /-- The joint entry of a QFENCE, in each queue its mask selects (R181). -/
  | join (id : Nat) (mask : Nat)
  /-- The entry of a RANK in the tile queue, or of a WARP in the copy queue: the scalar stream's instruction under way is what it runs (R229, R231). -/
  | stall
  deriving DecidableEq, Repr

/-- How far an engine command has come. -/
inductive EngStage where
  | queued
  /-- Ready at a split op's rendezvous (R157). -/
  | ready
  | started
  /-- Its writes are performed; it counts complete once ENGINE_COMMAND_COMPLETE runs. -/
  | done
  /-- A chunk of it parked on a fault under this ID (R177), its ACCESS code and address. -/
  | parked (id access : Nat) (va : DWord)
  deriving DecidableEq, Repr

/-- An entry of a team's tile or copy queue. -/
structure EngCmd where
  body : EngBody
  batch : Option Nat        -- none: lane form, in no batch (R154)
  guard : Option Nat        -- the pending guard it is held under (R56, R58)
  stage : EngStage
  progress : Nat            -- 4 KB chunks done (R178); panels received (R160)
  panels : List (List Nat)  -- panels received from the origin and not yet passed over: element codes of B, then of C (R160)
  order : Nat               -- place of a split op among those past their rendezvous (R157, R160); 0: none
  undo : List (Nat × Byte × Bool) -- R178 bytes a copy has overwritten, where its source may hold them: place, old byte, whether known to overlap
  pc : DWord
  tag : Nat                 -- the issue number of a per-lane copy (R83); else 0
  deriving DecidableEq, Repr

/-- A pixel item (R270, R272, R273): an item of a pixel, or a draw's end mark. -/
structure PixItem where
  ctx : Nat
  pennant : Nat
  endMark : Bool
  x : Nat
  y : Nat
  seq : Word
  prim : Nat                -- attribute-store block
  tri : Nat                 -- triangle of that block
  draw : Nat × Nat × Nat    -- R271 the team whose draw it is of: launch, cluster origin, index in the cluster
  deriving DecidableEq, Repr

/-- A lane's pixel binding (R273), its order token and whether that was force-released (R275, R276). -/
structure Binding where
  lane : Nat
  item : PixItem
  token : Bool
  lost : Bool
  since : Nat               -- resident ticks since the grant (R277)
  deriving DecidableEq, Repr

/-- The fields of a warp block (R231). -/
structure WarpBlock where
  src : DWord
  dst : DWord
  w : Nat
  h : Nat
  sp : Nat
  dp : Nat
  fx : Word
  fy : Word
  cx : Word
  cy : Word
  q : Nat
  deriving DecidableEq, Repr

/-- A WARP under way (R231, R300): its block, its matrix, the next pixel to write, whether its queue entry has begun, and, where its surfaces
overlap, the source rows as they were then. -/
structure WarpRun where
  blk : WarpBlock
  mat : List Word
  pos : Nat
  begun : Bool
  snap : List (List Byte)
  deriving DecidableEq, Repr

/-- A scalar instruction that has begun and has not completed. The last five go on, from where they stand, with the instruction `i`, once an
access they are parked on is replayed. -/
inductive ScalarWait where
  | none
  | commit (d : BitVec 5) (pennant : Nat)
  | squash (d : BitVec 5) (pennant : Nat)
  | icflush (scope : Nat) (lo len : DWord)
  | migrate (d : BitVec 5) (target : Nat)
  /-- COMMIT that waits at the pennant table behind the one under way (R224). -/
  | behind (d : BitVec 5) (pennant : Nat)
  /-- FORK past its checks (R221). -/
  | fork (i : Instr)
  /-- FORK whose steps 1 to 4 are issued (R221). -/
  | forked (i : Instr)
  /-- RANK or WARP whose queue entry stands in its queue; RANK has not begun, WARP has not read its block (R229, R231). -/
  | queued (i : Instr)
  /-- RANK begun: the tolerance and the Live pennants it takes (R229). -/
  | rank (i : Instr) (tol : Word) (live : List Nat)
  /-- WARP that has read its block, and waits to read the actual record (R231). -/
  | warpBlock (i : Instr) (bytes : List Byte)
  | warp (i : Instr) (run : WarpRun)
  deriving DecidableEq, Repr

/-- The instruction that goes on, of one that has begun. -/
def ScalarWait.again : ScalarWait → Option Instr
  | .fork i => some i
  | .forked i => some i
  | .queued i => some i
  | .rank i _ _ => some i
  | .warpBlock i _ => some i
  | .warp i _ => some i
  | _ => .none

/-- A last-page register (R287): one 4 KB granule's physical page, its rights and its D bit. -/
structure LastPage where
  vpn : Nat
  ppn : Nat
  bits : DWord              -- the leaf entry's low bits (rights, D, MT)
  deriving DecidableEq, Repr

/-- A team's architectural state (R40, R85). -/
structure Team where
  life : Life               -- R41 Table 2.5; reset retired (no team)
  before : Life             -- R41: the state a Stopped team goes back to; reset retired
  why : StopWhy             -- R41; reset none
  ctx : Nat                 -- R25 CTX, 4 bits; reset 0
  core : Nat                -- R25 CORE, 8 bits; reset 0
  slot : Nat                -- R25 SLOT, 2 bits; reset 0
  clorg : Nat               -- R25 CLORG, 8 bits; reset 0
  clrows : Nat              -- R25 CLROWS, 3 bits; reset 0
  clcols : Nat              -- R25 CLCOLS, 3 bits; reset 0
  clidx : Nat               -- R25 CLIDX, 4 bits; reset 0
  gmax : BitVec 5           -- R25 GMAX = G - 1; reset 0
  win : Nat                 -- R25 WIN, R174, 10 bits; reset 0
  launch : Nat              -- R22: the launch (grid) it belongs to; reset 0
  pennant : Nat             -- R88 sr.pennant, 3 bits; reset 0
  nregs : Nat               -- R34 `.regs lane=` count; reset 0
  priv : Nat                -- R174 D, `.private words=`; reset 0
  claim : Nat               -- R33, R164 scratchpad claim in bytes; reset 0
  spc : DWord               -- R24 scalar PC; reset 0 (DESIGN CHOICE, log 8; R40 sets it at placement)
  x : SMap DWord            -- R85 x1-x31, 64 bits each; zero at placement (R40); reset 0 (log 8)
  v : SMap Word             -- R85 v0-v127 of each lane, key 128·lane + register; unwritten reads 0 (R35)
  file : SMap Nat           -- R34-R36 group-registers in the physical lane file, key 128·group + register: the stamp of the last use; empty
  spilled : List Nat        -- R36 group-registers that stand in the spill area; empty
  p : SMap Mask             -- R85 p1-p15, one bit a lane; false at placement (R40); reset 0 (log 8)
  bunting : Mask            -- R27 lanes that have not executed EXIT; reset 0
  bsum : Word               -- R31 sr.bsum, the value when the sequencer was last idle; reset 0
  guards : SMap Guard       -- R57 g0-g15; resolved true at placement (R40); reset resolved true (log 8)
  paths : List Path         -- R61 path table, 64 entries; empty at placement
  splits : List Split       -- R60-R63 splits in progress; empty at placement
  nextSplit : Nat           -- the model's own number for the next split; reset 0
  arms : List Arm           -- R62 at most two issuing arms; empty at placement
  curPath : Nat             -- the path that issues now (the model's focus); reset 0
  issues : Nat              -- R64 lane issues of the team so far; reset 0
  running : Option Block    -- R52 the running block; reset none
  waiting : List Block      -- R52 up to three started blocks behind it; reset empty
  blockNo : Nat             -- R57 LRUNs since placement; reset 0
  barriers : SMap Mask      -- R326 arrived flags of barriers 0-31; clear at placement
  cover : DWord             -- R236 sr.cover; reset 0
  fCause : BitVec 7         -- R297 sr.fault CAUSE; reset 0
  fEpc : DWord              -- R297 sr.fault EPC; reset 0
  inh : Bool                -- R297 sr.fault INH; reset 0
  fLane : Bool              -- R297 sr.fault LANE; reset 0
  resume : DWord            -- R297 where the scalar stream stood when a lane trap took it; reset 0 (log 8)
  trapPath : Nat            -- R297 the path of the last lane trap; reset 0 (log 8)
  errPend : Bool            -- R89, R312 an error trap to take at the next instruction boundary; reset false
  sticky : Bool             -- R89 sr.errtrap STICKY; reset 0
  trapEn : Bool             -- R89 sr.errtrap TRAP; reset 0
  paused : Bool             -- R297 the lane block is paused by a trap until ERET; reset false
  wait : ScalarWait         -- R222, R225, R367, R48 a scalar instruction under way; reset none
  batch : BitVec 32         -- R155 number of the open batch; 1 at placement; reset 1 (log 8)
  tileQ : List EngCmd       -- R153 tile queue, 32 entries; empty
  copyQ : List EngCmd       -- R180 copy queue, 64 entries; empty
  nextJoin : Nat            -- the model's own number for the next QFENCE; reset 0
  shapes : SMap (Nat × Nat) -- R149, R150 acc0-acc3 as (rows, columns); absent at placement
  acc : SMap Word           -- R149 tile elements, key (tile·512 + row)·512 + column; +0
  spad : SMap Byte          -- R164 the claim's bytes as the engine path sees them; zero at placement
  port : List (Nat × Byte)  -- R166 the scratchpad write port: lane .SPAD stores not yet shown to the engine path, newest first
  oplog : List OpEntry      -- R293 the core's operand-log entries of this team; empty
  sPark : Option (Nat × Nat × BitVec 5) -- R292 the scalar access parked: entry ID, instructions it may still issue, its xt
  sFetch : Option Nat       -- R99, R292 the scalar fetch parked: its entry ID; reset none
  lastPages : SMap LastPage -- R287 last-page register of each lane; reset empty
  bindings : List Binding   -- R273, R275 pixel bindings and tokens of the lanes
  linkOut : Nat             -- R210 link writes of the team not yet acknowledged by the peer; reset 0
  cell : Option Nat         -- R240 the coverage cell the team holds; reset none
  debug : Bool              -- R309 parked by a debug stop; reset false
  deriving DecidableEq, Repr

/-- No team: what an empty slot holds. -/
def Team.none : Team :=
  { life := .retired, before := .retired, why := .none, ctx := 0, core := 0, slot := 0, clorg := 0, clrows := 0, clcols := 0,
    clidx := 0, gmax := 0, win := 0, launch := 0, pennant := 0, nregs := 0, priv := 0, claim := 0, spc := 0, x := [], v := [],
    file := [], spilled := [], p := [], bunting := 0, bsum := 0, guards := [], paths := [], splits := [], nextSplit := 0, arms := [], curPath := 0,
    issues := 0, running := .none, waiting := [], blockNo := 0, barriers := [], cover := 0, fCause := 0, fEpc := 0,
    inh := false, fLane := false, resume := 0, trapPath := 0, errPend := false, sticky := false, trapEn := false, paused := false, wait := .none, batch := 1, tileQ := [],
    copyQ := [], nextJoin := 0, shapes := [], acc := [], spad := [], port := [], oplog := [], sPark := .none, sFetch := .none, lastPages := [],
    bindings := [], linkOut := 0, cell := .none, debug := false }

/-! ## Contexts, pennants and launches -/

/-- States of a pennant (Table 10.2). -/
inductive PState where
  | free
  | live
  | committing
  | dropping
  deriving DecidableEq, Repr

/-- A flip: head, surface and the context that queued it (R228, R319). -/
structure Flip where
  head : Nat
  surface : DWord
  ctx : Nat
  deriving DecidableEq, Repr

/-- One of pennants 1-7 of a context. -/
structure Pennant where
  st : PState               -- R213 Table 10.2; reset Free (log 8)
  pred : List Word          -- R221 the prediction record taken at FORK, 16 words; reset empty
  score : Option Word       -- R229, R232 its score at the last RANK since FORK; reset none
  exceeds : Bool            -- R229 whether that score exceeded TOL; reset false
  pushes : List Packet      -- R227 push buffer, 16 records; empty
  appending : List Packet   -- R227 committed pushes still waiting for room in the store; empty
  flips : List Flip         -- R228 flip buffer, 4 entries; empty
  auto : Bool               -- R232 its drop is an automatic squash not yet counted in the PCB; reset false
  freed : Bool              -- R213, R424 its Free byte is on its way to the PCB; reset false
  unsaid : Bool             -- R212, R232 its drop is an automatic squash its state byte does not say yet; reset false
  deriving DecidableEq, Repr

/-- A COMMIT under way (R222): its pennant, the queue whose packet it is (none: an instruction, whose team waits), the packet's
physical and status addresses, and whether the switch has been made. -/
structure CommitRun where
  pennant : Nat
  queue : Option Nat
  pc : DWord
  stat : DWord
  switched : Bool
  deriving DecidableEq, Repr

/-- A range entry of the context record (Table 14.2, R288). -/
structure RangeEnt where
  vbase : DWord
  vlim : DWord
  pbase : DWord
  perm : DWord
  deriving DecidableEq, Repr

/-- A watchpoint (R309). -/
structure Watch where
  addr : DWord
  ctl : DWord
  deriving DecidableEq, Repr

/-- What a fault record says (Table 14.4). -/
structure FaultRec where
  time : Nat
  addr : DWord
  pc : DWord
  info : DWord
  lanes : Word
  id : Nat
  deriving DecidableEq, Repr

/-- A context's resident state: its record (Table 14.2), its registers and its pennant table. -/
structure Ctx where
  ctxrec : DWord            -- R286 CTXREC; reset 0 (log 8)
  loading : Bool            -- R421 a LOAD is under way; reset false
  loaded : Bool             -- R286 CTXCTL LOADED; reset 0
  root : DWord              -- R286 ROOT; reset 0 (log 8)
  hwm : Nat                 -- R173 sr.privhw HWM, 16 bits; reset 0
  pbase : Nat               -- R173 sr.privhw PBASE, bits [47:12] of the base; reset 0
  wstride : Nat             -- R173 sr.privhw WSTRIDE, 9 bits; reset 0
  tvec : DWord              -- R286 TVEC; reset 0: none (log 8)
  frbase : DWord            -- R286 FRBASE; reset 0 (log 8)
  frlog2 : Nat              -- R286 FRLOG2; reset 0 (log 8)
  oslimit : Word            -- R277 sr.ostimeout LIMIT; reset 0x0000_0c35
  quota : Nat               -- R263 QUOTA; reset 0 (log 8)
  ovk : Nat                 -- R263 k of the overflow list; reset 0 (log 8)
  ovbase : DWord            -- R263 overflow list base; reset 0: none (log 8)
  ovHead : Nat              -- R263 records taken from the overflow list; reset 0
  ovTail : Nat              -- R263 records appended to the overflow list; reset 0
  ovOwed : Nat              -- R263 the model's own: places a drop freed in the store that the overflow list has not filled yet; reset 0
  binbase : DWord           -- R271, R286 binned-geometry buffer base; reset 0 (log 8)
  binsize : Nat             -- R271, R286 its size; reset 0 (log 8)
  hotctl : Word             -- R298 HOTCTL; reset 0 (log 8)
  hotbase : DWord           -- R298 HOTBASE; reset 0 (log 8)
  hotN : Nat                -- R298 records written; reset 0
  hotCount : SMap Nat       -- R298 selected accesses counted, by core; reset 0
  ranges : List RangeEnt    -- R286, R288 range entries 0-3; reset V = 0
  warptol : Word            -- R230 sr.warptol TOL; reset 0x7f80_0000
  warpBy : Option (Nat × Nat × Nat) -- R86 time, core and slot of the last write of sr.warptol; reset none
  rastthr : Word            -- R270 sr.rastthr THR; reset 0x0000_0400
  rastBy : Option (Nat × Nat × Nat) -- R86 time, core and slot of the last write of sr.rastthr; reset none
  faultN : Nat              -- R295 records of the context; reset 0
  nextId : Nat              -- R295 next record ID; reset 1 (log 8)
  faultQ : List FaultRec    -- R295 records waiting for their slot; empty
  lastIrq : Nat             -- R295 time of the last fault interrupt; reset 0
  pens : List Pennant       -- R211, R213 pennants 1-7 (index p - 1); reset Free
  pcb : Option DWord        -- R221 the PCB's address; reset none
  tableAt : Option (Nat × Nat) -- R213 the last change of the pennant table by a team, or arrival at it: mesh clock and logical core; reset none
  forks : List (Nat × Nat × Nat) -- R221 the teams whose FORK has reached the pennant table and is not complete, in order: launch, cluster origin, index; empty
  forkMask : Nat            -- R221, R406 pennants the last FORK named; reset 0
  committed : Nat           -- R222 pennant committed since the last FORK; reset 0
  ranked : Bool             -- R232 a RANK has run since the last FORK; reset false
  commit : Option CommitRun -- R222 a COMMIT under way; reset none
  commitQ : List (Nat × DWord × Packet) -- R255 COMMIT packets handed off behind the COMMIT under way: queue, physical address, packet; empty
  late : List Nat           -- R222 IDs replayed by the driver whose accesses wait for the COMMIT under way; empty
  held : List Flip          -- R228 warp-held flips of the frame; empty
  counters : List DWord     -- R310 16 counters of 64 bits; reset 0 (log 8)
  capOn : Bool              -- R311 a capture is open; reset false
  capT0 : Nat               -- R310 time of the last CAPSTART; reset 0
  trctl : Word              -- R306 TRCTL; reset 0
  trbase : DWord            -- R306 TRBASE; reset 0 (log 8)
  trN : Nat                 -- R306 trace records written or dropped; reset 0
  watch : List Watch        -- R309 four watchpoints; reset 0: disabled (log 8)
  deriving DecidableEq, Repr

/-- The coverage fields a launch takes from its block (Table 11.1). -/
structure CovBlock where
  base : DWord
  pitch : Nat
  w : Nat
  h : Nat
  elem : Nat
  kern : Nat
  aud : Bool
  tgt : Word
  kp : Word
  ki : Word
  fmin : Word
  fmax : Word
  ecap : Word
  map : DWord
  deriving DecidableEq, Repr

/-- Where a launch stands (Table 2.5 Held; R259, R260). -/
inductive LaunchSt where
  | held
  | running
  deriving DecidableEq, Repr

/-- An accepted launch: its packet's and descriptor's fields and its dispenser and controller state. -/
structure Launch where
  id : Nat                  -- the model's own number, in order of acceptance
  ctx : Nat
  queue : Option Nat        -- the queue it came from; none: the pending-launch store (R260)
  st : LaunchSt             -- R41, R259
  since : Nat               -- R260 the time it was accepted
  mclk0 : Nat               -- R260 State.mclk at that time
  aged : Bool               -- R260
  holdClass : Option Nat    -- R256 HOLD: the class it waits for
  fclass : Nat              -- R256
  pennant : Nat             -- R257
  entry : DWord             -- R258 scalar entry
  gmax : BitVec 5           -- R258 G - 1
  nregs : Nat               -- R258
  priv : Nat                -- R258
  claim : Nat               -- R258
  args : DWord              -- R257
  origin : Nat              -- R257
  clrows : Nat
  clcols : Nat
  gr : Nat
  gc : Nat
  ext : Nat × Nat × Nat     -- R257 EXT
  stat : DWord              -- R257 STAT
  pattern : Nat             -- R233
  cover0 : Nat              -- R233 COVER of the packet
  phase : Nat               -- R233 PHASE h
  cblk : DWord              -- R257 CBLK
  cov : Option CovBlock     -- R234 read at placement
  mapBytes : List Byte      -- R247 the region map in force; empty: none
  latched : List (Nat × Nat × List Byte) -- R248 latched maps waiting for a wave start: mesh clock, logical core, map; at most two
  facc : Word               -- R246 FACC
  eprev : Word              -- R246 EPREV
  errS : Word               -- R244 S
  errN : BitVec 32          -- R244 N
  updates : BitVec 32       -- R246
  unrec : BitVec 32         -- R242
  next : Nat                -- R261 next index
  covers : SMap (Nat × Nat) -- R238 (c, A) of each cell handed out
  finished : List Nat       -- R240 finished cells
  done : List Nat           -- R241 cells Fondant has reconstructed
  status : Nat              -- R259 0, or 8 or 9 once a team was cut or a Fondant access dropped
  cut : Bool                -- R226 a team of it was cut: Fondant reconstructs nothing
  pc : DWord                -- R424 physical address of its packet; 0 from the store
  stuck : SMap (Nat × Nat)  -- R424 the point whose parked access holds a cell, by cell
  lost : List (Nat × Nat)   -- R424 points whose Fondant access the driver refused
  deriving DecidableEq, Repr

/-- A record in the pending-launch store (R263). -/
structure StoreRec where
  ctx : Nat
  pkt : Packet
  deriving DecidableEq, Repr

/-- The work of a fixed unit that a parked or dropped access belongs to (R424). -/
inductive FixedWork where
  /-- The event runs again from its access. -/
  | again (i : Instr)
  /-- Writes still to be performed in order, each of these bytes at this address; a dropped one is lost. `queue`: the queue whose packet has
  completed with the last of them (R415). -/
  | writes (pc : DWord) (queue : Option Nat) (ws : List (DWord × List Byte))
  deriving DecidableEq, Repr

/-- A fixed unit's parked access (R424). -/
structure FixedPark where
  ctx : Nat
  id : Nat
  pennant : Nat
  addr : DWord              -- the virtual address of the access
  work : FixedWork
  deriving DecidableEq, Repr

/-! ## The command core and the register window -/

/-- A command queue (R251-R254, R415). -/
structure Queue where
  qhdr : DWord              -- R251 QHDR; reset 0 (log 8)
  errcnt : BitVec 8         -- R251 QCTL ERRCNT; reset 0
  ctx : Nat                 -- R251 QCTL CTX; reset 0
  cause : Nat               -- R251 QCTL CAUSE; reset 0
  state : Nat               -- R251 QCTL STATE: 0 Disabled, 1 Active, 2 Error; reset 0
  en : Bool                 -- R251 QCTL EN; reset 0
  ring : DWord              -- R252 RINGBASE read at enable; reset 0
  log2 : Nat                -- R252 LOG2SIZE read at enable; reset 0
  head : Nat                -- R252 HEAD of the current copy; reset 0
  tail : Nat                -- R254 TAIL last sampled; reset 0
  handed : BitVec 32        -- R252 packets handed off; reset 0
  fenceVal : DWord          -- R252 value of the last FENCE packet; reset 0
  seqA : BitVec 32          -- R253 SEQ of the current copy; reset 0
  curB : Bool               -- R253 the current copy is B; reset false
  outstanding : Nat         -- R415 packets handed off and not completed; reset 0
  deriving DecidableEq, Repr

/-- A display head (R319). -/
structure Head where
  hcfg : DWord              -- R319 HCFG; reset 0
  queue : List Flip         -- R319 flip queue, 16 entries; empty
  outside : List Flip       -- R228 flips waiting for room, in order; empty
  shown : Option Flip       -- R319 the flip presented last; reset none
  blankAt : Nat             -- R319 time of the next vertical blank; reset 0
  frame : List Byte         -- R319 the bytes scanned out last, row by row; empty
  deriving DecidableEq, Repr

/-- The registers of the window that no other structure holds, and what they command (R289, R299, R305, R314-R317). -/
structure Window where
  intstat : DWord           -- R305 INTSTAT; reset 0
  inten : DWord             -- R305 INTEN; reset 0
  messages : List Nat       -- R305 interrupt messages sent, newest first; empty
  invCtx : Option (Nat × Nat × Nat) -- R289 the invalidation in progress (BUSY): context, first page, pages; reset none
  psave : List DWord        -- R299 PSAVE 0-3; reset 0 (log 8)
  lattol : Word             -- R316 LATTOL; reset 0 (log 8)
  classtab : DWord          -- R315 CLASSTAB; reset maps class k to point k
  gfloor : Nat              -- R317 GFLOOR; reset 64
  tlimit : Nat              -- R317 TLIMIT; reset 95
  plimit : Nat              -- R317 PLIMIT; reset 380
  platMax : Nat             -- R317 the platform maximum firmware set, which caps PLIMIT until the next reset; reset 420 (log 8)
  platTop : Nat             -- R250 the highest operating point the platform allows, as firmware set it; reset 7 (log 8)
  errAddr : DWord           -- R312 ERRLOG address; reset 0 (log 8)
  errTime : DWord           -- R312 ERRLOG device time; reset 0 (log 8)
  errSrc : DWord            -- R312 ERRLOG source; reset 0 (log 8)
  spares : SMap Nat         -- R314 SPARESTAT counts by kind 0-4; reset 0
  sparesNext : SMap Nat     -- R314, R16 spares firmware has found that come in at the next device reset, by kind; empty
  memCode : BitVec 4        -- R87 sr.devid MEM; no reset given: 0 (log 8)
  peer : Bool               -- R87 sr.devid PEER; no reset given: false (log 8)
  deriving DecidableEq, Repr

/-- The governor and the operating point (R250, R256, R315-R318). -/
structure Gov where
  gcap : Nat                -- R250 GCAP; reset 256
  point : Nat               -- R315 operating point; reset 7 (log 8)
  cap : Nat                 -- R250, R256 the highest point the governor now lets a request reach; reset 7 (log 8)
  exceeded : Bool           -- R318 the limit is exceeded; reset false
  recovering : Bool         -- R250 the limit has been met for 1 ms; reset true
  thermal : Bool            -- R318 which limit; reset false
  power : Nat               -- R250, R318 board power in watts as the governor last read it; reset 0 (log 8)
  temp : Nat                -- R250, R318 highest junction temperature in °C as it last read it; reset 0 (log 8)
  metAt : Nat               -- R250 device time from which both limits have been met; reset 0 (log 8)
  idle : Nat                -- R316 0 awake or Light, 2 Deep, 3 Sleep; reset 0
  gated : List Nat          -- R316 cores whose clock is gated (Light); empty
  issuedAt : SMap Nat       -- R316 device time of each core's last issue; reset 0 (log 8)
  deriving DecidableEq, Repr

/-! ## Cores' stores -/

/-- A byte of a write-combining line (R170): its offset, its value and the slot and context of the team that stored it. -/
structure WcByte where
  off : Nat
  val : Byte
  slot : Nat
  ctx : Nat
  deriving DecidableEq, Repr

/-- A line of a core's write-combining buffer (R170), oldest first; `bytes` are the stored bytes, newest first. -/
structure WcLine where
  core : Nat
  ctx : Nat
  pennant : Nat
  line : Nat
  bytes : List WcByte
  prio : BitVec 3           -- retention priority of the last store (R168)
  since : Nat               -- the clock count at its allocation (R9, R170)
  deriving DecidableEq, Repr

/-- A share of a pending operand (R202): the slot and lane that issued the quantum, and its operand. -/
structure QShare where
  slot : Nat
  lane : Nat
  val : Nat
  deriving DecidableEq, Repr

/-- A pending operand of a core's combiner (R202), as the quanta merged into it, oldest first. -/
structure Quantum where
  core : Nat
  ctx : Nat
  fn : Nat                  -- operation, as ATOM's FN; 8 + FN for group B
  ty : BitVec 5
  pa : Nat
  size : Nat
  shares : List QShare
  prio : BitVec 3           -- R168 retention priority of the latest quantum
  since : Nat
  deriving DecidableEq, Repr

/-- A line of a core's sampler cache (R171): its tag and the bytes of its last fill. -/
structure SampLine where
  core : Nat
  ctx : Nat
  pennant : Nat
  line : Nat
  data : List Byte
  deriving DecidableEq, Repr

/-- A pennant's version of a line (R214). -/
structure Ver where
  ctx : Nat
  pennant : Nat
  line : Nat
  data : List Byte
  prio : BitVec 3           -- R168 retention priority
  deriving DecidableEq, Repr

/-- A trunk line of the version cache (R167, R168), most recently used first. Its bytes are memory's (R204). -/
structure HomeLine where
  line : Nat
  prio : BitVec 3
  deriving DecidableEq, Repr

/-- An entry of a pennant's atomic log (R203, R217), in log order. -/
structure SpecLog where
  ctx : Nat
  pennant : Nat
  pa : Nat
  size : Nat
  fn : Nat
  ty : BitVec 5
  val : Nat
  cmp : Nat
  deriving DecidableEq, Repr

/-- A page-TLB entry of a core (R288). `lvl` is the leaf's level, `entry` its bits. -/
structure TlbEnt where
  core : Nat
  ctx : Nat
  vpn : Nat
  lvl : Nat
  entry : DWord
  at_ : Nat                 -- physical address of the entry
  deriving DecidableEq, Repr

/-- A line of a core's L1 (R167, R168): most recently used first; `prio` is its retention priority. -/
structure L1Line where
  core : Nat
  ctx : Nat
  pennant : Nat
  line : Nat
  prio : BitVec 3
  dirty : Bool
  deriving DecidableEq, Repr

/-- An aligned 8-byte unit of code a core has fetched (R95): the copy a later fetch may use until an ICFLUSH discards it. -/
structure CodeUnit where
  core : Nat
  ctx : Nat
  pennant : Nat
  lane : Bool               -- it stands in the lane instruction cache, else in the scalar one (R18)
  va : Nat                  -- virtual address of the unit
  pa : Nat
  data : List Byte
  deriving DecidableEq, Repr

/-- The tokens one holder has of a block (R204): holder 0-143 a core, 144 the coherence agent. The home slice holds the rest. -/
structure Tokens where
  block : Nat
  holder : Nat
  count : Nat
  owner : Bool
  deriving DecidableEq, Repr

/-- A persistent request at a block's home slice (R205), in order of arrival. -/
structure Persist where
  block : Nat
  holder : Nat
  write : Bool
  active : Bool
  at_ : Nat                 -- device time of its arrival
  deriving DecidableEq, Repr

/-- The stores beside memory: buffers, caches, versions, logs, tokens. -/
structure Caches where
  wc : List WcLine          -- R170 write-combining buffers, 4 lines a core; empty
  quanta : List Quantum     -- R202 combiners; empty
  samp : List SampLine      -- R171 sampler caches, 256 lines a core; empty
  vers : List Ver           -- R214 versions; empty
  homes : List HomeLine     -- R167 trunk lines of the version cache; empty
  logs : List SpecLog       -- R217 atomic logs; empty
  tlb : List TlbEnt         -- R288 page TLBs, 2,048 entries a core; empty
  l1 : List L1Line          -- R167 L1 caches; empty
  icache : List CodeUnit    -- R18, R95 instruction caches: fetched code of each core, oldest first; empty
  lent : SMap Nat           -- R164, R169 4 KB scratchpad units of each core lent to its L1; reset 0
  tokens : List Tokens      -- R204 tokens held by caches; empty
  spoilt : List (Nat × Nat × Nat) -- R312 damaged 64-byte blocks that a team's next ATOM on them meets: block, core, slot; empty
  met : List (Nat × Nat × Nat) -- R312 those of them that a lane of the ATOM being performed has met; empty
  uses : Nat                -- R36 stamps given to uses of group-registers so far; reset 0
  persist : List Persist    -- R205 persistent requests; empty
  rdSig : SMap Bool         -- R206 read signatures, key 2048·core + bit; reset 0
  wrSig : SMap Bool         -- R206 write signatures; reset 0
  deriving DecidableEq, Repr

/-! ## Front end (chapter 13) -/

/-- A payload in a core's ring (R267), oldest first. -/
structure Payload where
  core : Nat
  ctx : Nat
  pennant : Nat
  data : List Byte
  deriving DecidableEq, Repr

/-- A primitive block in a core's attribute store (R269), with the threshold in force at its EMIT.PRIM (R270). -/
structure PrimBlock where
  id : Nat
  core : Nat
  launch : Nat
  clorg : Nat
  clidx : Nat
  ctx : Nat
  pennant : Nat
  data : List Byte
  thr : Word
  deriving DecidableEq, Repr

/-- A triangle of a draw not yet rasterised (R271), or the draw's end mark; `fixed`: it goes to the fixed rasteriser. The team it comes from
is named by its launch, cluster and index, which it keeps when it moves; `core` and `slot` are where it stood then. -/
structure BinTri where
  core : Nat
  slot : Nat
  launch : Nat
  clorg : Nat
  clidx : Nat
  ctx : Nat
  pennant : Nat
  prim : Nat
  tri : Nat
  seq : Word
  fixed : Bool
  flush : Nat               -- R271 which flush of the full buffer took its bin, in their order; 0: none
  endMark : Bool
  deriving DecidableEq, Repr

/-- The rendering front end's stores. -/
structure Front where
  ring : List Payload       -- R267 payload rings, 4 slots a core; empty
  prims : List PrimBlock    -- R269 attribute stores, 256 KB a core; empty
  nextPrim : Nat            -- the model's own number for the next block; reset 0
  bins : List BinTri        -- R271 triangles and end marks of the draws, in the order handed; empty
  raster : List (Nat × PixItem) -- R272 items made by the rasterisers that wait for room in a core's pixel queue; empty
  pixels : List (Nat × PixItem) -- R272 pixel queues, 1,024 items a core, oldest first; empty
  orders : List PixItem     -- R272, R275 order lists: the unfinished items; empty
  deriving DecidableEq, Repr

/-! ## Shadow slots (§14.6) -/

/-- A response owed to a saved team (R302): a FREPLY for an entry, or a memory response. -/
inductive Reply where
  | replay (ctx id : Nat)
  | fail (ctx id : Nat)
  | kill (ctx id : Nat)
  /-- The peer's acknowledgement of a saved team's link writes (R210, R360). -/
  | ack (core slot : Nat)
  deriving DecidableEq, Repr

/-- A partition's shadow slot or save area (R299-R303). -/
structure Shadow where
  pstat : Nat               -- R299 PSTAT: 0 empty, 1 busy, 2 saved, 3 evicted; reset 0
  pending : Nat             -- R299 operation under way: 0 none, 1 save, 2 restore, 3 evict; reset 0
  teams : List Team         -- R301 the saved teams; empty
  ring : List Payload       -- R268, R301 saved payload rings; empty
  prims : List PrimBlock    -- R301 saved attribute stores; empty
  bins : List BinTri        -- R301 saved draws; empty
  raster : List (Nat × PixItem) -- R301 saved items of the rasterisers; empty
  pixels : List (Nat × PixItem) -- R301 saved pixel queues; empty
  replies : List Reply      -- R302 reply log, oldest first; empty
  behind : List Nat         -- R260 the held launches that had aged when its restore was requested; empty
  area : Option (Nat × Nat) -- R299, R302 the save area it was evicted to: its address, and the MODEL's own number its bytes stand for; reset none
  deriving DecidableEq, Repr

/-! ## The machine -/

/-- Who issues in a step: a team's scalar stream, or a path of its lane stream. -/
inductive Agent where
  | scalar (core slot : Nat)
  | lane (core slot path : Nat)
  deriving DecidableEq, Repr

/-- The whole machine. -/
structure State where
  t : Team                  -- the issuing team; reset no team
  others : List Team        -- every other resident team; empty at reset
  turn : Option Agent       -- the MODEL's own: which agent the next step issues; none: a free choice; reset none
  agenda : List Instr       -- the MODEL's own: what units and the outside do next, in order; reset empty
  free : Nat                -- the MODEL's own counter the free values are applied to; reset 0 (log 1)
  time : Nat                -- R11 device time in ticks, read modulo 2^64; reset 0 (log 8)
  clk : Nat                 -- R9, R315 the sum over all ticks so far of (operating point + 1): 8 an arithmetic clock, 32/3 a mesh clock; reset 0 (log 8)
  mclk : Nat                -- R9, R315, R316 as clk with the mesh's own point, 1 in Deep and Sleep: 32/3 a mesh clock; reset 0 (log 8)
  mem : Mem                 -- R304 GDDR-7; nothing listed at reset, unlisted bytes read 0 (log 7)
  peerMem : Mem             -- R304, R209 the peer Balkai's GDDR-7 as this part's copies reach it; as mem (log 7)
  linkUp : Bool             -- R320 the Kwenen link is up; reset false (log 8)
  caches : Caches           -- see Caches
  front : Front             -- see Front
  ctxs : List Ctx           -- contexts 0-15
  queues : List Queue       -- command queues 0-31
  heads : List Head         -- heads 0-3
  shadows : List Shadow     -- partitions 0-3
  order : List (Nat × Nat)  -- R301 queued PREEMPT operations (partition, operation) in order of request; empty
  store : List StoreRec     -- R263 pending-launch store, 256 records; empty
  launches : List Launch    -- R260 held and running launches, in order of acceptance; empty
  nextLaunch : Nat          -- the model's own number for the next launch; reset 0
  reserved : List (Nat × Nat × Nat) -- R44, R260, R303 reserved slots: core, slot, claim (a migration's or a restore's); empty
  taken : List (Nat × Nat × Nat) -- R45 the last slot taken on each core: core, mesh clock, and the source core of the move, or 256 for a placement; empty
  fixed : List FixedPark    -- R424 parked accesses of fixed units; empty
  rr : SMap Nat             -- R147 the slot each core's array served last; reset 0 (log 8)
  win : Window              -- see Window
  gov : Gov                 -- see Gov
  deriving DecidableEq, Repr

/-- A faulting stop of the model: an access the part gives no storage for. Safe: the model stops where hardware may go on. -/
inductive Fault where
  /-- An access to a physical address Table 15.1 does not list (R304). Raised by memory accesses of teams and units. Safe. -/
  | physicalHole
  deriving DecidableEq, Repr

/-- A refusal of the model: the spec does not say what happens. Safe: no claim follows from it. -/
inductive Refusal where
  /-- An instruction without a meaning yet; no arm answers with it. Safe. -/
  | notModelled (mnemonic : String)
  /-- An access to the PCIe window by a team or unit: its answer comes from devices outside the part, which the spec does not describe
  (R304, R320). Safe. -/
  | deviceWindow
  deriving DecidableEq, Repr

/-! ## Reset -/

/-- A pennant that is Free. -/
def Pennant.reset : Pennant :=
  { st := .free, pred := [], score := none, exceeds := false, pushes := [], appending := [], flips := [], auto := false, freed := false, unsaid := false }

/-- A range entry with V = 0. -/
def RangeEnt.reset : RangeEnt := { vbase := 0, vlim := 0, pbase := 0, perm := 0 }

/-- A disabled watchpoint. -/
def Watch.reset : Watch := { addr := 0, ctl := 0 }

/-- A context no record of which has been loaded. -/
def Ctx.reset : Ctx :=
  { ctxrec := 0, loading := false, loaded := false, root := 0, hwm := 0, pbase := 0, wstride := 0, tvec := 0, frbase := 0,
    frlog2 := 0, oslimit := 0x00000c35, quota := 0, ovk := 0, ovbase := 0, ovHead := 0, ovTail := 0, ovOwed := 0, binbase := 0, binsize := 0,
    hotctl := 0, hotbase := 0, hotN := 0, hotCount := [], ranges := List.replicate 4 RangeEnt.reset, warptol := 0x7f800000, warpBy := none,
    rastthr := 0x00000400, rastBy := none, faultN := 0, nextId := 1, faultQ := [], lastIrq := 0, pens := List.replicate 7 Pennant.reset,
    pcb := none, tableAt := none, forks := [], forkMask := 0, committed := 0, ranked := false, commit := none, commitQ := [], late := [], held := [],
    counters := List.replicate 16 0, capOn := false, capT0 := 0, trctl := 0, trbase := 0, trN := 0,
    watch := List.replicate 4 Watch.reset }

/-- A disabled queue. -/
def Queue.reset : Queue :=
  { qhdr := 0, errcnt := 0, ctx := 0, cause := 0, state := 0, en := false, ring := 0, log2 := 0, head := 0, tail := 0,
    handed := 0, fenceVal := 0, seqA := 0, curB := false, outstanding := 0 }

/-- A head with scan-out off. -/
def Head.reset : Head := { hcfg := 0, queue := [], outside := [], shown := none, blankAt := 0, frame := [] }

/-- An empty shadow slot. -/
def Shadow.reset : Shadow :=
  { pstat := 0, pending := 0, teams := [], ring := [], prims := [], bins := [], raster := [], pixels := [], replies := [], behind := [], area := none }

/-- The window's registers after reset. -/
def Window.reset : Window :=
  { intstat := 0, inten := 0, messages := [], invCtx := none, psave := List.replicate 4 0, lattol := 0,
    classtab := 0x76543210, gfloor := 64, tlimit := 95, plimit := 380, platMax := 420, platTop := 7, errAddr := 0, errTime := 0, errSrc := 0, spares := [], sparesNext := [],
    memCode := 0, peer := false }

/-- The governor after reset. -/
def Gov.reset : Gov :=
  { gcap := 256, point := 7, cap := 7, exceeded := false, recovering := true, thermal := false, power := 0, temp := 0, metAt := 0, idle := 0, gated := [],
    issuedAt := [] }

/-- Empty caches. -/
def Caches.reset : Caches :=
  { wc := [], quanta := [], samp := [], vers := [], homes := [], logs := [], tlb := [], l1 := [], icache := [], lent := [], tokens := [], spoilt := [], met := [], uses := 0, persist := [],
    rdSig := [], wrSig := [] }

/-- An empty front end. -/
def Front.reset : Front :=
  { ring := [], prims := [], nextPrim := 0, bins := [], raster := [], pixels := [], orders := [] }

/-- The part right after reset: no team is resident, no context is loaded, no queue is enabled. -/
def State.reset : State :=
  { t := Team.none, others := [], turn := none, agenda := [], free := 0, time := 0, clk := 0, mclk := 0, mem := [], peerMem := [], linkUp := false,
    caches := Caches.reset, front := Front.reset, ctxs := List.replicate 16 Ctx.reset, queues := List.replicate 32 Queue.reset,
    heads := List.replicate 4 Head.reset, shadows := List.replicate 4 Shadow.reset, order := [], store := [], launches := [],
    nextLaunch := 0, reserved := [], taken := [], fixed := [], rr := [], win := Window.reset, gov := Gov.reset }

end Sys2Proof.Machine
end

