-- ==== Sys2Proof/Machine/Sparse.lean ====
section
/-! DEFINITION. The containers of the state: sparse maps in one canonical form, lane masks, bytes and numbers. -/

namespace Sys2Proof.Machine

/-- What key `k` holds; `d` where the map lists nothing. -/
def sget {α : Type} (d : α) : SMap α → Nat → α
  | [], _ => d
  | (j, v) :: m, k => if k = j then v else sget d m k

/-- The map without key `k`. -/
def sdel {α : Type} (m : SMap α) (k : Nat) : SMap α := m.filter (fun e => e.1 != k)

/-- A pair put before the first higher key. -/
def sput {α : Type} : SMap α → Nat → α → SMap α
  | [], k, v => [(k, v)]
  | (j, w) :: m, k, v => if k < j then (k, v) :: (j, w) :: m else (j, w) :: sput m k v

/-- The map with `v` at `k`, in the same canonical form: a value that an absent key reads as is not listed. -/
def sset {α : Type} [DecidableEq α] (d : α) (m : SMap α) (k : Nat) (v : α) : SMap α :=
  if v = d then sdel m k else sput (sdel m k) k v

/-- The canonical form from key `lo` on: keys rise strictly, no value is the absent one. -/
def swfFrom {α : Type} [DecidableEq α] (d : α) : Nat → SMap α → Bool
  | _, [] => true
  | lo, (j, v) :: m => decide (lo ≤ j) && decide (v ≠ d) && swfFrom d (j + 1) m

/-- The canonical form of a sparse map. -/
def swf {α : Type} [DecidableEq α] (d : α) (m : SMap α) : Bool := swfFrom d 0 m

/-- Write a list of values at consecutive keys. -/
def ssetRange {α : Type} [DecidableEq α] (d : α) (m : SMap α) (k : Nat) : List α → SMap α
  | [] => m
  | v :: vs => ssetRange d (sset d m k v) (k + 1) vs

/-- Read `n` values at consecutive keys. -/
def sgetRange {α : Type} (d : α) (m : SMap α) (k n : Nat) : List α := (List.range n).map (fun i => sget d m (k + i))

/-- Keep the keys that `f` accepts. -/
def sfilter {α : Type} (f : Nat → Bool) (m : SMap α) : SMap α := m.filter (fun e => f e.1)

/-- Element `i` of a list, replaced by `f` of it. -/
def updNth {α : Type} (l : List α) (i : Nat) (f : α → α) : List α :=
  match l, i with
  | [], _ => []
  | a :: as, 0 => f a :: as
  | a :: as, i + 1 => a :: updNth as i f

/-! ## Bytes, little-endian (R3) -/

/-- The number whose bytes are `bs`, lowest first. -/
def leNat : List Byte → Nat
  | [] => 0
  | b :: bs => b.toNat + 256 * leNat bs

/-- The `n` low bytes of a number, lowest first. -/
def leBytes : Nat → Nat → List Byte
  | 0, _ => []
  | n + 1, v => BitVec.ofNat 8 v :: leBytes n (v / 256)

/-- `n` bits of `v` from bit `lo`. -/
def bits (v lo n : Nat) : Nat := v / 2 ^ lo % 2 ^ n

/-- Bit `i` of `v`. -/
def bit (v i : Nat) : Bool := v.testBit i

/-- Align `v` down to a multiple of `n`. -/
def alignDown (v n : Nat) : Nat := v - v % n

/-- Divide, rounding up. -/
def ceilDiv (a b : Nat) : Nat := (a + b - 1) / b

/-- The sign-extension of the low `w` bits of `v` as an integer. -/
def signed (v w : Nat) : Int :=
  let u := v % 2 ^ w
  if u < 2 ^ (w - 1) then (u : Int) else (u : Int) - 2 ^ w

/-- An integer taken modulo 2^w. -/
def wrap (v : Int) (w : Nat) : Nat := (v % (2 ^ w : Int)).toNat

/-! ## Lane masks (R27) -/

/-- Lanes of a team of G groups. -/
def laneCount (gmax : BitVec 5) : Nat := 32 * (gmax.toNat + 1)

/-- The lanes of a mask, ascending, among the first `n`. -/
def lanesIn (n : Nat) (m : Mask) : List Nat := (List.range n).filter (fun i => m.getLsbD i)

/-- The mask of one lane. -/
def laneBit (i : Nat) : Mask := BitVec.ofNat 1024 (2 ^ i)

/-- The mask of a list of lanes. -/
def maskOf (ls : List Nat) : Mask := ls.foldl (fun m i => m ||| laneBit i) 0

/-- Every lane of a team of `n` lanes. -/
def fullMask (n : Nat) : Mask := BitVec.ofNat 1024 (2 ^ n - 1)

/-- The group word M[g] (R27). -/
def groupWord (m : Mask) (g : Nat) : Word := m.extractLsb' (32 * g) 32

/-- The summary word of a mask: bit g is 1 when M[g] ≠ 0 (R27). -/
def summary (m : Mask) : Word :=
  BitVec.ofNat 32 ((List.range 32).foldl (fun a g => if groupWord m g = 0 then a else a + 2 ^ g) 0)

end Sys2Proof.Machine
end

