-- ==== Sys2Proof/Machine/Float.lean ====
section
/-! DEFINITION. Floating-point formats, exact values and rounding (chapter 6, §6.2 to §6.4). -/

namespace Sys2Proof.Machine

/-- A floating-point format of Table 6.2: widths of E and F, bias; `sat`: e4m3, which has no infinity and one NaN. -/
structure Fmt where
  ebits : Nat
  fbits : Nat
  bias : Nat
  sat : Bool
  deriving DecidableEq, Repr

def f64 : Fmt := { ebits := 11, fbits := 52, bias := 1023, sat := false }
def f32 : Fmt := { ebits := 8, fbits := 23, bias := 127, sat := false }
def f16 : Fmt := { ebits := 5, fbits := 10, bias := 15, sat := false }
def bf16 : Fmt := { ebits := 8, fbits := 7, bias := 127, sat := false }
def e4m3 : Fmt := { ebits := 4, fbits := 3, bias := 7, sat := true }
def e5m2 : Fmt := { ebits := 5, fbits := 2, bias := 15, sat := false }

/-- The format of a TYPE code (Table 4.3); packed types give their element's. -/
def fmtOf (ty : Nat) : Fmt :=
  match ty with
  | 13 => f16
  | 14 => bf16
  | 16 => f64
  | 17 => e4m3
  | 18 => e5m2
  | 19 => f16
  | 20 => bf16
  | _ => f32

/-- Bits of a value of the format. -/
def Fmt.width (f : Fmt) : Nat := 1 + f.ebits + f.fbits

/-- An exact number: (−1)^neg · m · 2^e, an infinity, or NaN. With m = 0 it is a signed zero. -/
inductive Num where
  | nan
  | inf (neg : Bool)
  | fin (neg : Bool) (m : Nat) (e : Int)
  deriving DecidableEq, Repr

/-- Rounding modes of Table 6.3. -/
inductive RMode where
  | rn
  | rz
  | rm
  | rp
  | rna
  deriving DecidableEq, Repr

/-- The mode an FN field names. -/
def modeOf (fn : BitVec 3) : RMode :=
  match fn.toNat with
  | 1 => .rz
  | 2 => .rm
  | 3 => .rp
  | 4 => .rna
  | _ => .rn

/-- The exponent field of all ones. -/
def Fmt.eTop (f : Fmt) : Nat := 2 ^ f.ebits - 1

/-- The exponent of the format's smallest step. -/
def Fmt.minExp (f : Fmt) : Int := 1 - (f.bias : Int) - (f.fbits : Int)

/-- The canonical NaN (Table 6.2). -/
def Fmt.nan (f : Fmt) : Nat := if f.sat then 0x7f else f.eTop * 2 ^ f.fbits + 2 ^ (f.fbits - 1)

/-- The magnitude bits of the largest finite value. -/
def Fmt.maxMag (f : Fmt) : Nat := if f.sat then 0x7e else f.eTop * 2 ^ f.fbits - 1

/-- The bit pattern of a sign and magnitude bits. -/
def Fmt.pack (f : Fmt) (neg : Bool) (mag : Nat) : Nat := (if neg then 2 ^ (f.ebits + f.fbits) else 0) + mag

/-- The exact value of a bit pattern (R117). -/
def Fmt.value (f : Fmt) (raw : Nat) : Num :=
  let neg := raw.testBit (f.ebits + f.fbits)
  let e := bits raw f.fbits f.ebits
  let fr := raw % 2 ^ f.fbits
  if f.sat then
    if e = f.eTop ∧ fr = 2 ^ f.fbits - 1 then .nan
    else if e = 0 then .fin neg fr f.minExp else .fin neg (2 ^ f.fbits + fr) (f.minExp + (e : Int) - 1)
  else if e = f.eTop then
    if fr = 0 then .inf neg else .nan
  else if e = 0 then .fin neg fr f.minExp
  else .fin neg (2 ^ f.fbits + fr) (f.minExp + (e : Int) - 1)

/-- An infinity of the format, or what stands for it (R120). -/
def Fmt.infBits (f : Fmt) (neg : Bool) : Nat := f.pack neg (if f.sat then f.maxMag else f.eTop * 2 ^ f.fbits)

/-- What a result beyond the format's range becomes (R120, Table 6.4). -/
def Fmt.overflow (f : Fmt) (mode : RMode) (neg : Bool) : Nat :=
  if f.sat then f.pack neg f.maxMag
  else match mode with
    | .rn => f.infBits neg
    | .rna => f.infBits neg
    | .rz => f.pack neg f.maxMag
    | .rm => if neg then f.infBits neg else f.pack neg f.maxMag
    | .rp => if neg then f.pack neg f.maxMag else f.infBits neg

/-- Whether a magnitude whose integer part is `n`, with remainder `r` out of `den` and more below it if `more`, rounds up
(Table 6.3). -/
def roundsUp (mode : RMode) (neg : Bool) (n r den : Nat) (more : Bool) : Bool :=
  match mode with
  | .rn => decide (2 * r > den) || (decide (2 * r = den) && (more || decide (n % 2 = 1)))
  | .rz => false
  | .rm => neg && (more || decide (r ≠ 0))
  | .rp => !neg && (more || decide (r ≠ 0))
  | .rna => decide (2 * r ≥ den)

/-- Round m · 2^e, and a little more if `more`, to an integer multiple of 2^q: how many. -/
def roundAt (mode : RMode) (neg : Bool) (m : Nat) (e q : Int) (more : Bool) : Nat :=
  if q ≤ e then m * 2 ^ (e - q).toNat
  else
    let den := 2 ^ (q - e).toNat
    let n := m / den
    if roundsUp mode neg n (m % den) den more then n + 1 else n

/-- The bits of (−1)^neg · m · 2^e (and a little more if `more`), rounded once in the format. -/
def Fmt.roundFin (f : Fmt) (mode : RMode) (neg : Bool) (m : Nat) (e : Int) (more : Bool) : Nat :=
  if m = 0 then f.pack neg 0
  else
    let top : Int := (Nat.log2 m : Int) + e
    let q : Int := max (top - (f.fbits : Int)) f.minExp
    let n := roundAt mode neg m e q more
    let mag := (q - f.minExp).toNat * 2 ^ f.fbits + n
    if f.maxMag < mag then f.overflow mode neg else f.pack neg mag

/-- Round(v, f, mode) (R119, R120). -/
def Fmt.round (f : Fmt) (mode : RMode) (v : Num) : Nat :=
  match v with
  | .nan => f.nan
  | .inf neg => f.infBits neg
  | .fin neg m e => f.roundFin mode neg m e false

/-! ## Exact arithmetic (R118) -/

/-- The signed integer m · 2^(e − q) of a finite value, for q ≤ e. -/
def finInt (neg : Bool) (m : Nat) (e q : Int) : Int :=
  let v : Int := (m * 2 ^ (e - q).toNat : Nat)
  if neg then -v else v

/-- The exact number of an integer over 2^q; a zero takes the sign `zneg`. -/
def numOfInt (v : Int) (q : Int) (zneg : Bool) : Num :=
  if v = 0 then .fin zneg 0 q else .fin (decide (v < 0)) v.natAbs q

def Num.neg : Num → Num
  | .nan => .nan
  | .inf n => .inf (!n)
  | .fin n m e => .fin (!n) m e

def Num.abs : Num → Num
  | .nan => .nan
  | .inf _ => .inf false
  | .fin _ m e => .fin false m e

/-- An exact sum; a zero sum takes its sign from the mode (R118). -/
def Num.add (mode : RMode) (a b : Num) : Num :=
  match a, b with
  | .nan, _ => .nan
  | _, .nan => .nan
  | .inf x, .inf y => if x = y then .inf x else .nan
  | .inf x, .fin _ _ _ => .inf x
  | .fin _ _ _, .inf y => .inf y
  | .fin x m e, .fin y n g =>
    let q := min e g
    let zneg := if m = 0 ∧ n = 0 ∧ x = y then x else decide (mode = .rm)
    numOfInt (finInt x m e q + finInt y n g q) q zneg

/-- An exact product. -/
def Num.mul (a b : Num) : Num :=
  match a, b with
  | .nan, _ => .nan
  | _, .nan => .nan
  | .inf x, .inf y => .inf (x != y)
  | .inf x, .fin y n _ => if n = 0 then .nan else .inf (x != y)
  | .fin x m _, .inf y => if m = 0 then .nan else .inf (x != y)
  | .fin x m e, .fin y n g => .fin (x != y) (m * n) (e + g)

/-- a / b rounded once (R354). -/
def Fmt.div (f : Fmt) (mode : RMode) (a b : Num) : Nat :=
  match a, b with
  | .nan, _ => f.nan
  | _, .nan => f.nan
  | .inf _, .inf _ => f.nan
  | .inf x, .fin y _ _ => f.infBits (x != y)
  | .fin x _ _, .inf y => f.pack (x != y) 0
  | .fin x m e, .fin y n g =>
    if n = 0 then if m = 0 then f.nan else f.infBits (x != y)
    else if m = 0 then f.pack (x != y) 0
    else
      let k := 80 + Nat.log2 n
      let q := m * 2 ^ k / n
      f.roundFin mode (x != y) q (e - g - (k : Int)) (decide (m * 2 ^ k % n ≠ 0))

/-- Integer square root of `n`, found from bit `k − 1` down on top of `r`. -/
def isqrtFrom (n : Nat) : Nat → Nat → Nat
  | 0, r => r
  | k + 1, r => isqrtFrom n k (if (r + 2 ^ k) * (r + 2 ^ k) ≤ n then r + 2 ^ k else r)

/-- The integer square root. -/
def isqrt (n : Nat) : Nat := isqrtFrom n (Nat.log2 n / 2 + 1) 0

/-- The square root of a finite positive value, as a root over 2^h and whether more lies below it. -/
def sqrtFin (m : Nat) (e : Int) : Nat × Int × Bool :=
  let k : Int := if e % 2 = 0 then 160 else 161
  let n := m * 2 ^ k.toNat
  let r := isqrt n
  (r, (e - k) / 2, decide (r * r ≠ n))

/-- √a rounded once (R354). -/
def Fmt.sqrt (f : Fmt) (mode : RMode) (a : Num) : Nat :=
  match a with
  | .nan => f.nan
  | .inf x => if x then f.nan else f.infBits false
  | .fin x m e =>
    if m = 0 then f.pack x 0
    else if x then f.nan
    else
      let r := sqrtFin m e
      f.roundFin mode false r.1 r.2.1 r.2.2

/-- Whether a < b; false when either is NaN. Zeros are equal. -/
def Num.lt (a b : Num) : Bool :=
  match a, b with
  | .nan, _ => false
  | _, .nan => false
  | .inf x, .inf y => x && !y
  | .inf x, .fin _ _ _ => x
  | .fin _ _ _, .inf y => !y
  | .fin x m e, .fin y n g =>
    let q := min e g
    decide (finInt x m e q < finInt y n g q)

/-- Whether neither is NaN and the values are equal. -/
def Num.eq (a b : Num) : Bool :=
  match a, b with
  | .nan, _ => false
  | _, .nan => false
  | _, _ => !Num.lt a b && !Num.lt b a

def Num.isNan : Num → Bool
  | .nan => true
  | _ => false

def Num.isInf : Num → Bool
  | .inf _ => true
  | _ => false

def Num.isFin : Num → Bool
  | .fin _ _ _ => true
  | _ => false

def Num.isZero : Num → Bool
  | .fin _ m _ => decide (m = 0)
  | _ => false

/-- The sign bit; NaN gives false. -/
def Num.sign : Num → Bool
  | .nan => false
  | .inf x => x
  | .fin x _ _ => x

/-- FMIN and FMAX over bit patterns (R355). -/
def Fmt.minmax (f : Fmt) (wantMax : Bool) (ra rb : Nat) : Nat :=
  let a := f.value ra
  let b := f.value rb
  if a.isNan && b.isNan then f.nan
  else if a.isNan then rb
  else if b.isNan then ra
  else
    let aLess := Num.lt a b || (Num.eq a b && a.sign && !b.sign)
    if wantMax = aLess then rb else ra

/-- The integer a finite value rounds to (Table 6.3), with its sign. -/
def roundInt (mode : RMode) (neg : Bool) (m : Nat) (e : Int) : Int :=
  let n : Int := (roundAt mode neg m e 0 false : Nat)
  if neg then -n else n

/-- Floor of a finite value. -/
def floorInt (neg : Bool) (m : Nat) (e : Int) : Int := roundInt .rm neg m e

/-- FRND over bit patterns (R356). -/
def Fmt.toIntegral (f : Fmt) (mode : RMode) (raw : Nat) : Nat :=
  match f.value raw with
  | .nan => f.nan
  | .inf x => f.infBits x
  | .fin x m e => if m = 0 ∨ 0 ≤ e then raw % 2 ^ f.width else f.roundFin mode x (roundAt mode x m e 0 false) 0 false

/-- FCLASS (R358, Table 17.4). -/
def Fmt.classify (f : Fmt) (raw : Nat) : Nat :=
  let neg := raw.testBit (f.ebits + f.fbits)
  let e := bits raw f.fbits f.ebits
  let fr := raw % 2 ^ f.fbits
  let bit : Nat :=
    if e = f.eTop then
      if fr = 0 then (if neg then 0 else 7) else if fr.testBit (f.fbits - 1) then 9 else 8
    else if e = 0 then
      if fr = 0 then (if neg then 3 else 4) else (if neg then 2 else 5)
    else (if neg then 1 else 6)
  2 ^ bit

/-! ## f32 arithmetic under RN over bit patterns -/

/-- The value of f32 bits. -/
def v32 (a : Word) : Num := f32.value a.toNat

/-- Round a number to f32 under RN. -/
def rn32 (v : Num) : Word := BitVec.ofNat 32 (f32.round .rn v)

def fadd32 (a b : Word) : Word := rn32 (Num.add .rn (v32 a) (v32 b))
def fsub32 (a b : Word) : Word := rn32 (Num.add .rn (v32 a) (v32 b).neg)
def fmul32 (a b : Word) : Word := rn32 (Num.mul (v32 a) (v32 b))
def fdiv32 (a b : Word) : Word := BitVec.ofNat 32 (f32.div .rn (v32 a) (v32 b))
def fneg32 (a : Word) : Word := a ^^^ 0x80000000
def flt32 (a b : Word) : Bool := Num.lt (v32 a) (v32 b)

/-- The f32 of an integer, rounded RN. -/
def ofInt32 (v : Int) : Word := rn32 (numOfInt v 0 false)

/-! ## Integers as operands of conversions (Table 6.1) -/

/-- Width of an integer TYPE code 5 to 12. -/
def intWidth (ty : Nat) : Nat := if ty ≤ 6 then 8 else if ty ≤ 8 then 16 else if ty ≤ 10 then 32 else 64

/-- Whether an integer TYPE code is signed. -/
def intSigned (ty : Nat) : Bool := decide (ty % 2 = 0)

/-- The range of an integer TYPE. -/
def intRange (ty : Nat) : Int × Int :=
  let w := intWidth ty
  if intSigned ty then (-(2 ^ (w - 1) : Int), (2 ^ (w - 1) : Int) - 1) else (0, (2 ^ w : Int) - 1)

/-- Clamp an integer into a range. -/
def clampInt (lo hi v : Int) : Int := if v < lo then lo else if hi < v then hi else v

/-- The value of an operand of TYPE code `ty` (5 to 18), read from its bits (R116). -/
def typedValue (ty raw : Nat) : Num :=
  if ty ≤ 12 then
    let w := intWidth ty
    numOfInt (if intSigned ty then signed raw w else ((raw % 2 ^ w : Nat) : Int)) 0 false
  else (fmtOf ty).value (raw % 2 ^ (fmtOf ty).width)

/-- A value converted to TYPE code `ty` (5 to 18), as bits of its width (R120, Table 6.4). -/
def convertTo (mode : RMode) (ty : Nat) (v : Num) : Nat :=
  if ty ≤ 12 then
    let r := intRange ty
    match v with
    | .nan => 0
    | .inf x => wrap (if x then r.1 else r.2) (intWidth ty)
    | .fin x m e => wrap (clampInt r.1 r.2 (roundInt mode x m e)) (intWidth ty)
  else (fmtOf ty).round mode v

end Sys2Proof.Machine
end

