-- ==== Sys2Proof/Machine/Dot.lean ====
section
/-! DEFINITION. Block formats and their quantisation (§6.5, §6.6), summation of dot products (§6.8, §6.9). -/

namespace Sys2Proof.Machine

/-! ## Dot products -/

/-- Floor(Log2(|t|)) of a nonzero finite value. -/
def ilog (m : Nat) (e : Int) : Int := (Nat.log2 m : Int) + e

/-- Floor(|t| / 2^q) with the sign of t (R128). -/
def truncAt (q : Int) : Num → Int
  | .fin neg m e =>
    let n : Int := ((if q ≤ e then m * 2 ^ (e - q).toNat else m / 2 ^ (q - e).toNat : Nat) : Int)
    if neg then -n else n
  | _ => 0

/-- The largest Floor(Log2) among the nonzero finite members, if any. -/
def maxLog : List Num → Option Int
  | [] => none
  | .fin _ m e :: ts =>
    if m = 0 then maxLog ts
    else match maxLog ts with
      | none => some (ilog m e)
      | some x => some (max x (ilog m e))
  | _ :: ts => maxLog ts

/-- GroupSum of R128 over the set `ts`, as f32 bits. -/
def groupSum (ts : List Num) : Word :=
  if ts.any Num.isNan || (ts.contains (.inf false) && ts.contains (.inf true)) then 0x7fc00000
  else if ts.contains (.inf false) then 0x7f800000
  else if ts.contains (.inf true) then 0xff800000
  else match maxLog ts with
    | none => if ts.all Num.sign then 0x80000000 else 0
    | some emax =>
      let q := emax - 31
      rn32 (numOfInt ((ts.map (truncAt q)).foldl (· + ·) 0) q false)

/-- DotAccumulate of R128, with `n` groups of 8 at most left. -/
def dotGroups : Nat → Word → List Num → Word
  | 0, run, _ => run
  | n + 1, run, ts =>
    match ts with
    | [] => run
    | _ => dotGroups n (groupSum (v32 run :: ts.take 8)) (ts.drop 8)

/-- DotAccumulate (R128). -/
def dotAccumulate (acc : Word) (ts : List Num) : Word := dotGroups (ts.length / 8 + 1) acc ts

/-- Round12 of R130: 12 significant bits in the f32 exponent range. -/
def round12 (v : Num) : Num :=
  match v with
  | .fin neg m e =>
    if m = 0 then v
    else
      let q : Int := max (ilog m e - 11) (-137)
      let n := roundAt .rn neg m e q false
      if n ≠ 0 ∧ 127 < ilog n q then .inf neg else .fin neg n q
  | _ => v

/-- TriTerm of R130. -/
def triTerm (a b c : Num) : Num := Num.mul a (round12 (Num.mul b c))

/-! ## Block formats (R121 to R123). Format codes: 21 dxb4, 22 dxb6, 23 dxb8, 24 ob4, 25 ob8 -/

/-- Bits of one element. -/
def blockWidth (ty : Nat) : Nat := if ty = 21 ∨ ty = 24 then 4 else if ty = 22 then 6 else 8

/-- Whether the format is a dual-exponent one. -/
def isDxb (ty : Nat) : Bool := decide (ty ≤ 23)

/-- The value of a dual-exponent element (R122). -/
def dxbValue (w code rec_ : Nat) : Num :=
  let s := code.testBit (w - 1)
  let ex := if code.testBit (w - 2) then bits rec_ 8 8 else bits rec_ 0 8
  let m := code % 2 ^ (w - 2)
  if ex = 0xff then .nan
  else if m = 0 then .fin false 0 0
  else .fin s m ((ex : Int) - 127)

/-- The value of an offset-binary element (R123). -/
def obValue (w code rec_ : Nat) : Num :=
  let z := if w = 4 then bits rec_ 0 4 else bits rec_ 0 8
  Num.mul (bf16.value (bits rec_ 16 16)) (numOfInt ((code % 2 ^ w : Nat) - (z : Int)) 0 false)

/-- The value of element code `code` under scale record `rec_`. -/
def blockValue (ty code rec_ : Nat) : Num :=
  if isDxb ty then dxbValue (blockWidth ty) code rec_ else obValue (blockWidth ty) code rec_

/-- Rnd(y · 2^-q, mode) of R124: the signed integer it rounds to. -/
def rndScaled (mode : RMode) (v : Num) (q : Int) : Int :=
  match v with
  | .fin neg m e => roundInt mode neg m (e - q)
  | _ => 0

/-- The largest magnitude among finite values, compared exactly. -/
def maxAbs : List Num → Num
  | [] => .fin false 0 0
  | v :: vs => let r := maxAbs vs; if Num.lt r v.abs then v.abs else r

/-- Largest of a list of naturals. -/
def maxNat (l : List Nat) : Nat := l.foldl max 0

/-- QuantiseDXB of R124: the element codes and the scale record. -/
def quantiseDxb (w : Nat) (mode : RMode) (xs : List Num) : List Nat × Nat :=
  if xs.any Num.isNan then (xs.map (fun _ => 2 ^ (w - 2)), 0xff00)
  else
    let ys := xs.map (fun x => match x with
      | .inf s => Num.fin s (2 ^ 24 - 1) 104
      | v => v)
    let mmax : Nat := 2 ^ (w - 2) - 1
    let rndM (q : Int) (v : Num) : Nat := (rndScaled mode v q).natAbs
    let es : Nat × Nat := match maxAbs ys with
      | .fin _ m e =>
        if m = 0 then (0, 0)
        else
          let t := (clampInt 0 254 (ilog m e - ((w : Int) - 2) + 1 + 127)).toNat
          let e1 := if t < 254 ∧ mmax < maxNat (ys.map (rndM ((t : Int) - 127))) then t + 1 else t
          (e1 - (w - 2), e1)
      | _ => (0, 0)
    let enc (v : Num) : Nat :=
      let m0 := rndM ((es.1 : Int) - 127) v
      let xm : Nat × Nat := if m0 ≤ mmax then (0, m0) else (1, min (rndM ((es.2 : Int) - 127) v) mmax)
      let s : Nat := if xm.2 ≠ 0 ∧ Num.lt v (.fin false 0 0) then 1 else 0
      s * 2 ^ (w - 1) + xm.1 * 2 ^ (w - 2) + xm.2
    (ys.map enc, es.1 + 256 * es.2)

/-- The lesser of two numbers, the first on a tie. -/
def numMin (a b : Num) : Num := if Num.lt b a then b else a
/-- The greater of two numbers, the first on a tie. -/
def numMax (a b : Num) : Num := if Num.lt a b then b else a

/-- An exact quotient of two finite values rounded to an integer (Rnd of R124); the divisor is positive. -/
def rndQuot (mode : RMode) (x s : Num) : Int :=
  match x, s with
  | .fin neg m e, .fin _ n g =>
    let up := m * 2 ^ (e - g).toNat
    let dn := n * 2 ^ (g - e).toNat
    let q := up / dn
    let k : Int := ((if roundsUp mode neg q (up % dn) dn false then q + 1 else q : Nat) : Int)
    if neg then -k else k
  | _, _ => 0

/-- QuantiseOB of R125: the element codes and the scale record (Z, reserved, bf16 scale). -/
def quantiseOb (w : Nat) (mode : RMode) (xs : List Num) : List Nat × Nat :=
  let qmax : Nat := 2 ^ w - 1
  if xs.any Num.isNan then (xs.map (fun _ => 0), 0x7fc0 * 2 ^ 16)
  else
    let zero : Num := .fin false 0 0
    let lo := xs.foldl numMin zero
    let hi := xs.foldl numMax zero
    if Num.eq lo hi then (xs.map (fun _ => 0), 0)
    else
      let s0 := bf16.div .rn (Num.add .rn hi lo.neg) (.fin false qmax 0)
      let s1 := if bf16.value s0 = .inf false then bf16.maxMag else s0
      let sb := if s1 = 0 then 1 else s1
      let s := bf16.value sb
      let z : Nat := match lo with
        | .inf _ => qmax
        | v => (clampInt 0 qmax (rndQuot .rn v.neg s)).toNat
      let q (x : Num) : Nat := match x with
        | .inf neg => if neg then 0 else qmax
        | v => (clampInt 0 qmax (rndQuot mode v s + (z : Int))).toNat
      (xs.map q, z + sb * 2 ^ 16)

/-- Quantisation of eight values to block TYPE `ty` (§6.6). -/
def quantise (ty : Nat) (mode : RMode) (xs : List Num) : List Nat × Nat :=
  if isDxb ty then quantiseDxb (blockWidth ty) mode xs else quantiseOb (blockWidth ty) mode xs

end Sys2Proof.Machine
end

