-- ==== Sys2Proof/Config.lean ====
section
/-! DEFINITION. What stays fixed while the machine runs: the part's numbers, and the FREE VALUES of the spec,
constants without a body about which nothing can be proved (assumption log 1 to 6). -/

namespace Sys2Proof.Config

/-- Enabled logical cores (R2, R13). -/
def numCores : Nat := 144

/-- Team slots of a core (R20, R32). -/
def numSlots : Nat := 4

/-- Resident contexts (R20). -/
def numContexts : Nat := 16

/-- Command queues (R251). -/
def numQueues : Nat := 32

/-- A free choice among things the spec does not order, applied to the model's counter `State.free`
(R30, R50, R131, R170, R330; assumption log 1). -/
opaque choice : Nat → Nat

/-- Device ticks that pass in one step of the model, applied to `State.free` (R11 gives the rate of device time
and the spec gives no step its length; assumption log 2). -/
opaque ticks : Nat → Nat

/-- A free byte: what each overlapping destination byte of a copy or a WARP holds (R178, R406; assumption log 3). -/
opaque freeByte : Nat → Byte

/-- The six approximating instructions as fixed functions of their input (R359), named by their opcode: a free f32
pattern, which the model keeps only where it lies inside the bound of Table 17.5 (assumption log 4). -/
opaque approx : BitVec 10 → Word → Word

/-- What timing decides of the top-down leaf a slot clock is charged to (R310): an instruction that is ready issues in it or waits for fetch or a
result, a pipe passes for another slot's arm or not (assumption log 5). -/
opaque leaf : Nat → Nat

/-- The part's own hash that places a physical line in a home slice and set of the version cache (R167, R216, R232;
assumption log 6). -/
opaque homeSet : Nat → Nat

/-- The part's own hash of block addresses in a core's signatures (R206; assumption log 6). -/
opaque sigHash : Nat → Nat

/-- The texel index a coordinate that is not finite after scaling leads to, as a fixed function of it (R385 states none;
assumption log 18). -/
opaque farTexel : Word → Nat

/-- Whether the ray traversal unit's own box test passes a box over, as a fixed function of the ray's eight numbers and the box's
24 bytes; it counts only where no nearer hit lies under the box (R280, R131; assumption log 19). -/
opaque boxMissed : List Nat → Bool

/-- How many triangles a binned-geometry buffer of a size holds: the format of a bin is not given (R271; assumption log 88). -/
opaque binRoom : Nat → Nat

/-- What a save area whose bytes are not those the part wrote restores (R302, R303; assumption log 45). -/
opaque areaSlot {α : Type} [Inhabited α] : List Byte → α

end Sys2Proof.Config
end

