-- ==== Sys2Proof/Machine/Memory.lean ====
section
/-! DEFINITION. Physical memory and what the part keeps beside it: the register window, versions and atomic logs
(chapters 9 and 10, §15.1). -/

namespace Sys2Proof.Machine

/-! ## Computations that can stop -/

/-- How a step can end without a next state. -/
inductive Stop where
  | fault (f : Fault)
  | refused (r : Refusal)
  deriving DecidableEq, Repr

/-- A computation over the machine's state. -/
abbrev Act (α : Type) := StateT State (Except Stop) α

/-- The outcome of a computation run as a step. -/
def runAct (m : Act Unit) (s : State) : Host.Outcome State Fault Refusal :=
  match m s with
  | .ok r => .next r.2
  | .error (.fault f) => .fault f
  | .error (.refused r) => .refused r

/-- A step that the model stops in. -/
def stopOut : Stop → Host.Outcome State Fault Refusal
  | .fault f => .fault f
  | .refused r => .refused r

/-- Stop the model. -/
def halt {α : Type} (e : Stop) : Act α := fun _ => .error e

/-- Read something of the state. -/
def gets {α : Type} (f : State → α) : Act α := fun s => .ok (f s, s)

/-- Change the state. -/
def change (f : State → State) : Act Unit := fun s => .ok ((), f s)

/-! ## Contexts and counters -/

/-- Context `c`. -/
def ctxOf (s : State) (c : Nat) : Ctx := s.ctxs.getD c Ctx.reset

/-- Change context `c`. -/
def State.updCtx (s : State) (c : Nat) (f : Ctx → Ctx) : State := { s with ctxs := updNth s.ctxs c f }

/-- Add `n` to counter `k` of context `c` while its capture runs (R310, R311). -/
def State.bump (s : State) (c k n : Nat) : State :=
  s.updCtx c (fun x => if x.capOn then { x with counters := updNth x.counters k (fun v => v + BitVec.ofNat 64 n) } else x)

/-- Set bit `b` of INTSTAT; a message is sent when it was clear and INTEN holds it (R305). -/
def State.interrupt (s : State) (b : Nat) : State :=
  if s.win.intstat.getLsbD b then s
  else { s with win := { s.win with
    intstat := s.win.intstat ||| BitVec.ofNat 64 (2 ^ b)
    messages := if s.win.inten.getLsbD b then b :: s.win.messages else s.win.messages } }

/-- Data of context `c` at physical `pa` is dropped (R312): EDROP, ERRLOG, ERR, and the issuing team's STICKY when `team`. -/
def State.dropData (s : State) (c pa src : Nat) (team : Bool) : State :=
  let s := (s.bump c 14 1).interrupt 7
  { s with
    win := { s.win with errAddr := BitVec.ofNat 64 pa, errTime := BitVec.ofNat 64 s.time, errSrc := BitVec.ofNat 64 src }
    t := if team then { s.t with sticky := true, errPend := s.t.errPend || s.t.trapEn } else s.t }

/-- Steps that follow this one, in order. -/
def State.after (s : State) (is : List Instr) : State := { s with agenda := s.agenda ++ is }

/-! ## What the register window reads (R6, R305, Table 15.1) -/

/-- CTXCTL (R286). -/
def ctxctl (s : State) (i : Nat) : Nat :=
  (if s.shadows.any (fun h => h.teams.any (fun t => t.ctx == i && decide (t.life ≠ .retired))) then 4 else 0) +
    (if (ctxOf s i).loaded then 2 else 0)

/-- QCTL (Table 12.1). -/
def qctl (q : Queue) : Nat :=
  q.errcnt.toNat * 2 ^ 24 + q.ctx % 16 * 2 ^ 20 + q.cause % 16 * 2 ^ 4 + q.state % 4 * 2 ^ 2 + (if q.en then 1 else 0)

/-- PSTAT (R299). -/
def pstatWord (s : State) : Nat := (List.range 4).foldl (fun n k => n + (s.shadows.getD k Shadow.reset).pstat % 4 * 2 ^ (4 * k)) 0

/-- GOVCTL (Table 15.10). -/
def govctl (w : Window) : Nat := w.gfloor % 512 * 2 ^ 16 + w.tlimit % 128 * 2 ^ 9 + w.plimit % 512

/-- SPARESTAT (R314). -/
def sparestat (w : Window) : Nat :=
  sget 0 w.spares 0 % 16 + sget 0 w.spares 1 % 256 * 2 ^ 4 + sget 0 w.spares 2 % 16 * 2 ^ 12 + sget 0 w.spares 3 % 256 * 2 ^ 16 +
    sget 0 w.spares 4 % 16 * 2 ^ 24

/-- The dword of the register window at an offset that is a multiple of 8; write-only registers and reserved fields read 0, an offset with
no register reads free bytes (assumption log 66). -/
def windowRead (s : State) (off : Nat) : DWord :=
  let w := s.win
  let free := BitVec.ofNat 64 (leNat ((List.range 8).map (fun i => Config.freeByte (65536 * s.free + off + i))))
  if 0x400 ≤ off ∧ off < 0x500 then
    if off % 16 = 0 then (ctxOf s ((off - 0x400) / 16)).ctxrec else BitVec.ofNat 64 (ctxctl s ((off - 0x400) / 16))
  else if off = 0x800 ∨ off = 0x870 then 0
  else if off = 0x808 then (if w.invCtx.isSome then 1 else 0)
  else if off = 0x840 then BitVec.ofNat 64 (2 ^ 32 * pstatWord s)
  else if 0x850 ≤ off ∧ off < 0x870 then w.psave.getD ((off - 0x850) / 8) 0
  else if off = 0x880 then w.intstat
  else if off = 0x888 then w.inten
  else if off = 0x900 then BitVec.ofNat 64 (govctl w)
  else if off = 0x908 then w.lattol.zeroExtend 64
  else if off = 0x910 then w.classtab
  else if off = 0x920 then BitVec.ofNat 64 (sparestat w)
  else if off = 0x930 then w.errAddr
  else if off = 0x938 then w.errTime
  else if off = 0x940 then w.errSrc
  else if 0xc00 ≤ off ∧ off < 0xd00 then
    let x := ctxOf s ((off - 0xc00) / 16)
    if off % 16 = 0 then x.trctl.zeroExtend 64 else x.trbase
  else if 0x1000 ≤ off ∧ off < 0x1400 then
    let q := s.queues.getD ((off - 0x1000) / 32) Queue.reset
    if off % 32 = 0 then q.qhdr else if off % 32 = 8 then BitVec.ofNat 64 (qctl q) else if off % 32 = 16 then 0 else free
  else if 0x2000 ≤ off ∧ off < 0x2100 ∧ off % 64 = 0 then (s.heads.getD ((off - 0x2000) / 64) Head.reset).hcfg
  else if 0x3000 ≤ off ∧ off < 0x3400 then
    let p := (ctxOf s ((off - 0x3000) / 64)).watch.getD ((off - 0x3000) % 64 / 16) Watch.reset
    if off % 16 = 0 then p.addr else p.ctl
  else if off = 0x3400 then 0
  else free

/-- Bytes of the window from offset `off`. -/
def windowBytes (s : State) (off n : Nat) : List Byte :=
  (List.range n).map (fun i => BitVec.ofNat 8 ((windowRead s (alignDown (off + i) 8)).toNat / 2 ^ (8 * ((off + i) % 8))))

/-- The register writes a store to the window asks for: one for each dword it touches, bytes it does not write as the register reads, and
as zeros where writing ones clears (assumption log 66). -/
def windowWrites (s : State) (off : Nat) (bs : List Byte) : List Instr :=
  let first := off / 8
  (List.range ((off + bs.length + 7) / 8 - first)).map (fun k =>
    let o := 8 * (first + k)
    let old : List Byte := if o = 0x880 then List.replicate 8 0 else windowBytes s o 8
    .registerWrite o (BitVec.ofNat 64 (leNat (old.mapIdx (fun i b => if off ≤ o + i ∧ o + i < off + bs.length then bs.getD (o + i - off) 0 else b)))))

/-! ## Physical memory (Table 15.1) -/

/-- The regions of the physical address map. -/
inductive Region where
  | gddr
  /-- GDDR-7 that a 48 GB part lacks (R304). -/
  | absent
  | pcie
  | peer
  | window
  | hole
  deriving DecidableEq, Repr

/-- The region of a physical address (R304). -/
def regionOf (memCode : BitVec 4) (pa : Nat) : Region :=
  if pa < 0x1000000000 then if memCode = 0 ∧ 0xc00000000 ≤ pa then .absent else .gddr
  else if 0x800000000000 ≤ pa ∧ pa < 0x900000000000 then .pcie
  else if 0xc00000000000 ≤ pa ∧ pa < 0xc01000000000 then .peer
  else if 0xfe0000000000 ≤ pa ∧ pa < 0xfe0000010000 then .window
  else .hole

/-- The canonical form of a memory (R304, assumption log 7): addresses rise strictly, no byte listed is 0. -/
def Memory.wf (m : Mem) : Bool := swf 0 m

/-- `n` bytes of memory from `pa`. -/
def memBytes (m : Mem) (pa n : Nat) : List Byte := sgetRange 0 m pa n

/-- Memory with `bs` at `pa`. -/
def memSet (m : Mem) (pa : Nat) (bs : List Byte) : Mem := ssetRange 0 m pa bs

/-- Who makes an access: core, slot, context, pennant, and whether it is the issuing team's (R184, R211). -/
structure Acc where
  core : Nat
  slot : Nat
  ctx : Nat
  pennant : Nat
  team : Bool
  deriving DecidableEq, Repr

/-- The stop of an access to a region without storage: the PCIe window's devices lie outside the part (R304, R320). -/
def regionStop (r : Region) : Stop := if r = .pcie then .refused .deviceWindow else .fault .physicalHole

/-! ## Overlapping byte ranges -/

/-- `old`, the bytes from address `lo`, with those of `bs` at address `pa` laid over it. -/
def overlay (lo : Nat) (old : List Byte) (pa : Nat) (bs : List Byte) : List Byte :=
  old.mapIdx (fun i b => if pa ≤ lo + i ∧ lo + i < pa + bs.length then bs.getD (lo + i - pa) 0 else b)

/-- As `overlay`, from bytes listed by address. -/
def overlayCells (lo : Nat) (old : List Byte) (cells : List (Nat × Byte)) : List Byte :=
  old.mapIdx (fun i b => match cells.find? (fun c => c.1 == lo + i) with
    | some c => c.2
    | none => b)

/-- Whether [a, a + n) and [b, b + m) share an address. -/
def overlaps (a n b m : Nat) : Bool := decide (a < b + m ∧ b < a + n)

/-! ## Atomic operations (Table 16.6) -/

/-- The value an atomic stores, for operands of `n` bits. `fn`: group A 0 to 7; 8, 9, 10 are cas, incwrap, max64. -/
def atomNew (fn n : Nat) (sgn : Bool) (old v cmp : Nat) : Nat :=
  let less (a b : Nat) : Bool := if sgn then decide (signed a n < signed b n) else decide (a < b)
  let r := match fn with
    | 0 => old + v
    | 1 => old + (2 ^ n - v % 2 ^ n)
    | 2 => if less v old then v else old
    | 3 => if less old v then v else old
    | 4 => Nat.land old v
    | 5 => Nat.lor old v
    | 6 => Nat.xor old v
    | 7 => v
    | 8 => if old = cmp then v else old
    | 9 => if v ≤ old then 0 else old + 1
    | _ => if old < v then v else old
  r % 2 ^ n

/-- Whether a TYPE makes min and max signed. -/
def atomSigned (ty : BitVec 5) : Bool := decide (ty = 10 ∨ ty = 12)

/-! ## Versions and atomic logs (R214, R217) -/

/-- The line of a physical address. -/
def lineOf (pa : Nat) : Nat := pa / 128

/-- Pennant `p`'s version of a line, if it has one. -/
def verOf (s : State) (c p line : Nat) : Option Ver :=
  s.caches.vers.find? (fun v => v.ctx == c && v.pennant == p && v.line == line)

/-- The log entries of pennant `p` in a line, in log order. -/
def logsOf (s : State) (c p line : Nat) : List SpecLog :=
  s.caches.logs.filter (fun l => l.ctx == c && l.pennant == p && lineOf l.pa == line)

/-- A line's 128 bytes with one log entry applied. -/
def applyLog (line : Nat) (data : List Byte) (l : SpecLog) : List Byte :=
  let off := l.pa - 128 * line
  let old := leNat ((data.drop off).take l.size)
  overlay 0 data off (leBytes l.size (atomNew l.fn (8 * l.size) (atomSigned l.ty) old l.val l.cmp))

/-- A line as pennant `p` reads it: its version or the trunk's line, with its log applied (R214, R217). -/
def pennantLine (s : State) (c p line : Nat) : List Byte :=
  let base := match verOf s c p line with
    | some v => v.data
    | none => memBytes s.mem (128 * line) 128
  (logsOf s c p line).foldl (applyLog line) base

/-- The bytes [pa, pa + n) as pennant `p` reads them: line by line over at most `k` lines. -/
def pennantBytes (s : State) (c p : Nat) : Nat → Nat → Nat → List Byte
  | 0, _, _ => []
  | k + 1, pa, n =>
    if n = 0 then []
    else
      let off := pa % 128
      let m := min n (128 - off)
      ((pennantLine s c p (lineOf pa)).drop off).take m ++ pennantBytes s c p k (pa + m) (n - m)

/-- Whether a buffered line's tag is that of an access under context `c` and pennant `p`: the trunk's lines are one set. -/
def sameTag (lc lp c p : Nat) : Bool := lp == p && (p == 0 || lc == c)

/-! ## Automatic squash: which set a line falls in (R216, R232) -/

/-- The version ways in use, as (context, pennant, line): one for a version, one for each 8 log entries of a line (R216, R217). -/
def wayLines (s : State) : List (Nat × Nat × Nat) :=
  let vs := s.caches.vers.map (fun v => (v.ctx, v.pennant, v.line))
  let keys := s.caches.logs.map (fun l => (l.ctx, l.pennant, lineOf l.pa))
  vs ++ keys.eraseDups.flatMap (fun k => List.replicate (ceilDiv (keys.count k) 8) k)

/-- The set of the version cache a line falls in: 64 slices of 3,072 sets (R216). -/
def setOf (line : Nat) : Nat := Config.homeSet line % (64 * 3072)

/-- Ways of the set of `line` in use; with fewer than 12 in the whole part no set is full, so the hash is not asked. -/
def waysUsed (s : State) (line : Nat) : Nat :=
  let ws := wayLines s
  if ws.length < 12 then 0 else (ws.filter (fun w => setOf w.2.2 == setOf line)).length

end Sys2Proof.Machine
end

