-- ==== Sys2Proof/Machine/Coherence.lean ====
section
/-! DEFINITION. How the cores' stores stay coherent: L1s, tokens and signatures, the version cache's lines, the write-combining buffers,
the combiners, and the coherent reads and writes of physical memory (chapter 8, §9.5, §9.6, §15.1). -/

namespace Sys2Proof.Machine

/-! ## The L1s and their tokens (R167, R168, R204 to R206) -/

/-- The number of the first 64-byte block at `pa`; each pennant's version of it is a block of its own (R204). -/
def blockAt (ctx pennant pa : Nat) : Nat := pa / 64 + (if pennant = 0 then 0 else 2 ^ 42 * (8 * ctx + pennant))

/-- The first of the two blocks of an L1 line. -/
def L1Line.block (l : L1Line) : Nat := blockAt l.ctx l.pennant (128 * l.line)

/-- Lines the L1 of core `c` holds at most (R167, R169). -/
def l1Lines (s : State) (c : Nat) : Nat := 2048 + 32 * sget 0 s.caches.lent c

/-- The line an L1 gives up: the lowest priority and, among equals, the least recently used (R168). -/
def l1Victim : List L1Line → Option L1Line
  | [] => none
  | l :: ls => match l1Victim ls with
    | none => some l
    | some v => if l.prio.toNat < v.prio.toNat then some l else some v

/-- The bit of a signature a block hashes to (R206). -/
def bucket (block : Nat) : Nat := Config.sigHash block % 2048

/-- A signature bit of a core is set for a block; with more than 1,024 bits set, the core's signature is rebuilt from the blocks it holds
(R206). -/
def sigPut (held : List Nat) (sig : SMap Bool) (core block : Nat) : SMap Bool :=
  let mine (e : Nat × Bool) : Bool := decide (2048 * core ≤ e.1 ∧ e.1 < 2048 * (core + 1))
  let sig := sset false sig (2048 * core + bucket block) true
  if (sig.filter mine).length ≤ 1024 then sig
  else (block :: held).foldl (fun m b => sset false m (2048 * core + bucket b) true) (sig.filter (fun e => !mine e))

/-- The holders of a block once one token is free of them: with all 256 out, a holder of several gives one up. -/
def loseOne (here : List Tokens) : List Tokens :=
  if here.foldl (fun n t => n + t.count) 0 < 256 then here
  else match here.find? (fun t => decide (2 ≤ t.count)) with
    | some g => here.map (fun t => if t == g then { t with count := t.count - 1 } else t)
    | none => here

/-- A holder collects what an access of a block needs: one token to read, all 256 to write (R204). -/
def takeTokens (ts : List Tokens) (holder block : Nat) (write : Bool) : List Tokens :=
  let others := ts.filter (fun t => t.block != block)
  let here := ts.filter (fun t => t.block == block)
  if write then others ++ [{ block := block, holder := holder, count := 256, owner := true }]
  else if here.any (fun t => t.holder == holder) then ts
  else others ++ loseOne here ++ [{ block := block, holder := holder, count := 1, owner := here.isEmpty }]

/-- A block that is read at its home slice: the slice keeps a token of it (R204). -/
def homeToken (ts : List Tokens) (block : Nat) : List Tokens :=
  ts.filter (fun t => t.block != block) ++ loseOne (ts.filter (fun t => t.block == block))

/-- The tokens left once some lines have left their L1s: their holders give theirs back to the home slice (R204). -/
def dropTokens (ts : List Tokens) (gone : List L1Line) : List Tokens :=
  ts.filter (fun t => !gone.any (fun l => t.holder == l.core && (t.block == l.block || t.block == l.block + 1)))

/-- The copies of lines `f` selects, by context, pennant and line, leave every L1, and all their tokens return to the home slice, those of the
coherence agent too (R204). Of the trunk's lines the context says nothing. -/
def State.giveUp (s : State) (f : Nat → Nat → Nat → Bool) : State :=
  { s with caches := { s.caches with
    l1 := s.caches.l1.filter (fun l => !f l.ctx l.pennant l.line)
    tokens := s.caches.tokens.filter (fun t => !f (t.block / 2 ^ 42 / 8) (t.block / 2 ^ 42 % 8) (t.block % 2 ^ 42 / 2)) } }

/-! ## Token requests that reach a core (R206) -/

/-- Whether another core's line is lost to a request for the blocks `qs`: a line of a bucket that the request hits in the core's signatures,
the line itself only to a write. -/
def surrenders (s : State) (core : Nat) (qs : List Nat) (write : Bool) (l : L1Line) : Bool :=
  l.core != core && (write || !qs.any (fun q => q == l.block || q == l.block + 1)) &&
    qs.any (fun q => [l.block, l.block + 1].any (fun r => bucket r == bucket q) &&
      (sget false s.caches.wrSig (2048 * l.core + bucket q) || (write && sget false s.caches.rdSig (2048 * l.core + bucket q))))

/-- A token request for the blocks `qs` reaches every core but `core`: what they surrender gives its tokens back. -/
def State.conflict (s : State) (core : Nat) (qs : List Nat) (write : Bool) : State :=
  let lost := s.caches.l1.filter (surrenders s core qs write)
  { s with caches := { s.caches with
    l1 := s.caches.l1.filter (fun l => !lost.contains l), tokens := dropTokens s.caches.tokens lost } }

/-- A core collects tokens of the blocks `qs`: their bits in its signatures are set. -/
def State.sign (s : State) (core : Nat) (qs : List Nat) (write : Bool) : State :=
  if Config.numCores ≤ core then s
  else
    let held := qs ++ (s.caches.l1.filter (fun l => l.core == core)).flatMap (fun l => [l.block, l.block + 1])
    let put (g : SMap Bool) : SMap Bool := qs.foldl (fun g q => sigPut held g core q) g
    { s with caches := { s.caches with
      rdSig := put s.caches.rdSig, wrSig := if write then put s.caches.wrSig else s.caches.wrSig } }

/-! ## Persistent requests (R205) -/

/-- The earlier of two requests: the order of arrival, and on a tie the lower logical core. -/
def Persist.first (a b : Persist) : Persist :=
  if a.at_ < b.at_ ∨ (a.at_ = b.at_ ∧ a.holder ≤ b.holder) then a else b

/-- The request of a block that is served next. -/
def nextRequest (s : State) (block : Nat) : Option Persist :=
  match s.caches.persist.filter (fun r => r.block == block) with
  | [] => none
  | r :: rs => some (rs.foldl Persist.first r)

/-- Every token of a block that another cache holds goes to `r.holder`; a write collects the home's too. -/
def gatherTokens (ts : List Tokens) (r : Persist) : List Tokens :=
  let here := ts.filter (fun t => t.block == r.block)
  let n := if r.write then 256 else max 1 (here.foldl (fun n t => n + t.count) 0)
  ts.filter (fun t => t.block != r.block) ++
    [{ block := r.block, holder := r.holder, count := n, owner := r.write || here.any (fun t => t.owner) || here.isEmpty }]

/-- Whether a holder lacks the tokens an access of a block needs. -/
def lacks (s : State) (holder block : Nat) (write : Bool) : Bool :=
  !s.caches.tokens.any (fun t => t.block == block && t.holder == holder && (!write || t.count == 256))

/-- A request stands at the block's home, in order of arrival. -/
def State.request (s : State) (holder block : Nat) (write : Bool) : State :=
  { s with caches := { s.caches with
    persist := s.caches.persist ++ [{ block := block, holder := holder, write := write, active := false, at_ := s.time }] } }

/-- The oldest request of a block is active and served: every other holder sends its tokens to the requester, and gives up its line, whose other
block's tokens go home; the requester's signatures name the block (R206). -/
def State.activate (s : State) (block : Nat) : State :=
  match nextRequest s block with
  | none => s
  | some r =>
    let kept (l : L1Line) : Bool := l.core == r.holder || (l.block != block && l.block + 1 != block)
    let tokens := gatherTokens s.caches.tokens r
    let u := ({ s with caches := { s.caches with persist := s.caches.persist.erase r, tokens := tokens } } : State)
    let u := u.conflict r.holder [block] true
    ({ u with caches := { u.caches with
      tokens := dropTokens u.caches.tokens (u.caches.l1.filter (fun l => !kept l)), l1 := u.caches.l1.filter kept } } : State).sign
        r.holder [block] r.write

/-- Activations of a block until the request of `holder` has been served, at most `n`. -/
def State.serve (holder block : Nat) : Nat → State → State
  | 0, s => s
  | n + 1, s =>
    if s.caches.persist.any (fun r => r.block == block && r.holder == holder) then State.serve holder block n (s.activate block) else s

/-- An access's request for a block whose tokens its core lacks: it collects them by a transient attempt, or after 4 attempts or 512 mesh
clocks it becomes persistent and is served behind the requests that arrived before it. How many attempts fail is timing, a free choice
(assumption log 86). -/
def State.persistFor (s : State) (holder write block : Nat) : State :=
  let w := decide (write = 1)
  let u := if lacks s holder block w && decide (Config.choice (2 ^ 60 * (s.free + 1) + 2 * block + write) % 5 = 4) then
      State.serve holder block (s.caches.persist.length + 1) (s.request holder block w)
    else s
  { s with caches := { s.caches with
    persist := u.caches.persist, tokens := u.caches.tokens, l1 := u.caches.l1, rdSig := u.caches.rdSig, wrSig := u.caches.wrSig } }

/-- Whether a holder has every token of a line's two blocks. -/
def holdsAll (s : State) (holder b : Nat) : Bool :=
  [b, b + 1].all (fun k => s.caches.tokens.any (fun t => t.holder == holder && t.block == k && t.count == 256))

/-! ## The version cache's trunk lines (R167, R168, R216) -/

/-- The trunk line a set of the version cache gives up, as `l1Victim`. -/
def homeVictim : List HomeLine → Option HomeLine
  | [] => none
  | l :: ls => match homeVictim ls with
    | none => some l
    | some v => if l.prio.toNat < v.prio.toNat then some l else some v

/-- Trunk lines leave the set of `line` until it holds at most 16 lines; with no more in the whole part the hash is not asked. -/
def State.fitHomes (line : Nat) : Nat → State → State
  | 0, s => s
  | n + 1, s =>
    let ws := wayLines s
    if s.caches.homes.length + ws.length ≤ 16 then s
    else
      let mine := s.caches.homes.filter (fun h => setOf h.line == setOf line)
      if mine.length + (ws.filter (fun w => setOf w.2.2 == setOf line)).length ≤ 16 then s
      else match homeVictim mine with
        | none => s
        | some v => State.fitHomes line n { s with caches := { s.caches with homes := s.caches.homes.filter (fun h => h.line != v.line) } }

/-- A line reaches its home slice with a retention priority: a version keeps its way, else the trunk's line stands in the version cache. -/
def State.touchHome (s : State) (a : Acc) (prio : BitVec 3) (line : Nat) : State :=
  if a.pennant = 0 ∨ verOf s a.ctx a.pennant line = none then State.fitHomes line 17 { s with caches := { s.caches with
    homes := { line := line, prio := prio } :: s.caches.homes.filter (fun h => h.line != line) } }
  else { s with caches := { s.caches with vers := s.caches.vers.map (fun v =>
    if v.ctx == a.ctx && v.pennant == a.pennant && v.line == line then { v with prio := prio } else v) } }

/-! ## Collecting a line (R167, R168, R204, R206) -/

/-- A line is accessed at its home slice, by a unit that has no L1: a write takes every token home (R204). -/
def State.atHome (s : State) (a : Acc) (prio : BitVec 3) (write : Bool) (line : Nat) : State :=
  let b := blockAt a.ctx a.pennant (128 * line)
  let s := s.conflict a.core [b, b + 1] write
  let s := if write then s.giveUp (fun c p l => l == line && sameTag c p a.ctx a.pennant)
    else { s with caches := { s.caches with tokens := homeToken (homeToken s.caches.tokens b) (b + 1) } }
  s.touchHome a prio line

/-- A miss of a core's L1 is counted and reaches the line's home slice; a hit does nothing. -/
def State.missed (s : State) (a : Acc) (prio : BitVec 3) (line : Nat) : State :=
  if s.caches.l1.any (fun l => l.core == a.core && l.block == blockAt a.ctx a.pennant (128 * line)) then s
  else (s.bump a.ctx 11 1).touchHome a prio line

/-- A line stands in a core's L1 with the tokens its access needs; its victim and what other cores surrender give their tokens back. -/
def State.bring (s : State) (a : Acc) (prio : BitVec 3) (write : Bool) (line : Nat) : State :=
  let b := blockAt a.ctx a.pennant (128 * line)
  let mine (l : L1Line) : Bool := l.core == a.core && l.block == b
  let dirty := write || s.caches.l1.any (fun l => mine l && l.dirty)
  let s := s.conflict a.core [b, b + 1] write
  let rest := s.caches.l1.filter (fun l => !mine l)
  let held := rest.filter (fun l => l.core == a.core)
  let gone := if l1Lines s a.core ≤ held.length then (l1Victim held).toList else []
  let new : L1Line := { core := a.core, ctx := a.ctx, pennant := a.pennant, line := line, prio := prio, dirty := dirty }
  ({ s with caches := { s.caches with
    l1 := new :: rest.filter (fun l => !gone.contains l)
    tokens := takeTokens (takeTokens (dropTokens s.caches.tokens gone) a.core b write) a.core (b + 1) write } } : State).sign
      a.core [b, b + 1] write

/-- A line is collected: by a core for its L1, where its two blocks' tokens may need persistent requests (R205); by other units at home. -/
def State.collect (s : State) (a : Acc) (prio : BitVec 3) (write : Bool) (line : Nat) : State :=
  if Config.numCores ≤ a.core then s.atHome a prio write line
  else
    let b := blockAt a.ctx a.pennant (128 * line)
    let w := if write then 1 else 0
    (((s.missed a prio line).persistFor a.core w b).persistFor a.core w (b + 1)).bring a prio write line

/-- The lines of [pa, pa + n). -/
def linesOf (pa n : Nat) : List Nat :=
  if n = 0 then [] else (List.range (lineOf (pa + n - 1) - lineOf pa + 1)).map (fun i => lineOf pa + i)

/-- The trunk's blocks of those lines. -/
def trunkBlocks (pa n : Nat) : List Nat := (linesOf pa n).flatMap (fun l => [2 * l, 2 * l + 1])

/-- Every cached copy of the trunk's lines of [pa, pa + n) is given up, for a write at the home slice, and what its requests conflict with. -/
def State.recall (s : State) (pa n : Nat) : State :=
  (s.conflict Config.numCores (trunkBlocks pa n) true).giveUp (fun _ p l => p == 0 && overlaps (128 * l) 128 pa n)

/-! ## The write-combining buffers (R170) -/

/-- The bytes of a buffered line by address, newest first. -/
def WcLine.cells (l : WcLine) : List (Nat × Byte) := l.bytes.map (fun b => (128 * l.line + b.off, b.val))

/-- Bytes of core `core`'s write-combining lines laid over `old` (R170). -/
def wcMerge (s : State) (core c p pa : Nat) (old : List Byte) : List Byte :=
  s.caches.wc.foldl (fun bs l =>
    if l.core == core && sameTag l.ctx l.pennant c p && overlaps (128 * l.line) 128 pa bs.length then
      overlayCells pa bs l.cells
    else bs) old

/-- The state with pennant `p`'s version of a line replaced. -/
def State.setVer (s : State) (c p line : Nat) (data : List Byte) : State :=
  { s with caches := { s.caches with
    vers := s.caches.vers.map (fun v => if v.ctx == c && v.pennant == p && v.line == line then { v with data := data } else v) } }

/-- A log cut in two, newest entry first: what stays, and the entries of a pennant's line that a store to the ranges `rs` folds, which are
those for its bytes and any older ones for bytes of those. -/
def splitLogs (c p line : Nat) : List SpecLog → List (Nat × Nat) → List SpecLog × List SpecLog
  | [], _ => ([], [])
  | l :: ls, rs =>
    if l.ctx == c && l.pennant == p && lineOf l.pa == line && rs.any (fun r => overlaps l.pa l.size r.1 r.2) then
      let k := splitLogs c p line ls ((l.pa, l.size) :: rs)
      (k.1, l :: k.2)
    else
      let k := splitLogs c p line ls rs
      (l :: k.1, k.2)

/-- The log entries for the bytes of the ranges `rs` of a line are folded into its version in log order and leave the log (R214). -/
def State.foldLogs (s : State) (c p line : Nat) (rs : List (Nat × Nat)) : State :=
  match verOf s c p line with
  | some v =>
    let k := splitLogs c p line s.caches.logs.reverse rs
    let s' := s.setVer c p line (k.2.reverse.foldl (applyLog line) v.data)
    { s' with caches := { s'.caches with logs := k.1.reverse } }
  | none => s

/-- The bytes of a drained line performed, once its core holds the line's tokens: into memory, or into the pennant's version while that
stands, after the log entries for them (R214). -/
def State.landLine (s : State) (l : WcLine) : State :=
  let s := s.collect { core := l.core, slot := 0, ctx := l.ctx, pennant := l.pennant, team := false } l.prio true l.line
  if l.pennant = 0 then { s with mem := l.cells.foldr (fun b m => sset 0 m b.1 b.2) s.mem }
  else
    let s := s.foldLogs l.ctx l.pennant l.line (l.cells.map (fun b => (b.1, 1)))
    match verOf s l.ctx l.pennant l.line with
    | some v => s.setVer l.ctx l.pennant l.line (overlayCells (128 * l.line) v.data l.cells)
    | none => s

/-- Whether two buffered lines are of the same block. -/
def WcLine.same (l k : WcLine) : Bool := l.line == k.line && sameTag l.ctx l.pennant k.ctx k.pennant

/-- The buffered lines `f` selects drain, oldest first. The request of each drains what other cores hold of its block with it (R170). -/
def State.drainWc (s : State) (f : WcLine → Bool) : State :=
  let picked := s.caches.wc.filter f
  let hit (l : WcLine) : Bool := picked.any (fun k => k.same l)
  let s' := (s.caches.wc.filter hit).foldl State.landLine s
  { s' with caches := { s'.caches with wc := s'.caches.wc.filter (fun l => !hit l) } }

/-- Every buffered line of a core drains. -/
def State.drainCore (s : State) (core : Nat) : State := s.drainWc (fun l => l.core == core)

/-- The trunk's buffered lines that overlap [pa, pa + n) drain, whichever core holds them. -/
def State.drainAt (s : State) (pa n : Nat) : State := s.drainWc (fun l => l.pennant == 0 && overlaps (128 * l.line) 128 pa n)

/-- The lines of an access's block that its own core buffers drain (R170). -/
def State.drainMine (s : State) (a : Acc) (pa n : Nat) : State :=
  s.drainWc (fun l => l.core == a.core && sameTag l.ctx l.pennant a.ctx a.pennant && overlaps (128 * l.line) 128 pa n)

/-- Stored bytes laid over a line's: those of the same offset and slot give way. -/
def mergeCells (old new : List WcByte) : List WcByte :=
  new ++ old.filter (fun b => new.all (fun c => c.off != b.off || c.slot != b.slot))

/-- A line's worth of a lane store enters the buffer; a full buffer first drains its oldest line (R170). -/
def State.wcPut (s : State) (a : Acc) (prio : BitVec 3) (line : Nat) (cells : List (Nat × Byte)) : State :=
  let bytes : List WcByte := cells.map (fun c => { off := c.1, val := c.2, slot := a.slot, ctx := a.ctx })
  let mine (l : WcLine) : Bool := l.core == a.core && sameTag l.ctx l.pennant a.ctx a.pennant && l.line == line
  if s.caches.wc.any mine then
    { s with caches := { s.caches with wc := s.caches.wc.map (fun l =>
      if mine l then { l with bytes := mergeCells l.bytes bytes, prio := prio } else l) } }
  else
    let held := s.caches.wc.filter (fun l => l.core == a.core)
    let s := match held with
      | o :: _ => if 4 ≤ held.length then s.drainWc (fun l => l == o) else s
      | [] => s
    let new : WcLine :=
      { core := a.core, ctx := a.ctx, pennant := a.pennant, line := line, bytes := bytes, prio := prio, since := s.clk }
    { s with caches := { s.caches with wc := s.caches.wc ++ [new] } }

/-! ## An access's line (R167, R170, R204) -/

/-- A request for a line that goes out of its core first drains what other cores buffer of the block (R170). -/
def State.callIn (s : State) (a : Acc) (write : Bool) (line : Nat) : State :=
  let b := blockAt a.ctx a.pennant (128 * line)
  let here := s.caches.l1.any (fun l => l.core == a.core && l.block == b) && (!write || holdsAll s a.core b)
  s.drainWc (fun l => l.core != a.core && l.line == line && sameTag l.ctx l.pennant a.ctx a.pennant && !here)

/-- A pennant without a version of a line accesses the trunk's, which every core's buffer gives up first (R170, R214). -/
def State.callTrunk (s : State) (a : Acc) (line : Nat) : State :=
  if a.pennant ≠ 0 ∧ verOf s a.ctx a.pennant line = none then s.drainWc (fun l => l.pennant == 0 && l.line == line) else s

/-- A line of an access is collected by its core. -/
def State.touchLine (s : State) (a : Acc) (prio : BitVec 3) (write : Bool) (line : Nat) : State :=
  ((s.callIn a write line).callTrunk a line).collect a prio write line

/-- Every line of an access is touched; only GDDR-7 of this part is cached (R209). -/
def State.touch (s : State) (a : Acc) (prio : BitVec 3) (write : Bool) (pa n : Nat) : State :=
  if regionOf s.win.memCode pa = .gddr then (linesOf pa n).foldl (fun s l => s.touchLine a prio write l) s else s

/-! ## Physical accesses (Table 15.1) -/

/-- Bytes at physical `pa`, as a coherent read of the trunk's memory returns them. -/
def physRead (a : Acc) (pa n : Nat) : Act (List Byte) := do
  let s ← get
  match regionOf s.win.memCode pa with
  | .gddr => do
    let s := s.drainAt pa n
    set s
    pure (memBytes s.mem pa n)
  | .absent => do
    change (fun s => s.dropData a.ctx pa a.core a.team)
    pure (List.replicate n 0)
  | .window => pure (windowBytes s (pa - 0xfe0000000000) n)
  | r => halt (regionStop r)

/-- Write bytes at physical `pa` to the trunk's memory, coherently. One to the register window is performed by the command core next. -/
def physWrite (a : Acc) (pa : Nat) (bs : List Byte) : Act Unit := do
  let s ← get
  match regionOf s.win.memCode pa with
  | .gddr =>
    let s := (s.drainAt pa bs.length).recall pa bs.length
    set { s with mem := memSet s.mem pa bs }
  | .absent => change (fun s => s.dropData a.ctx pa a.core a.team)
  | .window => change (fun s => s.after (windowWrites s (pa - 0xfe0000000000) bs))
  | r => halt (regionStop r)

/-- What a copy reads of the peer's memory: zeros while the link is down (R209, R320). -/
def peerRead (pa n : Nat) : Act (List Byte) := do
  let s ← get
  pure (if s.linkUp then memBytes s.peerMem pa n else List.replicate n 0)

/-- A copy's write to the peer's memory, dropped while the link is down (R209, R320). -/
def peerWrite (a : Acc) (pa : Nat) (bs : List Byte) : Act Unit :=
  change (fun s => if s.linkUp then { s with peerMem := memSet s.peerMem pa bs } else s.dropData a.ctx pa a.core a.team)

/-! ## Quanta (R202) -/

/-- Two operands of one kind merged into one (Table 9.3): add and sub add up, the others combine by their own operation. -/
def mergeQuanta (fn n : Nat) (sgn : Bool) (a b : Nat) : Nat := atomNew (if fn = 1 then 0 else fn) n sgn a b 0

/-- The operand the shares of a pending operand merge to. -/
def Quantum.val (q : Quantum) : Nat :=
  match q.shares with
  | [] => 0
  | x :: xs => xs.foldl (fun n y => mergeQuanta q.fn (8 * q.size) (atomSigned q.ty) n y.val) x.val

/-- The damaged blocks that a share of a pending operand meets (R312). -/
def Quantum.marks (s : State) (q : Quantum) : List (Nat × Nat × Nat) :=
  (q.shares.map (fun x => (q.pa / 64, q.core, x.slot))).filter s.caches.spoilt.contains

/-- The marks of some damaged blocks are gone (R312). -/
def State.unspoil (s : State) (gone : List (Nat × Nat × Nat)) : State :=
  { s with caches := { s.caches with spoilt := s.caches.spoilt.filter (fun m => !gone.contains m) } }

/-- A pending operand's value at the home slice, as one read-modify-write; the line takes the priority of its latest quantum (R168). -/
def State.performQuantum (s : State) (q : Quantum) : State :=
  let s := ((s.drainAt q.pa q.size).recall q.pa q.size).touchHome
    { core := q.core, slot := 0, ctx := q.ctx, pennant := 0, team := false } q.prio (lineOf q.pa)
  let old := leNat (memBytes s.mem q.pa q.size)
  { s with mem := memSet s.mem q.pa (leBytes q.size (atomNew q.fn (8 * q.size) (atomSigned q.ty) old q.val 0)) }

/-- A pending operand is performed whole; one that meets a damaged block is not performed, and none of it is (R202, R312). -/
def State.landQuantum (s : State) (q : Quantum) : State :=
  if (q.marks s).isEmpty then s.performQuantum q else s.unspoil (q.marks s)

/-- The pending operands `f` selects are performed. -/
def State.drainQuanta (s : State) (f : Quantum → Bool) : State :=
  let s' := (s.caches.quanta.filter f).foldl State.landQuantum s
  { s' with caches := { s'.caches with quanta := s'.caches.quanta.filter (fun q => !f q) } }

/-- Whether a pending operand carries a share of a lane. -/
def Quantum.of (q : Quantum) (slot lane : Nat) : Bool := q.shares.any (fun x => x.slot == slot && x.lane == lane)

/-- A lane's access to bytes of its own quanta performs them first (R189, R202). -/
def State.drainOwn (s : State) (core slot lane pa n : Nat) : State :=
  s.drainQuanta (fun q => q.core == core && q.of slot lane && overlaps q.pa q.size pa n)

/-- The shares of slot `slot` of a core leave its combiner unperformed (R226). -/
def dropShares (core slot : Nat) (qs : List Quantum) : List Quantum :=
  (qs.map (fun q => if q.core = core then { q with shares := q.shares.filter (fun x => x.slot != slot) } else q)).filter (fun q => !q.shares.isEmpty)

/-- The bytes slot `slot` of a core has buffered leave its buffer unperformed (R226). -/
def dropStores (core slot : Nat) (wc : List WcLine) : List WcLine :=
  (wc.map (fun l => if l.core = core then { l with bytes := l.bytes.filter (fun b => b.slot != slot) } else l)).filter (fun l => !l.bytes.isEmpty)

/-- A release at core scope or wider: the core's lines drain and its quanta are performed (R170, R202). -/
def State.releaseCore (s : State) (core scope : Nat) : State :=
  let s := s.drainCore core
  if 2 ≤ scope then s.drainQuanta (fun q => q.core == core) else s

end Sys2Proof.Machine
end

