-- ==== Sys2Proof/Machine/Teams.lean ====
section
/-! DEFINITION. Teams among the cores' slots: which team is in focus, cutting teams, dropping a pennant (§2.7, §10.7). -/

namespace Sys2Proof.Machine

/-! ## Focus -/

/-- The team resident in slot `k` of core `c`. -/
def inSlot (c k : Nat) (t : Team) : Bool := t.core == c && t.slot == k && decide (t.life ≠ .retired)

/-- Take the first team that `f` accepts out of a list. -/
def takeTeam (f : Team → Bool) : List Team → Option (Team × List Team)
  | [] => none
  | t :: ts =>
    if f t then some (t, ts)
    else match takeTeam f ts with
      | some r => some (r.1, t :: r.2)
      | none => none

/-- The teams of a list that still exist. -/
def liveTeams (ts : List Team) : List Team := ts.filter (fun t => decide (t.life ≠ .retired))

/-- Every resident team, the one in focus first. -/
def State.teams (s : State) : List Team := liveTeams (s.t :: s.others)

/-- The state with the team in slot `k` of core `c` in focus; none if the slot is empty. -/
def State.focus (s : State) (c k : Nat) : Option State :=
  if inSlot c k s.t then some s
  else match takeTeam (inSlot c k) s.others with
    | some r => some { s with t := r.1, others := liveTeams (s.t :: r.2) }
    | none => none

/-- Change the team in focus. -/
def State.upd (s : State) (f : Team → Team) : State := { s with t := f s.t }

/-- Change every team, in focus, resident elsewhere, or saved in a shadow slot. -/
def State.mapTeams (s : State) (f : Team → Team) : State :=
  { s with t := f s.t, others := s.others.map f, shadows := s.shadows.map (fun h => { h with teams := h.teams.map f }) }

/-- Teams that issue: Running or Retiring. -/
def Team.alive (t : Team) : Bool := decide (t.life = .running ∨ t.life = .retiring)

/-- The access identity of a team (R211). -/
def Team.tag (t : Team) : Acc := { core := t.core, slot := t.slot, ctx := t.ctx, pennant := t.pennant, team := true }

/-- A team's access without a tag: private and spill accesses (R175). -/
def Team.tagPriv (t : Team) : Acc := { core := t.core, slot := t.slot, ctx := t.ctx, pennant := 0, team := true }

/-- A fixed unit's access (R211, R424). -/
def fixedAcc (ctx pennant : Nat) : Acc := { core := 255, slot := 0, ctx := ctx, pennant := pennant, team := false }

/-! ## Cores and partitions (§1) -/

/-- Mesh row and column of a logical core: 12 columns (R15). -/
def coreRow (c : Nat) : Nat := c / 12
def coreCol (c : Nat) : Nat := c % 12

/-- The partition of a logical core: a 6 × 6 quadrant (R15). -/
def partitionOf (c : Nat) : Nat := 2 * (coreRow c / 6) + coreCol c / 6

/-- The cores of a cluster of r × c from its origin. -/
def clusterCores (origin r c : Nat) : List Nat :=
  (List.range r).flatMap (fun a => (List.range c).map (fun b => origin + 12 * a + b))

/-- The cores inside scope `sc` of a team (Table 9.1); a cluster of one core is the core the team stands on (R185). -/
def scopeCores (t : Team) (sc : Nat) : List Nat :=
  if sc ≤ 2 ∨ (sc = 3 ∧ t.clrows * t.clcols ≤ 1) then [t.core]
  else if sc = 3 then clusterCores t.clorg t.clrows t.clcols
  else List.range Config.numCores

/-! ## Resources of a core -/

/-- Scratchpad units of 4 KB a claim occupies (R164). -/
def claimUnits (claim : Nat) : Nat := ceilDiv claim 4096

/-- Accumulator elements of a team's shapes (R149). -/
def Team.elements (t : Team) : Nat := t.shapes.foldl (fun n e => n + e.2.1 * e.2.2) 0

/-- Scratchpad units claimed on core `c`, teams and reservations. -/
def unitsClaimed (s : State) (c : Nat) : Nat :=
  (s.teams.filter (fun t => t.core == c)).foldl (fun n t => n + claimUnits t.claim) 0 +
    (s.reserved.filter (fun r => r.1 == c)).foldl (fun n r => n + claimUnits r.2.2) 0

/-- Accumulator elements held on core `c`, those of a save or a restore under way included (R149, R301, R303). -/
def elementsHeld (s : State) (c : Nat) : Nat :=
  ((s.teams ++ (s.shadows.filter (fun h => h.pending == 1 || h.pending == 2)).flatMap (fun h => h.teams)).filter (fun t => t.core == c)).foldl
    (fun n t => n + t.elements) 0

/-- The slots of core `c` no team and no reservation holds. -/
def freeSlots (s : State) (c : Nat) : List Nat :=
  (List.range Config.numSlots).filter (fun k => !s.teams.any (inSlot c k) && !s.reserved.any (fun r => r.1 == c && r.2.1 == k))

/-- The number of the mesh clock that runs (R9): 3 · (point + 1) / 32 of them a tick. -/
def meshClock (s : State) : Nat := 3 * s.mclk / 32

/-- A slot of core `c` is taken in this mesh clock, by a move from core `by_` or, as 256, a placement. -/
def State.takeSlot (s : State) (c by_ : Nat) : State := { s with taken := s.taken.filter (fun r => r.1 != c) ++ [(c, meshClock s, by_)] }

/-- Whether a move from core `src` to core `c` comes behind a placement, or a move from a higher core, in this mesh clock, and so belongs to a
later one: in one mesh clock moves come first, the lower source core before the higher (R39, R45). -/
def tooLate (s : State) (c src : Nat) : Bool := s.taken.any (fun r => r.1 == c && r.2.1 == meshClock s && decide (src < r.2.2))

/-- The core set of a launch (R257): its clusters tile GR·r × GC·c cores from ORIGIN. -/
def Launch.cores (l : Launch) : List Nat := clusterCores l.origin (l.gr * l.clrows) (l.gc * l.clcols)

/-- Whether an aged held launch reserves what is free on core `c` (R260). -/
def agedOn (s : State) (c : Nat) : Bool := s.launches.any (fun l => decide (l.st = .held) && l.aged && l.cores.contains c)

/-- Lent units of a core, once `units` more are claimed than now, are taken back; the mesh clocks it takes are a free number within
R169's bound, counted in RECLAIM. -/
def State.reclaim (s : State) (ctx core units : Nat) : State :=
  let lent := sget 0 s.caches.lent core
  let left := 128 - unitsClaimed s core - units
  if lent ≤ left then s
  else
    let keep := 2048 + 32 * left
    let mine := s.caches.l1.filter (fun l => l.core == core)
    let gone := mine.drop keep
    let most := 32 * (lent - left) + (gone.filter (fun l => l.dirty)).length
    let s := { s with caches := { s.caches with
      lent := sset 0 s.caches.lent core left
      l1 := s.caches.l1.filter (fun l => !gone.contains l)
      tokens := dropTokens s.caches.tokens gone } }
    s.bump ctx 12 (Config.choice s.free % (most + 1))

/-! ## Cutting teams (R226) -/

/-- Launch `id` changed. -/
def State.updLaunch (s : State) (id : Nat) (f : Launch → Launch) : State :=
  { s with launches := s.launches.map (fun l => if l.id = id then f l else l) }

/-- A binding ends: its item leaves the order list; a token it holds is force-released (R275, R276). -/
def State.unbind (s : State) (b : Binding) : State :=
  let s := { s with front := { s.front with orders := s.front.orders.filter (fun i => i != b.item) } }
  if b.token && !b.lost then s.bump b.item.ctx 15 1 else s

/-- What a cut leaves of the stores: bindings unbound, cells given up, the launch's status (R226). -/
def State.cutSide (s : State) (t : Team) (status : Nat) : State :=
  let s := t.bindings.foldl State.unbind s
  s.updLaunch t.launch (fun l => { l with status := if l.status = 0 then status else l.status, cut := true })

/-- A cut team: retired, its queues, parked accesses and claims gone. -/
def Team.cutDown (t : Team) : Team :=
  { t with
    life := .retired, why := .none, tileQ := [], copyQ := [], oplog := [], sPark := .none, sFetch := .none, wait := .none, running := .none,
    waiting := [], file := [], spilled := [], paths := [], splits := [], arms := [], bindings := [], claim := 0, shapes := [], acc := [], spad := [],
    port := [], guards := [], cell := .none }

/-- Cut the teams `f` accepts, wherever they stand; their launches report `status`. -/
def State.cut (s : State) (f : Team → Bool) (status : Nat) : State :=
  let hit (t : Team) : Bool := decide (t.life ≠ .retired) && f t
  let gone := ((s.t :: s.others) ++ s.shadows.flatMap (fun h => h.teams)).filter hit
  let s' := gone.foldl (fun s t => s.cutSide t status) s
  let here := (s.t :: s.others).filter hit
  let s'' := { s' with caches := { s'.caches with
    wc := here.foldl (fun wc (t : Team) => dropStores t.core t.slot wc) s'.caches.wc
    quanta := here.foldl (fun qs (t : Team) => dropShares t.core t.slot qs) s'.caches.quanta } }
  let s3 := s''.mapTeams (fun t => if hit t then t.cutDown else t)
  { s3 with others := liveTeams s3.others, shadows := s3.shadows.map (fun h => { h with teams := liveTeams h.teams }) }

/-! ## Dropping a pennant (R225) -/

/-- Pennant `p` (1 to 7) of a context. -/
def Ctx.pen (x : Ctx) (p : Nat) : Pennant := x.pens.getD (p - 1) Pennant.reset

/-- A context with pennant `p` changed. -/
def Ctx.updPen (x : Ctx) (p : Nat) (f : Pennant → Pennant) : Ctx := { x with pens := updNth x.pens (p - 1) f }

/-- The pennants of a context in a state, ascending. -/
def Ctx.pensIn (x : Ctx) (st : PState) : List Nat :=
  ((List.range 7).map (· + 1)).filter (fun p => decide ((x.pen p).st = st))

/-- Whether a team issues no access to memory while its pennant's COMMIT is under way (R222). -/
def frozen (s : State) (t : Team) : Bool := decide (t.pennant ≠ 0 ∧ ((ctxOf s t.ctx).pen t.pennant).st = .committing)

/-- A launch that is over before it was accepted: only its status remains to be written. -/
def Launch.spent (id ctx : Nat) (stat : DWord) (status : Nat) : Launch :=
  { id := id, ctx := ctx, queue := none, st := .running, since := 0, mclk0 := 0, aged := false, holdClass := none, fclass := 0, pennant := 0,
    entry := 0, gmax := 0, nregs := 2, priv := 0, claim := 0, args := 0, origin := 0, clrows := 1, clcols := 1, gr := 1, gc := 1,
    ext := (0, 0, 0), stat := stat, pattern := 0, cover0 := 0, phase := 0, cblk := 0, cov := none, mapBytes := [],
    latched := [], facc := 0, eprev := 0, errS := 0, errN := 0, updates := 0, unrec := 0, next := 0, covers := [],
    finished := [], done := [], status := status, cut := true, pc := 0, stuck := [], lost := [] }

/-- PENNANT of a launch packet or record (Table 12.4). -/
def packetPennant (p : Packet) : Nat := (p.d0.extractLsb' 12 3).toNat

/-- The front end without what pennant `p` of context `c` has in it. -/
def Front.without (f : Front) (c p : Nat) : Front :=
  let keep (lc lp : Nat) : Bool := !(lc == c && lp == p)
  { f with
    ring := f.ring.filter (fun r => keep r.ctx r.pennant)
    prims := f.prims.filter (fun b => keep b.ctx b.pennant)
    bins := f.bins.filter (fun b => keep b.ctx b.pennant)
    raster := f.raster.filter (fun i => keep i.2.ctx i.2.pennant)
    pixels := f.pixels.filter (fun i => keep i.2.ctx i.2.pennant)
    orders := f.orders.filter (fun i => keep i.ctx i.pennant) }

/-- A shadow slot without it. -/
def Shadow.without (h : Shadow) (c p : Nat) : Shadow :=
  let f := Front.without { Front.reset with ring := h.ring, prims := h.prims, bins := h.bins, raster := h.raster, pixels := h.pixels } c p
  { h with ring := f.ring, prims := f.prims, bins := f.bins, raster := f.raster, pixels := f.pixels }

/-- The record of a context's store that a parked acceptance holds (R259, R424). -/
def FixedPark.stored (f : FixedPark) : Option Packet :=
  match f.work with
  | .again (.launchPacket q p) => if Config.numQueues ≤ q then some p else none
  | _ => none

/-- Drop(p): everything of pennant `p` of context `c` is cut or discarded, and it is Dropping (R225). A launch of `p` that has no team left
and waits for Fondant alone ends with status 8 too (assumption log 39); the places its records leave in the store are the overflow
list's (R263). -/
def State.dropPennant (s : State) (c p : Nat) (auto : Bool) : State :=
  let s := (s.cut (fun t => t.ctx == c && t.pennant == p) 8).giveUp (fun lc lp _ => lc == c && lp == p)
  let keep (lc lp : Nat) : Bool := !(lc == c && lp == p)
  let held (f : FixedPark) : Option Packet :=
    if f.ctx = c then f.stored.bind (fun r => if packetPennant r = p then some r else none) else none
  let gone := s.store.filter (fun r => r.ctx == c && packetPennant r.pkt == p)
  let lost := gone.map (fun r => r.pkt) ++ s.fixed.filterMap held
  let s := { s with
    caches := { s.caches with
      wc := s.caches.wc.filter (fun l => keep l.ctx l.pennant)
      vers := s.caches.vers.filter (fun v => keep v.ctx v.pennant)
      logs := s.caches.logs.filter (fun l => keep l.ctx l.pennant)
      samp := s.caches.samp.filter (fun l => keep l.ctx l.pennant) }
    front := s.front.without c p
    shadows := s.shadows.map (fun (h : Shadow) => h.without c p)
    fixed := s.fixed.filter (fun f => keep f.ctx f.pennant && (held f).isNone)
    store := s.store.filter (fun r => !(r.ctx == c && packetPennant r.pkt == p))
    launches := s.launches.map (fun (l : Launch) =>
      if l.ctx = c ∧ l.pennant = p then { l with st := LaunchSt.running, cut := true, status := if l.status = 0 then 8 else l.status } else l) ++
      lost.mapIdx (fun i (r : Packet) => Launch.spent (s.nextLaunch + i) c r.d7 8)
    nextLaunch := s.nextLaunch + lost.length }
  s.updCtx c (fun x => { x with ovOwed := min (x.ovOwed + gone.length) (x.ovTail - x.ovHead) }.updPen p (fun n =>
    { n with st := .dropping, pushes := [], flips := [], auto := auto, unsaid := auto }))

/-- The Live pennant an automatic squash takes (R232): a NaN score first, then the highest score, then the higher number. -/
def Ctx.lowest (x : Ctx) : Option Nat :=
  let live := x.pensIn .live
  let worse (a b : Nat) : Bool :=   -- b is worse than a
    match (x.pen a).score, (x.pen b).score with
    | some u, some v =>
      let fu := f32Nan u
      let fv := f32Nan v
      if fu || fv then fv else !f32Less v u
    | _, _ => true
  live.foldl (fun best p => match best with
    | none => some p
    | some b => if worse b p then some p else some b) none
where
  /-- Whether f32 bits are a NaN. -/
  f32Nan (u : Word) : Bool := decide (0x7f800000 < u.toNat % 2 ^ 31)
  /-- u < v as f32 numbers, neither a NaN. -/
  f32Less (u v : Word) : Bool :=
    let key (w : Word) : Int := if w.getLsbD 31 then -((w.toNat % 2 ^ 31 : Nat) : Int) else (w.toNat : Int)
    decide (key u < key v)

/-- Whether pennant `p` of a context has been dropped while an access under it was under way (R232). -/
def pennantGone (s : State) (c p : Nat) : Bool := decide (p ≠ 0 ∧ ((ctxOf s c).pen p).st = .dropping)

/-- Automatic squashes in context `c` until the set of `line` has a free way or the access's own pennant `own` is squashed, at most `n`
(R232). -/
def State.autoSquash (c own line : Nat) : Nat → State → State
  | 0, s => s
  | n + 1, s =>
    if waysUsed s line < 12 || pennantGone s c own then s
    else match (ctxOf s c).lowest with
      | none => s
      | some p => State.autoSquash c own line n ((s.dropPennant c p true).interrupt 5)

end Sys2Proof.Machine
end

