-- ==== Sys2Proof/Machine/Translate.lean ====
section
/-! DEFINITION. Translation of virtual addresses (§14.1 to §14.3). -/

namespace Sys2Proof.Machine

/-- The access classes of R284 and of the ACCESS field of a fault record (Table 14.4). -/
inductive AKind where
  | load
  | store
  | atomic
  | fetch
  | engRead
  | engWrite
  | fixRead
  | fixWrite
  deriving DecidableEq, Repr

/-- The ACCESS code of Table 14.4. -/
def AKind.code : AKind → Nat
  | .load => 0
  | .store => 1
  | .atomic => 2
  | .fetch => 3
  | .engRead => 4
  | .engWrite => 5
  | .fixRead => 6
  | .fixWrite => 6

/-- Whether an access of the class writes. -/
def AKind.writes : AKind → Bool
  | .store => true
  | .atomic => true
  | .engWrite => true
  | .fixWrite => true
  | _ => false

/-- Whether the class is CPY's, which alone reaches peer memory (R209). -/
def AKind.copies : AKind → Bool
  | .engRead => true
  | .engWrite => true
  | _ => false

/-- A failed translation: its cause, the ADDR of its record, WALK and LEVEL (Tables 14.3, 14.4). -/
structure TFault where
  cause : Nat
  addr : DWord
  walk : Bool
  level : Nat
  va : DWord                -- the virtual address that faulted: `addr` but for a walk fault
  deriving DecidableEq, Repr

/-- Whether a cause is replayable (Table 14.3). -/
def TFault.replayable (f : TFault) : Bool := decide (0x20 ≤ f.cause)

/-- A canonical address: bits [63:57] all equal bit 56 (R281). -/
def canonical (va : DWord) : Bool := decide (va.toNat < 2 ^ 56 ∨ 2 ^ 64 - 2 ^ 56 ≤ va.toNat)

/-- A fault at a virtual address. -/
def faultAt (va : DWord) (cause : Nat) : TFault := { cause := cause, addr := va, walk := false, level := 0, va := va }

/-- The rights an access needs of a leaf (R284): P, W, X bits of Table 14.1. -/
def AKind.rightsOk (k : AKind) (e : DWord) : Bool :=
  match k with
  | .atomic => e.getLsbD 2 && e.getLsbD 3
  | .fetch => e.getLsbD 4
  | .store => e.getLsbD 3
  | .engWrite => e.getLsbD 3
  | .fixWrite => e.getLsbD 3
  | _ => e.getLsbD 2

/-- The first check a valid leaf fails for an access: migrating, permission, peer-access, pennant-use (R284). -/
def leafCause (k : AKind) (pennant : Nat) (e : DWord) : Option Nat :=
  if e.getLsbD 53 then some 0x22
  else if !k.rightsOk e then some 0x21
  else if bits e.toNat 10 2 = 2 ∧ !k.copies then some 0x0a
  else if k.writes ∧ pennant ≠ 0 ∧ (!e.getLsbD 5 ∨ bits e.toNat 10 2 = 2) then some 0x08
  else none

/-- Leaves in a run by level and CONT (R283); none: no such run. -/
def runLeaves (lvl cont : Nat) : Option Nat :=
  match lvl, cont with
  | _, 0 => some 1
  | 0, 1 => some 4
  | _, 2 => some 16
  | _, _ => none

/-- The physical address that the leaf of index `k` of its level gives `va` (R283): its PA less its offset in its run, and the offset of `va`;
none: its PA is not aligned. -/
def leafPa (lvl : Nat) (e : DWord) (k va : Nat) : Option Nat :=
  let size := 2 ^ (12 + 9 * lvl)
  let pa := bits e.toNat 12 36 * 4096
  match runLeaves lvl (bits e.toNat 8 2) with
  | none => none
  | some n =>
    if pa % size ≠ 0 ∨ pa < k % n * size ∨ (pa - k % n * size) % (n * size) ≠ 0 then none
    else some (pa - k % n * size + va % (n * size))

/-- What a table entry is at its level (R282, R291). -/
inductive EntryIs where
  | leaf
  | node (pa : Nat)
  | bad (cause : Nat) (walk : Bool)
  deriving DecidableEq, Repr

/-- Read a table entry (R282, R283, R291). -/
def entryIs (lvl : Nat) (e : DWord) (k : Nat) : EntryIs :=
  if !e.getLsbD 0 then .bad 0x20 false
  else if bits e.toNat 54 10 ≠ 0 ∨ bits e.toNat 10 2 = 3 then .bad 0x25 false
  else if e.getLsbD 1 then
    if 3 ≤ lvl ∨ bits e.toNat 51 2 ≠ 0 ∨ leafPa lvl e k 0 = none then .bad 0x25 false else .leaf
  else if lvl = 0 ∨ 2 ≤ bits e.toNat 51 2 then .bad 0x25 false
  else if bits e.toNat 51 2 = 1 ∨ e.getLsbD 53 ∨ bits e.toNat 10 2 = 2 then .bad 0x23 true
  else .node (bits e.toNat 12 36 * 4096)

/-- A leaf found by a walk: its level, the address of its entry, its index among the leaves of its level, the entry. -/
structure Leaf where
  lvl : Nat
  at_ : Nat
  idx : Nat
  entry : DWord
  deriving DecidableEq, Repr

/-- Granule number of an address at level `lvl`. -/
def vpnAt (lvl : Nat) (va : DWord) : Nat := bits va.toNat 0 57 / 2 ^ (12 + 9 * lvl)

/-- A free number for one access: a lane's (0: no lane) at an address (R283). -/
def accessChoice (s : State) (lane : Option Nat) (va : DWord) : Nat :=
  Config.choice (2 ^ 80 * (s.free + 1) + 2 ^ 64 * (lane.elim 0 (· + 1)) + va.toNat)

/-- A table entry's access: a relaxed read under the trunk (R281). -/
def Acc.walk (a : Acc) : Acc := { a with pennant := 0, team := false }

/-- What a table entry's read would return now. -/
def peekEntry (s : State) (a : Acc) (addr : Nat) : Option DWord :=
  match physRead a.walk addr 8 s with
  | .ok (bs, _) => some (BitVec.ofNat 64 (leNat bs))
  | .error _ => none

/-- The index of the entry a walk reads at level `lvl` of node `node`, as the number of a leaf of its level: the one the address indexes, or,
where that is a leaf of a run, by the free number `c` any valid entry of the run (R283). -/
def walkIndex (s : State) (a : Acc) (lvl node c : Nat) (va : DWord) : Nat :=
  let k := vpnAt lvl va
  let at_ (i : Nat) : Nat := node + 8 * (i % 512)
  let cont (e : DWord) : Nat := bits e.toNat 8 2
  match peekEntry s a (at_ k) with
  | none => k
  | some e =>
    match entryIs lvl e k, runLeaves lvl (cont e) with
    | .leaf, some n =>
      let i := k / n * n + c % n
      match peekEntry s a (at_ i) with
      | some f => if entryIs lvl f i = .leaf ∧ cont f = cont e then i else k
      | none => k
    | _, _ => k

/-- The walk of R281 from a node at level `lvl`: one entry is read at each level, the leaf's chosen by `c` (R283). No
walk cache stands between (assumption log 91). -/
def walkFrom (a : Acc) (c : Nat) (va : DWord) : Nat → Nat → Act (Except TFault Leaf)
  | lvl, node => do
    let s ← get
    let k := walkIndex s a lvl node c va
    let addr := node + 8 * (k % 512)
    let bs ← physRead a.walk addr 8
    let e : DWord := BitVec.ofNat 64 (leNat bs)
    match entryIs lvl e k with
    | .leaf => pure (.ok { lvl := lvl, at_ := addr, idx := k, entry := e })
    | .bad c w =>
      if w then pure (.error { cause := c, addr := BitVec.ofNat 64 (bits e.toNat 12 36 * 4096), walk := true, level := lvl - 1, va := va })
      else pure (.error (faultAt va c))
    | .node pa =>
      match lvl with
      | 0 => pure (.error (faultAt va 0x25))
      | l + 1 => walkFrom a c va l pa

/-- OR bits into a table entry in memory (R285). -/
def orEntry (a : Acc) (addr : Nat) (m : DWord) : Act Unit := do
  let bs ← physRead a.walk addr 8
  physWrite a.walk addr (leBytes 8 (leNat bs ||| m.toNat))

/-- A leaf enters core `c`'s page TLB of 2,048 entries; the oldest of a full TLB leaves (assumption log 10). -/
def State.tlbPut (s : State) (e : TlbEnt) : State :=
  let kept := s.caches.tlb.filter (fun x => !(x.core == e.core && x.ctx == e.ctx && x.at_ == e.at_))
  let mine := kept.filter (fun x => x.core == e.core)
  let rest := if 2048 ≤ mine.length then
      match mine.head? with
      | some o => kept.erase o
      | none => kept
    else kept
  { s with caches := { s.caches with tlb := rest ++ [e] } }

/-- How many leaves a page-TLB entry serves: those of its run (R283). -/
def TlbEnt.run (e : TlbEnt) : Nat := (runLeaves e.lvl (bits e.entry.toNat 8 2)).getD 1

/-- The page-TLB entries of a core that translate `va`: entries of any leaf of its run (R283, R288). -/
def tlbHits (s : State) (a : Acc) (va : DWord) : List TlbEnt :=
  s.caches.tlb.filter (fun e => e.core == a.core && e.ctx == a.ctx && e.vpn / e.run == vpnAt e.lvl va / e.run)

/-- The page-TLB entry that serves an access; of a run, by the free number `c`, any that the TLB holds, or none: the access walks (R283). -/
def tlbFind (s : State) (a : Acc) (c : Nat) (va : DWord) : Option TlbEnt :=
  match tlbHits s a va with
  | [] => none
  | e :: es => if e.run ≤ 1 then some e else (e :: es)[c % (es.length + 2)]?

/-- The range entry that covers `va`, the lowest of a context (R288). -/
def rangeFind (x : Ctx) (va : DWord) : Option RangeEnt :=
  x.ranges.find? (fun r => r.perm.getLsbD 0 && decide (r.vbase.toNat ≤ va.toNat ∧ va.toNat < r.vlim.toNat))

/-- A last-page register that holds nothing. -/
def LastPage.none : LastPage := { vpn := 0, ppn := 0, bits := 0 }

/-- Refill a lane's last-page register (R287). -/
def State.refill (s : State) (lane : Option Nat) (va : DWord) (pa : Nat) (e : DWord) : State :=
  match lane with
  | .none => s
  | some i => s.upd (fun t => { t with lastPages := sset LastPage.none t.lastPages i { vpn := vpnAt 0 va, ppn := pa / 4096, bits := e } })

/-- Whether a lane's last-page register serves an access (R287). -/
def lastPageHit (s : State) (k : AKind) (pennant : Nat) (lane : Option Nat) (va : DWord) : Option Nat :=
  match lane with
  | .none => .none
  | some i =>
    let r := sget LastPage.none s.t.lastPages i
    if r.bits.getLsbD 0 && r.vpn == vpnAt 0 va && decide (leafCause k pennant r.bits = .none) && (!k.writes || r.bits.getLsbD 7) then
      some (r.ppn * 4096 + va.toNat % 4096)
    else .none

/-- A physical address as an entry gives it; the peer's memory is reached only through an entry of MT 2 (R304). -/
def mapped (e : DWord) (pa : Nat) : Act (Except TFault Nat) := do
  let s ← get
  if regionOf s.win.memCode pa = .peer ∧ bits e.toNat 10 2 ≠ 2 then halt (regionStop .peer) else pure (.ok pa)

/-- A leaf serves an access: its checks, its D bit, its address (R284, R285). `cached`: it stands in the TLB. -/
def useLeaf (a : Acc) (k : AKind) (lane : Option Nat) (va : DWord) (l : Leaf) (cached : Bool) : Act (Except TFault Nat) := do
  match leafCause k a.pennant l.entry, leafPa l.lvl l.entry l.idx (bits va.toNat 0 57) with
  | some c, _ => pure (.error (faultAt va c))
  | .none, .none => pure (.error (faultAt va 0x25))
  | .none, some pa => do
    let needD := k.writes && !l.entry.getLsbD 7
    let m : DWord := (if cached then 0 else 0x40) ||| (if needD then 0x80 else 0)
    let e : DWord := l.entry ||| m
    if m ≠ 0 then orEntry a l.at_ m else pure ()
    let ent : TlbEnt := { core := a.core, ctx := a.ctx, vpn := l.idx, lvl := l.lvl, entry := e, at_ := l.at_ }
    if !cached then change (fun s => s.tlbPut ent)
    else change (fun s => { s with caches := { s.caches with
      tlb := s.caches.tlb.map (fun x => if x.core == a.core && x.ctx == a.ctx && x.at_ == l.at_ then ent else x) } })
    change (fun s => s.refill lane va pa e)
    mapped e pa

/-- Whether a cached leaf's D bit must be set while its entry in memory is no longer valid: the walk then restarts (R285). -/
def staleLeaf (a : Acc) (k : AKind) (e : TlbEnt) : Act Bool := do
  if k.writes && !e.entry.getLsbD 7 then do
    let now ← physRead a.walk e.at_ 8
    pure (!(leNat now).testBit 0)
  else pure false

/-- A translation by a walk from the context's root (R281). -/
def walkFor (a : Acc) (k : AKind) (lane : Option Nat) (va : DWord) : Act (Except TFault Nat) := do
  let s ← get
  match ← walkFrom a (accessChoice s lane va) va 4 (ctxOf s a.ctx).root.toNat with
  | .error f => pure (.error f)
  | .ok l => useLeaf a k lane va l false

/-- A translation by a range entry, whose PERM is coded in bits [11:0] as Table 14.1 (R288). -/
def useRange (a : Acc) (k : AKind) (lane : Option Nat) (va : DWord) (r : RangeEnt) : Act (Except TFault Nat) := do
  let perm : DWord := r.perm &&& 0xfff
  match (if bits perm.toNat 10 2 = 3 then some 0x25 else leafCause k a.pennant perm) with
  | some c => pure (.error (faultAt va c))
  | .none => do
    let pa := (r.pbase.toNat + (va.toNat - r.vbase.toNat)) % 2 ^ 48
    change (fun s => s.refill lane va pa (perm ||| 0x80))
    mapped perm pa

/-- A cached leaf serves an access; one whose D bit would be set in an entry no longer valid leaves the TLB, and the walk restarts (R285). -/
def useCached (a : Acc) (k : AKind) (lane : Option Nat) (va : DWord) (e : TlbEnt) : Act (Except TFault Nat) := do
  if ← staleLeaf a k e then do
    change (fun s => { s with caches := { s.caches with tlb := s.caches.tlb.filter (fun x => !(x.ctx == a.ctx && x.at_ == e.at_)) } })
    walkFor a k lane va
  else useLeaf a k lane va { lvl := e.lvl, at_ := e.at_, idx := e.vpn, entry := e.entry } true

/-- The physical address of a virtual one, for an access of one 4 KB granule; `lane`: whose last-page register it may use. -/
def translate (a : Acc) (k : AKind) (lane : Option Nat) (va : DWord) : Act (Except TFault Nat) := do
  let s ← get
  if !canonical va then pure (.error (faultAt va 0x0b))
  else match lastPageHit s k a.pennant lane va with
    | some pa => pure (.ok pa)
    | .none =>
      match rangeFind (ctxOf s a.ctx) va with
      | some r => useRange a k lane va r
      | .none =>
        match tlbFind s a (accessChoice s lane va) va with
        | .none =>
          match tlbHits s a va, walkFor a k lane va s with
          | e :: _, .ok (.error _, _) => useCached a k lane va e
          | _, _ => walkFor a k lane va
        | some e => useCached a k lane va e

/-- An access of `n` bytes cut at granule boundaries: virtual address, bytes. -/
def pieces : Nat → DWord → Nat → List (DWord × Nat)
  | 0, _, _ => []
  | k + 1, va, n =>
    if n = 0 then []
    else
      let m := min n (4096 - va.toNat % 4096)
      (va, m) :: pieces k (va + BitVec.ofNat 64 m) (n - m)

/-- Translate every granule of an access: physical address and bytes of each, or the first fault. -/
def translatePieces (a : Acc) (k : AKind) (lane : Option Nat) : List (DWord × Nat) → Act (Except TFault (List (Nat × Nat)))
  | [] => pure (.ok [])
  | (va, n) :: ps => do
    match ← translate a k lane va with
    | .error f => pure (.error f)
    | .ok pa => do
      match ← translatePieces a k lane ps with
      | .error f => pure (.error f)
      | .ok rest => pure (.ok ((pa, n) :: rest))

/-- Translate an access of `n` bytes at `va`. -/
def translateAll (a : Acc) (k : AKind) (lane : Option Nat) (va : DWord) (n : Nat) : Act (Except TFault (List (Nat × Nat))) :=
  translatePieces a k lane (pieces (n / 4096 + 2) va n)

end Sys2Proof.Machine
end

