-- ==== Sys2Proof/Machine/Access.lean ====
section
/-! DEFINITION. Accesses to virtual memory once translated: through the L1, the write-combining buffer, versions and logs, and
the sampler path (chapters 8 to 10). -/

namespace Sys2Proof.Machine

/-! ## Versions (R214, R217) -/

/-- Whether an access's own pennant has been dropped while it was under way (R232). -/
def squashed (s : State) (a : Acc) : Bool := pennantGone s a.ctx a.pennant

/-- Pennant `a.pennant` has a version of the line afterwards, made by copying the trunk's line as a coherent read returns it, unless its
access was squashed; its retention priority is the access's (R168). -/
def State.ensureVer (s : State) (a : Acc) (prio : BitVec 3) (line : Nat) : State :=
  match verOf s a.ctx a.pennant line with
  | some _ => s
  | none =>
    let s := s.autoSquash a.ctx a.pennant line 8
    if squashed s a then s
    else
      let s := s.drainAt (128 * line) 128
      State.fitHomes line 16 { s with caches := { s.caches with vers := s.caches.vers ++
        [{ ctx := a.ctx, pennant := a.pennant, line := line, data := memBytes s.mem (128 * line) 128, prio := prio }] } }

/-- The version a store to a line under a pennant needs. -/
def State.openLine (s : State) (a : Acc) (prio : BitVec 3) (line pa n : Nat) : State :=
  if a.pennant = 0 then s else (s.ensureVer a prio line).foldLogs a.ctx a.pennant line [(pa, n)]

/-- Bytes [pa, pa + n) of one line written into the accessor's copy of it: memory, or its pennant's version. -/
def State.putLine (s : State) (a : Acc) (prio : BitVec 3) (line pa : Nat) (bs : List Byte) : State :=
  if a.pennant = 0 then { s with mem := memSet s.mem pa bs }
  else
    let s := s.openLine a prio line pa bs.length
    match verOf s a.ctx a.pennant line with
    | some v => s.setVer a.ctx a.pennant line (overlay (128 * line) v.data pa bs)
    | none => s

/-- A byte string cut at line boundaries: line, address, bytes. -/
def lineParts : Nat → Nat → List Byte → List (Nat × Nat × List Byte)
  | 0, _, _ => []
  | k + 1, pa, bs =>
    if bs.isEmpty then []
    else
      let m := min bs.length (128 - pa % 128)
      (lineOf pa, pa, bs.take m) :: lineParts k (pa + m) (bs.drop m)

/-- The line parts of `bs` at `pa`. -/
def partsAt (pa : Nat) (bs : List Byte) : List (Nat × Nat × List Byte) := lineParts (bs.length / 128 + 2) pa bs

/-! ## Reading and writing translated runs -/

/-- What the accessor reads at [pa, pa + n): its core's buffered bytes over its pennant's version, or over memory (R170, R214). -/
def viewRead (a : Acc) (pa n : Nat) : Act (List Byte) := do
  let s ← get
  match regionOf s.win.memCode pa with
  | .gddr =>
    pure (wcMerge s a.core a.ctx a.pennant pa
      (if a.pennant = 0 then memBytes s.mem pa n else pennantBytes s a.ctx a.pennant (n / 128 + 2) pa n))
  | .peer => peerRead pa n
  | _ => physRead a pa n

/-- A write that goes past the write-combining buffer: the buffered lines of the block drain first (R170). -/
def viewWrite (a : Acc) (prio : BitVec 3) (pa : Nat) (bs : List Byte) : Act Unit := do
  let s ← get
  match regionOf s.win.memCode pa with
  | .gddr =>
    let s := s.drainMine a pa bs.length
    set ((partsAt pa bs).foldl (fun s p => s.putLine a prio p.1 p.2.1 p.2.2) s)
  | .peer => peerWrite a pa bs
  | _ => physWrite a pa bs

/-- A lane store enters the write-combining buffer (R170), its version made first (R214). -/
def bufferWrite (prio : BitVec 3) (a : Acc) (pa : Nat) (bs : List Byte) : Act Unit := do
  let s ← get
  match regionOf s.win.memCode pa with
  | .gddr =>
    set ((partsAt pa bs).foldl (fun s p =>
      let s := s.openLine a prio p.1 p.2.1 p.2.2.length
      if squashed s a then s
      else s.wcPut a prio p.1 (p.2.2.mapIdx (fun i b => (p.2.1 + i - 128 * p.1, b)))) s)
  | _ => physWrite a pa bs

/-- Read translated runs in order. -/
def readRuns (a : Acc) (prio : BitVec 3) : List (Nat × Nat) → Act (List Byte)
  | [] => pure []
  | (pa, n) :: rs => do
    change (fun s => s.touch a prio false pa n)
    let bs ← viewRead a pa n
    let cs ← readRuns a prio rs
    pure (bs ++ cs)

/-- Write translated runs in order, past the write-combining buffer. -/
def writeRuns (a : Acc) (prio : BitVec 3) : List (Nat × Nat) → List Byte → Act Unit
  | [], _ => pure ()
  | (pa, n) :: rs, bs => do
    change (fun s => s.touch a prio true pa n)
    viewWrite a prio pa (bs.take n)
    writeRuns a prio rs (bs.drop n)

/-- Write translated runs in order, into the write-combining buffer; a line collects its tokens when it drains. -/
def bufferRuns (a : Acc) (prio : BitVec 3) : List (Nat × Nat) → List Byte → Act Unit
  | [], _ => pure ()
  | (pa, n) :: rs, bs => do
    bufferWrite prio a pa (bs.take n)
    bufferRuns a prio rs (bs.drop n)

/-- Read `n` bytes of virtual memory. -/
def vread (a : Acc) (k : AKind) (lane : Option Nat) (prio : BitVec 3) (va : DWord) (n : Nat) : Act (Except TFault (List Byte)) := do
  match ← translateAll a k lane va n with
  | .error f => pure (.error f)
  | .ok runs => do
    let bs ← readRuns a prio runs
    pure (.ok bs)

/-- Write bytes to virtual memory past the write-combining buffer (scalar stores, engines, fixed units). -/
def vwrite (a : Acc) (k : AKind) (prio : BitVec 3) (va : DWord) (bs : List Byte) : Act (Except TFault Unit) := do
  match ← translateAll a k none va bs.length with
  | .error f => pure (.error f)
  | .ok runs => do
    writeRuns a prio runs bs
    pure (.ok ())

/-- A lane's store to virtual memory, through the write-combining buffer. -/
def vstore (a : Acc) (lane : Nat) (prio : BitVec 3) (va : DWord) (bs : List Byte) : Act (Except TFault Unit) := do
  match ← translateAll a .store (some lane) va bs.length with
  | .error f => pure (.error f)
  | .ok runs => do
    bufferRuns a prio runs bs
    pure (.ok ())

/-! ## Atomics (R200 to R203, R217) -/

/-- An atomic on the trunk's memory: one indivisible read-modify-write (R200); in absent memory it is not performed (R312). -/
def trunkAtom (a : Acc) (fn : Nat) (ty : BitVec 5) (pa size v cmp : Nat) : Act Nat := do
  let s ← get
  let new (old : Nat) : List Byte := leBytes size (atomNew fn (8 * size) (atomSigned ty) old v cmp)
  match regionOf s.win.memCode pa with
  | .gddr =>
    let s := s.drainMine a pa size
    let old := leNat (memBytes s.mem pa size)
    set { s with mem := memSet s.mem pa (new old) }
    pure old
  | .absent => do
    let _ ← physRead a pa size
    pure 0
  | _ => do
    let bs ← physRead a pa size
    physWrite a pa (new (leNat bs))
    pure (leNat bs)

/-- A .SPEC atomic under a pennant is logged, a log line of 8 entries in a version way of its own; its old value is the pennant's view (R217).
Outside GDDR-7 of this part there is no line to log it at, and it is an atomic like any other. -/
def specAtom (a : Acc) (fn : Nat) (ty : BitVec 5) (pa size v cmp : Nat) : Act Nat := do
  let s ← get
  if regionOf s.win.memCode pa = .gddr then do
    change (fun s => s.drainMine a pa size)
    let bs ← viewRead a pa size
    change (fun s =>
      let s := if (logsOf s a.ctx a.pennant (lineOf pa)).length % 8 = 0 then s.autoSquash a.ctx a.pennant (lineOf pa) 8 else s
      if squashed s a then s
      else State.fitHomes (lineOf pa) 16 { s with caches := { s.caches with
        logs := s.caches.logs ++ [{ ctx := a.ctx, pennant := a.pennant, pa := pa, size := size, fn := fn, ty := ty, val := v, cmp := cmp }] } })
    pure (leNat bs)
  else trunkAtom a fn ty pa size v cmp

/-- A quantum enters the core's combiner (R202). -/
def State.putQuantum (s : State) (a : Acc) (prio : BitVec 3) (lane fn : Nat) (ty : BitVec 5) (pa size v : Nat) : State :=
  let same (q : Quantum) : Bool :=
    q.core == a.core && q.ctx == a.ctx && q.fn == fn && atomSigned q.ty == atomSigned ty && q.pa == pa && q.size == size
  let new : QShare := { slot := a.slot, lane := lane, val := v }
  if s.caches.quanta.any same then
    { s with caches := { s.caches with quanta := s.caches.quanta.map (fun q => if same q then { q with shares := q.shares ++ [new], prio := prio } else q) } }
  else
    { s with caches := { s.caches with quanta := s.caches.quanta ++
      [{ core := a.core, ctx := a.ctx, fn := fn, ty := ty, pa := pa, size := size, shares := [new], prio := prio, since := s.time }] } }

/-! ## The sampler path (R171, R172) -/

/-- A sampler line is filled by one coherent read of the whole line under the access's tag, before which every core that buffers the line
drains it (R170). A full cache of 256 lines gives up the line filled first (assumption log 67). -/
def fillSample (a : Acc) (line : Nat) : Act (List Byte) := do
  change (fun s => s.drainWc (fun l => l.line == line && (l.pennant == 0 || sameTag l.ctx l.pennant a.ctx a.pennant)))
  let s ← get
  let data ← match regionOf s.win.memCode (128 * line) with
    | .gddr => pure (if a.pennant = 0 then memBytes s.mem (128 * line) 128 else pennantLine s a.ctx a.pennant line)
    | _ => physRead a (128 * line) 128
  change (fun s =>
    let rest := s.caches.samp.filter (fun l => !(l.core == a.core && l.ctx == a.ctx && l.pennant == a.pennant && l.line == line))
    let held := rest.filter (fun l => l.core == a.core)
    let rest := if 256 ≤ held.length then (match held.head? with
      | some o => rest.erase o
      | none => rest) else rest
    { s with caches := { s.caches with
      samp := rest ++ [{ core := a.core, ctx := a.ctx, pennant := a.pennant, line := line, data := data }] } })
  pure data

/-- The core's copy of a line; if it has none, the line is read from its home slice with the access's priority (R168, R171). -/
def sampLine (a : Acc) (prio : BitVec 3) (line : Nat) : Act (List Byte) := do
  let s ← get
  match s.caches.samp.find? (fun l => l.core == a.core && l.ctx == a.ctx && l.pennant == a.pennant && l.line == line) with
  | some l => pure l.data
  | none => do
    change (fun s => if regionOf s.win.memCode (128 * line) = .gddr then s.touchHome a prio line else s)
    fillSample a line

/-- Bytes [pa, pa + n) through the sampler cache, over at most `k` lines. -/
def sampBytes (a : Acc) (prio : BitVec 3) : Nat → Nat → Nat → Act (List Byte)
  | 0, _, _ => pure []
  | k + 1, pa, n => do
    if n = 0 then pure []
    else
      let m := min n (128 - pa % 128)
      let l ← sampLine a prio (lineOf pa)
      let rest ← sampBytes a prio k (pa + m) (n - m)
      pure ((l.drop (pa % 128)).take m ++ rest)

/-- Read translated runs through the sampler cache. -/
def sampRuns (a : Acc) (prio : BitVec 3) : List (Nat × Nat) → Act (List Byte)
  | [] => pure []
  | (pa, n) :: rs => do
    let bs ← sampBytes a prio (n / 128 + 2) pa n
    let cs ← sampRuns a prio rs
    pure (bs ++ cs)

/-- Read `n` bytes of virtual memory through the sampler path. -/
def vsample (a : Acc) (prio : BitVec 3) (lane : Nat) (va : DWord) (n : Nat) : Act (Except TFault (List Byte)) := do
  match ← translateAll a .load (some lane) va n with
  | .error f => pure (.error f)
  | .ok runs => do
    change (fun s => runs.foldl (fun s r => s.drainOwn a.core a.slot lane r.1 r.2) s)
    let bs ← sampRuns a prio runs
    pure (.ok bs)

/-- The sampler caches of some cores are wholly invalidated (R172, R183). -/
def State.dropSamples (s : State) (cores : List Nat) : State :=
  { s with caches := { s.caches with samp := s.caches.samp.filter (fun l => !cores.contains l.core) } }

end Sys2Proof.Machine
end

