-- ==== Sys2Proof/Machine/Fields.lean ====
section
/-! DEFINITION. Which words are instructions: the fates of encodings (chapter 5), field by field, in the order of R112. -/

namespace Sys2Proof

/-- MODB of a word: bits [95:71] when I = 0 (R75); with I = 1 there is no such field, and it is read as 0 (assumption log 78). -/
def LWord.modb (w : LWord) : BitVec 25 := if w.i then 0 else w.hi.extractLsb' 7 25
/-- SRC3 of a word: bits [70:64] when I = 0. -/
def LWord.src3 (w : LWord) : BitVec 7 := if w.i then 0 else w.hi.extractLsb' 0 7
/-- The system register number of a lane SRRD or SRWR (R388). -/
def LWord.srNum (w : LWord) : BitVec 10 := w.modb.extractLsb' 0 3 ++ w.src1

/-- The X3 bit as an operand bit: with I = 1 it is tested by itself (R76). -/
def LWord.x3opd (w : LWord) : Bool := w.x3 && !w.i

namespace Machine

/-- The fate of a word that is no instruction (R102). -/
inductive Fate where
  | illegal
  | reserved
  deriving DecidableEq, Repr

/-- One failed test of a step of R112. -/
abbrev Failure := Bool × Fate

/-- R113: of the failures found at one step, Illegal wins. -/
def stepFate (fs : List Failure) : Option Fate :=
  if fs.any (fun f => f.1 && decide (f.2 = .illegal)) then some .illegal
  else if fs.any (fun f => f.1) then some .reserved
  else none

/-- R112: the first step that fails gives the cause. -/
def firstFate (steps : List (List Failure)) : Option Fate := steps.findSome? stepFate

/-- The 7-bit register field numbered `n` is a group of `k` lane registers inside the kernel's count (R76). -/
def regFits (nregs k : Nat) (f : BitVec 7) : Bool := decide (f.toNat + k ≤ nregs)

/-- Lane registers that hold one value of a TYPE (R76, R116). -/
def typeRegs (ty : Nat) : Nat :=
  if ty = 4 then 4 else if ty = 3 ∨ ty = 11 ∨ ty = 12 ∨ ty = 16 then 2 else 1

/-- How an operand position of a lane word is read (R76). -/
inductive Opd where
  /-- Not used: the specifier and its X bit are zero (R321). -/
  | zero
  /-- `n` lane registers. -/
  | v (n : Nat)
  /-- `n` lane registers, or an x register. -/
  | vx (n : Nat)
  /-- A predicate register. -/
  | p
  /-- An x register. -/
  | x
  /-- Half of a system register number (R388), tested with MODB. -/
  | num
  deriving DecidableEq, Repr

/-- Whether bits [95:64] hold an immediate (R322). -/
inductive ImmUse where
  | never
  /-- I = 1, and these bits of IMM32 are zero. -/
  | must (zero : BitVec 32)
  /-- I = 1 replaces the last source; these bits of IMM32 are then zero. -/
  | may (zero : BitVec 32)
  deriving DecidableEq, Repr

/-- The memory-field class of Table 4.5 an instruction belongs to. -/
inductive MemClass where
  | none
  | load
  | store
  | spaceLoad
  | spaceStore
  | copy
  | atomA
  | atomB
  | fence
  deriving DecidableEq, Repr

/-- What AW may be. -/
inductive AwUse where
  | zero
  | may
  | must
  deriving DecidableEq, Repr

/-- The form of a lane instruction: what its entry says of every field. -/
structure LForm where
  fn : Option Fate          -- the fate of the FN value, if it is none of the entry's
  modb : BitVec 25          -- the MODB bits the entry defines
  types : List Nat          -- the TYPE codes the entry accepts
  imm : ImmUse
  aw : AwUse
  dst : Opd
  src1 : Opd
  src2 : Opd
  src3 : Opd
  mem : MemClass
  la : Bool                 -- long-latency (R83)
  whole : Bool              -- whole-path (R77)
  deriving DecidableEq, Repr

/-- FN must be zero (R110). -/
def fnZero (fn : BitVec 3) : Option Fate := if fn = 0 then none else some .illegal

/-- FN is zero and any other value Reserved (Table 17.2, R350). -/
def fnZeroR (fn : BitVec 3) : Option Fate := if fn = 0 then none else some .reserved

/-- FN is at most `n`, the values above Reserved (R110). -/
def fnUpTo (n : Nat) (fn : BitVec 3) : Option Fate := if fn.toNat ≤ n then none else some .reserved

/-- FN[2:1] must be zero (R110). -/
def fnBit0 (fn : BitVec 3) : Option Fate := if fn.toNat ≤ 1 then none else some .illegal

/-- A form of no operand; the other forms are built from it. -/
def LForm.base (fn : BitVec 3) : LForm :=
  { fn := fnZero fn, modb := 0, types := [0], imm := .never, aw := .zero, dst := .zero, src1 := .zero, src2 := .zero,
    src3 := .zero, mem := .none, la := false, whole := false }

/-- The integer types without or with a sign (R325). -/
def intTypes : List Nat := [2, 9, 10, 3, 11, 12]
/-- The signed and unsigned integer types (Table 18.6). -/
def signTypes : List Nat := [10, 9, 12, 11]
/-- .32 and .64. -/
def bitTypes : List Nat := [2, 3]
/-- The types of FADD (Table 17.2). -/
def floatTypes : List Nat := [15, 13, 14, 16, 19, 20]
/-- .F32 .F16 .BF16 .F64. -/
def scalarFloatTypes : List Nat := [15, 13, 14, 16]
/-- The types of Table 18.3. -/
def memTypes : List Nat := [0, 5, 6, 17, 18, 1, 7, 8, 13, 14, 2, 9, 10, 15, 19, 20, 3, 11, 12, 16, 4]

/-- R346: the upper half of an .F16 or .BF16 immediate is zero (assumption log 9). -/
def floatImm (ty : Nat) : BitVec 32 := if ty = 13 ∨ ty = 14 then 0xffff0000 else 0

/-- The types of a collective operation (Table 18.8). -/
def collectiveTypes (fn : BitVec 3) : List Nat :=
  match fn.toNat with
  | 0 => intTypes
  | 1 => [10, 9, 12, 11, 15]
  | 2 => [10, 9, 12, 11, 15]
  | 6 => [15]
  | _ => bitTypes

/-- R345: the pairs of Table 16.9. -/
def cvtPair (d s : Nat) : Bool :=
  (decide (5 ≤ d ∧ d ≤ 18 ∧ 5 ≤ s ∧ s ≤ 18 ∧ d ≠ s)) || (decide ((d = 19 ∨ d = 20 ∨ (21 ≤ d ∧ d ≤ 25)) ∧ s = 15)) ||
    decide (d = 15 ∧ 21 ≤ s ∧ s ≤ 25)

/-- The form of a binary lane operation. -/
def binaryForm (fn : BitVec 3) (types : List Nat) (ty : Nat) : LForm :=
  { LForm.base fn with types := types, imm := .may 0, dst := .v (typeRegs ty), src1 := .vx (typeRegs ty), src2 := .vx (typeRegs ty) }

/-- The form of a unary lane operation. -/
def unaryForm (fn : BitVec 3) (types : List Nat) (ty : Nat) : LForm :=
  { LForm.base fn with types := types, dst := .v (typeRegs ty), src1 := .vx (typeRegs ty) }

/-- The form of a shift: a single-register count (R377). -/
def shiftForm (fn : BitVec 3) (ty : Nat) : LForm := { binaryForm fn bitTypes ty with src2 := .vx 1 }

/-- The form of a correctly rounded float operation (R354). `f64`: its f64 form is long-latency. -/
def roundForm (fn : BitVec 3) (types : List Nat) (ty : Nat) : LForm :=
  { binaryForm fn types ty with fn := fnUpTo 4 fn, imm := .may (floatImm ty), la := decide (ty = 16) }

/-- The form of an approximating instruction (R359). -/
def approxForm (fn : BitVec 3) (ty : Nat) : LForm := { unaryForm fn [15, 13] ty with fn := fnZeroR fn, la := true }

/-- The form of a barrier instruction (R328): FN 1 to 7 of ARRIVE as Illegal is the model's choice (assumption log 90). -/
def barForm (fn : BitVec 3) : LForm := { LForm.base fn with imm := .must 0xffffffe0, whole := true }

/-- The form of a memory instruction (R81): `n` data registers. -/
def memForm (fn : BitVec 3) (types : List Nat) (n : Nat) (c : MemClass) : LForm :=
  { LForm.base fn with types := types, imm := .must 0, aw := .may, dst := .v n, src1 := .vx 1, src2 := .x, mem := c, la := true }

/-- The form of a lane cube op (Table 7.4). -/
def cubeForm (fn : BitVec 3) : LForm :=
  { LForm.base fn with imm := .must 0, dst := .v 1, src1 := .vx 1, src2 := .vx 1 }

/-- What the entry of lane opcode `op` says of each field, given FN and TYPE (Table 5.5); none: opcode not assigned. EMIT's FN 4 to 7, which R265
makes Illegal and its own entry Reserved, are Reserved (R110, R351, assumption log 72). -/
def laneForm (op : Nat) (w : LWord) : Option LForm :=
  let fn := w.fn
  let ty := w.ty.toNat
  match op with
  | 0x001 => some (binaryForm fn intTypes ty)
  | 0x002 => some (binaryForm fn intTypes ty)
  | 0x003 => some (binaryForm fn intTypes ty)
  | 0x004 => some (binaryForm fn signTypes ty)
  | 0x005 => some { binaryForm fn intTypes ty with src3 := .vx (typeRegs ty) }
  | 0x006 => some { binaryForm fn signTypes ty with la := true }
  | 0x007 => some (binaryForm fn signTypes ty)
  | 0x008 => some (binaryForm fn signTypes ty)
  | 0x009 => some (unaryForm fn [10, 12, 13, 14, 15, 16, 19, 20] ty)
  | 0x00a => some (binaryForm fn intTypes ty)
  | 0x00b => some (binaryForm fn intTypes ty)
  | 0x00c => some (binaryForm fn intTypes ty)
  | 0x00d => some (binaryForm fn intTypes ty)
  | 0x00e => some (shiftForm fn ty)
  | 0x00f => some (shiftForm fn ty)
  | 0x010 => some (shiftForm fn ty)
  | 0x011 => some { unaryForm fn bitTypes ty with dst := .v 1 }
  | 0x012 => some { unaryForm fn bitTypes ty with dst := .v 1 }
  | 0x013 => some (unaryForm fn bitTypes ty)
  | 0x014 => some { shiftForm fn ty with fn := fnUpTo 1 fn }
  | 0x015 => some { binaryForm fn bitTypes ty with src3 := .vx 1 }
  | 0x016 => some { unaryForm fn (if fn.toNat = 2 then [3] else bitTypes) ty with fn := fnUpTo 2 fn }
  | 0x017 => some { unaryForm fn (if fn.toNat = 2 then [3] else bitTypes) ty with fn := fnUpTo 2 fn }
  | 0x018 => some { binaryForm fn bitTypes ty with imm := .never, src3 := .p }
  | 0x019 => some { unaryForm fn [2, 3, 4] ty with src1 := if ty = 4 then .v 4 else .vx (typeRegs ty) }
  | 0x01a => some { LForm.base fn with types := [2, 3, 13, 14, 15, 16, 19, 20], imm := .must (floatImm ty), dst := .v (typeRegs ty) }
  | 0x01b => some { LForm.base fn with types := [3], imm := .must 0, dst := .v 2 }
  | 0x01c => some { binaryForm fn intTypes ty with fn := fnUpTo 5 fn, dst := .p }
  | 0x01d => some { binaryForm fn signTypes ty with dst := .v 1 }
  | 0x040 => some (roundForm fn floatTypes ty)
  | 0x041 => some (roundForm fn floatTypes ty)
  | 0x042 => some (roundForm fn floatTypes ty)
  | 0x043 => some { roundForm fn floatTypes ty with src3 := .vx (typeRegs ty) }
  | 0x044 => some { roundForm fn floatTypes ty with fn := fnZeroR fn }
  | 0x045 => some { roundForm fn floatTypes ty with fn := fnZeroR fn }
  | 0x046 => some { roundForm fn scalarFloatTypes ty with fn := none, imm := .never, dst := .p }
  | 0x047 => some { roundForm fn [15, 13, 16] ty with la := true }
  | 0x048 => some (approxForm fn ty)
  | 0x049 => some (approxForm fn ty)
  | 0x04a => some { unaryForm fn [15, 13, 16] ty with fn := fnUpTo 4 fn, la := true }
  | 0x04b => some (approxForm fn ty)
  | 0x04c => some (approxForm fn ty)
  | 0x04d => some (approxForm fn ty)
  | 0x04e => some (approxForm fn ty)
  | 0x04f => some { unaryForm fn floatTypes ty with fn := fnUpTo 4 fn, la := decide (ty = 16) }
  | 0x050 => some { unaryForm fn scalarFloatTypes ty with fn := fnZeroR fn, dst := .v 1, la := decide (ty = 16) }
  | 0x051 => some { binaryForm fn [19, 20] ty with fn := fnZeroR fn, src3 := .vx 1 }
  | 0x080 =>
    let s := (w.hi.extractLsb' 7 5).toNat
    some { LForm.base fn with
      fn := if 21 ≤ s ∧ s ≤ 25 then fnZero fn else fnUpTo 4 fn
      modb := 0x1f, types := List.range 26
      dst := .v (if 21 ≤ ty then 2 else typeRegs ty), src1 := .vx (typeRegs s)
      src2 := if ty = 19 ∨ ty = 20 ∨ 21 ≤ s then .vx 1 else .zero }
  | 0x081 => some { LForm.base fn with fn := fnUpTo 4 fn, types := [21, 22, 23, 24, 25], dst := .v 2, src1 := .vx 1 }
  | 0x082 => some { LForm.base fn with types := [21, 22, 23, 24, 25], dst := .v 1, src1 := .vx 1, src2 := .vx 1 }
  | 0x0c0 => some { LForm.base fn with modb := 0xff, dst := .p, src1 := .p, src2 := .p, src3 := .p }
  | 0x0c1 => some { LForm.base fn with fn := fnUpTo 3 fn, modb := if fn.toNat = 3 then 0 else 1, dst := if fn.toNat = 3 then .v 1 else .p, src1 := .p }
  | 0x0c2 => some { shiftForm fn ty with fn := fnUpTo 3 fn }
  | 0x0c3 => some { unaryForm fn (collectiveTypes fn) ty with fn := fnUpTo 6 fn, modb := 1 }
  | 0x0c4 => some { unaryForm fn (collectiveTypes fn) ty with fn := fnUpTo 6 fn, modb := 3 }
  | 0x100 => some { LForm.base fn with imm := .must 0 }
  | 0x101 => some { LForm.base fn with imm := .must 0xffff, src1 := .vx 1 }
  | 0x102 => some { LForm.base fn with imm := .must 0xffff0000, whole := true }
  | 0x103 => some { LForm.base fn with whole := true }
  | 0x104 => some { LForm.base fn with whole := true }
  | 0x105 => some { LForm.base fn with imm := .must 0xfffffff8, whole := true }
  | 0x106 => some { LForm.base fn with whole := true }
  | 0x107 => some (LForm.base fn)
  | 0x110 => some { barForm fn with fn := fnBit0 fn }
  | 0x111 => some (barForm fn)
  | 0x112 => some { barForm fn with fn := fnBit0 fn }
  | 0x140 => some { memForm fn memTypes (typeRegs ty) .spaceLoad with fn := fnUpTo 2 fn }
  | 0x141 => some { memForm fn memTypes (typeRegs ty) .spaceStore with fn := fnUpTo 2 fn }
  | 0x142 => some (memForm fn memTypes (typeRegs ty) .load)
  | 0x143 => some { memForm fn [15] 4 .load with fn := fnUpTo 1 fn, aw := .must, src1 := .vx 2 }
  | 0x144 => some { memForm fn intTypes (typeRegs ty) .atomA with fn := none }
  | 0x145 => some { LForm.base fn with mem := .fence, whole := true }
  | 0x146 => some { LForm.base fn with fn := if fn.toNat = 0 ∨ fn.toNat = 6 ∨ fn.toNat = 7 then some .reserved else none, whole := true }
  | 0x147 => some { memForm fn [2, 3, 4] 1 .copy with fn := fnBit0 fn }
  | 0x148 => some { memForm fn (if fn.toNat = 2 then [3, 11] else intTypes) (if fn.toNat = 0 then 2 * typeRegs ty else typeRegs ty) .atomB with fn := fnUpTo 2 fn }
  | 0x180 => some (cubeForm fn)
  | 0x181 => some (cubeForm fn)
  | 0x182 => some (cubeForm fn)
  | 0x188 => some { LForm.base fn with fn := if fn.toNat ≤ 2 then none else some .illegal, types := [15], imm := .must 0xfffffff0, dst := .v 1, la := true }
  | 0x189 =>
    match fn.toNat with
    | 0 => some { LForm.base fn with fn := none, src1 := .vx 1, src2 := .vx 1 }
    | 1 => some { LForm.base fn with fn := none, dst := .v 1, src1 := .vx 1 }
    | 2 => some { LForm.base fn with fn := none, src1 := .vx 1 }
    | 3 => some { LForm.base fn with fn := none, dst := .v 2 }
    | _ => some { LForm.base fn with fn := some .reserved }
  | 0x18a => some { LForm.base fn with dst := .p }
  | 0x18b => some (LForm.base fn)
  | 0x18c => some { LForm.base fn with types := [15], dst := .v 4, src1 := .v 4, src2 := .v 4, src3 := .x, la := true }
  | 0x190 => some { LForm.base fn with aw := .may, dst := .v 1, src1 := .vx 1, src2 := .x, src3 := .p }
  | 0x1c0 => some { LForm.base fn with whole := true }
  | 0x1c1 => some { LForm.base fn with modb := 7, dst := .v 1, src1 := .num }
  | 0x1c2 => some { LForm.base fn with modb := 7, src1 := .num, src2 := .vx 1 }
  | 0x1c3 => some { LForm.base fn with types := [3], dst := .v 2 }
  | 0x1c4 => some { LForm.base fn with whole := true }
  | _ => none

/-- The fate of a lane system register number (R86, R111). -/
def laneSrFate (n : Nat) : List Failure :=
  [(decide (n < 0x100), .illegal), (decide (¬ (n ≤ 0x00b ∨ n = 0x100 ∨ n = 0x101)), .reserved)]

/-- The fate of a scalar system register number (R86, R111). -/
def scalarSrFate (n : Nat) : List Failure :=
  [(decide (0x100 ≤ n ∧ n ≤ 0x1ff), .illegal), (decide (¬ (n ≤ 0x00b ∨ n = 0x100 ∨ n = 0x101)), .reserved)]

/-- Step 5 of R112 for one operand position: role, specifier, X bit. -/
def opdFates (o : Opd) (f : BitVec 7) (x : Bool) : List Failure :=
  match o with
  | .zero => [(decide (f ≠ 0) || x, .illegal)]
  | .v n => [(x || decide (f.toNat % n ≠ 0), .illegal)]
  | .vx n => [(if x then decide (32 ≤ f.toNat) else decide (f.toNat % n ≠ 0), .illegal)]
  | .p => [(x || decide (16 ≤ f.toNat), .illegal)]
  | .x => [(!x || decide (32 ≤ f.toNat), .illegal)]
  | .num => [(x, .illegal)]

/-- Step 6 of R112 for one operand position. -/
def opdLimit (nregs : Nat) (o : Opd) (f : BitVec 7) (x : Bool) : List Failure :=
  match o with
  | .v n => [(!regFits nregs n f, .illegal)]
  | .vx n => [(!x && !regFits nregs n f, .illegal)]
  | _ => []

/-- SRC2's role in a word: with an immediate that replaces it, nothing (R322). -/
def LForm.opd2 (m : LForm) (w : LWord) : Opd :=
  match m.imm with
  | .may _ => if w.i && decide (m.src3 = .zero) then .zero else m.src2
  | _ => m.src2

/-- SRC3's role in a word: with I = 1 there is none. -/
def LForm.opd3 (m : LForm) (w : LWord) : Opd := if w.i then .zero else m.src3

/-- SRC1's role in a word: AW makes it a pair (R76). -/
def LForm.opd1 (m : LForm) (w : LWord) : Opd :=
  match m.src1 with
  | .vx n => if w.aw then .vx 2 else .vx n
  | o => o

/-- Step 3 of R112: FN and MODB, a CVT pair (R110), a lane sr number (R388). A word with I = 1 is tested with a MODB of 0 (assumption log 78). -/
def laneStep3 (op : Nat) (m : LForm) (w : LWord) : List Failure :=
  [(decide (m.fn = some .illegal), .illegal), (decide (m.fn = some .reserved), .reserved),
   (decide (w.modb &&& ~~~ m.modb ≠ 0), .illegal),
   (decide (op = 0x080) && !cvtPair w.ty.toNat (w.modb.extractLsb' 0 5).toNat, .illegal)] ++
    if op = 0x1c1 ∨ op = 0x1c2 then laneSrFate w.srNum.toNat else []

/-- Step 4 of R112: TYPE. A FENCE's must be zero, and any other value of it is Illegal (R195); elsewhere 26 to 31 is Reserved, also where TYPE must
be zero (the model's choice, assumption log 90). -/
def laneStep4 (m : LForm) (w : LWord) : List Failure :=
  [(decide (26 ≤ w.ty.toNat), .reserved), (decide (w.ty.toNat < 26 ∨ m.mem = .fence) && !m.types.contains w.ty.toNat, .illegal)]

/-- Step 5 of R112: the I, X and AW bits and the specifier ranges (R76, R321, R322). The bits of IMM32 that an entry wants zero, for which R112
names no step, are tested here with the I bit (assumption log 78). -/
def laneStep5 (m : LForm) (w : LWord) : List Failure :=
  [(w.x1 && w.aw, .reserved), (w.x3 && w.i, .reserved),
   (match m.imm with
    | .never => w.i
    | .must z => !w.i || decide (w.hi &&& z ≠ 0)
    | .may z => w.i && decide (w.hi &&& z ≠ 0), .illegal),
   (match m.aw with
    | .zero => w.aw
    | .may => false
    | .must => !w.aw, .illegal)] ++
    opdFates m.dst w.dst false ++ opdFates (m.opd1 w) w.src1 w.x1 ++ opdFates (m.opd2 w) w.src2 w.x2 ++
    opdFates (m.opd3 w) w.src3 w.x3opd

/-- Step 6 of R112: the register limits. -/
def laneStep6 (nregs : Nat) (m : LForm) (w : LWord) : List Failure :=
  opdLimit nregs m.dst w.dst false ++ opdLimit nregs (m.opd1 w) w.src1 w.x1 ++ opdLimit nregs (m.opd2 w) w.src2 w.x2 ++
    opdLimit nregs (m.opd3 w) w.src3 w.x3opd

/-- Step 7 of R112: the memory fields and USE (R79, R80, R111, R162, R195, R201). In the private and scratchpad spaces what lies outside Table 8.1
is Illegal (R162, assumption log 79). -/
def laneStep7 (m : LForm) (w : LWord) : List Failure :=
  let o := w.ord.toNat
  let sc := w.scope.toNat
  let ev := w.evict.toNat
  let u := w.use.toNat
  let load := [(decide (sc = 7 ∨ 2 ≤ o ∨ u ≠ 0), Fate.reserved)]
  let store := [(decide (sc = 7 ∨ (o ≠ 0 ∧ o ≠ 2) ∨ u ≠ 0), Fate.reserved)]
  let space (badOrd : Prop) [Decidable badOrd] := [(decide (w.fn.toNat = 1 ∧ (sc ≠ 0 ∨ o ≠ 0)), Fate.illegal),
    (decide (w.fn.toNat = 2 ∧ (sc ≠ 1 ∨ badOrd ∨ ev ≠ 0)), Fate.illegal)]
  let atom := [(decide (sc = 7 ∨ 6 ≤ u ∨ (o ≠ 0 ∧ (u = 1 ∨ u = 3 ∨ u = 4))), Fate.reserved),
    (decide (u = 4 ∧ w.dst ≠ 0), Fate.illegal)]
  match m.mem with
  | .none => [(decide (o ≠ 0 ∨ sc ≠ 0 ∨ ev ≠ 0 ∨ u ≠ 0), .illegal)]
  | .load => load
  | .store => store
  | .spaceLoad => load ++ space (2 ≤ o)
  | .spaceStore => store ++ space (o ≠ 0 ∧ o ≠ 2)
  | .copy => [(decide (sc = 7 ∨ o ≠ 0 ∨ u ≠ 0), .reserved)]
  | .atomA => atom ++ [(decide ((u = 2 ∨ u = 4) ∧ w.fn.toNat = 7), .illegal)]
  | .atomB => atom ++ [(decide ((u = 2 ∨ u = 4) ∧ w.fn.toNat ≤ 1), .illegal)]
  | .fence => [(decide (o = 0 ∨ sc = 7), .reserved), (decide (ev ≠ 0 ∨ u ≠ 0), .illegal)]

/-- Step 8 of R112: LA (R83). -/
def laneStep8 (m : LForm) (w : LWord) : List Failure := [(!m.la && decide (w.la ≠ 0), .illegal)]

/-- Step 9 of R112: PRED and PN (R77). -/
def laneStep9 (m : LForm) (w : LWord) : List Failure := [(m.whole && (decide (w.pred ≠ 0) || w.pn), .illegal)]

/-- R112 steps 2 to 9 of a lane word in a kernel of `nregs` lane registers; none: it is an instruction. -/
def laneFate (nregs op : Nat) (w : LWord) : Option Fate :=
  match laneForm op w with
  | none => if op = 0 ∨ op = 0x3ff then some .illegal else some .reserved
  | some m =>
    firstFate [laneStep3 op m w, laneStep4 m w, laneStep5 m w, laneStep6 nregs m w, laneStep7 m w, laneStep8 m w, laneStep9 m w]

/-- The opcode of a lane instruction (Table 5.5); 0 for what is no lane instruction. -/
def laneOpcode : Instr → Nat
  | .addLane _ => 0x001
  | .subLane _ => 0x002
  | .mulLane _ => 0x003
  | .mulhLane _ => 0x004
  | .mad _ => 0x005
  | .divLane _ => 0x006
  | .minLane _ => 0x007
  | .maxLane _ => 0x008
  | .abs _ => 0x009
  | .andLane _ => 0x00a
  | .orLane _ => 0x00b
  | .xorLane _ => 0x00c
  | .andnLane _ => 0x00d
  | .shlLane _ => 0x00e
  | .shrLane _ => 0x00f
  | .sraLane _ => 0x010
  | .clzLane _ => 0x011
  | .popcLane _ => 0x012
  | .brevLane _ => 0x013
  | .bfeLane _ => 0x014
  | .bfiLane _ => 0x015
  | .sextLane _ => 0x016
  | .zextLane _ => 0x017
  | .selLane _ => 0x018
  | .movLane _ => 0x019
  | .liLane _ => 0x01a
  | .lihLane _ => 0x01b
  | .cmpLane _ => 0x01c
  | .sltLane _ => 0x01d
  | .fadd _ => 0x040
  | .fsub _ => 0x041
  | .fmul _ => 0x042
  | .fma _ => 0x043
  | .fmin _ => 0x044
  | .fmax _ => 0x045
  | .fcmp _ => 0x046
  | .fdiv _ => 0x047
  | .frcp _ => 0x048
  | .frsq _ => 0x049
  | .fsqrt _ => 0x04a
  | .fexp2 _ => 0x04b
  | .flog2 _ => 0x04c
  | .fsin _ => 0x04d
  | .fcos _ => 0x04e
  | .frnd _ => 0x04f
  | .fclass _ => 0x050
  | .dot2 _ => 0x051
  | .cvt _ => 0x080
  | .blkq _ => 0x081
  | .blkx _ => 0x082
  | .plop _ => 0x0c0
  | .vote _ => 0x0c1
  | .shfl _ => 0x0c2
  | .reduce _ => 0x0c3
  | .scan _ => 0x0c4
  | .br _ => 0x100
  | .brx _ => 0x101
  | .call _ => 0x102
  | .ret => 0x103
  | .join => 0x104
  | .prio _ => 0x105
  | .yield => 0x106
  | .exit _ => 0x107
  | .bar _ => 0x110
  | .barE _ => 0x110
  | .arrive _ => 0x111
  | .await _ => 0x112
  | .awaitE _ => 0x112
  | .ldLane _ => 0x140
  | .stLane _ => 0x141
  | .sld _ => 0x142
  | .sample _ => 0x143
  | .atom _ => 0x144
  | .atomGroupB _ => 0x148
  | .fenceLane _ => 0x145
  | .pathfence _ => 0x146
  | .cpyLane _ => 0x147
  | .mmaLane _ => 0x180
  | .triLane _ => 0x181
  | .tlutLane _ => 0x182
  | .attr _ => 0x188
  | .emitPut _ => 0x189
  | .emitTake _ => 0x189
  | .emitPrim _ => 0x189
  | .emitPix _ => 0x189
  | .osbegin _ => 0x18a
  | .osend _ => 0x18b
  | .trace _ => 0x18c
  | .launch _ => 0x190
  | .nopLane => 0x1c0
  | .srrdLane _ => 0x1c1
  | .srwrLane _ => 0x1c2
  | .timeLane _ => 0x1c3
  | .trapLane => 0x1c4
  | _ => 0

end Machine

end Sys2Proof
end

