-- ==== Sys2Proof/Machine/Operands.lean ====
section
/-! DEFINITION. Registers and operands of the two streams (§4.2 to §4.6, R76, R77, R81, R116). -/

namespace Sys2Proof.Machine

/-! ## Scalar registers (R73) -/

/-- x0 reads zero. -/
def Team.xr (t : Team) (r : BitVec 5) : DWord := if r = 0 then 0 else sget 0 t.x r.toNat

/-- A write to x0 is discarded. -/
def Team.setX (t : Team) (r : BitVec 5) (v : DWord) : Team := if r = 0 then t else { t with x := sset 0 t.x r.toNat v }

/-- The scalar PC moves past its word. -/
def Team.nextS (t : Team) : Team := { t with spc := t.spc + 4 }

/-- A scalar result: xd is written and the PC moves on. -/
def Team.resultX (t : Team) (r : BitVec 5) (v : DWord) : Team := (t.setX r v).nextS

/-! ## Lane and predicate registers -/

/-- Lane register `r` of a lane. -/
def Team.vr (t : Team) (lane r : Nat) : Word := sget 0 t.v (128 * lane + r)

/-- Write lane register `r` of a lane. -/
def Team.setV (t : Team) (lane r : Nat) (w : Word) : Team := { t with v := sset 0 t.v (128 * lane + r) w }

/-- `n` registers from `r` as one number, the low word in the first (R116). -/
def Team.vrs (t : Team) (lane : Nat) : Nat → Nat → Nat
  | _, 0 => 0
  | r, n + 1 => (t.vr lane r).toNat + 2 ^ 32 * t.vrs lane (r + 1) n

/-- Write a number into `n` registers from `r`. -/
def Team.setVs (t : Team) (lane : Nat) : Nat → Nat → Nat → Team
  | _, 0, _ => t
  | r, n + 1, v => (t.setV lane r (BitVec.ofNat 32 v)).setVs lane (r + 1) n (v / 2 ^ 32)

/-- Predicate register `k`, one bit a lane; p0 is true. -/
def Team.pm (t : Team) (k : Nat) : Mask := if k = 0 then BitVec.allOnes 1024 else sget 0 t.p k

/-- A write to p0 is discarded (R76). -/
def Team.setPm (t : Team) (k : Nat) (m : Mask) : Team := if k = 0 then t else { t with p := sset 0 t.p k m }

/-- Predicate `k` set to `b` in one lane. -/
def Team.setP (t : Team) (k lane : Nat) (b : Bool) : Team :=
  t.setPm k (if b then t.pm k ||| laneBit lane else t.pm k &&& ~~~ laneBit lane)

/-! ## Paths -/

/-- No path. -/
def Path.none : Path :=
  { idx := 64, pc := 0, mask := 0, split := .none, prio := 4, rstack := [], hold := .none, yielded := false, last := 0, windows := [], joined := false }

/-- The path of index `i`. -/
def Team.path (t : Team) (i : Nat) : Path := (t.paths.find? (fun p => p.idx == i)).getD Path.none

/-- The path that issues. -/
def Team.cur (t : Team) : Path := t.path t.curPath

/-- Change the path of index `i`. -/
def Team.updPath (t : Team) (i : Nat) (f : Path → Path) : Team :=
  { t with paths := t.paths.map (fun p => if p.idx = i then f p else p) }

/-- Change the issuing path. -/
def Team.updCur (t : Team) (f : Path → Path) : Team := t.updPath t.curPath f

/-- The lanes that take part (R77). -/
def Team.partMask (t : Team) (w : LWord) : Mask :=
  t.cur.mask &&& (if w.pn then ~~~ t.pm w.pred.toNat else t.pm w.pred.toNat)

/-- The participating lanes, ascending. -/
def Team.parts (t : Team) (w : LWord) : List Nat := lanesIn (laneCount t.gmax) (t.partMask w)

/-- The lane instruction `d` instructions from `pc`, in the order of R71: ten to a line. -/
def laneShift (pc : DWord) (d : Int) : DWord :=
  let i : Int := 10 * (pc.toNat / 128 : Nat) + (pc.toNat % 128 / 12 : Nat) + d
  BitVec.ofInt 64 (128 * (i / 10) + 12 * (i % 10))

/-- The successor of a lane instruction. -/
def laneNext (pc : DWord) : DWord := if pc.toNat % 128 = 108 then pc + 20 else pc + 12

/-- The issuing path moves past its instruction. -/
def Team.nextL (t : Team) : Team := t.updCur (fun p => { p with pc := laneNext p.pc })

/-! ## Lane operands (R53, R76, R81) -/

/-- An x register as the running block's snapshot holds it. -/
def Team.snapX (t : Team) (r : Nat) : DWord :=
  match r, t.running with
  | 0, _ => 0
  | r + 1, some b => sget 0 b.snap (r + 1)
  | _, _ => 0

/-- A source position of `n` registers: the x snapshot's low bits, or the lane's registers. -/
def Team.src (t : Team) (lane n : Nat) (isX : Bool) (f : BitVec 7) : Nat :=
  if isX then (t.snapX (f.toNat % 32)).toNat % 2 ^ (32 * n) else t.vrs lane f.toNat n

/-- SRC1 as `n` registers. -/
def Team.a (t : Team) (w : LWord) (lane n : Nat) : Nat := t.src lane n w.x1 w.src1

/-- An immediate at TYPE `ty` in a position of `n` registers (R322, R346). -/
def immValue (ty n : Nat) (imm : Word) : Nat :=
  if ty = 16 then f64.round .rn (f32.value imm.toNat)
  else if n = 2 then (imm.signExtend 64).toNat
  else imm.toNat

/-- SRC2 as `n` registers, or the immediate that replaces it. -/
def Team.b (t : Team) (w : LWord) (lane n : Nat) : Nat :=
  if w.i then immValue w.ty.toNat n w.hi else t.src lane n w.x2 w.src2

/-- SRC2 of an instruction of three sources. -/
def Team.b3 (t : Team) (w : LWord) (lane n : Nat) : Nat := t.src lane n w.x2 w.src2

/-- SRC3 as `n` registers, or the immediate that replaces it. -/
def Team.c (t : Team) (w : LWord) (lane n : Nat) : Nat :=
  if w.i then immValue w.ty.toNat n w.hi else t.src lane n w.x3 w.src3

/-- The address of a lane's access (R81). -/
def Team.ea (t : Team) (w : LWord) (lane : Nat) : DWord :=
  t.snapX (w.src2.toNat % 32) +
    (if w.x1 then t.snapX (w.src1.toNat % 32)
      else if w.aw then BitVec.ofNat 64 (t.vrs lane w.src1.toNat 2)
      else BitVec.ofNat 64 (t.vrs lane w.src1.toNat 1)) +
    (if w.i then w.hi.signExtend 64 else 0)

/-- What a write of TYPE `ty` puts into its registers (R116): narrow signed integers fill with their sign, others with zeros. -/
def fillBits (ty raw : Nat) : Nat :=
  match ty with
  | 6 => wrap (signed raw 8) 32
  | 8 => wrap (signed raw 16) 32
  | _ => raw

/-- Bytes of a TYPE in memory (Table 18.3). -/
def typeBytes (ty : Nat) : Nat :=
  match ty with
  | 0 => 1
  | 5 => 1
  | 6 => 1
  | 17 => 1
  | 18 => 1
  | 1 => 2
  | 7 => 2
  | 8 => 2
  | 13 => 2
  | 14 => 2
  | 3 => 8
  | 11 => 8
  | 12 => 8
  | 16 => 8
  | 4 => 16
  | _ => 4

/-! ## Lane results -/

/-- Each participating lane writes `n` registers from DST, every lane's value taken before any is written (R30). -/
def Team.mapV (t : Team) (w : LWord) (n : Nat) (f : Nat → Nat) : Team :=
  (t.parts w).foldl (fun u lane => u.setVs lane w.dst.toNat n (f lane)) t

/-- Each participating lane sets predicate DST (R29). -/
def Team.mapP (t : Team) (w : LWord) (k : Nat) (f : Nat → Bool) : Team :=
  let m := t.partMask w &&& fullMask (laneCount t.gmax)
  let yes := maskOf ((t.parts w).filter f)
  t.setPm k ((t.pm k &&& ~~~ m) ||| (yes &&& m))

end Sys2Proof.Machine
end

