-- ==== Sys2Proof/Machine/Ops.lean ====
section
/-! DEFINITION. Operations the meanings share: fault records and stopping faults, taking a trap and returning from it, parking an
access, releases, trace records (§14.4, §15.2). -/

namespace Sys2Proof.Machine

/-! ## Fault records (R295) -/

/-- Who an access record speaks of: the INFO fields of Table 14.4 below the cause. -/
structure Site where
  access : Nat
  pennant : Nat
  core : Nat
  slot : Nat
  path : Nat
  group : Nat
  scalar : Bool
  deriving DecidableEq, Repr

/-- The INFO dword of Table 14.4. -/
def infoWord (f : TFault) (x : Site) : DWord :=
  BitVec.ofNat 64 (2 ^ 63 + f.cause % 128 * 2 ^ 56 + (if f.walk then 2 ^ 55 else 0) + f.level % 8 * 2 ^ 52 + x.access % 8 * 2 ^ 49 +
    x.pennant % 8 * 2 ^ 46 + x.core % 256 * 2 ^ 38 + x.slot % 4 * 2 ^ 36 + x.path % 64 * 2 ^ 30 + x.group % 32 * 2 ^ 25 +
    (if x.scalar then 2 ^ 24 else 0))

/-- The ID after `n`; 0 is no ID. -/
def idAfter (n : Nat) : Nat := if n + 1 < 2 ^ 32 then n + 1 else 1

/-- The record ID an engine command is parked under. -/
def EngStage.record : EngStage → Option Nat
  | .parked i _ _ => some i
  | _ => none

/-- IDs in use in a context: live entries and Stopped teams. -/
def idsInUse (s : State) (c : Nat) : List Nat :=
  ((s.teams ++ s.shadows.flatMap (fun h => h.teams)).filter (fun t => t.ctx == c)).flatMap (fun t =>
    t.oplog.map (fun e => e.id) ++ (match t.why with
      | .fault i => [i]
      | _ => []) ++
    (t.tileQ ++ t.copyQ).filterMap (fun q => q.stage.record)) ++
  (s.fixed.filter (fun f => f.ctx == c)).map (fun f => f.id)

/-- The first ID from `n` on that is not in use, looking at most `k` times. -/
def idFrom (used : List Nat) : Nat → Nat → Nat
  | 0, n => n
  | k + 1, n => if used.contains n then idFrom used k (idAfter n) else n

/-- A fresh ID of context `c` (R295). -/
def freshId (s : State) (c : Nat) : Nat :=
  let used := idsInUse s c
  idFrom used used.length (ctxOf s c).nextId

/-- A record of context `c` waits to be written under ID `id` (R295). -/
def State.record (s : State) (c id : Nat) (f : TFault) (x : Site) (pc : DWord) (lanes : Word) : State :=
  s.updCtx c (fun k => { k with
    nextId := if id = 0 then k.nextId else idAfter id
    faultQ := k.faultQ ++ [{ time := s.time, addr := f.addr, pc := pc, info := infoWord f x, lanes := lanes, id := id }] })

/-- A fault that no access made: its cause alone, with an operand in ADDR. -/
def plainFault (cause : Nat) (addr : DWord) : TFault := { cause := cause, addr := addr, walk := false, level := 0, va := addr }

/-- The site of the issuing team. -/
def Team.site (t : Team) (access group : Nat) (lane : Bool) : Site :=
  { access := access, pennant := t.pennant, core := t.core, slot := t.slot, path := if lane then t.curPath else 0,
    group := group, scalar := !lane }

/-- EPC as sr.fault holds it: bits [56:2] of an address, sign-extended from bit 56. -/
def epcOf (pc : DWord) : DWord := (((pc.extractLsb' 2 55).signExtend 62 : BitVec 62) ++ (0 : BitVec 2))

/-- A stopping fault of the issuing team (R290): its code stands in sr.fault and in a record that names the team, which is Stopped until a
KILL or teardown. A team Stopped by a fault already keeps its ID (assumption log 68). -/
def State.stopTeam (s : State) (f : TFault) (x : Site) (pc : DWord) (lanes : Word) : State :=
  let id := match s.t.why with
    | .fault i => i
    | _ => freshId s s.t.ctx
  (s.record s.t.ctx id f x pc lanes).upd (fun t => { t with
    before := if t.life = .stopped then t.before else t.life, life := .stopped, why := .fault id
    fCause := BitVec.ofNat 7 f.cause, fEpc := epcOf pc, fLane := !x.scalar })

/-- A stopping fault of the scalar stream at its instruction. -/
def State.stopScalar (s : State) (cause access : Nat) (addr : DWord) : State :=
  s.stopTeam (plainFault cause addr) (s.t.site access 0 false) s.t.spc 0

/-- A stopping fault of a lane of the issuing path at its instruction. -/
def State.stopAt (s : State) (cause access lane : Nat) (addr : DWord) : State :=
  s.stopTeam (plainFault cause addr) (s.t.site access (lane / 32) true) s.t.cur.pc 0

/-- The lowest group of a mask with a lane in it. -/
def lowestGroup (m : Mask) : Nat := ((List.range 32).find? (fun g => groupWord m g ≠ 0)).getD 0

/-- A stopping fault of the issuing path at its instruction, for its lowest lane. -/
def State.stopLane (s : State) (cause access : Nat) (addr : DWord) : State := s.stopAt cause access (32 * lowestGroup s.t.cur.mask) addr

/-! ## Traps (R297) -/

/-- Whether a trap acts as a stopping fault instead (R297). -/
def trapStops (s : State) (lane : Bool) : Bool :=
  decide ((ctxOf s s.t.ctx).tvec = 0) || s.t.inh || (lane && decide (s.t.life = .retiring))

/-- Who a team is, wherever it stands: launch, cluster origin, index in the cluster. -/
def Team.ident (t : Team) : Nat × Nat × Nat := (t.launch, t.clorg, t.clidx)

/-- The team in focus no longer waits to FORK (R221). -/
def State.leaveForks (s : State) : State :=
  s.updCtx s.t.ctx (fun x => { x with forks := x.forks.filter (fun e => e != s.t.ident) })

/-- A trap of cause `cause` at `pc` (R297): sr.fault is set, INH rises, a running block pauses, the scalar stream goes to TVEC; a FORK that waits is
abandoned. -/
def State.takeTrap (s : State) (cause : Nat) (lane : Bool) (pc : DWord) : State :=
  if trapStops s lane then s.stopTeam (plainFault cause 0) (s.t.site 0 (if lane then lowestGroup s.t.cur.mask else 0) lane) pc 0
  else
    let tvec := (ctxOf s s.t.ctx).tvec
    s.leaveForks.upd (fun t => { t with
      fCause := BitVec.ofNat 7 cause, fEpc := epcOf pc, inh := true, fLane := lane, paused := true
      resume := if lane then t.spc else epcOf pc + 4
      trapPath := if lane then t.curPath else t.trapPath
      spc := tvec })

/-- A trap of the scalar stream at its instruction. -/
def State.trapScalar (s : State) (cause : Nat) : State := s.takeTrap cause false s.t.spc

/-- A trap of the issuing path; while the scalar stream is inside an instruction that runs to its end, it is not taken yet
(assumption log 56). -/
def State.trapLane (s : State) (cause : Nat) : State :=
  if s.t.wait = .none then s.takeTrap cause true s.t.cur.pc else s

/-- A lane block that a trap paused goes on; after a lane trap its path continues at the successor of EPC (R297). -/
def Team.unpause (t : Team) : Team :=
  let t' := { t with paused := false }
  if t.fLane then t'.updPath t.trapPath (fun p => { p with pc := laneNext t.fEpc }) else t'

/-- ERET with INH = 1 (R297): INH clears and the streams go on. -/
def Team.eret (t : Team) : Team := { t with inh := false, spc := t.resume }.unpause

/-- The value of sr.fault (Table 14.5). -/
def Team.srFault (t : Team) : DWord :=
  t.fCause ++ t.fEpc.extractLsb' 2 55 ++ (if t.inh then (1 : BitVec 1) else 0) ++ (if t.fLane then (1 : BitVec 1) else 0)

/-- The error trap at an instruction boundary of the scalar stream (R312): EPC + 4 is the next instruction (assumption log 16). -/
def State.errorTrap (s : State) : State := (s.upd (fun t => { t with errPend := false })).takeTrap 0x09 false (s.t.spc - 4)

/-! ## Parking (R292, R293) -/

/-- Operand-log entries of a core (R293). -/
def logUsed (s : State) (core : Nat) : Nat := (s.teams.filter (fun t => t.core == core)).foldl (fun n t => n + t.oplog.length) 0

/-- Lanes of a group as a mask word. -/
def groupBits (ls : List LogLane) : Word := BitVec.ofNat 32 (ls.foldl (fun m l => m ||| 2 ^ (l.lane % 32)) 0)

/-- Park lanes of one group of the issuing path's instruction; a fault writes a record. -/
def State.parkGroup (s : State) (i : Instr) (access g : Nat) (ls : List LogLane) (f : Option TFault) : State :=
  let t := s.t
  let pc := t.cur.pc
  match f with
  | some e =>
    let id := freshId s t.ctx
    let s := s.record t.ctx id e (t.site access g true) pc (groupBits ls)
    s.upd (fun t => { t with oplog := t.oplog ++
      [{ id := id, record := true, instr := some i, tag := t.issues, access := access, scalar := false, pc := pc, path := t.curPath, group := g, lanes := ls, va := e.va }] })
  | none =>
    s.upd (fun t => { t with oplog := t.oplog ++
      [{ id := 0, record := false, instr := some i, tag := t.issues, access := access, scalar := false, pc := pc, path := t.curPath, group := g, lanes := ls, va := 0 }] })

/-- The scalar stream's access parks (R292): up to 4 further instructions may issue. `xt`: the register a load writes. -/
def State.parkScalar (s : State) (i : Instr) (access : Nat) (l : LogLane) (f : TFault) (xt : BitVec 5) : State :=
  let id := freshId s s.t.ctx
  let s := s.record s.t.ctx id f (s.t.site access 0 false) s.t.spc 0
  s.upd (fun t => { t with
    oplog := t.oplog ++ [{ id := id, record := true, instr := some i, tag := 0, access := access, scalar := true, pc := t.spc, path := 0, group := 0, lanes := [l], va := f.va }]
    sPark := some (id, 4, xt) })

/-- A scalar access failed: a stopping fault, or it parks and the stream moves on; with the operand log full it waits. -/
def State.scalarFault (s : State) (i : Instr) (access : Nat) (l : LogLane) (f : TFault) (xt : BitVec 5) : State :=
  if f.replayable then
    if 64 ≤ logUsed s s.t.core then s else (s.parkScalar i access l f xt).upd Team.nextS
  else s.stopTeam f (s.t.site access 0 false) s.t.spc 0

/-- Whether a lane of the issuing team has an access pending in the operand log (R292). -/
def Team.pending (t : Team) (lane : Nat) : Bool := t.oplog.any (fun e => !e.scalar && e.lanes.any (fun l => l.lane == lane))

/-- Whether the lane instruction of issue number `n` has lanes under way: in the operand log, or in a queued per-lane copy (R83). -/
def Team.underWay (t : Team) (n : Nat) : Bool :=
  t.oplog.any (fun e => !e.scalar && e.tag == n) || t.copyQ.any (fun c => match c.body with
    | .laneCopy _ _ _ _ => c.tag == n
    | _ => false)

/-- The issuing path may go on for `k` more instructions before the instruction it issues now is complete (R83). -/
def Team.openWindow (t : Team) (k : Nat) : Team := t.updCur (fun p => { p with windows := p.windows ++ [(t.issues, k)] })

/-- Whether every window of a path lets a further instruction issue: the instruction it belongs to is complete, or the window is not used
up (R83). -/
def Team.windowsOpen (t : Team) (p : Path) : Bool := p.windows.all (fun x => decide (x.2 ≠ 0) || !t.underWay x.1)

/-- Some windows without those of complete instructions, each once. -/
def Team.liveWindows (t : Team) (ws : List (Nat × Nat)) : List (Nat × Nat) := (ws.filter (fun x => t.underWay x.1)).eraseDups

/-! ## Releases (R190, R195, R170, R202, R210) -/

/-- What a release at a scope drains on the issuing team's core. -/
def State.release (s : State) (scope : Nat) : State := if scope = 0 then s else s.releaseCore s.t.core scope

/-- The lines of the core's write-combining buffer that hold stores of the issuing team drain (R170). -/
def State.drainLanes (s : State) : State :=
  s.drainWc (fun l => l.core == s.t.core && l.bytes.any (fun b => b.slot == s.t.slot))

/-- Whether a release at .PEER must still wait for acknowledged link writes (R210). -/
def Team.linkWait (t : Team) (scope : Nat) : Bool := decide (scope = 6 ∧ t.linkOut ≠ 0)

/-- The scratchpad write port drains to the engine path: the bytes `f` selects, newest winning (R166). -/
def Team.drainPort (t : Team) : Team := { t with spad := t.port.reverse.foldl (fun m b => sset 0 m b.1 b.2) t.spad, port := [] }

/-- Some bytes of the write port, chosen freely one by one, have reached the engine path (R166, §9.8): before BAR.E, PATHFENCE or the block's
end an engine may find each old or new (assumption log 80). -/
def State.seePort (s : State) : State :=
  let seen (b : Nat × Byte) : Bool := (Config.freeByte (2 ^ 20 * s.free + b.1)).getLsbD 0
  s.upd (fun t => { t with
    spad := (t.port.filter seen).reverse.foldl (fun m b => sset 0 m b.1 b.2) t.spad, port := t.port.filter (fun b => !seen b) })

/-- A byte of the claim as the team's lanes see it: their stores still in the write port first. -/
def Team.spadByte (t : Team) (o : Nat) : Byte :=
  match t.port.find? (fun b => b.1 == o) with
  | some b => b.2
  | .none => sget 0 t.spad o

/-- `n` bytes of the claim as the lanes see them. -/
def Team.spadLane (t : Team) (o n : Nat) : List Byte := (List.range n).map (fun i => t.spadByte (o + i))

/-- `n` bytes of the claim as the engine path sees them: what has reached it, which `State.seePort` chose (R166, assumption log 80). -/
def Team.spadRead (t : Team) (o n : Nat) : List Byte := sgetRange 0 t.spad o n

/-- Bytes written into the claim by the engine path. -/
def Team.spadWrite (t : Team) (o : Nat) (bs : List Byte) : Team :=
  { t with
    spad := ssetRange 0 t.spad o bs
    port := t.port.filter (fun b => !(decide (o ≤ b.1 ∧ b.1 < o + bs.length))) }

/-! ## Trace records (R306 to R309) -/

/-- A 64-byte record goes to the context's trace ring, or is dropped with DBG set (R306); a dropped one passes over its slot (assumption
log 89). -/
def traceRecord (c : Nat) (body : List Nat) : Act Unit := do
  let s ← get
  let k := ctxOf s c
  let slot := k.trbase.toNat + 64 * (k.trN % 2 ^ bits k.trctl.toNat 13 5)
  change (fun s => s.updCtx c (fun k => { k with trN := k.trN + 1 }))
  let a := fixedAcc c 0
  let v ← physRead a (slot + 0x10) 1
  if (leNat v).testBit 0 then change (fun s => s.interrupt 8)
  else physWrite a slot ((body.flatMap (leBytes 8) ++ List.replicate 64 0).take 64)

/-- The identity dword of a trace record (Table 15.4). -/
def traceIdent (t : Team) (path g kind : Nat) (m : Mask) : Nat :=
  (groupWord m g).toNat * 2 ^ 32 + t.core % 256 * 2 ^ 24 + t.slot % 4 * 2 ^ 22 + path % 64 * 2 ^ 16 + g % 32 * 2 ^ 11 +
    t.pennant % 8 * 2 ^ 8 + t.ctx % 16 * 2 ^ 4 + kind % 8 * 2 + 1

/-- The memory-trace records of one pass (R308): lanes of one group with their addresses; a single lane's stride is 0, the model's choice
(assumption log 90). -/
def tracePass (cls ty g : Nat) (ls : List (Nat × DWord)) : Act Unit := do
  let s ← get
  let t := s.t
  match ls with
  | [] => pure ()
  | (j0, base) :: rest =>
    let off (a : DWord) : Int := (a - base).toInt
    let stride : Int := match rest with
      | [] => 0
      | (j1, a1) :: _ => off a1 / ((j1 : Int) - (j0 : Int))
    let strided := rest.all (fun l => off l.2 == stride * ((l.1 : Int) - (j0 : Int)))
      && decide (-(2 ^ 31 : Int) ≤ stride ∧ stride < (2 ^ 31 : Int))
    traceRecord t.ctx [s.time, t.cur.pc.toNat, traceIdent t t.curPath g 2 t.cur.mask, base.toNat,
      (if strided then wrap stride 32 + 2 ^ 32 else 0) + cls % 8 * 2 ^ 33 + ty % 32 * 2 ^ 36, 0, 0, 0]
    if strided then pure ()
    else
      let offs : List Nat := (List.range 32).map (fun j => match ls.find? (fun l => l.1 % 32 == j) with
        | some l => if -(2 ^ 31 : Int) ≤ off l.2 ∧ off l.2 < (2 ^ 31 : Int) then wrap (off l.2) 32 else 2 ^ 31
        | none => 0)
      (List.range 6).forM (fun k =>
        let six := (List.range 6).map (fun i => offs.getD (6 * k + i) 0)
        let pair (i : Nat) : Nat := six.getD (2 * i) 0 + 2 ^ 32 * six.getD (2 * i + 1) 0
        traceRecord t.ctx [s.time, t.cur.pc.toNat, traceIdent t t.curPath g 3 t.cur.mask, 0, 0, pair 0, pair 1, pair 2])

/-! ## Hotness (R298) -/

/-- The lines of [va, va + n), each by an address in it. -/
def lineAddrs (va : DWord) (n : Nat) : List DWord :=
  (List.range (ceilDiv (va.toNat % 128 + n) 128)).map (fun i => if i = 0 then va else BitVec.ofNat 64 (alignDown va.toNat 128 + 128 * i))

/-- One selected line access of class bit `cls` (0 load, 1 store, 2 atomic, 3 fetch, 4 engine) at `va` is counted; every 2^LOG2N-th
writes a record, a dropped one passing over its slot (assumption log 89). -/
def hotAccess (a : Acc) (cls : Nat) (va : DWord) : Act Unit := do
  let s ← get
  let k := ctxOf s a.ctx
  let log2n := bits k.hotctl.toNat 0 5
  if log2n = 0 ∨ !k.hotctl.getLsbD (5 + cls) then pure ()
  else do
    let n := sget 0 k.hotCount a.core + 1
    change (fun s => s.updCtx a.ctx (fun k => { k with hotCount := sset 0 k.hotCount a.core n }))
    if n % 2 ^ log2n ≠ 0 then pure ()
    else do
      let at_ := k.hotbase.toNat + 32 * (k.hotN % 2 ^ bits k.hotctl.toNat 10 6)
      change (fun s => s.updCtx a.ctx (fun k => { k with hotN := k.hotN + 1 }))
      let f := fixedAcc a.ctx 0
      let v ← physRead f (at_ + 0x17) 1
      if (leNat v).testBit 7 then pure ()
      else physWrite f at_ (leBytes 8 va.toNat ++ leBytes 8 s.time ++
        leBytes 8 (2 ^ 63 + cls % 8 * 2 ^ 8 + a.pennant % 8 * 2 ^ 11 + a.core % 256 * 2 ^ 14 + a.slot % 4 * 2 ^ 22) ++ leBytes 8 0)

/-- The hotness accesses of one pass after coalescing: one for each line its lanes touch. -/
def hotPass (a : Acc) (cls : Nat) (vas : List DWord) : Act Unit :=
  let lines := (vas.map (fun v => v.toNat / 128)).eraseDups
  lines.forM (fun l => hotAccess a cls (match vas.find? (fun v => v.toNat / 128 == l) with
    | some v => v
    | none => 0))

/-! ## Debug stops (R309) -/

/-- The watchpoint, 1 to 4, that a lane access of `n` bytes hits; `bitNo`: 8 load, 9 store, 10 atomic. -/
def watchHit (x : Ctx) (bitNo : Nat) (va : DWord) (n : Nat) : Option Nat :=
  ((List.range 4).find? (fun i =>
    let w := x.watch.getD i Watch.reset
    let len := 2 ^ bits w.ctl.toNat 0 5
    w.ctl.getLsbD bitNo && overlaps w.addr.toNat len va.toNat n)).map (· + 1)

/-- While a team is parked its ordered sections do not count (R309, R277): `since` holds the ticks counted so far. -/
def Team.freezeOs (t : Team) (time : Nat) : Team :=
  { t with bindings := t.bindings.map (fun b => { b with since := time - b.since }) }

/-- A team parked by a debug stop. -/
def Team.debugPark (t : Team) (time : Nat) : Team := if t.debug then t else { t.freezeOs time with debug := true }

/-- The teams of a context that a slot saved come back parked (R309). -/
def Shadow.parked (h : Shadow) (c : Nat) : Shadow := { h with teams := h.teams.map (fun t => if t.ctx = c then { t with debug := true } else t) }

/-- The lowest group with lanes in a mask. -/
def lowGroup (m : Mask) : Nat := ((List.range 32).find? (fun g => groupWord m g ≠ 0)).getD 0

/-- A debug stop of the issuing path (R309): it is held, a kind-4 record is written, which names the lowest group of
the path (assumption log 60), DBG is set; with NONSTOP = 0 the whole context stops, its saved teams too. -/
def debugStop (reason : Nat) (lane : Bool) : Act Unit := do
  let s ← get
  let t := s.t
  let nonstop := (ctxOf s t.ctx).trctl.getLsbD 12
  traceRecord t.ctx [s.time, if lane then t.cur.pc.toNat else t.spc.toNat,
    if lane then traceIdent t t.curPath (lowGroup t.cur.mask) 4 t.cur.mask else traceIdent t 0 0 4 0, reason]
  change (fun s =>
    let s := s.interrupt 8
    let s := if lane then s.upd (fun t => t.updCur (fun p => { p with hold := .debug false })) else s
    let s := s.upd (fun t => t.debugPark s.time)
    if nonstop then s
    else { s with
      others := s.others.map (fun u => if u.ctx == t.ctx && decide (u.life ≠ .retired) then u.debugPark s.time else u)
      shadows := s.shadows.map (fun h => h.parked t.ctx) })

/-- Whether a team's lane stream goes on: it is not parked, or a path of it is and NONSTOP lets its sibling arm run (R309). -/
def laneRuns (s : State) (t : Team) : Bool :=
  !t.debug || ((ctxOf s t.ctx).trctl.getLsbD 12 && t.paths.any (fun q => decide (q.hold = .debug false)))

end Sys2Proof.Machine
end

