-- ==== Sys2Proof/Machine/Store.lean ====
section
/-! DEFINITION. The pending-launch store, its overflow lists and the push buffers (R227, R263, R264). -/

namespace Sys2Proof
open Machine

/-- TYPE of a packet or record (R255). -/
def Packet.kind (p : Packet) : Nat := bits p.d0.toNat 0 8

end Sys2Proof

namespace Sys2Proof.Machine

/-- A dword of a block of bytes. -/
def dwordAt (bs : List Byte) (o : Nat) : DWord := BitVec.ofNat 64 (leNat ((bs.drop o).take 8))

/-- A word of a block of bytes. -/
def wordAt (bs : List Byte) (o : Nat) : Word := BitVec.ofNat 32 (leNat ((bs.drop o).take 4))

/-- `n` bytes of a block from `o`, as a number. -/
def natAt (bs : List Byte) (o n : Nat) : Nat := leNat ((bs.drop o).take n)

/-- A packet read from its 64 bytes. -/
def packetOf (bs : List Byte) : Packet :=
  { d0 := dwordAt bs 0, d1 := dwordAt bs 8, d2 := dwordAt bs 16, d3 := dwordAt bs 24, d4 := dwordAt bs 32, d5 := dwordAt bs 40,
    d6 := dwordAt bs 48, d7 := dwordAt bs 56 }

/-- The 64 bytes of a packet. -/
def packetBytes (p : Packet) : List Byte :=
  [p.d0, p.d1, p.d2, p.d3, p.d4, p.d5, p.d6, p.d7].flatMap (fun d => leBytes 8 d.toNat)

/-- Records of context `c` in the store. -/
def storeCount (s : State) (c : Nat) : Nat := (s.store.filter (fun r => r.ctx == c)).length

/-- Whether the store has room for a record of context `c`: below its quota, and below 256 records in all (R263). -/
def storeRoom (s : State) (c : Nat) : Bool := decide (storeCount s c < (ctxOf s c).quota ∧ s.store.length < 256)

/-- Whether context `c` has an overflow list with room. -/
def overflowRoom (s : State) (c : Nat) : Bool :=
  let x := ctxOf s c
  decide (x.ovbase ≠ 0 ∧ x.ovTail - x.ovHead < 2 ^ x.ovk)

/-- A record enters the store. -/
def State.storePut (s : State) (c : Nat) (p : Packet) : State := { s with store := s.store ++ [{ ctx := c, pkt := p }] }

/-- The physical address of record `n` of a context's overflow list. -/
def overflowAt (x : Ctx) (n : Nat) : Nat := x.ovbase.toNat + 64 * (n % 2 ^ x.ovk)

/-- A record enters the overflow list in memory. -/
def overflowPut (c : Nat) (p : Packet) : Act Unit := do
  let s ← get
  let x := ctxOf s c
  physWrite (fixedAcc c 0) (overflowAt x x.ovTail) (packetBytes p)
  change (fun s => s.updCtx c (fun x => { x with ovTail := x.ovTail + 1 }))

/-- The oldest records of a context's overflow list move into the store while it has room, at most `n` (R263). -/
def overflowRefill (c : Nat) : Nat → Act Unit
  | 0 => pure ()
  | n + 1 => do
    let s ← get
    let x := ctxOf s c
    if x.ovHead < x.ovTail ∧ storeRoom s c then do
      let bs ← physRead (fixedAcc c 0) (overflowAt x x.ovHead) 64
      change (fun s => (s.storePut c (packetOf bs)).updCtx c (fun x => { x with ovHead := x.ovHead + 1 }))
      overflowRefill c n
    else pure ()

/-- The places a drop freed in the store take the oldest records of the overflow list (R263). -/
def overflowSettle (c : Nat) : Act Unit := do
  let s ← get
  if (ctxOf s c).ovOwed = 0 then pure ()
  else do
    overflowRefill c (ctxOf s c).ovOwed
    change (fun s => s.updCtx c (fun x => { x with ovOwed := 0 }))

/-- A record handed to the store by R264: 0 in the store, 1 in the overflow list, 2 full. -/
def storeRecord (c : Nat) (p : Packet) : Act Nat := do
  overflowSettle c
  let s ← get
  if storeRoom s c then do
    change (fun s => s.storePut c p)
    pure 0
  else if overflowRoom s c then do
    overflowPut c p
    pure 1
  else pure 2

/-- A push under pennant `p` of context `c`: 0, or 2 when its buffer holds 16 records, committed ones that still wait in it among them (R227). -/
def pushRecord (c p : Nat) (r : Packet) : Act Nat := do
  let s ← get
  let n := (ctxOf s c).pen p
  if 16 ≤ n.pushes.length + n.appending.length then pure 2
  else do
    change (fun s => s.updCtx c (fun x => x.updPen p (fun n => { n with pushes := n.pushes ++ [r] })))
    pure 0

end Sys2Proof.Machine
end

