-- ==== Sys2Proof/Machine/Cube.lean ====
section
/-! DEFINITION. The cube array's operations: descriptors, legality, operands, products and tiles (chapter 7, §19.5, §19.15). -/

namespace Sys2Proof.Machine

/-- A format-block descriptor (Table 7.5). -/
structure Desc where
  afmt : Nat
  apre : Nat
  bfmt : Nat
  cfmt : Nat
  place : Nat
  split : Nat
  w2 : Bool
  acc : Nat
  row0 : Nat
  col0 : Nat
  m8 : Nat
  n32 : Nat
  k32 : Nat
  cadr : Nat
  asc : Nat
  madr : Nat
  mrows : Nat
  reserved : Bool           -- every reserved bit is zero
  deriving DecidableEq, Repr

/-- The fields of four dwords (Table 7.5). -/
def descOf (ds : List DWord) : Desc :=
  let d0 := (ds.getD 0 0).toNat
  let d1 := (ds.getD 1 0).toNat
  let d2 := (ds.getD 2 0).toNat
  { afmt := bits d0 60 4, apre := bits d0 56 4, bfmt := bits d0 51 5, cfmt := bits d0 46 5, place := bits d0 44 2,
    split := bits d0 42 2, w2 := bit d0 41, acc := bits d0 39 2, row0 := bits d0 33 6, col0 := bits d0 29 4, m8 := bits d0 23 6,
    n32 := bits d0 19 4, k32 := bits d0 10 9, cadr := bits d1 45 19, asc := bits d1 26 19, madr := bits d1 7 19,
    mrows := bits d2 48 16, reserved := decide (bits d0 0 10 = 0 ∧ bits d1 0 7 = 0 ∧ bits d2 0 48 = 0 ∧ ds.getD 3 0 = 0) }

/-- Width of an A code (Table 7.2). -/
def aWidth (afmt : Nat) : Nat :=
  match afmt with
  | 2 => 4
  | 3 => 6
  | 5 => 4
  | 7 => 1
  | 8 => 16
  | 9 => 16
  | _ => 8

/-- Whether APREC is legal for AFMT (Table 7.2). -/
def apreOk (afmt p : Nat) : Bool :=
  if afmt ≤ 1 then decide (1 ≤ p ∧ p ≤ 8) else if afmt ≤ 7 then decide (p = aWidth afmt) else decide (p = 0)

/-- Bytes of a scale record of A; 0 where there is none. -/
def aRecord (afmt : Nat) : Nat := if 2 ≤ afmt ∧ afmt ≤ 4 then 2 else if afmt = 5 ∨ afmt = 6 then 4 else 0

/-- The B and C types of R135. -/
def bcType (ty : Nat) : Bool := [5, 6, 13, 14, 17, 18].contains ty

/-- The team's place in its cluster: row and column offset (R15). -/
def Team.clusterRow (t : Team) : Nat := t.clidx / t.clcols
def Team.clusterCol (t : Team) : Nat := t.clidx % t.clcols

/-- Cores of the team's cluster. -/
def Team.clusterSize (t : Team) : Nat := t.clrows * t.clcols

/-- A core's share of an op (Table 7.6). -/
structure Share where
  mc : Nat
  nc : Nat
  kc : Nat
  deriving DecidableEq, Repr

/-- Whether the op is split over the cluster, and how: 0 local, 1 MN, 2 K. -/
def Team.splitKind (t : Team) (d : Desc) : Nat := if t.clusterSize ≤ 1 then 0 else d.split

/-- The share of Table 7.6. -/
def Team.share (t : Team) (d : Desc) : Share :=
  match t.splitKind d with
  | 1 => { mc := 8 * d.m8 / t.clrows, nc := 32 * d.n32 / t.clcols, kc := 32 * d.k32 }
  | 2 => { mc := 8 * d.m8, nc := 32 * d.n32, kc := 32 * d.k32 / t.clusterSize }
  | _ => { mc := 8 * d.m8, nc := 32 * d.n32, kc := 32 * d.k32 }

/-- Whether the shares divide evenly. -/
def Team.shareEven (t : Team) (d : Desc) : Bool :=
  match t.splitKind d with
  | 1 => decide (8 * d.m8 % t.clrows = 0 ∧ 32 * d.n32 % t.clcols = 0)
  | 2 => decide (32 * d.k32 % t.clusterSize = 0)
  | _ => true

/-- Array clocks of a lane panel's load (R145). -/
def panelLoad (d : Desc) : Nat := if 2 ≤ d.place then 8 else 4

/-- The planes read. -/
def planes (kind : Nat) (d : Desc) : Nat := if kind = 2 then (if d.w2 then 2 else 1) else d.apre

/-- The clock count P (R145). -/
def Team.clocks (t : Team) (kind : Nat) (d : Desc) : Nat :=
  let h := t.share d
  let build := if kind ≠ 2 then 0 else h.mc / 8 * (h.kc / 32) * (if d.w2 then 32 else 2)
  let combine := if t.splitKind d = 2 ∧ t.clidx = 0 then (t.clusterSize - 1) * (h.mc / 8) * (h.nc / 32) else 0
  h.nc / 32 * (h.kc / 32) * max (panelLoad d) (h.mc / 8 * planes kind d) + build + combine

/-- Whether `n` bytes from `o` lie in the claim. -/
def Team.inClaim (t : Team) (o n : Nat) : Bool := decide (o + n ≤ t.claim)

/-- Row length of B as stored (R136). -/
def Team.rowLen (t : Team) (d : Desc) : Nat := if t.splitKind d = 1 then 32 * d.n32 else (t.share d).nc

/-- The extents an op reads in the claim: offset and bytes (Table 7.3, R159). -/
def Team.extents (t : Team) (kind aOff bOff : Nat) (d : Desc) : List (Nat × Nat) :=
  let h := t.share d
  let sb := typeBytes d.bfmt
  let sc := typeBytes d.cfmt
  let own : List (Nat × Nat) :=
    (if kind = 2 then [(aOff, h.mc * h.kc * 2)] else [(aOff, h.mc * aWidth d.afmt * h.kc / 8)]) ++
    (if aRecord d.afmt = 0 then [] else [(d.asc, h.mc * h.kc / 8 * aRecord d.afmt)]) ++
    (if d.place = 2 then [(d.cadr, h.mc * h.kc * sc)] else [])
  let far : List (Nat × Nat) :=
    (if kind = 2 then [(bOff, h.nc * h.kc / (if d.w2 then 4 else 8))]
      else if d.place = 3 then [(bOff, d.mrows * t.rowLen d * sb)]
      else [(bOff, h.kc * t.rowLen d * sb)]) ++
    (if d.place = 1 then [(d.cadr, h.kc * sc)] else if d.place = 3 then [(d.cadr, d.mrows * t.rowLen d * sc), (d.madr, 4 * h.kc)] else [])
  if t.splitKind d = 1 ∧ t.clidx ≠ 0 then own else own ++ far

/-- Whether fields the op does not use are zero, and those it uses are legal for its kind (R133 to R135, R142, Table 19.4). -/
def kindOk (kind : Nat) (d : Desc) : Bool :=
  d.reserved && apreOk d.afmt d.apre &&
    decide (d.place ≠ 0 ∨ (d.cfmt = 0 ∧ d.cadr = 0)) && decide (aRecord d.afmt ≠ 0 ∨ d.asc = 0) &&
    decide (d.place = 3 ∨ (d.madr = 0 ∧ d.mrows = 0)) && decide (d.place ≠ 3 ∨ d.mrows ≠ 0) &&
    (match kind with
      | 0 => decide (d.place = 0 ∧ d.afmt ≤ 7) && bcType d.bfmt && !d.w2
      | 1 => decide (d.place ≠ 0 ∧ d.afmt ≤ 7) && bcType d.bfmt && bcType d.cfmt && !d.w2
      | _ => decide (d.place = 0 ∧ (d.afmt = 8 ∨ d.afmt = 9) ∧ d.bfmt = 0 ∧ d.split = 0))

/-- Whether the region of an op lies in a shaped tile (R144). -/
def Team.inTile (t : Team) (acc row rows col cols : Nat) : Bool :=
  let s := sget (0, 0) t.shapes acc
  decide (s.1 ≠ 0 ∧ row + rows ≤ s.1 ∧ col + cols ≤ s.2)

/-- Whether the op's shares and region are legal (R144). -/
def Team.shareOk (t : Team) (kind : Nat) (d : Desc) (rowOff : Nat) : Bool :=
  let h := t.share d
  decide (1 ≤ d.m8 ∧ d.m8 ≤ 32 ∧ 1 ≤ d.n32 ∧ d.n32 ≤ 12 ∧ 1 ≤ d.k32 ∧ d.k32 ≤ 256) && t.shareEven d &&
    decide (h.mc % 8 = 0 ∧ 8 ≤ h.mc ∧ h.mc ≤ 128 ∧ h.nc % 32 = 0 ∧ 32 ≤ h.nc ∧ h.nc ≤ 256 ∧ h.kc % 32 = 0 ∧ 32 ≤ h.kc) &&
    decide (kind ≠ 2 ∨ (if d.w2 then h.mc = 8 ∧ h.kc = 32 else h.mc * h.kc ≤ 4096)) &&
    t.inTile d.acc (8 * d.row0 + rowOff) h.mc (32 * d.col0) h.nc && decide (t.clocks kind d ≤ 1024)

/-- The cube-operand checks of one op (R146, R411). Offsets come as the operand registers hold them. -/
def Team.cubeOk (t : Team) (kind aOff bOff descOff rowOff : Nat) (lane : Bool) (d : Desc) : Bool :=
  decide (aOff < 2 ^ 19 ∧ bOff < 2 ^ 19 ∧ descOff < 2 ^ 19 ∧ rowOff < 2 ^ 19 ∧ aOff % 16 = 0 ∧ bOff % 16 = 0 ∧ descOff % 32 = 0 ∧
    rowOff % 8 = 0) && t.inClaim descOff 32 && kindOk kind d &&
    (if lane then decide (d.m8 = 1 ∧ d.n32 = 1 ∧ d.k32 = 1 ∧ d.split = 0) else decide (d.split ≠ 3)) &&
    t.shareOk kind d rowOff && (t.extents kind aOff bOff d).all (fun e => t.inClaim e.1 e.2)

/-- The four dwords of the descriptor at `o`, as the issuing stream sees them: a lane's own stores included (R141). -/
def Team.readDesc (t : Team) (o : Nat) (lane : Bool) : List DWord :=
  let bs := if lane then t.spadLane o 32 else t.spadRead o 32
  (List.range 4).map (fun i => dwordAt bs (8 * i))

/-! ## Operand values -/

/-- `n` bytes of the claim from `o`, as a number. -/
def Team.spadNat (t : Team) (o n : Nat) : Nat := leNat (t.spadRead o n)

/-- The code of A[i, k]: its `p` top planes, the others zero (R134, Table 7.3). -/
def Team.aCode (t : Team) (aOff w p kc i k : Nat) : Nat :=
  (List.range w).foldl (fun n b =>
    if w - p ≤ b ∧ bit (t.spadNat (aOff + i * w * (kc / 8) + (w - 1 - b) * (kc / 8) + k / 8) 1) (k % 8) then n + 2 ^ b else n) 0

/-- The value of A[i, k] (R134, R412). -/
def Team.aValue (t : Team) (d : Desc) (aOff kc i k : Nat) : Num :=
  let w := aWidth d.afmt
  let code := t.aCode aOff w d.apre kc i k
  let rs := aRecord d.afmt
  let scale := t.spadNat (d.asc + (i * (kc / 8) + k / 8) * rs) rs
  match d.afmt with
  | 0 => numOfInt (code : Int) 0 false
  | 1 => numOfInt (signed code 8) 0 false
  | 7 => numOfInt (if code = 1 then 1 else -1) 0 false
  | 5 => obValue 4 code scale
  | 6 => obValue 8 code scale
  | _ => dxbValue w code scale

/-- The code of an element of TYPE `ty` in the claim. -/
def Team.elemCode (t : Team) (ty o : Nat) : Nat := t.spadNat o (typeBytes ty)

/-- MapB and MapC of index k (R133). -/
def Team.mapEntry (t : Team) (d : Desc) (k : Nat) : Nat × Nat :=
  let m := t.spadNat (d.madr + 4 * k) 4
  (m % 65536 % d.mrows, m / 65536 % d.mrows)

/-- A 32 × 32 panel of B, then what goes with it of C (R159), as element codes: B by k then column; C by k (c-k), or by k and column
(c-kj). It holds rows k0 to k0 + 31 and columns j0 to j0 + 31; `len` is the row length as stored. -/
def Team.panel (t : Team) (d : Desc) (bOff len k0 j0 : Nat) : List Nat :=
  let sb := typeBytes d.bfmt
  let sc := typeBytes d.cfmt
  let cells : List (Nat × Nat) := (List.range 1024).map (fun i => (k0 + i / 32, j0 + i % 32))
  cells.map (fun c => t.elemCode d.bfmt (bOff + ((if d.place = 3 then (t.mapEntry d c.1).1 else c.1) * len + c.2) * sb)) ++
    (match d.place with
      | 1 => (List.range 32).map (fun k => t.elemCode d.cfmt (d.cadr + (k0 + k) * sc))
      | 3 => cells.map (fun c => t.elemCode d.cfmt (d.cadr + ((t.mapEntry d c.1).2 * len + c.2) * sc))
      | _ => [])

/-! ## Running an op (R132, R412) -/

/-- The term of row i, index k0 + k and panel column j. -/
def Team.cubeTerm (t : Team) (kind : Nat) (d : Desc) (aOff kc k0 : Nat) (p : List Nat) (i k j : Nat) : Num :=
  let a := t.aValue d aOff kc i (k0 + k)
  let b := typedValue d.bfmt (p.getD (32 * k + j) 0)
  if kind = 0 then Num.mul a b
  else
    let c := match d.place with
      | 1 => typedValue d.cfmt (p.getD (1024 + k) 0)
      | 2 => typedValue d.cfmt (t.elemCode d.cfmt (d.cadr + (i * kc + k0 + k) * typeBytes d.cfmt))
      | _ => typedValue d.cfmt (p.getD (1024 + 32 * k + j) 0)
    triTerm a b c

/-- The key of a tile element. -/
def accKey (acc row col : Nat) : Nat := (acc * 512 + row) * 512 + col

/-- A tile element. -/
def Team.tileAt (t : Team) (acc row col : Nat) : Word := sget 0 t.acc (accKey acc row col)

/-- A tile with one element written. -/
def Team.tileSet (t : Team) (acc row col : Nat) (v : Word) : Team := { t with acc := sset 0 t.acc (accKey acc row col) v }

/-- The rows an op computes, by their numbers. -/
def opRows (mc : Nat) (rows : BitVec 128) : List Nat := (List.range mc).filter (fun i => rows.getLsbD i)

/-- One panel's passes (R132): each element of its rows and 32 columns takes the panel's 32 terms, four groups of 8 (R128). `old` is what an
element starts from. -/
def Team.passPanel (t : Team) (kind : Nat) (d : Desc) (aOff kc mc k0 col rowOff : Nat) (rows : BitVec 128) (p : List Nat)
    (old : Nat → Nat → Word) : Team :=
  let cells := (opRows mc rows).flatMap (fun i => (List.range 32).map (fun j => (i, j)))
  cells.foldl (fun u c =>
    let r := 8 * d.row0 + rowOff + c.1
    let cc := 32 * d.col0 + col + c.2
    u.tileSet d.acc r cc (dotAccumulate (old r cc) ((List.range 32).map (fun k => t.cubeTerm kind d aOff kc k0 p c.1 k c.2)))) t

/-- MMA or TRI with every operand in the team's claim: its panels in ascending k within ascending column panel. -/
def Team.runLocal (t : Team) (op : CubeOp) (d : Desc) (zero : Bool) : Team :=
  let h := t.share d
  (List.range (h.nc / 32)).foldl (fun t jp =>
    (List.range (h.kc / 32)).foldl (fun t kp =>
      t.passPanel op.kind d op.aOff h.kc h.mc (32 * kp) (32 * jp) op.rowOff op.rows (t.panel d op.bOff h.nc (32 * kp) (32 * jp))
        (fun r c => if zero ∧ kp = 0 then 0 else t.tileAt d.acc r c)) t) t

/-- A weight of a table-lookup code (R126). -/
def lutWeight (w2 : Bool) (code i : Nat) : Int := if w2 then signed (bits code (2 * i) 2) 2 else if bit code i then 1 else -1

/-- A table entry: Σ wᵢ·aᵢ exactly, rounded once (R126, R400). -/
def lutEntry (w2 : Bool) (acts : List Num) (code : Nat) : Num :=
  f32.value (f32.round .rn (((List.range 4).map (fun i => Num.mul (numOfInt (lutWeight w2 code i) 0 false) (acts.getD i .nan))).foldl
    (fun s v => Num.add .rn s v) (Num.fin true 0 0)))

/-- TLUT (R132, R137). -/
def Team.runLut (t : Team) (op : CubeOp) (d : Desc) : Team :=
  let h := t.share d
  let ty := if d.afmt = 8 then 13 else 14
  let cells := (opRows h.mc op.rows).flatMap (fun i => (List.range h.nc).map (fun j => (i, j)))
  let code (g j : Nat) : Nat := if d.w2 then t.spadNat (op.bOff + j * (h.kc / 4) + g) 1
    else bits (t.spadNat (op.bOff + j * (h.kc / 8) + g / 2) 1) (4 * (g % 2)) 4
  let acts (i g : Nat) : List Num := (List.range 4).map (fun k => typedValue ty (t.elemCode ty (op.aOff + (i * h.kc + 4 * g + k) * 2)))
  cells.foldl (fun u c =>
    let r := 8 * d.row0 + op.rowOff + c.1
    let cc := 32 * d.col0 + c.2
    u.tileSet d.acc r cc (dotAccumulate (t.tileAt d.acc r cc)
      ((List.range (h.kc / 4)).map (fun g => lutEntry d.w2 (acts c.1 g) (code g c.2))))) t

/-- An unsplit op runs (R132). -/
def Team.runOp (t : Team) (op : CubeOp) : Team :=
  let d := descOf op.desc
  if op.kind = 2 then t.runLut op d else t.runLocal op d false

/-! ## TLD and TST (R397, R398) -/

/-- A tile region (Table 19.2). -/
structure Region2 where
  acc : Nat
  row : Nat
  col : Nat
  rows : Nat
  cols : Nat
  reserved : Bool
  deriving DecidableEq, Repr

/-- The region an operand names. -/
def regionOf2 (v : DWord) : Region2 :=
  let n := v.toNat
  { acc := bits n 52 2, row := bits n 43 9, col := bits n 34 9, rows := bits n 25 9 + 1, cols := bits n 16 9 + 1,
    reserved := decide (bits n 54 10 = 0 ∧ bits n 0 16 = 0) }

/-- The checks of a TLD or TST (R398). -/
def Team.moveOk (t : Team) (off : DWord) (region stride : DWord) : Bool :=
  let g := regionOf2 region
  let st := bits stride.toNat 0 18
  g.reserved && decide (bits stride.toNat 18 46 = 0) && t.inTile g.acc g.row g.rows g.col g.cols &&
    decide (off.toNat % 16 = 0 ∧ st % 16 = 0 ∧ 4 * g.cols ≤ st ∧ off.toNat + (g.rows - 1) * st + 4 * g.cols ≤ t.claim)

/-- The elements of a region, by row and column. -/
def Region2.cells (g : Region2) : List (Nat × Nat) := (List.range g.rows).flatMap (fun r => (List.range g.cols).map (fun c => (r, c)))

/-- TLD runs. -/
def Team.runTld (t : Team) (off : Nat) (region : DWord) (stride : Nat) : Team :=
  let g := regionOf2 region
  g.cells.foldl (fun u c => u.tileSet g.acc (g.row + c.1) (g.col + c.2) (BitVec.ofNat 32 (t.spadNat (off + c.1 * stride + 4 * c.2) 4))) t

/-- TST runs. -/
def Team.runTst (t : Team) (off : Nat) (region : DWord) (stride : Nat) : Team :=
  let g := regionOf2 region
  g.cells.foldl (fun u c => u.spadWrite (off + c.1 * stride + 4 * c.2) (leBytes 4 (t.tileAt g.acc (g.row + c.1) (g.col + c.2)).toNat)) t

end Sys2Proof.Machine
end

