-- ==== Sys2Proof/Machine/Paths.lean ====
section
/-! DEFINITION. Lane blocks, divergent paths, barriers and guard slots (chapter 3, R326). -/

namespace Sys2Proof.Machine

/-! ## Guard slots (R57, R58, R363) -/

/-- The state of guard slot `k`. -/
def Team.guard (t : Team) (k : Nat) : Guard := sget (.resolved true) t.guards k

/-- Guard slot `k` set; commands held under it stay held. -/
def Team.setGuard (t : Team) (k : Nat) (g : Guard) : Team := { t with guards := sset (.resolved true) t.guards k g }

/-- A queue once guard `k` resolved to `v`: its held commands are released, or discarded. -/
def freeHeld (k : Nat) (v : Bool) (q : List EngCmd) : List EngCmd :=
  if v then q.map (fun c => if c.guard = some k then { c with guard := none } else c)
  else q.filter (fun c => c.guard ≠ some k)

/-- Guard `k` resolves: every command held under it is released or discarded at that instant (R57). -/
def Team.resolve (t : Team) (k : Nat) (v : Bool) : Team :=
  let t' := t.setGuard k (.resolved v)
  { t' with tileQ := freeHeld k v t'.tileQ, copyQ := freeHeld k v t'.copyQ }

/-- What a bound guard reads when its block ends (R57, R363). -/
def Team.bindValue (t : Team) (pred : Nat) (all : Bool) : Bool :=
  let b := t.bunting
  if all then decide (b &&& ~~~ t.pm pred = 0) else decide (b &&& t.pm pred ≠ 0)

/-- Every guard bound to block `no` resolves. -/
def Team.resolveBound (t : Team) (no : Nat) : Team :=
  (List.range 16).foldl (fun t k => match t.guard k with
    | .pending (some g) => if g.block = no then t.resolve k (t.bindValue g.pred.toNat g.all) else t
    | _ => t) t

/-- Whether a block of the team is running or waiting. -/
def Team.blockLive (t : Team) (no : Nat) : Bool :=
  (match t.running with
    | some b => b.no == no
    | _ => false) || t.waiting.any (fun b => b.no == no)

/-! ## Ending lanes (R43, R54, R67) -/

/-- Lanes leave every path of the team. -/
def Team.leavePaths (t : Team) (m : Mask) : Team := { t with paths := t.paths.map (fun p => { p with mask := p.mask &&& ~~~ m }) }

/-- Whether a group-register belongs to a group with a lane of `b` left in it (R35). -/
def keptKey (b : Mask) (key : Nat) : Bool := decide (groupWord b (key / 128) ≠ 0)

/-- Lanes leave the team for good; the group-registers of a group whose lanes have all left are free. -/
def Team.leaveTeam (t : Team) (m : Mask) : Team :=
  let b := t.bunting &&& ~~~ m
  { t.leavePaths m with bunting := b, file := sfilter (keptKey b) t.file, spilled := t.spilled.filter (keptKey b) }

/-! ## Arms, stacks and arrival (R62, R63, R68) -/

/-- The split of a path. -/
def Team.splitOf (t : Team) (p : Path) : Option Split :=
  match p.split with
  | some i => t.splits.find? (fun s => s.id == i)
  | _ => .none

/-- A path that has arrived at its rejoin point, or has lost all its lanes. -/
def Team.arrived (t : Team) (p : Path) : Bool :=
  decide (p.mask = 0) || (match t.splitOf p with
    | some s => p.pc == s.rejoin
    | _ => false)

/-- Whether a path waits at a barrier. -/
def Path.atBarrier (p : Path) : Bool :=
  match p.hold with
  | .barrier _ _ => true
  | _ => false

/-- The first entry of a stack whose path `f` accepts, and the rest. -/
def popFirst (f : Nat → Bool) : List Nat → Option (Nat × List Nat)
  | [] => none
  | i :: is => if f i then some (i, is) else match popFirst f is with
    | some r => some (r.1, i :: r.2)
    | none => none

/-- Whether a split of the team is complete: every arm has arrived or lost its lanes, and none of them is split itself. -/
def Team.complete (t : Team) (s : Split) : Bool :=
  s.arms.all (fun i => t.arrived (t.path i)) && !t.splits.any (fun u => s.arms.contains u.parent && decide (u.outer = some s.id))

/-- Whether no lane of path `p` has an access or a copy under way. -/
def Team.lanesQuiet (t : Team) (p : Path) : Bool :=
  t.oplog.all (fun e => e.scalar || e.lanes.all (fun l => !p.mask.getLsbD l.lane)) &&
    t.copyQ.all (fun c => match c.body with
      | .laneCopy _ _ _ ls => ls.all (fun l => !p.mask.getLsbD l.lane)
      | _ => true)

/-- Whether every earlier instruction of path `p` is complete (R66, R83, R103): also one whose lanes have left the path since, by a branch, a
RET or an EXIT. -/
def Team.quiet (t : Team) (p : Path) : Bool := t.lanesQuiet p && p.windows.all (fun x => !t.underWay x.1)

/-- Whether a split of arm number `k` is complete: PATH_MERGE comes next there (R63). -/
def Team.merging (t : Team) (k : Nat) : Bool := t.splits.any (fun u => (u.conc || u.arm == k) && t.complete u)

/-- Whether two paths wait for the same rejoin PC. -/
def Team.sameRejoin (t : Team) (p q : Path) : Bool :=
  match t.splitOf p, t.splitOf q with
  | some s, some u => s.rejoin == u.rejoin
  | _, _ => false

/-- Whether a stacked path has lanes that have not arrived at a barrier at which a path of `held` waits (R68). -/
def Team.awaited (t : Team) (held : List Nat) (i : Nat) : Bool :=
  held.any (fun h => match (t.path h).hold with
    | .barrier b _ => decide ((t.path i).mask &&& ~~~ sget 0 t.barriers b ≠ 0)
    | _ => false)

/-- The stacked path arm number `k` runs when none of it runs (R62, R63, R68): none while a split of the arm is complete and merges first;
else one its barrier awaits; else none while a path waits at a barrier; else the top one (assumption log 65). -/
def Team.idlePop (t : Team) (k : Nat) (a : Arm) : Option (Nat × List Nat) :=
  if t.merging k then .none
  else match popFirst (t.awaited a.held) a.stack with
    | some q => some q
    | .none => if a.held.isEmpty then popFirst (fun _ => true) a.stack else .none

/-- Arm number `k` settles: an arrived path whose stores are complete gives way to the top entry of its rejoin point (R62, R66), a path
at a barrier to the top entry the barrier awaits (R68). At most `n` pops. -/
def Team.settleArm (t : Team) (k : Nat) : Nat → Arm → Arm
  | 0, a => a
  | n + 1, arm =>
    let a := { arm with stack := arm.stack.filter (fun i => decide ((t.path i).mask ≠ 0)) }
    match a.run with
    | .none =>
      match t.idlePop k a with
      | some q => t.settleArm k n { a with run := some q.1, stack := q.2 }
      | .none => a
    | some r =>
      let p := t.path r
      if t.arrived p then
        if !t.quiet p then a
        else match popFirst (fun i => t.sameRejoin p (t.path i)) a.stack with
          | some q => t.settleArm k n { a with run := some q.1, stack := q.2 }
          | .none => t.settleArm k n { a with run := .none }
      else if p.atBarrier then
        match popFirst (t.awaited (r :: a.held)) a.stack with
        | some q => t.settleArm k n { run := some q.1, stack := q.2, held := r :: a.held }
        | .none => a
      else a

/-- Every arm settles after an instruction of a path. -/
def Team.settle (t : Team) : Team := { t with arms := t.arms.mapIdx (fun k a => t.settleArm k 140 a) }

/-- The barrier of an arm completed: the path that arrived last goes on, its other waiting paths return to the stack in the order they
had (R68). `merges`: the paths that arrived last are those of a complete split, so the merged path goes on (R63). `held`: whether a path
still waits. -/
def Arm.release (a : Arm) (merges : Bool) (held : Nat → Bool) : Arm :=
  let back := a.held.filter (fun i => !held i)
  let still := a.held.filter held
  match a.run, back with
  | some r, _ => { run := some r, stack := back.reverse ++ a.stack, held := still }
  | none, [] => a
  | none, i :: is =>
    if merges then { run := none, stack := back.reverse ++ a.stack, held := still } else { run := some i, stack := is.reverse ++ a.stack, held := still }

/-- The arm a path issues on. -/
def Team.armOf (t : Team) (i : Nat) : Option Arm := t.arms.find? (fun a => a.run == some i)

/-- Free path-table entries, ascending (R61). -/
def Team.freeEntries (t : Team) : List Nat := (List.range 64).filter (fun i => t.paths.all (fun p => p.idx != i))

/-! ## Splitting (R60, R62, R340) -/

/-- Whether a split now is of the team's only path. -/
def Team.onlyPath (t : Team) : Bool := t.splits.isEmpty

/-- Split the issuing path: `keep` stays in its entry, each of `rest` takes the free entry given, in the order in which they run.
(mask, target) of each arm. -/
def Team.split (t : Team) (rejoin : DWord) (keep : Mask × DWord) (rest : List (Mask × DWord)) : Team :=
  let p := t.cur
  let ents := (t.freeEntries).take rest.length
  let new : List Path := (ents.zip rest).map (fun e =>
    { p with idx := e.1, pc := e.2.2, mask := e.2.1, split := some t.nextSplit, yielded := false, joined := false })
  let conc := t.onlyPath
  let s : Split := {
    id := t.nextSplit, parent := p.idx, outer := p.split, prio := p.prio, rejoin := rejoin, arms := p.idx :: ents,
    arm := t.arms.findIdx (fun a => a.run == some p.idx), conc := conc }
  let old := t.paths.map (fun q =>
    if q.idx = p.idx then { q with pc := keep.2, mask := keep.1, split := some t.nextSplit, joined := false } else q)
  let arms :=
    if conc then
      match ents with
      | e :: es => [{ run := some p.idx, stack := [], held := [] }, { run := some e, stack := es, held := [] }]
      | [] => t.arms
    else t.arms.map (fun a => if a.run = some p.idx then { a with stack := ents ++ a.stack } else a)
  ({ t with paths := old ++ new, splits := s :: t.splits, nextSplit := t.nextSplit + 1, arms := arms }).settle

/-! ## Merging (R63) -/

/-- Whether a split merges: it is complete and nothing of its arms runs any more (R62, R63). -/
def Team.canMerge (t : Team) (s : Split) : Bool :=
  t.complete s && (if s.conc then t.arms.all (fun a => a.run.isNone) else
    match t.arms[s.arm]? with
    | some a => a.run.isNone
    | .none => false)

/-- Merge a split: the masks are ORed into the parent's entry, which takes its priority back and stands at the rejoin point. -/
def Team.merge (t : Team) (s : Split) : Team :=
  let m := s.arms.foldl (fun m i => m ||| (t.path i).mask) 0
  let win := t.liveWindows (s.arms.flatMap (fun i => (t.path i).windows))
  let keep := t.paths.filter (fun p => p.idx == s.parent || !s.arms.contains p.idx)
  let paths := keep.map (fun p =>
    if p.idx = s.parent then
      { p with mask := m, pc := s.rejoin, split := s.outer, prio := s.prio, hold := PathHold.none, windows := win, joined := true }
    else p)
  let arms :=
    if s.conc then [{ run := some s.parent, stack := [], held := [] }]
    else t.arms.mapIdx (fun k a => if k = s.arm then { a with run := some s.parent } else a)
  ({ t with paths := paths, splits := t.splits.filter (fun u => u.id != s.id), arms := arms }).settle

/-! ## Barriers (R326, R332, R334) -/

/-- Arrived flags of barrier `b`. -/
def Team.flags (t : Team) (b : Nat) : Mask := sget 0 t.barriers b

/-- Set or replace the flags of barrier `b`. -/
def Team.setFlags (t : Team) (b : Nat) (m : Mask) : Team := { t with barriers := sset 0 t.barriers b m }

/-- The lanes barriers count: those of the running block that have not ended their part. -/
def Team.counted (t : Team) : Mask := t.paths.foldl (fun m p => m ||| p.mask) 0

/-- Whether barrier `b` completes: every counted lane has its flag set, and some flag is set (R326). -/
def Team.completes (t : Team) (b : Nat) : Bool := decide (t.flags b ≠ 0 ∧ t.counted &&& ~~~ t.flags b = 0)

/-- The issuing path's lanes arrive at barrier `b` (R327). -/
def Team.arrive (t : Team) (b : Nat) : Team := t.setFlags b (t.flags b ||| t.cur.mask)

/-! ## Lane blocks (R52) -/

/-- The next waiting block begins: one path over the Bunting at priority 4. -/
def Team.beginBlock (t : Team) (b : Block) (rest : List Block) : Team :=
  { t with
    running := some b, waiting := rest, splits := [], curPath := 0,
    paths := [{
      idx := 0, pc := b.entry, mask := t.bunting, split := .none, prio := 4, rstack := [], hold := .none,
      yielded := false, last := t.issues, windows := [], joined := false }],
    arms := [{ run := some 0, stack := [], held := [] }] }

/-- Whether the running block ends: no lane is on any path (R54). -/
def Team.blockOver (t : Team) : Bool := t.running.isSome && t.paths.all (fun p => decide (p.mask = 0))

/-- The block ends: barrier flags clear, the write port drains, guards bound to it resolve (R326, R166, R363). With a block already queued the
lane sequencer does not count as idle in between, and sr.bsum keeps its value (R31, assumption log 77). -/
def Team.endBlock (t : Team) : Team :=
  let no := match t.running with
    | some b => b.no
    | _ => 0
  ({ t.drainPort with
    running := .none, paths := [], splits := [], arms := [], barriers := [],
    bsum := if t.waiting.isEmpty then summary t.bunting else t.bsum }).resolveBound no

/-- Every started block has ended (R55). -/
def Team.idleLanes (t : Team) : Bool := t.running.isNone && t.waiting.isEmpty

/-- Every started block has ended and every lane-form op of them has completed: what LSYNC waits for (R154, R376). -/
def Team.lanesDone (t : Team) : Bool := t.idleLanes && t.tileQ.all (fun c => c.batch.isSome)

/-- A path in the middle of an instruction that has issued: a cube instruction some ops of which are not queued yet, an EMIT.PRIM that waits for
room. -/
def Path.goesOn (p : Path) : Bool :=
  match p.hold with
  | .cube _ | .prim _ _ => true
  | _ => false

/-- The issuing path issues once more; an instruction of a window uses it up (R64, R83). Going on with one is no issue. -/
def Team.countIssue (t : Team) : Team :=
  if t.cur.goesOn then t else { t with
    issues := t.issues + 1
    paths := t.paths.map (fun p =>
      if p.idx = t.curPath then { p with last := t.issues + 1, windows := p.windows.map (fun x => (x.1, x.2 - 1)), joined := false } else p) }

end Sys2Proof.Machine
end

