-- ==== Sys2Proof/Machine/Alu.lean ====
section
/-! DEFINITION. The integer operations on values of n bits, shared by the scalar forms (n = 64) and the lane forms (n = 32 or
64) (§16.2 to §16.12, §17.2, §18.8). -/

namespace Sys2Proof.Machine

/-- MULH: Floor(a·b / 2^n) mod 2^n (Table 18.6). -/
def imulh (u : Bool) (n : Nat) (a b : BitVec n) : BitVec n :=
  if u then BitVec.ofNat n (a.toNat * b.toNat / 2 ^ n) else BitVec.ofInt n (a.toInt * b.toInt / (2 ^ n : Int))

/-- DIV (R349). -/
def idiv (u : Bool) (n : Nat) (a b : BitVec n) : BitVec n :=
  if b = 0 then BitVec.allOnes n
  else if u then BitVec.ofNat n (a.toNat / b.toNat)
  else BitVec.ofInt n (a.toInt.tdiv b.toInt)

/-- REM (R378). -/
def irem (u : Bool) (n : Nat) (a b : BitVec n) : BitVec n :=
  if b = 0 then a
  else if u then BitVec.ofNat n (a.toNat % b.toNat)
  else BitVec.ofInt n (a.toInt - b.toInt * a.toInt.tdiv b.toInt)

/-- a < b, unsigned or signed. -/
def iless (u : Bool) (n : Nat) (a b : BitVec n) : Bool := if u then a.ult b else a.slt b

/-- MIN and MAX (Table 18.6). -/
def imin (u : Bool) (n : Nat) (a b : BitVec n) : BitVec n := if iless u n b a then b else a
def imax (u : Bool) (n : Nat) (a b : BitVec n) : BitVec n := if iless u n a b then b else a

/-- SLT: 1 if a < b, else 0. -/
def islt (u : Bool) (n : Nat) (a b : BitVec n) : BitVec n := if iless u n a b then 1 else 0

/-- ABS of an integer (Table 16.2). -/
def iabs (n : Nat) (a : BitVec n) : BitVec n := if a.slt 0 then -a else a

/-- ANDN: a AND (NOT b). -/
def iandn (n : Nat) (a b : BitVec n) : BitVec n := a &&& ~~~ b

/-- The shifts of R379 by an unsigned count of any size. -/
def ishl (n : Nat) (a : BitVec n) (c : Nat) : BitVec n := if n ≤ c then 0 else a <<< c
def ishr (n : Nat) (a : BitVec n) (c : Nat) : BitVec n := if n ≤ c then 0 else a >>> c
def isra (n : Nat) (a : BitVec n) (c : Nat) : BitVec n := a.sshiftRight (min c n)

/-- CLZ (Table 16.2). -/
def iclz (n : Nat) (a : BitVec n) : Nat := if a = 0 then n else n - 1 - Nat.log2 a.toNat

/-- POPC (Table 18.6). -/
def ipopc (n : Nat) (a : BitVec n) : Nat := (List.range n).foldl (fun k i => if a.getLsbD i then k + 1 else k) 0

/-- BREV (Table 16.2): bit i of the result is bit n − 1 − i of a. -/
def ibrev (n : Nat) (a : BitVec n) : BitVec n :=
  BitVec.ofNat n ((List.range n).foldl (fun k i => 2 * k + (if a.getLsbD i then 1 else 0)) 0)

/-- The position and length of a bit-field control word (R335). -/
def bfPos (ctl : Nat) : Nat := bits ctl 0 6
def bfLen (ctl n : Nat) : Nat := min (bits ctl 8 7) n

/-- BFE (R335). -/
def ibfe (sgn : Bool) (n : Nat) (a : BitVec n) (ctl : Nat) : BitVec n :=
  let pos := bfPos ctl
  let len := bfLen ctl n
  if len = 0 then 0
  else
    let f := ((if sgn then a.toInt else (a.toNat : Int)) / (2 ^ pos : Int) % (2 ^ len : Int)).toNat
    if sgn then BitVec.ofInt n (signed f len) else BitVec.ofNat n f

/-- BFI (R336). -/
def ibfi (n : Nat) (base ins : BitVec n) (ctl : Nat) : BitVec n :=
  let pos := bfPos ctl
  let m : BitVec n := BitVec.ofNat n ((2 ^ bfLen ctl n - 1) * 2 ^ pos)
  (base &&& ~~~ m) ||| (ins <<< pos &&& m)

/-- The width a SEXT or ZEXT function names: 8, 16 or 32 (R378, R409). -/
def extWidth (f : BitVec 3) : Nat := 8 * 2 ^ f.toNat

/-- SEXT (R378). -/
def isext (w n : Nat) (a : BitVec n) : BitVec n := BitVec.ofInt n (signed a.toNat w)

/-- ZEXT (R409). -/
def izext (w n : Nat) (a : BitVec n) : BitVec n := BitVec.ofNat n (a.toNat % 2 ^ w)

/-- An operation at the width of a lane value, 32 or 64 bits, on numbers. -/
def atWidth (is64 : Bool) (f : (n : Nat) → BitVec n → BitVec n → BitVec n) (a b : Nat) : Nat :=
  if is64 then (f 64 (BitVec.ofNat 64 a) (BitVec.ofNat 64 b)).toNat else (f 32 (BitVec.ofNat 32 a) (BitVec.ofNat 32 b)).toNat

end Sys2Proof.Machine
end

