-- ==== Sys2Proof/Machine/Flags.lean ====
section
/-! DEFINITION. The conditions the part computes: it keeps no flags register; a comparison writes a register or a predicate
(R343, R357), a branch tests a register (R333). -/

namespace Sys2Proof.Machine

/-- CMP conditions (Table 16.8). -/
def cmpHolds (c : BitVec 3) (n : Nat) (a b : BitVec n) : Bool :=
  match c.toNat with
  | 0 => decide (a = b)
  | 1 => decide (a ≠ b)
  | 2 => a.slt b
  | 3 => !a.slt b
  | 4 => a.ult b
  | _ => !a.ult b

/-- B conditions (Table 16.7). -/
def branchTaken (cond : BitVec 4) (x : DWord) : Bool :=
  match cond.toNat with
  | 0 => true
  | 1 => decide (x = 0)
  | 2 => decide (x ≠ 0)
  | 3 => x.slt 0
  | 4 => !x.slt 0
  | 5 => !x.slt 0 && decide (x ≠ 0)
  | _ => x.slt 0 || decide (x = 0)

/-- FCMP conditions (Table 17.3). -/
def fcmpHolds (fn : BitVec 3) (a b : Num) : Bool :=
  let ordered := !a.isNan && !b.isNan
  match fn.toNat with
  | 0 => Num.eq a b
  | 1 => !Num.eq a b
  | 2 => Num.lt a b
  | 3 => ordered && !Num.lt b a
  | 4 => Num.lt b a
  | 5 => ordered && !Num.lt a b
  | 6 => ordered
  | _ => !ordered

end Sys2Proof.Machine
end

