-- ==== Sys2Proof/Machine/ScalarAlu.lean ====
section
/-! DEFINITION. The scalar arithmetic and logic instructions and constants (§16.2, §16.3, §16.11, §16.12, §16.21, §17.2, §18.6, §18.8).
Each writes xd and moves the scalar PC past its word. -/

namespace Sys2Proof.Machine

/-- A machine state as a step's outcome. -/
abbrev Out := Host.Outcome State Fault Refusal

/-- A scalar result `f` of the issuing team's registers is written to xd, and the PC moves on. -/
def scalarResult (d : BitVec 5) (f : Team → DWord) (s : State) : Out := .next (s.upd (fun t => t.resultX d (f t)))

/-- ADD (R325). -/
def execAdd (d a b : BitVec 5) (s : State) : Out := scalarResult d (fun t => t.xr a + t.xr b) s
/-- SUB (R377). -/
def execSub (d a b : BitVec 5) (s : State) : Out := scalarResult d (fun t => t.xr a - t.xr b) s
/-- MUL (R377). -/
def execMul (d a b : BitVec 5) (s : State) : Out := scalarResult d (fun t => t.xr a * t.xr b) s
/-- MULH (R377). -/
def execMulh (u : Bool) (d a b : BitVec 5) (s : State) : Out := scalarResult d (fun t => imulh u 64 (t.xr a) (t.xr b)) s
/-- DIV (R349). -/
def execDiv (u : Bool) (d a b : BitVec 5) (s : State) : Out := scalarResult d (fun t => idiv u 64 (t.xr a) (t.xr b)) s
/-- REM (R378). -/
def execRem (u : Bool) (d a b : BitVec 5) (s : State) : Out := scalarResult d (fun t => irem u 64 (t.xr a) (t.xr b)) s
/-- MIN (R377). -/
def execMin (u : Bool) (d a b : BitVec 5) (s : State) : Out := scalarResult d (fun t => imin u 64 (t.xr a) (t.xr b)) s
/-- MAX (R377). -/
def execMax (u : Bool) (d a b : BitVec 5) (s : State) : Out := scalarResult d (fun t => imax u 64 (t.xr a) (t.xr b)) s
/-- AND (R325). -/
def execAnd (d a b : BitVec 5) (s : State) : Out := scalarResult d (fun t => t.xr a &&& t.xr b) s
/-- OR (R377). -/
def execOr (d a b : BitVec 5) (s : State) : Out := scalarResult d (fun t => t.xr a ||| t.xr b) s
/-- XOR (R407). -/
def execXor (d a b : BitVec 5) (s : State) : Out := scalarResult d (fun t => t.xr a ^^^ t.xr b) s
/-- ANDN (R325). -/
def execAndn (d a b : BitVec 5) (s : State) : Out := scalarResult d (fun t => iandn 64 (t.xr a) (t.xr b)) s
/-- SHL (R379): the count is all of xs2. -/
def execShl (d a b : BitVec 5) (s : State) : Out := scalarResult d (fun t => ishl 64 (t.xr a) (t.xr b).toNat) s
/-- SHR (R379). -/
def execShr (d a b : BitVec 5) (s : State) : Out := scalarResult d (fun t => ishr 64 (t.xr a) (t.xr b).toNat) s
/-- SRA (R379). -/
def execSra (d a b : BitVec 5) (s : State) : Out := scalarResult d (fun t => isra 64 (t.xr a) (t.xr b).toNat) s
/-- SLT (R377). -/
def execSlt (u : Bool) (d a b : BitVec 5) (s : State) : Out := scalarResult d (fun t => islt u 64 (t.xr a) (t.xr b)) s
/-- CMP (R343): 1 or 0. -/
def execCmp (c : BitVec 3) (d a b : BitVec 5) (s : State) : Out :=
  scalarResult d (fun t => if cmpHolds c 64 (t.xr a) (t.xr b) then 1 else 0) s
/-- SEL (R378): the old xd is the condition. -/
def execSel (d a b : BitVec 5) (s : State) : Out := scalarResult d (fun t => if t.xr d = 0 then t.xr b else t.xr a) s
/-- MOV (R377). -/
def execMov (d a : BitVec 5) (s : State) : Out := scalarResult d (fun t => t.xr a) s
/-- CLZ (R324). -/
def execClz (d a : BitVec 5) (s : State) : Out := scalarResult d (fun t => BitVec.ofNat 64 (iclz 64 (t.xr a))) s
/-- POPC (R377). -/
def execPopc (d a : BitVec 5) (s : State) : Out := scalarResult d (fun t => BitVec.ofNat 64 (ipopc 64 (t.xr a))) s
/-- BREV (R324). -/
def execBrev (d a : BitVec 5) (s : State) : Out := scalarResult d (fun t => ibrev 64 (t.xr a)) s
/-- SEXT (R378). -/
def execSext (w : BitVec 3) (d a : BitVec 5) (s : State) : Out := scalarResult d (fun t => isext (extWidth w) 64 (t.xr a)) s
/-- ZEXT (R409). -/
def execZext (w : BitVec 3) (d a : BitVec 5) (s : State) : Out := scalarResult d (fun t => izext (extWidth w) 64 (t.xr a)) s
/-- BFE (R335): xs2 is the control word. -/
def execBfe (sgn : Bool) (d a b : BitVec 5) (s : State) : Out := scalarResult d (fun t => ibfe sgn 64 (t.xr a) (t.xr b).toNat) s
/-- BFI (R336): xd is the base, xs1 the bits, xs2 the control word. -/
def execBfi (d a b : BitVec 5) (s : State) : Out := scalarResult d (fun t => ibfi 64 (t.xr d) (t.xr a) (t.xr b).toNat) s
/-- ADD_IMM (R325). -/
def execAddImm (d a : BitVec 5) (imm : BitVec 12) (s : State) : Out := scalarResult d (fun t => t.xr a + imm.signExtend 64) s
/-- AND_IMM (R325). -/
def execAndImm (d a : BitVec 5) (imm : BitVec 12) (s : State) : Out := scalarResult d (fun t => t.xr a &&& imm.signExtend 64) s
/-- OR_IMM (R377). -/
def execOrImm (d a : BitVec 5) (imm : BitVec 12) (s : State) : Out := scalarResult d (fun t => t.xr a ||| imm.signExtend 64) s
/-- XOR_IMM (R407). -/
def execXorImm (d a : BitVec 5) (imm : BitVec 12) (s : State) : Out := scalarResult d (fun t => t.xr a ^^^ imm.signExtend 64) s
/-- SHL_IMM (R379). -/
def execShlImm (d a : BitVec 5) (c : BitVec 6) (s : State) : Out := scalarResult d (fun t => ishl 64 (t.xr a) c.toNat) s
/-- SHR_IMM (R379). -/
def execShrImm (d a : BitVec 5) (c : BitVec 6) (s : State) : Out := scalarResult d (fun t => ishr 64 (t.xr a) c.toNat) s
/-- SRA_IMM (R379). -/
def execSraImm (d a : BitVec 5) (c : BitVec 6) (s : State) : Out := scalarResult d (fun t => isra 64 (t.xr a) c.toNat) s
/-- SLT_IMM (R377): signed. -/
def execSltImm (d a : BitVec 5) (imm : BitVec 12) (s : State) : Out :=
  scalarResult d (fun t => islt false 64 (t.xr a) (imm.signExtend 64)) s
/-- LI (R374). -/
def execLi (d : BitVec 5) (imm : BitVec 20) (s : State) : Out := scalarResult d (fun _ => imm.signExtend 64) s
/-- LIH (R374): the immediate is unsigned. -/
def execLih (d : BitVec 5) (imm : BitVec 20) (s : State) : Out := scalarResult d (fun t => t.xr d <<< 20 + imm.zeroExtend 64) s
/-- NOP (R380). -/
def execNop (s : State) : Out := .next (s.upd Team.nextS)
/-- J (R369, R73). -/
def execJ (imm : BitVec 20) (s : State) : Out := .next (s.upd (fun t => { t with spc := t.spc + 4 * imm.signExtend 64 }))
/-- JAL (R369): xd takes PC + 4. -/
def execJal (d : BitVec 5) (imm : BitVec 20) (s : State) : Out :=
  .next (s.upd (fun t => { t.setX d (t.spc + 4) with spc := t.spc + 4 * imm.signExtend 64 }))
/-- JR (R369): xs1 is read before xd is written. -/
def execJr (d a : BitVec 5) (imm : BitVec 12) (s : State) : Out :=
  .next (s.upd (fun t => { t.setX d (t.spc + 4) with spc := t.xr a + imm.signExtend 64 }))
/-- B (R333). -/
def execB (cond : BitVec 4) (a : BitVec 5) (disp : BitVec 13) (s : State) : Out :=
  .next (s.upd (fun t => { t with spc := if branchTaken cond (t.xr a) then t.spc + 4 * disp.signExtend 64 else t.spc + 4 }))
/-- TIME (R395): device time at the tick of issue. Every core reads the same count; the skew R11 allows is left out (assumption log 76). -/
def execTime (d : BitVec 5) (s : State) : Out := scalarResult d (fun _ => BitVec.ofNat 64 s.time) s

end Sys2Proof.Machine
end

