-- ==== Sys2Proof/Machine/LaneAlu.lean ====
section
/-! DEFINITION. The integer lane instructions (§16.2, §16.3, §16.11, §16.12, §16.21, §17.2, §18.6, §18.8, §19.12, §19.14). -/

namespace Sys2Proof
open Machine

/-- Registers of the word's TYPE. -/
def LWord.n (w : LWord) : Nat := typeRegs w.ty.toNat

/-- Whether the word's TYPE is no signed integer type. -/
def LWord.unsigned (w : LWord) : Bool := !atomSigned w.ty

end Sys2Proof

namespace Sys2Proof.Machine

/-- The issuing path moves past its instruction and its arm settles. -/
def Team.endL (t : Team) : Team := t.nextL.settle

/-- Each participating lane writes `n` registers from DST, and the path moves on. -/
def laneResult (w : LWord) (n : Nat) (f : Team → Nat → Nat) (s : State) : Out :=
  .next (s.upd (fun t => (t.mapV w n (f t)).endL))

/-- Each participating lane sets predicate DST, and the path moves on. -/
def lanePred (w : LWord) (f : Team → Nat → Bool) (s : State) : Out :=
  .next (s.upd (fun t => (t.mapP w (w.dst.toNat % 16) (f t)).endL))

/-- A binary operation at the width of the TYPE. -/
def laneBinary (w : LWord) (f : (n : Nat) → BitVec n → BitVec n → BitVec n) (s : State) : Out :=
  laneResult w w.n (fun t lane => atWidth (w.n == 2) f (t.a w lane w.n) (t.b w lane w.n)) s

/-- An operation by a single-register count or control word at the width of the TYPE. -/
def laneCount32 (w : LWord) (f : (n : Nat) → BitVec n → Nat → BitVec n) (s : State) : Out :=
  laneResult w w.n (fun t lane => atWidth (w.n == 2) (fun n a _ => f n a (t.b w lane 1)) (t.a w lane w.n) 0) s

/-- A unary operation at the width of the TYPE. -/
def laneUnary (w : LWord) (f : (n : Nat) → BitVec n → BitVec n) (s : State) : Out :=
  laneResult w w.n (fun t lane => atWidth (w.n == 2) (fun n a _ => f n a) (t.a w lane w.n) 0) s

/-- A count of the bits of SRC1, into a single register. -/
def laneBits (w : LWord) (f : (n : Nat) → BitVec n → Nat) (s : State) : Out :=
  laneResult w 1 (fun t lane => if w.n = 2 then f 64 (BitVec.ofNat 64 (t.a w lane 2)) else f 32 (BitVec.ofNat 32 (t.a w lane 1))) s

/-- ADD (R325). -/
def execAddLane (w : LWord) (s : State) : Out := laneBinary w (fun _ a b => a + b) s
/-- SUB (R377). -/
def execSubLane (w : LWord) (s : State) : Out := laneBinary w (fun _ a b => a - b) s
/-- MUL (R377). -/
def execMulLane (w : LWord) (s : State) : Out := laneBinary w (fun _ a b => a * b) s
/-- MULH (R377). -/
def execMulhLane (w : LWord) (s : State) : Out := laneBinary w (imulh w.unsigned) s
/-- MAD (R377): (a·b + c) mod 2ⁿ. -/
def execMad (w : LWord) (s : State) : Out := 
  laneResult w w.n (fun t lane => (t.a w lane w.n * t.b3 w lane w.n + t.c w lane w.n) % 2 ^ (32 * w.n)) s
/-- DIV (R349). -/
def execDivLane (w : LWord) (s : State) : Out := laneBinary w (idiv w.unsigned) s
/-- MIN (R377). -/
def execMinLane (w : LWord) (s : State) : Out := laneBinary w (imin w.unsigned) s
/-- MAX (R377). -/
def execMaxLane (w : LWord) (s : State) : Out := laneBinary w (imax w.unsigned) s
/-- AND (R325). -/
def execAndLane (w : LWord) (s : State) : Out := laneBinary w (fun _ a b => a &&& b) s
/-- OR (R377). -/
def execOrLane (w : LWord) (s : State) : Out := laneBinary w (fun _ a b => a ||| b) s
/-- XOR (R407). -/
def execXorLane (w : LWord) (s : State) : Out := laneBinary w (fun _ a b => a ^^^ b) s
/-- ANDN (R325). -/
def execAndnLane (w : LWord) (s : State) : Out := laneBinary w iandn s
/-- SHL (R379). -/
def execShlLane (w : LWord) (s : State) : Out := laneCount32 w ishl s
/-- SHR (R379). -/
def execShrLane (w : LWord) (s : State) : Out := laneCount32 w ishr s
/-- SRA (R379). -/
def execSraLane (w : LWord) (s : State) : Out := laneCount32 w isra s
/-- CLZ (R324): a single destination register. -/
def execClzLane (w : LWord) (s : State) : Out := laneBits w iclz s
/-- POPC (R377). -/
def execPopcLane (w : LWord) (s : State) : Out := laneBits w ipopc s
/-- BREV (R324). -/
def execBrevLane (w : LWord) (s : State) : Out := laneUnary w ibrev s
/-- BFE (R335). -/
def execBfeLane (w : LWord) (s : State) : Out := laneCount32 w (ibfe (decide (w.fn = 1))) s
/-- BFI (R336): SRC1 the base, SRC2 the bits, SRC3 or the immediate the control word. -/
def execBfiLane (w : LWord) (s : State) : Out := 
  laneResult w w.n (fun t lane => atWidth (w.n == 2) (fun n a b => ibfi n a b (t.c w lane 1)) (t.a w lane w.n) (t.b3 w lane w.n)) s
/-- SEXT (R378). -/
def execSextLane (w : LWord) (s : State) : Out := laneUnary w (isext (extWidth w.fn)) s
/-- ZEXT (R409). -/
def execZextLane (w : LWord) (s : State) : Out := laneUnary w (izext (extWidth w.fn)) s
/-- SEL (R378): SRC3 is a predicate. -/
def execSelLane (w : LWord) (s : State) : Out := 
  laneResult w w.n (fun t lane =>
    if (t.pm (w.src3.toNat % 16)).getLsbD lane then t.a w lane w.n else t.b3 w lane w.n) s
/-- MOV (R377). -/
def execMovLane (w : LWord) (s : State) : Out := laneResult w w.n (fun t lane => t.a w lane w.n) s
/-- LI (R374). -/
def execLiLane (w : LWord) (s : State) : Out := laneResult w w.n (fun _ _ => immValue w.ty.toNat w.n w.hi) s
/-- LIH (R374): vd keeps its value, vd+1 takes IMM32. -/
def execLihLane (w : LWord) (s : State) : Out := 
  laneResult w 2 (fun t lane => (t.vr lane w.dst.toNat).toNat + 2 ^ 32 * w.hi.toNat) s
/-- CMP (R343). -/
def execCmpLane (w : LWord) (s : State) : Out := 
  lanePred w (fun t lane =>
    if w.n = 2 then cmpHolds w.fn 64 (BitVec.ofNat 64 (t.a w lane 2)) (BitVec.ofNat 64 (t.b w lane 2))
    else cmpHolds w.fn 32 (BitVec.ofNat 32 (t.a w lane 1)) (BitVec.ofNat 32 (t.b w lane 1))) s
/-- SLT (R377): a single destination register. -/
def execSltLane (w : LWord) (s : State) : Out := 
  laneResult w 1 (fun t lane => atWidth (w.n == 2) (islt w.unsigned) (t.a w lane w.n) (t.b w lane w.n)) s
/-- NOP (R380). -/
def execNopLane (s : State) : Out := .next (s.upd Team.endL)
/-- TIME (R395): one sample for every lane. -/
def execTimeLane (w : LWord) (s : State) : Out := laneResult w 2 (fun _ _ => s.time % 2 ^ 64) s

end Sys2Proof.Machine
end

