-- ==== Sys2Proof/Machine/ScalarMemory.lean ====
section
/-! DEFINITION. The scalar loads, stores and fences (R82, R195, R373, R391). -/

namespace Sys2Proof.Machine

/-- The address of an S-M access (R82). -/
def Team.scalarEa (t : Team) (b : BitVec 5) (off : BitVec 5) (sz : BitVec 2) : DWord :=
  t.xr b + BitVec.ofNat 64 (off.toNat * 2 ^ sz.toNat)

/-- The load itself: `n` bytes at `va`, zero-extended (R373). -/
def scalarLoad (evict : BitVec 3) (va : DWord) (n : Nat) : Act (Except TFault DWord) := do
  let s ← get
  match ← vread s.t.tag .load none evict va n with
  | .error f => pure (.error f)
  | .ok bs => do
    hotPass s.t.tag 0 (lineAddrs va n)
    pure (.ok (BitVec.ofNat 64 (leNat bs)))

/-- The store itself: the low `n` bytes of `v` at `va` (R391), after the release its ORD asks for. -/
def scalarStore (evict scope : BitVec 3) (ord : BitVec 2) (va : DWord) (n v : Nat) : Act (Except TFault Unit) := do
  let s ← get
  if ord = 2 then change (fun s => s.release scope.toNat) else pure ()
  match ← vwrite s.t.tag .store evict va (leBytes n v) with
  | .error f => pure (.error f)
  | .ok _ => do
    hotPass s.t.tag 1 (lineAddrs va n)
    pure (.ok ())

/-- LD (R373). -/
def execLd (off : BitVec 5) (evict scope : BitVec 3) (ord sz : BitVec 2) (b t : BitVec 5) (s : State) : Out :=
  let va := s.t.scalarEa b off sz
  runAct (do
    match ← scalarLoad evict va (2 ^ sz.toNat) with
    | .ok v => change (fun s => s.upd (fun u => u.resultX t v))
    | .error f => change (fun s => s.scalarFault (.ld off evict scope ord sz b t) 0 { lane := 0, addr := va, data := 0 } f t)) s

/-- ST (R391). A .PEER release first waits for the team's link writes (R210). -/
def execSt (off : BitVec 5) (evict scope : BitVec 3) (ord sz : BitVec 2) (b t : BitVec 5) (s : State) : Out :=
  let va := s.t.scalarEa b off sz
  let v := (s.t.xr t).toNat
  if ord = 2 ∧ s.t.linkWait scope.toNat then .next s
  else runAct (do
    match ← scalarStore evict scope ord va (2 ^ sz.toNat) v with
    | .ok _ => change (fun s => s.upd Team.nextS)
    | .error f => change (fun s => s.scalarFault (.st off evict scope ord sz b t) 1 { lane := 0, addr := va, data := v } f 0)) s

/-- FENCE (R195, R360): a release drains the core's stores at the scope; an acquire alone finds earlier reads performed. -/
def execFence (ord : BitVec 2) (scope : BitVec 3) (s : State) : Out :=
  if s.t.linkWait scope.toNat then .next s
  else if ord = 1 then .next (s.upd Team.nextS)
  else .next ((s.release scope.toNat).upd Team.nextS)

end Sys2Proof.Machine
end

