-- ==== Sys2Proof/Machine/ScalarControl.lean ====
section
/-! DEFINITION. The scalar stream's control instructions: blocks, traps, system registers, guards, batches, tile shapes, migration,
code flushes (§2.8, §3.1, §3.2, §4.6, §4.8, §7.7, §7.8). -/

namespace Sys2Proof.Machine

/-! ## Blocks -/

/-- The entry of an LRUN (R104, R375). -/
def lrunTarget (pc : DWord) (imm : BitVec 20) : DWord := BitVec.ofNat 64 (alignDown pc.toNat 128) + 128 * imm.signExtend 64

/-- LRUN (R52, R53, R375). -/
def execLrun (imm : BitVec 20) (s : State) : Out :=
  let t := s.t
  if t.inh then .next (s.trapScalar 0x01)
  else if 3 ≤ t.waiting.length then .next s
  else .next (s.upd (fun t => { t.nextS with
    blockNo := t.blockNo + 1
    waiting := t.waiting ++ [{ no := t.blockNo + 1, entry := lrunTarget t.spc imm, snap := t.x }] }))

/-- LSYNC (R55, R376). -/
def execLsync (s : State) : Out :=
  if s.t.inh then .next (s.trapScalar 0x01)
  else if s.t.lanesDone then .next (s.upd Team.nextS)
  else .next s

/-- HALT (R365): the team becomes Retiring. A block that a trap paused goes on as after ERET, so that it ends and the team retires as any other
(R42, assumption log 26). -/
def execHalt (s : State) : Out :=
  .next (s.upd (fun t => if t.paused then { t with life := .retiring }.unpause.settle else { t with life := .retiring }))

/-! ## Traps -/

/-- TRAP (R403, R404): with BPSTOP a debug stop, otherwise the trap of cause 0x03. -/
def execTrap (s : State) : Out :=
  if (ctxOf s s.t.ctx).trctl.getLsbD 11 then runAct (debugStop 0 false) s else .next (s.trapScalar 0x03)

/-- ERET (R297, R352). -/
def execEret (s : State) : Out := if s.t.inh then .next (s.upd (fun t => t.eret.settle)) else .next (s.trapScalar 0x01)

/-! ## System registers (§4.6) -/

/-- sr.devid (Table 4.8). -/
def srDevid (s : State) : DWord :=
  BitVec.ofNat 64 (0x9840 * 2 ^ 32 + 0x0b1 * 2 ^ 20 + 0x90 * 2 ^ 12 + s.win.memCode.toNat * 2 ^ 8 + (if s.win.peer then 1 else 0))

/-- sr.teamid (Table 2.2). -/
def Team.srTeamid (t : Team) : DWord :=
  BitVec.ofNat 64 (t.ctx % 16 * 2 ^ 44 + t.core % 256 * 2 ^ 36 + t.clorg % 256 * 2 ^ 28 + t.clrows % 8 * 2 ^ 25 + t.clcols % 8 * 2 ^ 22 +
    t.clidx % 16 * 2 ^ 18 + t.slot % 4 * 2 ^ 16 + t.gmax.toNat * 2 ^ 11 + t.win % 1024 * 2)

/-- sr.guard (Table 3.1). -/
def Team.srGuard (t : Team) : DWord :=
  BitVec.ofNat 64 ((List.range 16).foldl (fun n k => n + (match t.guard k with
    | .resolved true => 0
    | .resolved false => 2 ^ (2 * k)
    | .pending .none => 2 * 2 ^ (2 * k)
    | .pending (.some _) => 2 * 2 ^ (2 * k) + 2 ^ (32 + k))) 0)

/-- sr.privhw (Table 8.2). -/
def Ctx.srPrivhw (x : Ctx) : DWord := BitVec.ofNat 64 (x.hwm % 65536 * 2 ^ 48 + x.pbase % 2 ^ 36 * 2 ^ 12 + x.wstride % 512 * 2 ^ 3)

/-- sr.errtrap (Table 4.10). -/
def Team.srErrtrap (t : Team) : DWord := BitVec.ofNat 64 ((if t.sticky then 2 else 0) + (if t.trapEn then 1 else 0))

/-- A scalar read of system register `n` (Table 4.7). -/
def srRead (s : State) (n : Nat) : DWord :=
  let x := ctxOf s s.t.ctx
  match n with
  | 0x000 => srDevid s
  | 0x001 => s.t.srTeamid
  | 0x002 => s.t.bsum.zeroExtend 64
  | 0x003 => s.t.srGuard
  | 0x004 => BitVec.ofNat 64 (s.t.pennant % 8)
  | 0x005 => s.t.cover
  | 0x006 => x.srPrivhw
  | 0x007 => s.t.srFault
  | 0x008 => s.t.srErrtrap
  | 0x009 => x.warptol.zeroExtend 64
  | 0x00a => x.rastthr.zeroExtend 64
  | 0x00b => x.oslimit.zeroExtend 64
  | _ => 0

/-- Whether the last write of a context's register was made at the same tick as one now, from a higher core, or slot of the core: of two such
writes that one stands (R86). -/
def outranked (last : Option (Nat × Nat × Nat)) (me : Nat × Nat × Nat) : Bool :=
  match last with
  | some (time, core, slot) => decide (time = me.1 ∧ (me.2.1 < core ∨ (core = me.2.1 ∧ me.2.2 < slot)))
  | none => false

/-- A scalar write of system register `n`: RO registers and fields ignore it, STICKY clears where 1 is written (R86, R89, R388). -/
def srWrite (s : State) (n : Nat) (v : DWord) : State :=
  let me := (s.time, s.t.core, s.t.slot)
  match n with
  | 0x008 => s.upd (fun t => { t with sticky := t.sticky && !v.getLsbD 1, trapEn := v.getLsbD 0 })
  | 0x009 => s.updCtx s.t.ctx (fun x => if outranked x.warpBy me then x else { x with warptol := v.setWidth 32, warpBy := some me })
  | 0x00a => s.updCtx s.t.ctx (fun x => if outranked x.rastBy me then x else { x with rastthr := v.setWidth 32, rastBy := some me })
  | _ => s

/-- SRRD (R388). -/
def execSrrd (num : BitVec 10) (d : BitVec 5) (s : State) : Out := scalarResult d (fun _ => srRead s num.toNat) s

/-- SRWR (R388, R389). -/
def execSrwr (num : BitVec 10) (a : BitVec 5) (s : State) : Out :=
  .next ((srWrite s num.toNat (s.t.xr a)).upd Team.nextS)

/-! ## Guard slots (R57, R364) -/

/-- GRES.P (Table 3.2). -/
def execGresP (g : BitVec 4) (s : State) : Out := .next (s.upd (fun t => (t.setGuard g.toNat (.pending none)).nextS))

/-- GRES (Table 3.2). -/
def execGres (g : BitVec 4) (a : BitVec 5) (s : State) : Out :=
  .next (s.upd (fun t => (t.resolve g.toNat (decide (t.xr a ≠ 0))).nextS))

/-- GRES.ANY and GRES.ALL: bound to the most recent block, or resolved at once if it has ended (R57). -/
def Team.bindGuard (t : Team) (g p : BitVec 4) (all : Bool) : Team :=
  if t.blockNo ≠ 0 ∧ t.blockLive t.blockNo then
    t.setGuard g.toNat (.pending (some { block := t.blockNo, pred := p, all := all }))
  else t.resolve g.toNat (t.bindValue p.toNat all)

/-- GRES.ANY. -/
def execGresAny (g p : BitVec 4) (s : State) : Out := .next (s.upd (fun t => (t.bindGuard g p false).nextS))

/-- GRES.ALL. -/
def execGresAll (g p : BitVec 4) (s : State) : Out := .next (s.upd (fun t => (t.bindGuard g p true).nextS))

/-- GWAIT (R59, R364). -/
def execGwait (g : BitVec 4) (s : State) : Out :=
  match s.t.guard g.toNat with
  | .resolved _ => .next (s.upd Team.nextS)
  | .pending (some _) => .next s
  | .pending none => .next (s.stopScalar 0x04 0 0)

/-! ## Batches (R155, R156) -/

/-- The batch after `n`; 0 is never used. -/
def batchAfter (n : BitVec 32) : BitVec 32 := if n = 0xffffffff then 1 else n + 1

/-- The batch before `n`. -/
def batchBefore (n : BitVec 32) : BitVec 32 := if n = 1 then 0xffffffff else n - 1

/-- The open batch closes: its number is written to xd. -/
def Team.bclose (t : Team) (d : BitVec 5) : Team := { t.setX d (t.batch.zeroExtend 64) with batch := batchAfter t.batch }

/-- Number `a` is `b` or lower, in a window of 2^31 (R156). -/
def batchLe (a b : BitVec 32) : Bool := decide ((b - a).toNat < 2 ^ 31)

/-- Whether a queued command belongs to a batch that `f` accepts. -/
def Team.inBatches (t : Team) (f : BitVec 32 → Bool) : List EngCmd :=
  (t.tileQ ++ t.copyQ).filter (fun c => match c.batch with
    | some b => f (BitVec.ofNat 32 b)
    | _ => false)

/-- Whether a command is held under a guard that is pending and unbound. -/
def Team.heldUnbound (t : Team) (c : EngCmd) : Bool :=
  match c.guard with
  | some k => decide (t.guard k = .pending .none)
  | _ => false

/-- BCLOSE. -/
def execBclose (d : BitVec 5) (s : State) : Out := .next (s.upd (fun t => (t.bclose d).nextS))

/-- BWAIT (R156, R59). -/
def execBwait (a : BitVec 5) (s : State) : Out :=
  let t := s.t
  let n : BitVec 32 := (t.xr a).setWidth 32
  let last := batchBefore t.batch
  let above := decide (n ≠ 0) && !batchLe n last
  let waits := t.inBatches (fun b => if above then true else batchLe b (if n = 0 then last else n))
  if waits.any t.heldUnbound then .next (s.stopScalar 0x04 0 0)
  else if !waits.isEmpty then .next s
  else .next (s.upd (fun t => (if above then t.bclose 0 else t).nextS))

/-! ## Tile shapes (R150) -/

/-- The shape of tile `k` in a TCFG operand: rows and columns. -/
def tcfgShape (v : DWord) (k : Nat) : Nat × Nat := (8 * bits v.toNat (16 * k + 9) 7, 32 * bits v.toNat (16 * k + 4) 5)

/-- Whether tile `k`'s field of a TCFG operand is legal. -/
def tcfgLegal (v : DWord) (k : Nat) : Bool :=
  let r := bits v.toNat (16 * k + 9) 7
  let c := bits v.toNat (16 * k + 4) 5
  decide (bits v.toNat (16 * k) 4 = 0 ∧ r ≤ 64 ∧ c ≤ 16 ∧ (r = 0 ↔ c = 0))

/-- Elements of a core's accumulator store that teams other than the issuing one hold (R149). -/
def elementsElsewhere (s : State) : Nat := elementsHeld s s.t.core - (if s.t.life = .retired then 0 else s.t.elements)

/-- TCFG (R150, R393). An operand that is both malformed and too large has status 2 (assumption log 89). -/
def execTcfg (d a : BitVec 5) (s : State) : Out :=
  let t := s.t
  let v := t.xr a
  if !t.idleLanes then .next s
  else if t.tileQ.any t.heldUnbound then .next (s.stopScalar 0x04 0 0)
  else if !t.tileQ.isEmpty then .next s
  else
    let shapes := (List.range 4).map (tcfgShape v)
    let total := shapes.foldl (fun n r => n + r.1 * r.2) 0
    if !(List.range 4).all (tcfgLegal v) then .next (s.upd (fun t => t.resultX d 2))
    else if 16384 - elementsElsewhere s < total then .next (s.upd (fun t => t.resultX d 1))
    else .next (s.upd (fun t => { t.resultX d 0 with
      shapes := (List.range 4).foldl (fun m k => sset (0, 0) m k (tcfgShape v k)) []
      acc := [] }))

/-! ## Code that changes (R96, R366, R367) -/

/-- The virtual range an ICFLUSH names: its first line and how many bytes; `none`: every instruction of the context. -/
def flushRange (a b : DWord) : Option (Nat × Nat) :=
  if b = 0 ∨ 2 ^ 32 < b.toNat then none
  else
    let lo := alignDown a.toNat 128
    some (lo, alignDown (a.toNat + b.toNat + 127) 128 - lo)

/-- The cores of a scope discard what they have fetched of a range of a context's code. -/
def State.discardCode (s : State) (ctx : Nat) (cores : List Nat) (r : Option (Nat × Nat)) : State :=
  { s with caches := { s.caches with icache := s.caches.icache.filter (fun u =>
    !(cores.contains u.core && u.ctx == ctx && (match r with
      | none => true
      | some (lo, n) => overlaps lo n u.va 8))) } }

/-- ICFLUSH (R96): the release, then the discards; ICFLUSH_COMPLETE ends the stall. -/
def execIcflush (scope : BitVec 3) (a b : BitVec 5) (s : State) : Out :=
  if s.t.wait = .none then
    .next ((s.release scope.toNat).upd (fun t => { t with wait := .icflush scope.toNat (t.xr a) (t.xr b) }))
  else .next s

/-! ## Migration (§2.8) -/

/-- Whether an engine queue is empty or its head is held under a pending guard (R44). -/
def queueHeld (q : List EngCmd) : Bool :=
  match q with
  | [] => true
  | c :: _ => c.guard.isSome

/-- Whether a path stands inside a lane instruction (R44). -/
def Path.inside (p : Path) : Bool :=
  match p.hold with
  | .put _ _ | .prim _ _ | .cube _ => true
  | _ => false

/-- The issuing team leaves for slot `k` of core `c` (R44, R48): Stopped in transit until it arrives. -/
def Team.depart (t : Team) (c k : Nat) (d : BitVec 5) : Team :=
  { t with
    core := c, slot := k, before := t.life, life := .stopped, why := .transit, wait := .migrate d c, acc := [], spad := [], port := [] }

/-- MIGRATE (R44, R46, R152): of several free slots the lowest is reserved (assumption log 69), and lent units the claim needs are taken
back (R169). -/
def execMigrate (d a : BitVec 5) (s : State) : Out :=
  let t := s.t
  let c := (t.xr a).toNat
  let status (n : DWord) : Out := .next (s.upd (fun t => t.resultX d n))
  if 1 < t.clrows * t.clcols then status 4
  else if 143 < c ∨ partitionOf c ≠ partitionOf t.core then status 2
  else if c = t.core then status 0
  else if !t.oplog.isEmpty || t.paths.any Path.inside || !(queueHeld t.tileQ && queueHeld t.copyQ) then .next s
  else if !(t.tileQ.isEmpty && t.copyQ.isEmpty) then status 3
  else if tooLate s c t.core then .next s
  else match (if agedOn s c then [] else freeSlots s c) with
    | [] => status 1
    | k :: _ =>
      if 128 < unitsClaimed s c + claimUnits t.claim ∨ 16384 < elementsHeld s c + t.elements then status 1
      else .next ((((s.release 4).reclaim t.ctx c (claimUnits t.claim)).takeSlot c t.core).upd (fun t => t.depart c k d))

end Sys2Proof.Machine
end

