-- ==== Sys2Proof/Machine/LaneControl.lean ====
section
/-! DEFINITION. The lane stream's control instructions: branches, calls, priorities, barriers, lane system registers, fences and traps
(§3.3 to §3.6, §8.8, §9.3, §16.4, §16.7, §16.9, §16.15, §16.17, §16.19, §18.3, §18.17, §18.22, §19.8, §19.13). -/

namespace Sys2Proof.Machine

/-! ## Branches -/

/-- A signed 16-bit displacement of IMM32 from bit `lo`. -/
def branchDisp (w : LWord) (lo : Nat) : Int := (w.hi.extractLsb' lo 16).toInt

/-- The issuing path goes to `pc` as a whole. -/
def Team.goTo (t : Team) (pc : DWord) : Team := (t.updCur (fun p => { p with pc := pc })).settle

/-- BR (R60, R339). -/
def execBr (w : LWord) (s : State) : Out :=
  let t := s.t
  let p := t.cur
  let taken := t.partMask w
  let rest := p.mask &&& ~~~ taken
  let target := laneShift p.pc (branchDisp w 0)
  if taken = 0 then .next (s.upd Team.endL)
  else if rest = 0 then .next (s.upd (fun t => t.goTo target))
  else if t.freeEntries.isEmpty then .next (s.stopLane 0x05 0 0)
  else .next (s.upd (fun t => t.split (laneShift p.pc (branchDisp w 16)) (rest, laneNext p.pc) [(taken, target)]))

/-- The entry of the running block. -/
def Team.blockEntry (t : Team) : DWord :=
  match t.running with
  | some b => b.entry
  | _ => 0

/-- Insert an address in ascending order, once. -/
def insertAddr (a : DWord) : List DWord → List DWord
  | [] => [a]
  | b :: bs => if a = b then b :: bs else if a.toNat < b.toNat then a :: b :: bs else b :: insertAddr a bs

/-- The arms of a BRX: each distinct target, ascending, with its lanes (R340). -/
def brxArms (t : Team) (w : LWord) : List (Mask × DWord) :=
  let p := t.cur
  let m := t.partMask w
  let dest (lane : Nat) : DWord :=
    if m.getLsbD lane then laneShift t.blockEntry ((t.a w lane 1 : Nat) : Int) else laneNext p.pc
  let ls := lanesIn (laneCount t.gmax) p.mask
  let ts := ls.foldl (fun acc l => insertAddr (dest l) acc) []
  ts.map (fun a => (maskOf (ls.filter (fun l => dest l == a)), a))

/-- BRX (R340). -/
def execBrx (w : LWord) (s : State) : Out :=
  let t := s.t
  match brxArms t w with
  | [] => .next (s.upd Team.endL)
  | [a] => .next (s.upd (fun t => t.goTo a.2))
  | a :: rest =>
    if t.freeEntries.length < rest.length then .next (s.stopLane 0x05 0 0)
    else .next (s.upd (fun t => t.split (laneShift t.cur.pc (branchDisp w 16)) a rest))

/-- CALL (R342). -/
def execCall (w : LWord) (s : State) : Out :=
  if 16 ≤ s.t.cur.rstack.length then .next (s.stopLane 0x05 0 0)
  else .next (s.upd (fun t => (t.updCur (fun p =>
    { p with rstack := laneNext p.pc :: p.rstack, pc := laneShift p.pc (branchDisp w 0) })).settle))

/-- RET (R384, R54): on an empty return stack the block ends for the path's lanes. -/
def execRet (s : State) : Out :=
  match s.t.cur.rstack with
  | pc :: _ => .next (s.upd (fun t => (t.updCur (fun p => { p with rstack := p.rstack.drop 1, pc := pc })).settle))
  | [] => .next (s.upd (fun t => (t.leavePaths t.cur.mask).settle))

/-- JOIN (R63, R370): it issues once for a merged mask and has no other effect than its order. -/
def execJoin (s : State) : Out := .next (s.upd Team.endL)

/-- The issuing path's priority. -/
def Team.setPrio (t : Team) (n : BitVec 3) : Team := t.updCur (fun p => { p with prio := n })

/-- PRIO (R65). -/
def execPrio (w : LWord) (s : State) : Out := .next (s.upd (fun t => (t.setPrio (w.hi.extractLsb' 0 3)).endL))

/-- YIELD (R65, R408): priority 0, and not eligible in the next issue slot. -/
def execYield (s : State) : Out :=
  .next (s.upd (fun t => ((t.setPrio 0).updCur (fun p => { p with yielded := true })).endL))

/-- The bindings of lanes of a mask end; a token held is force-released (R273, R276). -/
def State.unbindLanes (s : State) (m : Mask) : State :=
  let s' := (s.t.bindings.filter (fun b => m.getLsbD b.lane)).foldl State.unbind s
  s'.upd (fun t => { t with bindings := t.bindings.filter (fun b => !m.getLsbD b.lane) })

/-- EXIT (R353): the participants leave; while some of them have a parked access, the path stays at the EXIT for them (R294). -/
def execExit (w : LWord) (s : State) : Out :=
  let late := maskOf ((s.t.parts w).filter s.t.pending)
  let m := s.t.partMask w &&& ~~~ late
  .next ((s.unbindLanes m).upd (fun t => if late = 0 then (t.leaveTeam m).endL else (t.leaveTeam m).settle))

/-! ## Barriers (R326 to R334) -/

/-- The barrier an instruction names. -/
def barId (w : LWord) : Nat := (w.hi.extractLsb' 0 5).toNat

/-- The drain of R182: the core's write-combining lines and the team's scratchpad write port. -/
def State.drainEngine (s : State) : State := (s.drainCore s.t.core).upd Team.drainPort

/-- The issuing path holds at barrier `b` (R332). -/
def Team.holdBar (t : Team) (b : Nat) (e : Bool) : Team := (t.updCur (fun p => { p with hold := .barrier b e })).settle

/-- ARRIVE (R327). -/
def execArrive (w : LWord) (s : State) : Out := .next (s.upd (fun t => (t.arrive (barId w)).endL))

/-- BAR (R334): arrive, then wait. -/
def execBar (w : LWord) (s : State) : Out := .next (s.upd (fun t => (t.arrive (barId w)).holdBar (barId w) false))

/-- BAR.E (R334, R182). -/
def execBarE (w : LWord) (s : State) : Out := .next (s.upd (fun t => (t.arrive (barId w)).holdBar (barId w) true))

/-- Whether the flags of barrier `b` are clear in every lane of the issuing path. -/
def Team.flagsClear (t : Team) (b : Nat) : Bool := decide (t.flags b &&& t.cur.mask = 0)

/-- AWAIT (R332): a path none of whose lanes has its flag set passes at once. -/
def execAwait (w : LWord) (s : State) : Out :=
  if s.t.flagsClear (barId w) then .next (s.upd Team.endL) else .next (s.upd (fun t => t.holdBar (barId w) false))

/-- AWAIT.E (R332): passing, the arrivers' earlier stores are drained to the engine path. -/
def execAwaitE (w : LWord) (s : State) : Out :=
  if s.t.flagsClear (barId w) then .next (s.drainEngine.upd Team.endL)
  else .next (s.upd (fun t => t.holdBar (barId w) true))

/-! ## Lane system registers (R388) -/

/-- SRRD of sr.laneid or sr.prio. -/
def execSrrdLane (w : LWord) (s : State) : Out :=
  laneResult w 1 (fun t lane => if w.srNum = 0x100 then lane else if w.srNum = 0x101 then t.cur.prio.toNat else 0) s

/-- SRWR of sr.prio by the lowest participant; sr.laneid is RO. -/
def execSrwrLane (w : LWord) (s : State) : Out :=
  match s.t.parts w with
  | [] => .next (s.upd Team.endL)
  | lane :: _ =>
    if w.srNum = 0x101 then .next (s.upd (fun t => (t.setPrio (BitVec.ofNat 3 (t.src lane 1 w.x2 w.src2))).endL))
    else .next (s.upd Team.endL)

/-! ## Traps and fences -/

/-- TRAP (R403, R404). -/
def execTrapLane (s : State) : Out :=
  if (ctxOf s s.t.ctx).trctl.getLsbD 11 then runAct (debugStop 0 true) s else .next (s.trapLane 0x03)

/-- The issue of a word that is no instruction (R102), in the stream whose turn it is: cause 0x02 for a Reserved pattern, else 0x01. -/
def execIllegalInstructionIssue (reserved : Bool) (s : State) : Out :=
  let cause := if reserved then 0x02 else 0x01
  match s.turn with
  | some (.lane _ _ _) => .next (s.trapLane cause)
  | _ => .next (s.trapScalar cause)

/-- FENCE (R195, R210, R360); with any ORD and scope the lines of earlier stores of its lanes drain (R170). -/
def execFenceLane (w : LWord) (s : State) : Out :=
  if s.t.linkWait w.scope.toNat then .next s
  else .next ((if w.ord = 1 then s.drainLanes else (s.release w.scope.toNat).drainLanes).upd Team.endL)

/-- PATHFENCE (R183): drain, release, and for .CORE and wider invalidate the sampler caches of the scope. -/
def execPathfence (w : LWord) (s : State) : Out :=
  let sc := w.fn.toNat
  let s' := s.drainEngine.release sc
  .next ((if 2 ≤ sc then s'.dropSamples (scopeCores s'.t sc) else s').upd Team.endL)

end Sys2Proof.Machine
end

