-- ==== Sys2Proof/Machine/LaneMemory.lean ====
section
/-! DEFINITION. The lane memory instructions: LD, ST, SLD, SAMPLE, ATOM, TRACE, LAUNCH and the per-lane CPY; their passes, parking and
replay (§8.1, §8.4, §8.5, §8.6, §9.4, §9.5, §12.5, §13.8, R292 to R294). -/

namespace Sys2Proof.Machine

/-! ## Passes -/

/-- The list in a free order (R30): element `c` mod length first, and so on (assumption log 1). -/
def shuffleFrom {α : Type} : Nat → Nat → List α → List α
  | 0, _, l => l
  | n + 1, c, l =>
    match l[c % l.length]? with
    | some a => a :: shuffleFrom n (c / l.length) (l.eraseIdx (c % l.length))
    | none => l

/-- A free order of a list; a list of at most one element has only one. -/
def shuffle {α : Type} (c : Nat) (l : List α) : List α := if l.length ≤ 1 then l else shuffleFrom l.length c l

/-- The order in which the lanes of an instruction are performed (R30), and that of other things the spec does not order. -/
def laneOrder {α : Type} (s : State) (l : List α) : List α :=
  if l.length ≤ 1 then l else shuffle (Config.choice s.free) l

/-- Log lanes brought together by pass: those of one group whose addresses lie in one aligned line follow one another, so that a coalesced
access is one event (R170, R197). At most `n` passes. -/
def coalesce : Nat → List LogLane → List LogLane
  | 0, ls => ls
  | _ + 1, [] => []
  | n + 1, l :: ls =>
    let same (k : LogLane) : Bool := k.lane / 32 == l.lane / 32 && lineOf k.addr.toNat == lineOf l.addr.toNat
    l :: ls.filter same ++ coalesce n (ls.filter (fun k => !same k))

/-- The order in which an instruction's lanes access memory: pass by pass, the passes and each pass's lanes in a free order (R30). -/
def passOrder (s : State) (ls : List LogLane) : List LogLane := coalesce ls.length (laneOrder s ls)

/-- A range of virtual addresses: where it begins, and its bytes. -/
abbrev Span := DWord × Nat

/-- What performs one lane's access from its operand-log values: its fault, or the virtual addresses it reached. -/
abbrev Perform := LogLane → Act (Except TFault (List Span))

/-- What performing some lanes gave: the lanes that faulted, and what each other lane reached. -/
structure Performed where
  faults : List (LogLane × TFault)
  reached : List (Nat × Span)
  deriving DecidableEq, Repr

/-- Perform lanes in order. -/
def performAll (f : Perform) : List LogLane → Act Performed
  | [] => pure { faults := [], reached := [] }
  | l :: ls => do
    let r ← f l
    let rest ← performAll f ls
    match r with
    | .ok vas => pure { rest with reached := vas.map (fun v => (l.lane, v)) ++ rest.reached }
    | .error e => pure { rest with faults := (l, e) :: rest.faults }

/-- The groups of some lanes, ascending. -/
def groupsOf (ls : List Nat) : List Nat := (List.range 32).filter (fun g => ls.any (fun l => l / 32 == g))

/-- Lanes of group `g`, ascending. -/
def inGroup (g : Nat) (ls : List LogLane) : List LogLane :=
  (List.range 32).filterMap (fun j => ls.find? (fun l => l.lane == 32 * g + j))

/-- The groups of some log lanes. -/
def logGroups (ls : List LogLane) : List Nat := groupsOf (ls.map (·.lane))

/-- The fault of the lowest faulting lane of group `g`. -/
def groupFault (g : Nat) (fs : List (LogLane × TFault)) : Option TFault :=
  ((inGroup g (fs.map (·.1))).head?).bind (fun l => (fs.find? (fun f => f.1 == l)).map (·.2))

/-- The stopping fault of the lowest lane that has one. -/
def stopOf (fs : List (LogLane × TFault)) : Option (LogLane × TFault) :=
  (fs.filter (fun f => !f.2.replayable)).foldl (fun b f => match b with
    | none => some f
    | some c => if f.1.lane < c.1.lane then some f else some c) none

/-- What the passes of an instruction report: ACCESS code (R295), hotness class (R298), watchpoint bit (R309), class in trace records
(R308). -/
structure PassKind where
  access : Nat
  hot : Nat
  watch : Option Nat
  traced : Option Nat
  deriving DecidableEq, Repr

/-- Whether the issuing path was released from a debug stop at this instruction (R309). -/
def Team.released (t : Team) : Bool := decide (t.cur.hold = .debug true)

/-- The watchpoint that some ranges touch (R309). -/
def watchSpans (x : Ctx) (bitNo : Nat) (vs : List Span) : Option Nat := vs.findSome? (fun v => watchHit x bitNo v.1 v.2)

/-- The reason of the debug stop that the lanes' accesses make (R309), unless the path was just released from it: their `known` ranges, and
what the accesses reach when they are tried. -/
def watchReason (s : State) (k : PassKind) (known : LogLane → List Span) (f : Perform) (ls : List LogLane) : Option Nat :=
  let x := ctxOf s s.t.ctx
  match k.watch with
  | none => none
  | some b =>
    if s.t.released || x.watch.all (fun w => !w.ctl.getLsbD b) then none
    else match watchSpans x b (ls.flatMap known) with
      | some r => some r
      | none => match performAll f ls s with
        | .ok r => watchSpans x b (r.1.reached.map (·.2))
        | .error _ => none

/-- The memory-trace records of the passes (R308). -/
def tracePasses (k : PassKind) (ty : Nat) (ls : List LogLane) : Act Unit := do
  let s ← get
  match k.traced with
  | some cls =>
    if (ctxOf s s.t.ctx).trctl.getLsbD 10 then
      (logGroups ls).forM (fun g => tracePass cls ty g ((inGroup g ls).map (fun l => (l.lane, l.addr))))
    else pure ()
  | none => pure ()

/-- The hotness counts of the passes: the lines each group reached (R298); the pennant of a private access is the model's choice (assumption log 90). -/
def hotPasses (hot : Nat) (reached : List (Nat × Span)) : Act Unit := do
  let s ← get
  (groupsOf (reached.map (·.1))).forM (fun g =>
    hotPass s.t.tag hot ((reached.filter (fun r => r.1 / 32 == g)).flatMap (fun r => lineAddrs r.2.1 r.2.2)))

/-- The faulting lanes and the lanes behind a parked access enter the operand log, group by group (R292, R293). -/
def State.parkAll (s : State) (i : Instr) (k : PassKind) (faults : List (LogLane × TFault)) (behind : List LogLane) : State :=
  let s := (logGroups (faults.map (·.1))).foldl (fun s g =>
    s.parkGroup i k.access g (inGroup g (faults.map (·.1))) (groupFault g faults)) s
  (logGroups behind).foldl (fun s g => s.parkGroup i k.access g (inGroup g behind) none) s

/-- The instruction is over: the path moves on, within a window if lanes of it parked (R83). -/
def Team.endParked (t : Team) (w : LWord) : Team := (t.openWindow w.la.toNat).endL

/-! ## Accesses of one lane -/

/-- A lane's result of TYPE `ty` in its registers from `dst` (R116). -/
def State.putDst (s : State) (lane dst ty v : Nat) : State := s.upd (fun t => t.setVs lane dst (typeRegs ty) (fillBits ty v))

/-- A performer that reads bytes and writes what they mean. -/
def readTo (vs : List Span) (r : Act (Except TFault (List Byte))) (put : List Byte → State → State) :
    Act (Except TFault (List Span)) := do
  match ← r with
  | .error e => pure (.error e)
  | .ok bs => do
    change (put bs)
    pure (.ok vs)

/-- A lane's load of `n` bytes of virtual memory. -/
def laneRead (prio : BitVec 3) (lane : Nat) (va : DWord) (n : Nat) : Act (Except TFault (List Byte)) := do
  let s ← get
  vread s.t.tag .load (some lane) prio va n

/-- A lane's store to virtual memory. -/
def laneWrite (prio : BitVec 3) (lane : Nat) (va : DWord) (bs : List Byte) : Act (Except TFault (List Span)) := do
  let s ← get
  match ← vstore s.t.tag lane prio va bs with
  | .error e => pure (.error e)
  | .ok _ => pure (.ok [(va, bs.length)])

/-! ## Private words (R174, R175) -/

/-- The virtual address of window word `w` of a lane. -/
def Team.windowVa (t : Team) (x : Ctx) (lane w : Nat) : DWord :=
  BitVec.ofNat 64 (x.pbase * 4096 + t.win * x.wstride * 2 ^ 20 + (t.win % 4 * 1024 + w * laneCount t.gmax + lane) * 4)

/-- Program word `w` as a window word. -/
def Team.windowWord (t : Team) (w : Nat) : Nat := if w < t.priv then w else w + t.nregs

/-- The words an access of `n` bytes at `ea` touches: program word, first byte in it, bytes. -/
def privWords (ea n : Nat) : List (Nat × Nat × Nat) :=
  let a := alignDown ea n
  if n ≤ 4 then [(a / 4, a % 4, n)] else (List.range (n / 4)).map (fun i => (a / 4 + i, 0, 4))

/-- The address of the first window word an access touches at or above the high-water mark, if any (R175, R420). -/
def Team.overPriv (t : Team) (x : Ctx) (lane ea n : Nat) : Option DWord :=
  (((privWords ea n).map (fun w => t.windowWord w.1)).find? (fun w => decide (x.hwm ≤ w))).map (t.windowVa x lane)

/-- Where the words of a private access lie: virtual address and bytes of each. -/
def Team.privVas (t : Team) (x : Ctx) (lane ea n : Nat) : List (DWord × Nat) :=
  (privWords ea n).map (fun w => (t.windowVa x lane (t.windowWord w.1) + BitVec.ofNat 64 w.2.1, w.2.2))

/-- Read parts in order. -/
def readParts (a : Acc) (prio : BitVec 3) (lane : Nat) : List (DWord × Nat) → Act (Except TFault (List Byte))
  | [] => pure (.ok [])
  | (va, n) :: ps => do
    match ← vread a .load (some lane) prio va n with
    | .error e => pure (.error e)
    | .ok bs => do
      match ← readParts a prio lane ps with
      | .error e => pure (.error e)
      | .ok rest => pure (.ok (bs ++ rest))

/-- Write parts in order. -/
def writeParts (a : Acc) (prio : BitVec 3) (lane : Nat) : List (DWord × Nat) → List Byte → Act (Except TFault Unit)
  | [], _ => pure (.ok ())
  | (va, n) :: ps, bs => do
    match ← vstore a lane prio va (bs.take n) with
    | .error e => pure (.error e)
    | .ok _ => writeParts a prio lane ps (bs.drop n)

/-- A private load. -/
def privLoad (prio : BitVec 3) (l : LogLane) (n : Nat) (put : List Byte → State → State) : Act (Except TFault (List Span)) := do
  let s ← get
  let x := ctxOf s s.t.ctx
  match s.t.overPriv x l.lane l.addr.toNat n with
  | some va => pure (.error (faultAt va 0x24))
  | none =>
    let ps := s.t.privVas x l.lane l.addr.toNat n
    readTo ps (readParts s.t.tagPriv prio l.lane ps) put

/-- A private store of `bs`. -/
def privStore (prio : BitVec 3) (l : LogLane) (bs : List Byte) : Act (Except TFault (List Span)) := do
  let s ← get
  let x := ctxOf s s.t.ctx
  match s.t.overPriv x l.lane l.addr.toNat bs.length with
  | some va => pure (.error (faultAt va 0x24))
  | none => do
    let ps := s.t.privVas x l.lane l.addr.toNat bs.length
    match ← writeParts s.t.tagPriv prio l.lane ps bs with
    | .error e => pure (.error e)
    | .ok _ => pure (.ok ps)

/-! ## LD, ST and SLD -/

/-- A lane's operand: its address, and `n` registers of data from DST. -/
def Team.operand (t : Team) (w : LWord) (n lane : Nat) : LogLane :=
  { lane := lane, addr := t.ea w lane, data := t.vrs lane w.dst.toNat n }

/-- The lowest lane whose .SPAD access of `n` bytes lies outside the claim or is misaligned (R163). -/
def Team.spadBad (t : Team) (w : LWord) (n : Nat) : Option Nat :=
  (t.parts w).find? (fun lane => decide (t.claim < (t.ea w lane).toNat + n ∨ (t.ea w lane).toNat % n ≠ 0))

/-- The lowest lane whose address is no multiple of `n`. -/
def Team.unaligned (t : Team) (w : LWord) (n : Nat) : Option Nat :=
  (t.parts w).find? (fun lane => decide ((t.ea w lane).toNat % n ≠ 0))

/-- The storage-operand fault of a lane instruction (R163), naming the address of the lane it found. -/
def State.storageStop (s : State) (w : LWord) (access lane : Nat) : State := s.stopAt 0x07 access lane (s.t.ea w lane)

/-- What a load, store or atomic reports; scratchpad accesses are not watched. -/
def memKind (access watchBit : Nat) (virt : Bool) : PassKind :=
  { access := access, hot := access, watch := if virt then some watchBit else none, traced := some access }

/-- The range of `n` bytes at a lane's address. -/
def spanOf (n : Nat) (l : LogLane) : List Span := [(l.addr, n)]

/-- The ranges a load or store of `n` bytes reaches, by the space FN names: virtual, private or scratchpad. -/
def memSpans (s : State) (w : LWord) (n : Nat) (l : LogLane) : List Span :=
  match w.fn.toNat with
  | 0 => spanOf n l
  | 1 => s.t.privVas (ctxOf s s.t.ctx) l.lane l.addr.toNat n
  | _ => []

/-- Bytes of an atomic's operand. -/
def atomBytes (w : LWord) : Nat := 4 * w.n

/-- What a lane access of an instruction reaches that is no quantum, with its access kind and its tag: before it the lane's own quanta of those
bytes are performed (R202). -/
def ownSpans (s : State) (i : Instr) (l : LogLane) : List (AKind × Acc × Span) :=
  let at_ (k : AKind) (n : Nat) : List (AKind × Acc × Span) := [(k, s.t.tag, (l.addr, n))]
  let mem (k : AKind) (w : LWord) : List (AKind × Acc × Span) :=
    (memSpans s w (typeBytes w.ty.toNat) l).map (fun v => (k, if w.fn = 1 then s.t.tagPriv else s.t.tag, v))
  match i with
  | .ldLane w => mem .load w
  | .stLane w => mem .store w
  | .sld w => at_ .load (typeBytes w.ty.toNat)
  | .atom w | .atomGroupB w => if w.use = 4 then [] else at_ .atomic (atomBytes w)
  | .launch _ => at_ .load 64
  | _ => []

/-- The quanta the lane itself has pending in bytes it now accesses are performed first (R189, R202). -/
def ownQuanta (lane : Nat) (v : AKind × Acc × Span) : Act Unit := do
  match ← translateAll v.2.1 v.1 (some lane) v.2.2.1 v.2.2.2 with
  | .error _ => pure ()
  | .ok runs => change (fun s => runs.foldl (fun s r => s.drainOwn s.t.core s.t.slot lane r.1 r.2) s)

/-- The own quanta of an instruction's lanes are performed before any of its accesses, so that nothing comes between the lanes of a pass
(R197, R202). -/
def ownFirst (i : Instr) (ls : List LogLane) : Act Unit :=
  ls.forM (fun l => do
    let s ← get
    if s.caches.quanta.any (fun q => q.core == s.t.core && q.of s.t.slot l.lane) then (ownSpans s i l).forM (ownQuanta l.lane)
    else pure ())

/-- The marks of the damaged blocks an ATOM met go with it (R312). -/
def State.clearMet (s : State) : State :=
  { s with caches := { s.caches with spoilt := s.caches.spoilt.filter (fun m => !s.caches.met.contains m), met := [] } }

/-- A lane memory instruction (R292): its lanes' accesses in a free order, or in lane order when `ordered`; what faults parks; a
stopping fault of any lane leaves the instruction without effect. -/
def lanePasses (i : Instr) (w : LWord) (k : PassKind) (operand : Nat → LogLane) (known : LogLane → List Span) (f : Perform)
    (ordered : Bool) (s : State) : Out :=
  let t := s.t
  let ls := (t.parts w).map operand
  let behind := ls.filter (fun l => t.pending l.lane)
  let now := ls.filter (fun l => !t.pending l.lane)
  match watchReason s k known f ls with
  | some r => runAct (debugStop r true) s
  | none =>
    runAct (do
      tracePasses k w.ty.toNat ls
      ownFirst i now
      let done ← performAll f (if ordered then now else passOrder s now)
      match stopOf done.faults with
      | some (l, e) => set (s.stopTeam e (t.site k.access (l.lane / 32) true) t.cur.pc 0)
      | none => do
        change State.clearMet
        hotPasses k.hot done.reached
        let need := (logGroups (done.faults.map (·.1))).length + (logGroups behind).length
        if need = 0 then change (fun s => s.upd Team.endL)
        else if 64 < logUsed s t.core + need then set s
        else change (fun u => (u.parkAll i k done.faults behind).upd (fun t => t.endParked w))) s

/-- The register write of a load. -/
def loadPut (w : LWord) (lane : Nat) (bs : List Byte) (s : State) : State := s.putDst lane w.dst.toNat w.ty.toNat (leNat bs)

/-- A load of one lane (R372). -/
def loadLane (w : LWord) : Perform := fun l => do
  let n := typeBytes w.ty.toNat
  match w.fn.toNat with
  | 0 => readTo (spanOf n l) (laneRead w.evict l.lane l.addr n) (loadPut w l.lane)
  | 1 => privLoad w.evict l n (loadPut w l.lane)
  | _ => do
    change (fun s => loadPut w l.lane (s.t.spadLane l.addr.toNat n) s)
    pure (.ok [])

/-- A team whose scratchpad write port took a lane store. -/
def Team.portPut (t : Team) (o : Nat) (bs : List Byte) : Team :=
  { t with port := (bs.mapIdx (fun i b => (o + i, b))).reverse ++ t.port }

/-- A store of one lane (R390). -/
def storeLane (w : LWord) : Perform := fun l => do
  let bs := leBytes (typeBytes w.ty.toNat) l.data
  match w.fn.toNat with
  | 0 => laneWrite w.evict l.lane l.addr bs
  | 1 => privStore w.evict l bs
  | _ => do
    change (fun s => s.upd (fun t => t.portPut l.addr.toNat bs))
    pure (.ok [])

/-- A load of one lane through the sampler cache (R387). -/
def sldLane (w : LWord) : Perform := fun l => do
  let n := typeBytes w.ty.toNat
  let s ← get
  readTo (spanOf n l) (vsample s.t.tag w.evict l.lane l.addr n) (loadPut w l.lane)

/-- LD (R372). -/
def execLdLane (w : LWord) (s : State) : Out :=
  let n := typeBytes w.ty.toNat
  match (if w.fn = 2 then s.t.spadBad w n else none) with
  | some lane => .next (s.storageStop w 0 lane)
  | none => lanePasses (.ldLane w) w (memKind 0 8 (w.fn ≠ 2)) (s.t.operand w 0) (memSpans s w n) (loadLane w) false s

/-- A release's drain before a store or atomic that asks for one (R190). -/
def State.ordRelease (s : State) (w : LWord) : State := if w.ord = 2 ∨ w.ord = 3 then s.release w.scope.toNat else s

/-- Whether an instruction's release at .PEER must still wait (R210). -/
def Team.ordWait (t : Team) (w : LWord) : Bool := decide (w.ord = 2 ∨ w.ord = 3) && t.linkWait w.scope.toNat

/-- ST (R390). -/
def execStLane (w : LWord) (s : State) : Out :=
  let n := typeBytes w.ty.toNat
  match (if w.fn = 2 then s.t.spadBad w n else none) with
  | some lane => .next (s.storageStop w 1 lane)
  | none =>
    if s.t.ordWait w then .next s
    else lanePasses (.stLane w) w (memKind 1 9 (w.fn ≠ 2)) (s.t.operand w (typeRegs w.ty.toNat)) (memSpans s w n) (storeLane w) false
      (s.ordRelease w)

/-- SLD (R387). -/
def execSld (w : LWord) (s : State) : Out :=
  lanePasses (.sld w) w (memKind 0 8 true) (s.t.operand w 0) (spanOf (typeBytes w.ty.toNat)) (sldLane w) false s

/-! ## ATOM (R329 to R331) -/

/-- The operation an atomic word names: 0 to 7 group A, 8 to 10 group B. -/
def atomFn (groupB : Bool) (w : LWord) : Nat := (if groupB then 8 else 0) + w.fn.toNat

/-- An atomic's operands as read at issue: v, or cmp below swp. A quantum's stand in v0 (R330). -/
def Team.atomOperand (t : Team) (w : LWord) (groupB : Bool) (lane : Nat) : LogLane :=
  t.operand w (if groupB ∧ w.fn = 0 then 2 * w.n else w.n) lane

/-- An atomic of one lane (R330); one that meets a damaged block is not performed and returns zero, as every other of its instruction on that
block (R312). A quantum outside GDDR-7 of this part has no combiner to wait in. -/
def atomLane (w : LWord) (groupB : Bool) : Perform := fun l => do
  let n := atomBytes w
  let s ← get
  let fn := atomFn groupB w
  let cas := decide (fn = 8)
  let v := if cas then l.data / 2 ^ (8 * n) else l.data % 2 ^ (8 * n)
  let cmp := if cas then l.data % 2 ^ (8 * n) else 0
  let a := s.t.tag
  let spec := decide (w.use = 5 ∧ a.pennant ≠ 0)
  if a.pennant ≠ 0 ∧ w.use ≠ 5 then pure (.error (faultAt l.addr 0x08))
  else
    match ← translate a .atomic (some l.lane) l.addr with
    | .error e => pure (.error e)
    | .ok pa => do
      let s ← get
      let mark := (pa / 64, a.core, a.slot)
      if w.use = 4 ∧ regionOf s.win.memCode pa = .gddr then do
        change (fun s => s.putQuantum a w.evict l.lane fn w.ty pa n v)
        pure (.ok (spanOf n l))
      else if s.caches.spoilt.contains mark then do
        change (fun s => { s.upd (fun t => if w.use = 4 then t else t.setVs l.lane w.dst.toNat w.n 0) with
          caches := { s.caches with met := mark :: s.caches.met } })
        pure (.ok (spanOf n l))
      else do
        change (fun s => s.touch a w.evict true pa n)
        let old ← (if spec then specAtom a fn w.ty pa n v cmp else trunkAtom a fn w.ty pa n v cmp)
        change (fun s => s.upd (fun t => if w.use = 4 then t else t.setVs l.lane w.dst.toNat w.n old))
        pure (.ok (spanOf n l))

/-- An atomic instruction (R331). -/
def atomPasses (i : Instr) (w : LWord) (groupB : Bool) (s : State) : Out :=
  match s.t.unaligned w (atomBytes w) with
  | some lane => .next (s.storageStop w 2 lane)
  | none =>
    if s.t.pennant ≠ 0 ∧ w.use ≠ 5 ∧ (s.t.parts w) ≠ [] then
      .next (s.stopAt 0x08 2 ((s.t.parts w).headD 0) (s.t.ea w ((s.t.parts w).headD 0)))
    else if s.t.ordWait w then .next s
    else lanePasses i w (memKind 2 10 true) (s.t.atomOperand w groupB) (spanOf (atomBytes w)) (atomLane w groupB) false (s.ordRelease w)

/-- ATOM, group A. -/
def execAtom (w : LWord) (s : State) : Out := atomPasses (.atom w) w false s

/-- ATOM, group B: cas, incwrap, max64. -/
def execAtomGroupB (w : LWord) (s : State) : Out := atomPasses (.atomGroupB w) w true s

end Sys2Proof.Machine
end

