-- ==== Sys2Proof/Machine/Engines.lean ====
section
/-! DEFINITION. Engine commands: their issue and guards, tile copies, per-lane copies, QFENCE, and the steps of the array and of the copy
engine (R56 to R58, R138 to R161, R177 to R181, R397 to R399). -/

namespace Sys2Proof.Machine

/-! ## Issue (R56, R153, R155, R180) -/

/-- What the guard prefix makes of a command: none, it is discarded; otherwise the guard it is held under, if any. -/
def Team.verdict (t : Team) (ge : Bool) (g : BitVec 4) : Option (Option Nat) :=
  if ge then
    match t.guard g.toNat with
    | .resolved true => some .none
    | .resolved false => .none
    | .pending _ => some (some g.toNat)
  else some .none

/-- Whether a queue has room for `n` more entries: 32 in the tile queue, 64 in the copy queue. -/
def Team.room (t : Team) (copyQueue : Bool) (n : Nat) : Bool :=
  if copyQueue then decide (t.copyQ.length + n ≤ 64) else decide (t.tileQ.length + n ≤ 32)

/-- A command enters a queue. -/
def Team.enqueue (t : Team) (copyQueue : Bool) (c : EngCmd) : Team :=
  if copyQueue then { t with copyQ := t.copyQ ++ [c] } else { t with tileQ := t.tileQ ++ [c] }

/-- A command as it stands when it is queued. -/
def EngCmd.fresh (body : EngBody) (batch guard : Option Nat) (pc : DWord) : EngCmd :=
  { body := body, batch := batch, guard := guard, stage := .queued, progress := 0, panels := [], order := 0, undo := [], pc := pc, tag := 0 }

/-- A scalar command's entry: in the open batch (R155). -/
def Team.scalarCmd (t : Team) (body : EngBody) (guard : Option Nat) : EngCmd := EngCmd.fresh body (some t.batch.toNat) guard t.spc

/-- A scalar engine command that has passed its checks: discarded, queued, or stalled at a full queue. -/
def engineIssue (ge : Bool) (g : BitVec 4) (copyQueue : Bool) (body : EngBody) (s : State) : Out :=
  match s.t.verdict ge g with
  | none => .next (s.upd Team.nextS)
  | some h =>
    if s.t.room copyQueue 1 then .next (s.upd (fun t => (t.enqueue copyQueue (t.scalarCmd body h)).nextS)) else .next s

/-- A scalar cube op (R138, R141, R146). -/
def cubeIssue (kind : Nat) (ge : Bool) (g : BitVec 4) (a b c : BitVec 5) (s : State) : Out :=
  let s := s.seePort
  let t := s.t
  let aOff := (t.xr a).toNat
  let bOff := (t.xr b).toNat
  let dOff := (t.xr c).toNat
  let ds := t.readDesc dOff false
  if t.cubeOk kind aOff bOff dOff 0 false (descOf ds) then
    engineIssue ge g false (.cube {
      kind := kind, aOff := aOff, bOff := bOff, descOff := dOff, desc := ds, rows := BitVec.allOnes 128, rowOff := 0, lane := false }) s
  else .next (s.stopScalar 0x06 0 (t.xr c))

/-- MMA (R132, R138). -/
def execMma (ge : Bool) (g : BitVec 4) (a b c : BitVec 5) (s : State) : Out := cubeIssue 0 ge g a b c s

/-- TRI (R410, R411). -/
def execTri (ge : Bool) (g : BitVec 4) (a b c : BitVec 5) (s : State) : Out := cubeIssue 1 ge g a b c s

/-- TLUT (R400). -/
def execTlut (ge : Bool) (g : BitVec 4) (a b c : BitVec 5) (s : State) : Out := cubeIssue 2 ge g a b c s

/-- TLD (R397, R398); that its operand fault's ADDR is xs1 is the model's choice, as for TST (assumption log 90). -/
def execTld (ge : Bool) (g : BitVec 4) (a b c : BitVec 5) (s : State) : Out :=
  let t := s.t
  if t.moveOk (t.xr a) (t.xr b) (t.xr c) then
    engineIssue ge g false (.tld (t.xr a).toNat (t.xr b) (bits (t.xr c).toNat 0 18)) s
  else .next (s.stopScalar 0x06 0 (t.xr a))

/-- TST (R397, R398). -/
def execTst (ge : Bool) (g : BitVec 4) (a b c : BitVec 5) (s : State) : Out :=
  let t := s.t
  if t.moveOk (t.xr a) (t.xr b) (t.xr c) then
    engineIssue ge g false (.tst (t.xr a).toNat (t.xr b) (bits (t.xr c).toNat 0 18)) s
  else .next (s.stopScalar 0x06 0 (t.xr a))

/-! ## Tile copies (R177, R178) -/

/-- The fields of a copy's shape (Table 8.3). -/
structure Shape where
  dk : Bool
  sk : Bool
  rows : Nat
  rb : Nat                  -- bytes per row
  dstr : Nat                -- bytes
  sstr : Nat                -- bytes
  reserved : Bool
  deriving DecidableEq, Repr

/-- A shape operand read. -/
def shapeOf (v : DWord) : Shape :=
  let n := v.toNat
  { dk := bit n 63, sk := bit n 62, rows := bits n 48 12 + 1, rb := 16 * bits n 36 12, dstr := 16 * bits n 18 18, sstr := 16 * bits n 0 18,
    reserved := decide (bits n 60 2 = 0) }

/-- The storage-operand checks of a tile copy against a claim of `claim` bytes (R177). -/
def copyOk (claim : Nat) (dst src shape : DWord) : Bool :=
  let h := shapeOf shape
  let reach (scratch : Bool) (o stride : Nat) : Bool := !scratch || decide (o + stride * (h.rows - 1) + h.rb ≤ claim)
  h.reserved && decide (h.rb ≠ 0 ∧ dst.toNat % 16 = 0 ∧ src.toNat % 16 = 0) && reach h.dk dst.toNat h.dstr && reach h.sk src.toNat h.sstr

/-- CPY, the tile form (R177). Its operands are checked before its guard: a command to be discarded faults too (R163, assumption log 81). -/
def execCpy (ge : Bool) (g : BitVec 4) (a b c : BitVec 5) (s : State) : Out :=
  let t := s.t
  if copyOk t.claim (t.xr a) (t.xr b) (t.xr c) then engineIssue ge g true (.copy (t.xr a) (t.xr b) (t.xr c)) s
  else .next (s.stopScalar 0x07 0 (t.xr a))

/-- A piece of a copy inside one row: source and destination address or offset, bytes. -/
structure Piece where
  src : DWord
  dst : DWord
  n : Nat
  deriving DecidableEq, Repr

/-- The pieces of bytes `lo` to `hi` − 1 of a copy, its rows laid end to end. -/
def copyPieces (dst src : DWord) (h : Shape) (lo hi : Nat) : List Piece :=
  (List.range h.rows).filterMap (fun r =>
    let a := max lo (r * h.rb)
    let b := min hi ((r + 1) * h.rb)
    if a < b then
      some { src := src + BitVec.ofNat 64 (h.sstr * r + (a - r * h.rb)), dst := dst + BitVec.ofNat 64 (h.dstr * r + (a - r * h.rb)), n := b - a }
    else none)

/-- Bytes a copy moves. -/
def Shape.total (h : Shape) : Nat := h.rows * h.rb

/-- An engine's read of memory, with a tile copy's priority (R168). -/
def copyRead (a : Acc) (va : DWord) (n : Nat) : Act (Except TFault (List Byte)) := vread a .engRead none 3 va n

/-- Whether some of a write's runs lie in the peer's memory, while its link is up (R210). -/
def linked (s : State) (runs : List (Nat × Nat)) : Bool := s.linkUp && runs.any (fun r => decide (regionOf s.win.memCode r.1 = .peer))

/-- An engine's write of memory; one that crosses the link waits for its acknowledgement (R210). -/
def copyWrite (a : Acc) (prio : BitVec 3) (va : DWord) (bs : List Byte) : Act (Except TFault Unit) := do
  match ← translateAll a .engWrite none va bs.length with
  | .error e => pure (.error e)
  | .ok runs => do
    writeRuns a prio runs bs
    change (fun s => if a.team && linked s runs then s.upd (fun t => { t with linkOut := t.linkOut + 1 }) else s)
    pure (.ok ())

/-- Read the pieces of a copy. -/
def copyIn (a : Acc) (h : Shape) : List Piece → Act (Except TFault (List (Piece × List Byte)))
  | [] => pure (.ok [])
  | p :: ps => do
    let s ← get
    let r ← (if h.sk then pure (.ok (s.t.spadRead p.src.toNat p.n)) else copyRead a p.src p.n)
    match r with
    | .error e => pure (.error e)
    | .ok bs => do
      match ← copyIn a h ps with
      | .error e => pure (.error e)
      | .ok rest => pure (.ok ((p, bs) :: rest))

/-- Write the pieces of a copy. -/
def copyOut (a : Acc) (h : Shape) : List (Piece × List Byte) → Act (Except TFault Unit)
  | [] => pure (.ok ())
  | (p, bs) :: ps => do
    let r ← (if h.dk then do
        change (fun s => s.upd (fun t => t.spadWrite p.dst.toNat bs))
        pure (.ok ())
      else copyWrite a 3 p.dst bs)
    match r with
    | .error e => pure (.error e)
    | .ok _ => copyOut a h ps

/-- Where `n` bytes from `va` lie: offsets in the claim, or the physical place a translation now gives each page of them; a page that faults has
none. -/
def placesOf (s : State) (a : Acc) (k : AKind) (scratch : Bool) (va : DWord) (n : Nat) : List (Nat × Nat) :=
  if scratch then [(va.toNat, n)]
  else (pieces (n / 4096 + 2) va n).flatMap (fun p => match translate a k none p.1 s with
    | .ok (.ok pa, _) => [(pa, p.2)]
    | _ => [])

/-- Where the source bytes of a copy lie. -/
def sourcePlaces (s : State) (a : Acc) (dst src : DWord) (h : Shape) : List (Nat × Nat) :=
  (copyPieces dst src h 0 h.total).flatMap (fun p => placesOf s a .engRead h.sk p.src p.n)

/-- A byte string at some places, each byte made from its place and itself. -/
def mapPlaces (f : Nat → Byte → Byte) : List (Nat × Nat) → List Byte → List Byte
  | [], bs => bs
  | (q, n) :: qs, bs => (bs.take n).mapIdx (fun i b => f (q + i) b) ++ mapPlaces f qs (bs.drop n)

/-- Whether a place lies in some runs. -/
def inRuns (runs : List (Nat × Nat)) (q : Nat) : Bool := runs.any (fun r => decide (r.1 ≤ q ∧ q < r.1 + r.2))

/-- Bytes of a destination as an overlapping copy leaves them: one that is a source byte too holds a free value (R178, assumption log 3). -/
def freeOverlap (free : Nat) (from_ : List (Nat × Nat)) : List (Nat × Nat) → List Byte → List Byte :=
  mapPlaces (fun q b => if inRuns from_ q then Config.freeByte (free + q) else b)

/-- A source byte as it was when the copy began: one that the copy has overwritten since is the byte that stood there (R178). -/
def oldByte (undo : List (Nat × Byte × Bool)) (q : Nat) (b : Byte) : Byte :=
  match undo.find? (fun e => e.1 == q) with
  | some e => e.2.1
  | none => b

/-- The bytes at some places of a copy's destination, before it writes there. -/
def bytesAt (a : Acc) (scratch : Bool) (from_ : List (Nat × Nat)) : List (Nat × Nat) → Act (List (Nat × Byte × Bool))
  | [] => pure []
  | (q, n) :: qs => do
    let s ← get
    let bs ← (if scratch then pure (s.t.spadRead q n)
      else match regionOf s.win.memCode q with
        | .gddr => viewRead a q n
        | .peer => peerRead q n
        | _ => pure [])
    let rest ← bytesAt a scratch from_ qs
    pure (bs.mapIdx (fun i b => (q + i, b, inRuns from_ (q + i))) ++ rest)

/-- A destination byte written earlier that turns out to be a source byte too, its page not having been present then: it takes its free value
(R178, assumption log 27). -/
def spoilByte (a : Acc) (scratch : Bool) (q : Nat) : Act Unit := do
  let s ← get
  let b := Config.freeByte (65536 * s.free + q)
  if scratch then change (fun s => s.upd (fun t => t.spadWrite q [b])) else viewWrite a 3 q [b]

/-- Bytes `lo` to `hi` − 1 of a copy: all is read, as it was when the copy began, then written. A fault comes with its ACCESS code (Table 14.4);
the answer is what the copy has overwritten so far. -/
def copyRange (a : Acc) (dst src : DWord) (h : Shape) (undo : List (Nat × Byte × Bool)) (lo hi : Nat) :
    Act (Except (Nat × TFault) (List (Nat × Byte × Bool))) := do
  let s ← get
  let ps := copyPieces dst src h lo hi
  let from_ := if h.dk = h.sk then sourcePlaces s a dst src h else []
  let places (p : Piece) : List (Nat × Nat) := placesOf s a .engRead h.sk p.src p.n
  let to_ (p : Piece) : List (Nat × Nat) := placesOf s a .engWrite h.dk p.dst p.n
  match ← copyIn a h ps with
  | .error e => pure (.error (4, e))
  | .ok got => do
    let late := undo.filter (fun e => !e.2.2 && inRuns (ps.flatMap places) e.1)
    (late.map (fun e => e.1)).eraseDups.forM (spoilByte a h.dk)
    let old ← (if h.dk = h.sk ∧ hi < h.total then bytesAt a h.dk from_ (ps.flatMap to_) else pure [])
    match ← copyOut a h (got.map (fun w =>
      (w.1, freeOverlap (65536 * s.free) from_ (to_ w.1) (mapPlaces (oldByte undo) (places w.1) w.2)))) with
    | .error e => pure (.error (5, e))
    | .ok _ => pure (.ok (undo ++ old))

/-- Translate every destination page of a copy, writing nothing: a pennant-use fault comes before anything is written (R218). -/
def probeDst (a : Acc) : List Piece → Act (Except TFault Unit)
  | [] => pure (.ok ())
  | p :: ps => do
    match ← translateAll a .engWrite none p.dst p.n with
    | .error e => pure (.error e)
    | .ok _ => probeDst a ps

/-- One chunk of a copy, number `k`: 4 KB (R178). The answer is what the copy has overwritten so far. -/
def copyChunk (a : Acc) (dst src : DWord) (h : Shape) (undo : List (Nat × Byte × Bool)) (k : Nat) :
    Act (Except (Nat × TFault) (List (Nat × Byte × Bool))) := do
  match ← (if a.pennant ≠ 0 ∧ k = 0 ∧ !h.dk then probeDst a (copyPieces dst src h 0 h.total) else pure (.ok ())) with
  | .error e => pure (.error (5, e))
  | .ok _ => copyRange a dst src h undo (4096 * k) (min h.total (4096 * (k + 1)))

/-- The memory lines a range of a copy reaches. -/
def copyLines (dst src : DWord) (h : Shape) (lo hi : Nat) : List DWord :=
  (copyPieces dst src h lo hi).flatMap (fun p =>
    (if h.sk then [] else lineAddrs p.src p.n) ++ (if h.dk then [] else lineAddrs p.dst p.n))

/-- Change the head of the copy queue. -/
def Team.updCopyHead (t : Team) (f : EngCmd → EngCmd) : Team := { t with copyQ := updNth t.copyQ 0 f }

/-- The record site of an engine command's access. -/
def Team.engSite (t : Team) (access : Nat) : Site :=
  { access := access, pennant := t.pennant, core := t.core, slot := t.slot, path := 0, group := 0, scalar := true }

/-- The record site of a queued command's access: a pass of a per-lane copy names its path and group. -/
def Team.cmdSite (t : Team) (c : EngCmd) (access : Nat) : Site :=
  match c.body with
  | .laneCopy _ p g _ => { t.engSite access with path := p, group := g, scalar := false }
  | _ => t.engSite access

/-- A stopping fault of the command at the head of the copy queue; one that met a pennant-use fault is discarded (R218). -/
def State.copyStop (s : State) (c : EngCmd) (access : Nat) (f : TFault) : State :=
  let s := s.stopTeam f (s.t.cmdSite c access) c.pc 0
  if f.cause = 0x08 then s.upd (fun t => { t with copyQ := t.copyQ.drop 1 }) else s

/-- An access of the tile copy at the head of the copy queue failed: it parks under a record, or a stopping cause stops the team (R177). -/
def State.copyFault (s : State) (c : EngCmd) (access : Nat) (f : TFault) : State :=
  if f.replayable then
    let id := freshId s s.t.ctx
    (s.record s.t.ctx id f (s.t.cmdSite c access) c.pc 0).upd (fun t =>
      t.updCopyHead (fun c => { c with stage := .parked id access f.va }))
  else s.copyStop c access f

/-! ## Per-lane copies (R179, R344) -/

/-- Bytes a lane's copy moves. -/
def cpyBytes (w : LWord) : Nat := typeBytes w.ty.toNat

/-- A lane whose CPY operands are misaligned or reach outside the claim (R163, R179). -/
def Team.cpyBad (t : Team) (w : LWord) : Option Nat :=
  (t.parts w).find? (fun lane =>
    let o := (t.vr lane w.dst.toNat).toNat
    decide ((t.ea w lane).toNat % cpyBytes w ≠ 0 ∨ o % cpyBytes w ≠ 0 ∨ t.claim < o + cpyBytes w))

/-- The copy of one lane: FN 0 memory to scratchpad, 1 scratchpad to memory. -/
def cpyLane (w : LWord) : Perform := fun l => do
  let s ← get
  if w.fn = 0 then
    match ← vread s.t.tag .engRead none w.evict l.addr (cpyBytes w) with
    | .error e => pure (.error e)
    | .ok bs => do
      change (fun s => s.upd (fun t => t.spadWrite l.data bs))
      pure (.ok (spanOf (cpyBytes w) l))
  else
    match ← copyWrite s.t.tag w.evict l.addr (s.t.spadRead l.data (cpyBytes w)) with
    | .error e => pure (.error e)
    | .ok _ => pure (.ok (spanOf (cpyBytes w) l))

/-- What a per-lane copy reports. -/
def cpyKind (w : LWord) : PassKind :=
  { access := if w.fn = 0 then 4 else 5, hot := 4, watch := some (if w.fn = 0 then 8 else 9), traced := some (if w.fn = 0 then 4 else 5) }

/-- CPY, the per-lane form (R179, R180): a queue entry for each pass. Lanes behind a parked access wait in the operand log, and join
their pass from there (R292). -/
def execCpyLane (w : LWord) (s : State) : Out :=
  let t := s.t
  match t.cpyBad w with
  | some lane => .next (s.storageStop w (cpyKind w).access lane)
  | none =>
    let ls := (t.parts w).map (t.operand w 1)
    let behind := ls.filter (fun l => t.pending l.lane)
    let now := ls.filter (fun l => !t.pending l.lane)
    match watchReason s (cpyKind w) (spanOf (cpyBytes w)) (cpyLane w) ls with
    | some r => runAct (debugStop r true) s
    | none =>
      if !t.room true (logGroups ls).length ∨ 64 < logUsed s t.core + (logGroups behind).length then .next s
      else runAct (do
        tracePasses (cpyKind w) w.ty.toNat ls
        change (fun s =>
          let s := s.parkAll (.cpyLane w) (cpyKind w) [] behind
          s.upd (fun t => (((logGroups ls).foldl (fun t g =>
            t.enqueue true { EngCmd.fresh (.laneCopy w t.curPath g (inGroup g now)) .none .none t.cur.pc with tag := t.issues }) t)).endParked w))) s

/-- Whether a queued pass is the one that some lanes of an operand-log entry belong to. -/
def EngCmd.passOf (c : EngCmd) (e : OpEntry) : Bool :=
  match c.body with
  | .laneCopy _ _ g _ => !e.scalar && !e.record && e.tag == c.tag && e.group == g
  | _ => false

/-- Lanes of a per-lane copy that waited in the operand log join their pass: the oldest queued one it can be. -/
def Team.joinPass (t : Team) (e : OpEntry) (ls : List LogLane) : Team :=
  { t with copyQ := updNth t.copyQ (t.copyQ.findIdx (fun c => c.passOf e)) (fun c => { c with body := match c.body with
    | .laneCopy w p g ks => .laneCopy w p g (ks ++ ls)
    | b => b }) }

/-- The lanes a pass still has to copy. -/
def EngCmd.withLanes (c : EngCmd) (ls : List LogLane) : EngCmd :=
  { c with body := match c.body with
    | .laneCopy w p g _ => .laneCopy w p g ls
    | b => b }

/-- The pass at the head of the copy queue runs: its lanes' copies. Those that fault park in the operand log (R292, R344), and the entry
waits for them, and for lanes that have not joined it, before it is done (R180). -/
def runLaneCopy (c : EngCmd) (w : LWord) (path g : Nat) (lanes : List LogLane) : Act Unit := do
  let s ← get
  let done ← performAll (cpyLane w) (passOrder s lanes)
  match stopOf done.faults with
  | some (l, e) => set (s.copyStop (c.withLanes [l]) (cpyKind w).access e)
  | none => do
    hotPasses 4 done.reached
    let faulty := inGroup g (done.faults.map (·.1))
    match groupFault g done.faults with
    | none => change (fun s => s.upd (fun t => t.updCopyHead (fun c =>
        if t.oplog.any c.passOf then { c.withLanes [] with stage := .started } else { c with stage := .done })))
    | some e =>
      if 64 ≤ logUsed s s.t.core then set s
      else change (fun s =>
        let id := freshId s s.t.ctx
        let s := s.record s.t.ctx id e (s.t.cmdSite c (cpyKind w).access) c.pc (groupBits faulty)
        s.upd (fun t => { (t.updCopyHead (fun c => { c.withLanes [] with stage := .parked id (cpyKind w).access e.va })) with
          oplog := t.oplog ++ [{
            id := id, record := true, instr := some (.cpyLane w), tag := c.tag, access := (cpyKind w).access, scalar := false, pc := c.pc, path := path, group := g, lanes := faulty
            va := e.va }] }))

/-! ## QFENCE (R181) -/

/-- QFENCE: one joint entry in each selected queue. Its mask is checked before its guard (R163, assumption log 81). -/
def execQfence (ge : Bool) (g : BitVec 4) (a : BitVec 5) (s : State) : Out :=
  let t := s.t
  let m := (t.xr a).toNat
  if m = 0 ∨ 3 < m then .next (s.stopScalar 0x07 0 (t.xr a))
  else match t.verdict ge g with
    | none => .next (s.upd Team.nextS)
    | some h =>
      if (bit m 0 ∧ !t.room false 1) ∨ (bit m 1 ∧ !t.room true 1) then .next s
      else
        let c := t.scalarCmd (.join t.nextJoin m) h
        let t1 := if bit m 0 then t.enqueue false c else t
        let t2 := if bit m 1 then t1.enqueue true c else t1
        .next (s.upd (fun _ => { t2 with nextJoin := t.nextJoin + 1 }.nextS))

/-! ## Lane-form cube ops (R138 to R140) -/

/-- The op of quarter `q`: operands of its lowest participating lane, its participating lanes as rows. -/
def Team.quarterOp (t : Team) (kind : Nat) (w : LWord) (q : Nat) : Option CubeOp :=
  let ls := (t.parts w).filter (fun l => l / 8 == q)
  match ls with
  | [] => .none
  | l :: _ =>
    some {
      kind := kind, aOff := t.a w l 1, bOff := t.b3 w l 1, descOff := w.hi.toNat, desc := t.readDesc w.hi.toNat true
      rows := BitVec.ofNat 128 (ls.foldl (fun m j => m + 2 ^ (j % 8)) 0), rowOff := (t.vr l w.dst.toNat).toNat, lane := true }

/-- The ops of a lane-form instruction, by quarter. -/
def Team.quarterOps (t : Team) (kind : Nat) (w : LWord) : List CubeOp :=
  (List.range (laneCount t.gmax / 8)).filterMap (t.quarterOp kind w)

/-- Ops enter the tile queue while it has room; the path holds until all are queued, then moves on. -/
def Team.queueOps (t : Team) (ops : List CubeOp) : Team :=
  let n := 32 - t.tileQ.length
  let t' := (ops.take n).foldl (fun t o => t.enqueue false (EngCmd.fresh (.cube o) .none .none t.cur.pc)) t
  if ops.length ≤ n then (t'.updCur (fun p => { p with hold := .none })).endL
  else t'.updCur (fun p => { p with hold := .cube (ops.drop n) })

/-- A lane-form cube instruction (R139, R146). -/
def cubeLane (kind : Nat) (w : LWord) (s : State) : Out :=
  let t := s.t
  match t.cur.hold with
  | .cube ops => .next (s.upd (fun t => t.queueOps ops))
  | _ =>
    let ops := t.quarterOps kind w
    if ops.all (fun o => t.cubeOk kind o.aOff o.bOff o.descOff o.rowOff true (descOf o.desc)) then .next (s.upd (fun t => t.queueOps ops))
    else .next (s.stopLane 0x06 0 (w.hi.zeroExtend 64))

/-- MMA, the lane form. -/
def execMmaLane (w : LWord) (s : State) : Out := cubeLane 0 w s

/-- TRI, the lane form. -/
def execTriLane (w : LWord) (s : State) : Out := cubeLane 1 w s

/-- TLUT, the lane form. -/
def execTlutLane (w : LWord) (s : State) : Out := cubeLane 2 w s

end Sys2Proof.Machine
end

