-- ==== Sys2Proof/Machine/ArraySteps.lean ====
section
/-! DEFINITION. The steps of the cube arrays and of the copy engines (R145 to R148, R156 to R161, R178, R181). -/

namespace Sys2Proof.Machine

/-- Change the team in slot `k` of core `c`, in focus or not. -/
def State.updAt (s : State) (c k : Nat) (f : Team → Team) : State :=
  { s with t := if inSlot c k s.t then f s.t else s.t, others := s.others.map (fun u => if inSlot c k u then f u else u) }

/-- Run `f` with the team in slot `k` of core `c` in focus; an empty slot changes nothing. -/
def atSlot (c k : Nat) (f : State → State) (s : State) : State :=
  match s.focus c k with
  | some s' => f s'
  | none => s

/-- As `atSlot`, for an event's meaning. -/
def eventAt (c k : Nat) (f : State → Out) (s : State) : Out :=
  match s.focus c k with
  | some s' => f s'
  | none => .next s

/-- The head of the tile queue changed. -/
def Team.updTileHead (t : Team) (f : EngCmd → EngCmd) : Team := { t with tileQ := updNth t.tileQ 0 f }

/-- The op at the head of the tile queue, with its descriptor, when it is split over the cluster. -/
def Team.splitHead (t : Team) : Option (EngCmd × CubeOp × Desc) :=
  match t.tileQ with
  | c :: _ =>
    match c.body with
    | .cube op => if op.lane || t.splitKind (descOf op.desc) = 0 then .none else some (c, op, descOf op.desc)
    | _ => .none
  | [] => .none

/-- Teams whose engines start nothing new are those that are not Running or Retiring (R290, R300). -/
def Team.startable (t : Team) : Bool :=
  match t.tileQ with
  | c :: _ =>
    c.guard.isNone && (match c.body, c.stage with
      | .cube _, .ready => true
      | .cube _, .queued => t.alive && t.splitHead.isNone
      | .tld _ _ _, .queued => t.alive
      | .tst _ _ _, .queued => t.alive
      | _, _ => false)
  | [] => false

/-- Whether the head of the tile queue has passed its rendezvous. -/
def Team.headReady (t : Team) : Bool := t.tileQ.head?.any (fun c => decide (c.stage = .ready))

/-- Whether the head of the tile queue has started. -/
def Team.headStarted (t : Team) : Bool := t.tileQ.head?.any (fun c => decide (c.stage = .started))

/-- The place of the split op at a team's head among those past their rendezvous; 0: no such op. -/
def Team.splitOrder (t : Team) : Nat :=
  match t.tileQ with
  | c :: _ => if c.stage = .ready ∨ c.stage = .started then c.order else 0
  | [] => 0

/-- Whether a team's split op is the oldest of its core's past their rendezvous. -/
def oldestSplit (s : State) (t : Team) : Bool :=
  s.teams.all (fun u => u.core != t.core || u.splitOrder == 0 || decide (t.splitOrder ≤ u.splitOrder))

/-- The slot the array serves next (R147): the oldest rendezvoused op first, else round-robin after the slot last served. -/
def nextServed (s : State) (core : Nat) : Option Nat :=
  let ok (k : Nat) : Bool := s.teams.any (fun t => inSlot core k t && t.startable)
  let ready (k : Nat) : Bool := s.teams.any (fun t => inSlot core k t && t.startable && t.headReady && oldestSplit s t)
  let ring := (List.range 4).map (fun i => (sget 0 s.rr core + 1 + i) % 4)
  match ring.find? ready with
  | some k => some k
  | none => ring.find? ok

/-! ## Fusion (R148) -/

/-- Whether entry `c` may join the lane-form op `op` in one fused pass. -/
def joins (op : CubeOp) (c : EngCmd) : Bool :=
  match c.body with
  | .cube o => o.lane && o.kind == op.kind && o.descOff == op.descOff && o.bOff == op.bOff
  | _ => false

/-- The entries a join may reach past: ungated cube ops (R58, R148, R181). -/
def passable (c : EngCmd) : Bool :=
  match c.body with
  | .cube _ => c.guard.isNone
  | _ => false

/-- Entries that join, at most `n`, moved to the front of a queue's rest and started. -/
def fuse (op : CubeOp) : Nat → List EngCmd → List EngCmd × List EngCmd
  | 0, q => ([], q)
  | _, [] => ([], [])
  | n + 1, c :: cs =>
    if !passable c then ([], c :: cs)
    else if joins op c then
      let r := fuse op n cs
      ({ c with stage := .started } :: r.1, r.2)
    else
      let r := fuse op (n + 1) cs
      (r.1, c :: r.2)

/-- The head of the tile queue starts, with at most `n` ops fused to it. -/
def Team.startHead (t : Team) (n : Nat) : Team :=
  match t.tileQ with
  | c :: cs =>
    match c.body with
    | .cube op =>
      if op.lane && decide (op.kind ≤ 1) then
        let r := fuse op n cs
        { t with tileQ := { c with stage := .started } :: r.1 ++ r.2 }
      else t.updTileHead (fun c => { c with stage := .started })
    | _ => t.updTileHead (fun c => { c with stage := .started })
  | [] => t

/-- How many ops could join the head. -/
def Team.joinable (t : Team) : Nat :=
  match t.tileQ with
  | c :: cs =>
    match c.body with
    | .cube op => if op.lane && decide (op.kind ≤ 1) then (fuse op 3 cs).1.length else 0
    | _ => 0
  | [] => 0

/-- CUBE_OP_START (R147, R148): an idle array starts the next op; how many quarters join it is a free choice. -/
def execCubeOpStart (core : Nat) (s : State) : Out :=
  if s.teams.any (fun t => t.core == core && t.headStarted) then .next s
  else match nextServed s core with
    | none => .next s
    | some k =>
      .next (atSlot core k (fun s =>
        let j := s.t.joinable
        let n := if j = 0 then 0 else Config.choice s.free % (j + 1)
        { s.upd (fun t => t.startHead n) with rr := sset 0 s.rr core k }) s)

/-! ## Split ops (R157 to R161) -/

/-- The teams of a cluster. -/
def clusterTeams (s : State) (t : Team) : List Team := s.teams.filter (fun u => u.launch == t.launch && u.clorg == t.clorg)

/-- Bits of a descriptor's dword 0 that all participants share (R158). -/
def sharedBits (op : CubeOp) : DWord := op.desc.getD 0 0 &&& ~~~ (0x000001ffe0000000 : DWord)

/-- Whether a participant is ready at the rendezvous. -/
def Team.atRendezvous (t : Team) : Bool :=
  t.alive && !t.debug && t.splitHead.any (fun h => h.1.guard.isNone && decide (h.1.stage = .queued))

/-- A cube-operand fault of the team in focus, for the command at the head of its tile queue. -/
def State.stopCube (s : State) : State :=
  match s.t.splitHead with
  | some (c, op, _) => s.stopTeam (plainFault 0x06 (BitVec.ofNat 64 op.descOff)) (s.t.engSite 0) c.pc 0
  | none => s

/-- SPLIT_RENDEZVOUS (R157, R158): when every participant is ready the op counts as started at all of them, or all of them fault. -/
def execSplitRendezvous (core slot : Nat) (s : State) : Out :=
  eventAt core slot (fun s =>
    let us := clusterTeams s s.t
    if us.length = s.t.clusterSize ∧ us.all Team.atRendezvous then
      let words := us.filterMap (fun u => u.splitHead.map (fun h => sharedBits h.2.1))
      if words.all (fun w => words.all (fun v => decide (v = w))) then
        let n := s.teams.foldl (fun n u => max n u.splitOrder) 0 + 1
        .next (us.foldl (fun s u => s.updAt u.core u.slot (fun t => t.updTileHead (fun c => { c with stage := .ready, order := n }))) s)
      else .next (us.foldl (fun s u => atSlot u.core u.slot State.stopCube s) s)
    else .next s) s

/-- Panels of a core's share. -/
def sharePanels (h : Share) : Nat := h.nc / 32 * (h.kc / 32)

/-- The oldest panel received is passed over. `sent`: how many panels have come in all. -/
def Team.passOldest (t : Team) (sent : Nat) : Team :=
  match t.splitHead with
  | some (c, op, d) =>
    let h := t.share d
    match c.panels with
    | p :: ps =>
      let i := sent - c.panels.length
      (t.passPanel op.kind d op.aOff h.kc h.mc (i % (h.kc / 32) * 32) (i / (h.kc / 32) * 32) op.rowOff op.rows p
        (fun r k => t.tileAt d.acc r k)).updTileHead (fun c => { c with panels := ps })
    | [] => t
  | .none => t

/-- How many panels have reached a participant; the origin counts what it has sent. -/
def Team.panelsIn (t : Team) : Nat :=
  match t.splitHead with
  | some (c, _, d) => min c.progress (sharePanels (t.share d))
  | .none => 0

/-- A panel reaches a participant: the origin has counted it already. -/
def Team.takePanel (t : Team) (p : List Nat) : Team :=
  let t := if t.tileQ.head?.any (fun c => decide (4 ≤ c.panels.length)) then t.passOldest t.panelsIn else t
  t.updTileHead (fun c => { c with panels := c.panels ++ [p], progress := if t.clidx = 0 then c.progress else c.progress + 1 })

/-- Whether a participant has a free receive slot, or frees one with its next pass: its core's four slots serve the oldest of its split
ops (R160). -/
def panelRoom (s : State) (t : Team) : Bool :=
  match t.splitHead with
  | some (c, _, _) =>
    oldestSplit s t && (decide (c.stage = .started) || (decide (c.stage = .ready) && decide (c.panels.length < 4)))
  | .none => false

/-- The origin's next panel and the cluster column it goes to. -/
def Team.nextPanel (t : Team) : Option (List Nat × Nat) :=
  match t.splitHead with
  | some (c, op, d) =>
    let h := t.share d
    let kp := c.progress % (h.kc / 32)
    let cp := c.progress / (h.kc / 32)
    if t.clidx = 0 ∧ t.splitKind d = 1 ∧ (c.stage = .ready ∨ c.stage = .started) ∧ 32 * cp < 32 * d.n32 then
      some (t.panel d op.bOff (32 * d.n32) (32 * kp) (32 * cp), 32 * cp / h.nc)
    else .none
  | .none => .none

/-- The origin in focus sends its next panel, if every addressee can take it (R159, R160). -/
def State.sendPanel (s : State) : State :=
  let s := s.seePort
  match s.t.nextPanel with
  | none => s
  | some (p, col) =>
    let us := (clusterTeams s s.t).filter (fun u => u.clusterCol == col)
    if us.all (panelRoom s) then
      let s := us.foldl (fun s u => s.updAt u.core u.slot (fun t => t.takePanel p)) s
      s.upd (fun t => t.updTileHead (fun c => { c with progress := c.progress + 1 }))
    else s

/-- PANEL_MULTICAST_SEND (R160). -/
def execPanelMulticastSend (core slot : Nat) (s : State) : Out := eventAt core slot (fun s => .next s.sendPanel) s

/-! ## The end of an op (R147, R161) -/

/-- A started command that is not split runs. -/
def Team.runBody (t : Team) : EngBody → Team
  | .cube op => t.runOp op
  | .tld off region stride => t.runTld off region stride
  | .tst off region stride => t.runTst off region stride
  | _ => t

/-- Array clocks of the started commands at the head of a tile queue (R145, R148, R398). -/
def Team.arrayClocks (t : Team) (cs : List EngCmd) : Nat :=
  match cs with
  | [] => 0
  | c :: _ =>
    match c.body with
    | .cube op =>
      let d := descOf op.desc
      if cs.length ≤ 1 then t.clocks op.kind d else max (panelLoad d) (cs.length * planes op.kind d)
    | .tld _ r _ => (regionOf2 r).rows * ceilDiv (regionOf2 r).cols 32
    | .tst _ r _ => (regionOf2 r).rows * ceilDiv (regionOf2 r).cols 32
    | _ => 0

/-- The started commands at the head of the tile queue. -/
def Team.startedRun (t : Team) : List EngCmd := t.tileQ.takeWhile (fun c => decide (c.stage = .started))

/-- The started commands run in queue order and are done. -/
def Team.finishRun (t : Team) : Team :=
  let n := t.startedRun.length
  let t := t.startedRun.foldl (fun t c => t.runBody c.body) t
  { t with tileQ := t.tileQ.mapIdx (fun i c => if i < n then { c with stage := .done } else c) }

/-- Every received panel is passed over, and the split op is done. -/
def Team.finishPanels (t : Team) : Team :=
  let n := t.panelsIn
  ((List.range 4).foldl (fun t _ => t.passOldest n) t).updTileHead (fun c => { c with stage := .done })

/-- The origin's last step of a K split (R161): D₀ and the other cores' partial sums, in ascending CLIDX. -/
def Team.combineK (t : Team) (d : Desc) (op : CubeOp) (parts : List (Team × Desc)) : Team :=
  let h := t.share d
  let cells := (opRows h.mc op.rows).flatMap (fun i => (List.range h.nc).map (fun j => (i, j)))
  cells.foldl (fun u c =>
    let r := 8 * d.row0 + c.1
    let k := 32 * d.col0 + c.2
    u.tileSet d.acc r k (dotAccumulate (t.tileAt d.acc r k)
      (parts.map (fun p => v32 (p.1.tileAt p.2.acc (8 * p.2.row0 + c.1) (32 * p.2.col0 + c.2)))))) t

/-- A K split ends at every participant at once: each computes its share, then the origin adds the partial sums (R161). -/
def State.finishK (s : State) (us : List Team) : State :=
  let run (t : Team) : Team := match t.splitHead with
    | some (_, op, d) => t.runLocal op d (decide (t.clidx ≠ 0))
    | none => t
  let ran := us.map run
  let others := (List.range us.length).filterMap (fun i =>
    (ran.find? (fun u => u.clidx == i + 1)).bind (fun u => u.splitHead.map (fun h => (u, h.2.2))))
  let fin (t : Team) : Team :=
    let t := match t.splitHead with
      | some (_, op, d) => if t.clidx = 0 then t.combineK d op others else t
      | none => t
    t.updTileHead (fun c => { c with stage := .done })
  ran.foldl (fun s u => s.updAt u.core u.slot (fun _ => fin u)) s

/-- The started op at the head of the focused team's tile queue ends, if it can. -/
def State.endOp (s : State) : State :=
  let s := s.seePort
  let t := s.t
  let s1 := s.bump t.ctx 10 (t.arrayClocks t.startedRun)
  match t.splitHead with
  | none => if t.startedRun.isEmpty then s else s1.upd Team.finishRun
  | some (c, _, d) =>
    if c.stage ≠ .started then s
    else if t.splitKind d = 1 then
      if t.panelsIn = sharePanels (t.share d) ∧ (t.clidx ≠ 0 ∨ t.nextPanel = none) then s1.upd Team.finishPanels else s
    else
      let us := clusterTeams s t
      if us.length = t.clusterSize ∧ us.all Team.headStarted then
        (us.foldl (fun s u => s.bump u.ctx 10 (u.arrayClocks u.startedRun)) s).finishK us
      else s

/-- CUBE_OP_END (R147). -/
def execCubeOpEnd (core : Nat) (s : State) : Out :=
  match s.teams.find? (fun t => t.core == core && t.headStarted) with
  | none => .next s
  | some t => .next (atSlot core t.slot State.endOp s)

/-- The split op of the focused team is brought to its end at every participant that still has it; one that is past it keeps what stands next
in its queue (R147, R157). -/
def State.finishSplit (s : State) : State :=
  match s.t.splitHead with
  | none => s
  | some (_, _, d) =>
    let us := (clusterTeams s s.t).filter (fun u => u.splitOrder == s.t.splitOrder && (u.headStarted || u.headReady))
    let s := us.foldl (fun s u => s.updAt u.core u.slot (fun t => t.updTileHead (fun c => { c with stage := .started }))) s
    let o := (us.find? (fun u => u.clidx == 0)).getD s.t
    let s := (List.range (d.n32 * d.k32)).foldl (fun s _ => atSlot o.core o.slot State.sendPanel s) s
    us.foldl (fun s u => atSlot u.core u.slot State.endOp s) s

/-- A team's started ops are brought to their end (R226, R300): a split op at every participant, after the older ones. -/
def State.finishStarted (s : State) (c k : Nat) : State :=
  atSlot c k (fun s =>
    if !(s.t.headStarted || s.t.headReady) then s
    else match s.t.splitHead with
      | none => s.endOp
      | some _ => (List.range (s.t.splitOrder + 1)).foldl (fun s n =>
        match s.teams.find? (fun u => decide (n ≠ 0) && u.splitOrder == n) with
        | some u => atSlot u.core u.slot State.finishSplit s
        | none => s) s) s

/-! ## The copy engine and completion (R156, R178, R180, R181) -/

/-- The next chunk of the copy at the head of the focused team's copy queue. -/
def runCopy (c : EngCmd) (dst src shape : DWord) : Act Unit := do
  let s ← get
  let h := shapeOf shape
  let a := s.t.tag
  let last := decide (h.total ≤ 4096 * (c.progress + 1))
  match ← copyChunk a dst src h c.undo c.progress with
  | .error e => set (s.copyFault c e.1 e.2)
  | .ok undo => do
    (copyLines dst src h (4096 * c.progress) (min h.total (4096 * (c.progress + 1)))).forM (hotAccess a 4)
    change (fun s => s.upd (fun t => t.updCopyHead (fun c =>
      { c with stage := if last then .done else .started, progress := c.progress + 1, undo := if last then [] else undo })))

/-- TILE_COPY_CHUNK (R178): the head of a team's copy queue moves on by a chunk, or by a pass of a per-lane copy. -/
def execTileCopyChunk (core slot : Nat) (s : State) : Out :=
  eventAt core slot (fun s =>
    match s.t.copyQ with
    | [] => .next s
    | c :: _ =>
      if !s.t.alive || frozen s s.t || c.guard.isSome || decide (c.stage ≠ .queued ∧ c.stage ≠ .started) then .next s
      else match c.body with
        | .copy dst src shape => runAct (runCopy c dst src shape) s.seePort
        | .laneCopy w p g lanes => runAct (runLaneCopy c w p g lanes) s.seePort
        | _ => .next s) s

/-- Whether a queue stands at joint entry `id`, released. -/
def atJoin (id : Nat) (q : List EngCmd) : Bool :=
  match q with
  | c :: _ =>
    match c.body with
    | .join i _ => decide (i = id) && c.guard.isNone
    | _ => false
  | [] => false

/-- The head of a queue leaves it: a command that is done, or a joint entry every selected queue has reached. -/
def Team.completeHead (t : Team) (copyQueue : Bool) : Team :=
  match (if copyQueue then t.copyQ else t.tileQ) with
  | [] => t
  | c :: cs =>
    match c.body with
    | .join id m =>
      if (!bit m 0 || atJoin id t.tileQ) && (!bit m 1 || atJoin id t.copyQ) then
        { t with tileQ := if bit m 0 then t.tileQ.drop 1 else t.tileQ, copyQ := if bit m 1 then t.copyQ.drop 1 else t.copyQ }
      else t
    | _ => if c.stage ≠ .done then t else if copyQueue then { t with copyQ := cs } else { t with tileQ := cs }

/-- ENGINE_COMMAND_COMPLETE (R156, R181); an arm that waited for a per-lane copy goes on (R62, R66). -/
def execEngineCommandComplete (core slot : Nat) (copyQueue : Bool) (s : State) : Out :=
  eventAt core slot (fun s => .next (if s.t.alive then s.upd (fun t => (t.completeHead copyQueue).settle) else s)) s

end Sys2Proof.Machine
end

