-- ==== Sys2Proof/Machine/Collective.lean ====
section
/-! DEFINITION. Predicate logic and the collectives (§3.6, §18.13, §18.16, §18.19, §19.10). -/

namespace Sys2Proof.Machine

/-- PLOP (R382): bit 4·pa + 2·pb + pc of the truth table. -/
def execPlop (w : LWord) (s : State) : Out := 
  lanePred w (fun t lane =>
    let v (f : BitVec 7) : Nat := if (t.pm (f.toNat % 16)).getLsbD lane then 1 else 0
    w.modb.getLsbD (4 * v w.src1 + 2 * v w.src2 + v w.src3)) s

/-- The set of lanes a lane's collective works over: the path's participants under .T, else those of its group (R383, R405). -/
def Team.peers (t : Team) (w : LWord) (lane : Nat) : List Nat :=
  if w.modb.getLsbD 0 then t.parts w else (t.parts w).filter (fun l => l / 32 == lane / 32)

/-- VOTE's truth in a lane (Table 19.3). -/
def voteHolds (t : Team) (w : LWord) (lane : Nat) : Bool :=
  let ps := t.peers w lane
  let yes := ps.filter (fun l => (t.pm (w.src1.toNat % 16)).getLsbD l)
  match w.fn.toNat with
  | 0 => !yes.isEmpty
  | 1 => decide (yes.length = ps.length)
  | _ => yes.isEmpty || decide (yes.length = ps.length)

/-- The ballot of a lane's group (Table 19.3). -/
def ballot (t : Team) (w : LWord) (lane : Nat) : Nat :=
  (groupWord (t.partMask w &&& t.pm (w.src1.toNat % 16)) (lane / 32)).toNat

/-- VOTE (R405). -/
def execVote (w : LWord) (s : State) : Out := 
  if w.fn = 3 then laneResult w 1 (fun t lane => ballot t w lane) s else lanePred w (fun t lane => voteHolds t w lane) s

/-- The lane-in-group a SHFL reads, if it is 0 to 31 (R386). -/
def shflSource (fn : BitVec 3) (j b : Nat) : Option Nat :=
  match fn.toNat with
  | 0 => if b < 32 then some b else none
  | 1 => if b ≤ j then some (j - b) else none
  | 2 => if j + b < 32 then some (j + b) else none
  | _ => if Nat.xor j b < 32 then some (Nat.xor j b) else none

/-- SHFL (R386). -/
def execShfl (w : LWord) (s : State) : Out := 
  laneResult w w.n (fun t lane =>
    match shflSource w.fn (lane % 32) (t.b w lane 1) with
    | some j => let src := lane / 32 * 32 + j
      if (t.partMask w).getLsbD src then t.a w src w.n else t.a w lane w.n
    | .none => t.a w lane w.n) s

/-- Two values of TYPE `ty` combined by a collective operation (Table 18.8), .FADD apart. -/
def combine (fn : BitVec 3) (ty : BitVec 5) (a b : Nat) : Nat :=
  let wide := typeRegs ty.toNat == 2
  let u := !atomSigned ty
  match fn.toNat with
  | 0 => (a + b) % 2 ^ (32 * typeRegs ty.toNat)
  | 1 => if ty = 15 then f32.minmax false a b else atWidth wide (imin u) a b
  | 2 => if ty = 15 then f32.minmax true a b else atWidth wide (imax u) a b
  | 3 => Nat.land a b
  | 4 => Nat.lor a b
  | _ => Nat.xor a b

/-- The identity of a collective operation (Table 18.8). -/
def identity (fn : BitVec 3) (ty : BitVec 5) : Nat :=
  let n := 32 * typeRegs ty.toNat
  let sgn := atomSigned ty
  match fn.toNat with
  | 1 => if ty = 15 then 0x7f800000 else if sgn then 2 ^ (n - 1) - 1 else 2 ^ n - 1
  | 2 => if ty = 15 then 0xff800000 else if sgn then 2 ^ (n - 1) else 0
  | 3 => 2 ^ n - 1
  | _ => 0

/-- The combination of a list of values in order (R383). Under .F32 a NaN result is the canonical one even where one value is all there is
(R118, assumption log 64). -/
def combineAll (fn : BitVec 3) (ty : BitVec 5) (xs : List Nat) : Nat :=
  if fn = 6 then (dotAccumulate 0 (xs.map f32.value)).toNat
  else match xs with
    | [] => identity fn ty
    | x :: rest => rest.foldl (combine fn ty) (if ty = 15 ∧ (fn = 1 ∨ fn = 2) then combine fn ty x x else x)

/-- The lane positions a REDUCE or SCAN runs over: every lane of the team under .T, else the 32 of the lane's group (R69, R383). -/
def Team.places (t : Team) (w : LWord) (lane : Nat) : List Nat :=
  if w.modb.getLsbD 0 then List.range (laneCount t.gmax) else (List.range 32).map (32 * (lane / 32) + ·)

/-- What a REDUCE or SCAN takes at each of some lane positions: the participant's value, the identity in place of any other lane (R69). -/
def Team.taken (t : Team) (w : LWord) (ls : List Nat) : List Nat :=
  ls.map (fun l => if (t.partMask w).getLsbD l then t.a w l w.n else identity w.fn w.ty)

/-- REDUCE (R383). -/
def execReduce (w : LWord) (s : State) : Out := 
  laneResult w w.n (fun t lane => combineAll w.fn w.ty (t.taken w (t.places w lane))) s

/-- The positions SCAN has combined at a lane: those before it, and its own but under .EX (R383). -/
def Team.scanned (t : Team) (w : LWord) (lane : Nat) : List Nat :=
  (t.places w lane).filter (fun l => if w.modb.getLsbD 1 then decide (l < lane) else decide (l ≤ lane))

/-- SCAN (R383): exclusive under .EX. -/
def execScan (w : LWord) (s : State) : Out := 
  laneResult w w.n (fun t lane => combineAll w.fn w.ty (t.taken w (t.scanned w lane))) s

end Sys2Proof.Machine
end

