-- ==== Sys2Proof/Machine/FixedUnits.lean ====
section
/-! DEFINITION. Accesses of the fixed units (R424), and scalar instructions that wait for a whole transaction in memory. -/

namespace Sys2Proof.Machine

/-! ## Fixed units' accesses (R424) -/

/-- The record site of a fixed unit's access. -/
def fixedSite (pennant : Nat) : Site :=
  { access := 6, pennant := pennant, core := 0xff, slot := 0, path := 0, group := 0, scalar := false }

/-- A fixed unit's access parks with the work that depends on it, under a record; `pc`: the packet's address, `va`: the access's. -/
def State.parkFixed (s : State) (ctx pennant : Nat) (pc va : DWord) (f : TFault) (w : FixedWork) : State :=
  let id := freshId s ctx
  let s := s.record ctx id f (fixedSite pennant) pc 0
  { s with fixed := s.fixed ++ [{ ctx := ctx, id := id, pennant := pennant, addr := va, work := w }] }

/-- A stopping cause drops the access under a record with ID 0. -/
def State.dropFixed (s : State) (ctx pennant : Nat) (pc : DWord) (f : TFault) : State :=
  s.record ctx 0 f (fixedSite pennant) pc 0

/-- Whether an event waits on a parked access of its own. -/
def parkedAgain (s : State) (i : Instr) : Bool := s.fixed.any (fun f => decide (f.work = .again i))

/-- Whether a write of context `c` that begins in [lo, lo + n) is parked. -/
def parkedWrites (s : State) (c : Nat) (lo : DWord) (n : Nat) : Bool :=
  s.fixed.any (fun f => f.ctx == c && (match f.work with
    | .writes _ _ ws => ws.any (fun w => decide ((w.1 - lo).toNat < n))
    | _ => false))

/-- Whether a write to the state bytes of a context's PCB, or to its fields behind them, is parked (Table 10.1). -/
def pcbParked (s : State) (c : Nat) : Bool := (ctxOf s c).pcb.any (fun b => parkedWrites s c (b + 0x220) 0x10)

/-- `n` bytes read by a fixed unit. -/
def fixedRead (ctx pennant : Nat) (va : DWord) (n : Nat) : Act (Except TFault (List Byte)) :=
  vread (fixedAcc ctx pennant) .fixRead none 3 va n

/-- A queue's packet has completed (R415). -/
def State.packetDone (s : State) (q : Nat) : State :=
  { s with queues := updNth s.queues q (fun k => { k with outstanding := k.outstanding - 1 }) }

/-- Writes of a fixed unit in order. A replayable fault parks it and those behind it; a stopping one loses it alone. With the last of them
the packet of `queue` has completed. The answer is the ID they are parked under. -/
def fixedWrites (ctx pennant : Nat) (pc : DWord) (queue : Option Nat) : List (DWord × List Byte) → Act (Option Nat)
  | [] => do
    change (fun s => match queue with
      | some q => s.packetDone q
      | none => s)
    pure none
  | (va, bs) :: ws => do
    let s ← get
    match ← vwrite (fixedAcc ctx pennant) .fixWrite 3 va bs with
    | .ok _ => fixedWrites ctx pennant pc queue ws
    | .error f =>
      if f.replayable then do
        let id := freshId s ctx
        change (fun s => s.parkFixed ctx pennant pc va f (.writes pc queue ((va, bs) :: ws)))
        pure (some id)
      else do
        change (fun s => s.dropFixed ctx pennant pc f)
        fixedWrites ctx pennant pc queue ws

/-- A packet's or launch's last writes: `fields`, then its status word, if that has an address (R255, R259). -/
def writeStatus (ctx : Nat) (pc : DWord) (queue : Option Nat) (fields : List (DWord × List Byte)) (stat : DWord) (v : Nat) : Act Unit := do
  let _ ← fixedWrites ctx 0 pc queue (fields ++ (if stat = 0 then [] else [(stat, leBytes 8 v)]))
  pure ()

/-! ## The pennant control block (Table 10.1) -/

/-- Write part-written fields of a context's PCB: offset and bytes of each; `pc`: the address of the packet they are for, or 0 (R424). -/
def pcbWrites (ctx : Nat) (pc : DWord) (ws : List (Nat × List Byte)) : Act (Option Nat) := do
  let s ← get
  match (ctxOf s ctx).pcb with
  | some b => fixedWrites ctx 0 pc none (ws.map (fun w => (b + BitVec.ofNat 64 w.1, w.2)))
  | none => pure none

/-- The state byte of a pennant in the PCB. -/
def stateByte (p code : Nat) : Nat × List Byte := (0x220 + p, [BitVec.ofNat 8 code])

/-! ## Scalar instructions over memory -/

/-- The scalar stream issues nothing until the parked entry `id` is answered (R292, R424). -/
def Team.holdFor (t : Team) (id : Option Nat) : Team :=
  match id with
  | some n => { t with sPark := .some (n, 0, 0) }
  | .none => t

/-- An access of a stalling instruction failed: it parks whole, and is issued again once the entry is replayed. -/
def State.parkStream (s : State) (i : Instr) (access : Nat) (va : DWord) (f : TFault) : State :=
  if f.replayable then
    if 64 ≤ logUsed s s.t.core then s
    else
      let id := freshId s s.t.ctx
      (s.parkScalar i access { lane := 0, addr := va, data := 0 } f 0).upd (fun t => t.holdFor (some id))
  else s.stopTeam f (s.t.site access 0 false) s.t.spc 0

/-- A stalling instruction is over: its result is written and the stream goes on. -/
def Team.finishX (t : Team) (d : BitVec 5) (v : DWord) : Team := { t.resultX d v with wait := .none }

/-- Run a stalling instruction as one transaction: a fault leaves nothing of it but the parked entry and `wait`, what it has begun with. -/
def streamAct (i : Instr) (wait : ScalarWait) (m : Act (Except (Nat × TFault) Unit)) (s : State) : Out :=
  match m s with
  | .ok (.ok _, s') => .next s'
  | .ok (.error (access, f), _) =>
    let s := s.parkStream i access f.va f
    .next (if f.replayable then s.upd (fun t => { t with wait := wait }) else s)
  | .error e => stopOut e

/-- A read of the issuing team's own in such a transaction. -/
def streamRead (va : DWord) (n : Nat) : Act (Except (Nat × TFault) (List Byte)) := do
  let s ← get
  match ← vread s.t.tag .load none 3 va n with
  | .error f => pure (.error (0, f))
  | .ok bs => do
    hotPass s.t.tag 0 (lineAddrs va n)
    pure (.ok bs)

/-- Several reads in order. -/
def streamReads : List (DWord × Nat) → Act (Except (Nat × TFault) (List (List Byte)))
  | [] => pure (.ok [])
  | (va, n) :: rs => do
    match ← streamRead va n with
    | .error f => pure (.error f)
    | .ok bs => do
      match ← streamReads rs with
      | .error f => pure (.error f)
      | .ok rest => pure (.ok (bs :: rest))

/-- The words of a block of bytes. -/
def wordsOf (bs : List Byte) (n : Nat) : List Word := (List.range n).map (fun i => wordAt bs (4 * i))

end Sys2Proof.Machine
end

