-- ==== Sys2Proof/Machine/Futures.lean ====
section
/-! DEFINITION. Futures: FORK, COMMIT, SQUASH, RANK, WARP, FLIP and the steps that end them (chapter 10, R361, R406). -/

namespace Sys2Proof.Machine

/-! ## Flips (R228, R319) -/

/-- Whether a flip that reaches head `h` now enters its queue. -/
def Head.room (h : Head) : Bool := decide (h.queue.length < 16) && h.outside.isEmpty

/-- Whether a head scans out: EN = 1 and VPER ≠ 0. -/
def Head.enabled (h : Head) : Bool := h.hcfg.getLsbD 0 && decide (bits h.hcfg.toNat 4 18 ≠ 0)

/-- The flips of a disabled head are dropped as they reach the front of its queue. -/
def Head.settle (h : Head) : Head := if h.enabled then h else { h with queue := [], outside := [] }

/-- A flip is queued behind every flip of its head, outside the queue when it has no room. -/
def State.appendFlip (s : State) (f : Flip) : State :=
  { s with heads := updNth s.heads f.head (fun h =>
    (if h.room then { h with queue := h.queue ++ [f] } else { h with outside := h.outside ++ [f] }).settle) }

/-- Warp-held flips of a context go to their heads, each changed by `f` first. -/
def State.releaseHeld (s : State) (c : Nat) (f : Flip → Flip) : State :=
  let s' := ((ctxOf s c).held.map f).foldl State.appendFlip s
  s'.updCtx c (fun x => { x with held := [] })

/-- Head `h`. -/
def headOf (s : State) (h : Nat) : Head := s.heads.getD h Head.reset

/-- A status in xd, the instruction being done. -/
def status (s : State) (d : BitVec 5) (n : Nat) : Out := .next (s.upd (fun t => t.resultX d (BitVec.ofNat 64 n)))

/-- FLIP (R228, R361). -/
def execFlip (d a b : BitVec 5) (s : State) : Out :=
  let t := s.t
  let h := (t.xr a).toNat
  let f : Flip := { head := h, surface := t.xr b, ctx := t.ctx }
  if 3 < h ∨ (t.xr b).toNat % 256 ≠ 0 then status s d 3
  else if t.pennant = 0 then
    if (headOf s h).room then status ((s.release 5).appendFlip f) d 0 else .next s
  else if 4 ≤ ((ctxOf s t.ctx).pen t.pennant).flips.length then status s d 4
  else status (s.updCtx t.ctx (fun x => x.updPen t.pennant (fun n => { n with flips := n.flips ++ [f] }))) d 0

/-! ## The pennant table (R213) -/

/-- Whether a change by the team in focus comes behind one from a higher core in this mesh clock, and so belongs to a later one: in one mesh
clock the lower logical core's goes first (R213). -/
def tableLate (s : State) : Bool := (ctxOf s s.t.ctx).tableAt.any (fun r => r.1 == meshClock s && decide (s.t.core < r.2))

/-- The team in focus changes the pennant table, or reaches it. -/
def State.stampTable (s : State) : State := s.updCtx s.t.ctx (fun x => { x with tableAt := some (meshClock s, s.t.core) })

/-! ## FORK (R221) -/

/-- Whether a team that has reached the pennant table with a FORK still stands there: it may issue, or its FORK has begun. -/
def Team.forking (t : Team) : Bool :=
  t.alive || (match t.wait with
    | .fork _ | .forked _ => true
    | _ => false) || decide (t.sPark.map (fun p => p.2.1) = some 0)

/-- Whether the FORK of the team in focus is the first of its context at the pennant table (R221). -/
def forkFirst (s : State) : Bool :=
  let stands (e : Nat × Nat × Nat) : Bool := (s.teams ++ s.shadows.flatMap (fun h => h.teams)).any (fun t =>
    t.ctx == s.t.ctx && t.ident == e && t.forking)
  ((ctxOf s s.t.ctx).forks.filter (fun e => e == s.t.ident || stands e)).head?.all (fun e => e == s.t.ident)

/-- The FORK of the team in focus reaches the pennant table, behind those there. -/
def State.joinForks (s : State) : State :=
  s.updCtx s.t.ctx (fun x => if x.forks.contains s.t.ident then x
    else { x with forks := x.forks ++ [s.t.ident], tableAt := some (meshClock s, s.t.core) })

/-- The pennants a mask names, ascending. -/
def maskPens (m : Nat) : List Nat := ((List.range 7).map (· + 1)).filter (fun p => bit m p)

/-- Steps 2 and 3 of a FORK: the PCB is recorded, each named pennant keeps its prediction record; committed pushes still waiting in a buffer
stay in it (R227). -/
def Ctx.fork (x : Ctx) (m : Nat) (pcb : DWord) (preds : List (List Byte)) : Ctx :=
  ((maskPens m).zip preds).foldl (fun x e => x.updPen e.1 (fun n =>
    { Pennant.reset with pred := wordsOf e.2 16, appending := n.appending }))
    { x with pcb := some pcb, forkMask := m, committed := 0, ranked := false }

/-- Step 5 of a FORK: its pennants become Live, their state bytes are written. The FORK is complete once they are performed. -/
def forkLive (d : BitVec 5) (m : Nat) : Act Unit := do
  let s ← get
  change (fun s => s.stampTable.updCtx s.t.ctx (fun x =>
    (maskPens m).foldl (fun x p => x.updPen p (fun n => { n with st := .live })) x))
  let id ← pcbWrites s.t.ctx 0 ((maskPens m).map (fun p => stateByte p 1))
  change (fun s => (if id.isNone then s.leaveForks else s).upd (fun t => (t.finishX d 0).holdFor id))

/-- FORK past its release (R221). While a write of step 4 is parked its pennants are not Live yet. -/
def doFork (i : Instr) (d : BitVec 5) (m : Nat) (pcb : DWord) : Act (Except (Nat × TFault) Unit) := do
  let s ← get
  let c := s.t.ctx
  match ← streamReads ((maskPens m).map (fun p => (pcb + BitVec.ofNat 64 (0x40 * p), 64))) with
  | .error e => pure (.error e)
  | .ok preds => do
    change (fun s => s.updCtx c (fun x => x.fork m pcb preds))
    match ← pcbWrites c 0 ((0x22c, leBytes 4 0) :: (maskPens m).map (fun p => (0x200 + 4 * p, leBytes 4 0))) with
    | .none => forkLive d m
    | .some id => change (fun s => s.upd (fun t => { t.holdFor (.some id) with wait := .forked i }))
    pure (.ok ())

/-- A FORK that stands at the pennant table, and may have begun. -/
def forkOn (d a b : BitVec 5) (s : State) : Out :=
  let t := s.t
  let i : Instr := .fork d a b
  let m := (t.xr a).toNat
  let x := ctxOf s t.ctx
  let run (s : State) : Out := streamAct i (.fork i) (doFork i d m (t.xr b)) s
  if t.wait = .forked i then runAct (forkLive d m) s
  else if t.wait = .fork i then run s
  else
    let u := s.joinForks
    if !forkFirst u || !(x.pensIn .committing).isEmpty || !(x.pensIn .dropping).isEmpty then .next u
    else if !(x.pensIn .live).isEmpty then status s.leaveForks d 2
    else run ((u.releaseHeld t.ctx id).release 4)

/-- FORK (R213, R219 to R221): its flips are released and its release performed once, before anything it reads can park. -/
def execFork (d a b : BitVec 5) (s : State) : Out :=
  let t := s.t
  let m := (t.xr a).toNat
  if t.wait = .none ∧ t.pennant ≠ 0 then status s d 1
  else if t.wait = .none ∧ (m % 2 ≠ 0 ∨ m = 0 ∨ 256 ≤ m ∨ (t.xr b).toNat % 1024 ≠ 0) then status s d 3
  else if tableLate s then .next s
  else forkOn d a b s

/-! ## COMMIT (R222 to R224) -/

/-- The first half of COMMIT for pennant `p` of context `c`: it is Committing, every other Live one is dropped. -/
def beginCommit (c p : Nat) (run : CommitRun) : Act (Option Nat) := do
  let s ← get
  let lost := ((ctxOf s c).pensIn .live).filter (fun q => q != p)
  change (fun s =>
    let s := s.updCtx c (fun x => { x.updPen p (fun n => { n with st := .committing }) with commit := some run })
    lost.foldl (fun s q => s.dropPennant c q false) s)
  pcbWrites c run.pc (stateByte p 2 :: lost.map (fun q => stateByte q 3))

/-- COMMIT (R213, R222): COMMIT_SWITCH ends it; behind one under way it waits at the pennant table (R224). -/
def execCommit (d a : BitVec 5) (s : State) : Out :=
  let t := s.t
  let p := (t.xr a).toNat
  let x := ctxOf s t.ctx
  if t.wait ≠ .none then .next s
  else if t.pennant ≠ 0 then status s d 1
  else if p < 1 ∨ 7 < p then status s d 3
  else if tableLate s then .next s
  else if x.commit ≠ none ∨ !(x.pensIn .committing).isEmpty then .next (s.stampTable.upd (fun t => { t with wait := .behind d p }))
  else if (x.pen p).st ≠ .live then status s d 2
  else runAct (do
    change (fun s => s.stampTable.release 5)
    let _ ← beginCommit t.ctx p { pennant := p, queue := none, pc := 0, stat := 0, switched := false }
    change (fun s => s.upd (fun t => { t with wait := .commit d p }))) s

/-- The trunk's memory with a version written to it, then with a log entry applied to it. -/
def landVer (m : Mem) (v : Ver) : Mem := memSet m (128 * v.line) v.data

/-- A log entry applied to the trunk (R223). -/
def landLog (m : Mem) (l : SpecLog) : Mem :=
  memSet m l.pa (leBytes l.size (atomNew l.fn (8 * l.size) (atomSigned l.ty) (leNat (memBytes m l.pa l.size)) l.val l.cmp))

/-- Switch(p) at one tick (R223): versions become the trunk's lines where they stand, with their priority (R168), then the log is applied; the
affected lines leave every L1 and every sampler cache is empty. -/
def State.switchTrunk (s : State) (c p : Nat) : State :=
  let s := s.drainWc (fun l => l.ctx == c && l.pennant == p)
  let mine (lc lp : Nat) : Bool := lc == c && lp == p
  let vs := s.caches.vers.filter (fun v => mine v.ctx v.pennant)
  let ls := s.caches.logs.filter (fun l => mine l.ctx l.pennant)
  let lines := vs.map (fun v => v.line) ++ ls.map (fun l => lineOf l.pa)
  let homes := vs.map (fun v => ({ line := v.line, prio := v.prio } : HomeLine))
  let s := { s with caches := { s.caches with
    vers := s.caches.vers.filter (fun v => !mine v.ctx v.pennant)
    logs := s.caches.logs.filter (fun l => !mine l.ctx l.pennant)
    homes := s.caches.homes.filter (fun (h : HomeLine) => vs.all (fun v => v.line != h.line)) ++ homes
    samp := [] } }.giveUp (fun lc lp l => mine lc lp || (lp == 0 && lines.contains l))
  { s with mem := ls.foldl landLog (vs.foldl landVer s.mem) }

/-- A pixel item of pennant `p` of context `c` as the trunk's. -/
def PixItem.trunk (c p : Nat) (i : PixItem) : PixItem := if i.ctx = c ∧ i.pennant = p then { i with pennant := 0 } else i

/-- The front end with what pennant `p` of context `c` has in it under the trunk. -/
def Front.trunk (f : Front) (c p : Nat) : Front :=
  let mine (lc lp : Nat) : Bool := lc == c && lp == p
  { f with
    ring := f.ring.map (fun r => if mine r.ctx r.pennant then { r with pennant := 0 } else r)
    prims := f.prims.map (fun b => if mine b.ctx b.pennant then { b with pennant := 0 } else b)
    bins := f.bins.map (fun b => if mine b.ctx b.pennant then { b with pennant := 0 } else b)
    raster := f.raster.map (fun i => (i.1, i.2.trunk c p))
    pixels := f.pixels.map (fun i => (i.1, i.2.trunk c p))
    orders := f.orders.map (PixItem.trunk c p) }

/-- A shadow slot with it under the trunk (assumption log 30). -/
def Shadow.trunk (h : Shadow) (c p : Nat) : Shadow :=
  let f := Front.trunk { Front.reset with ring := h.ring, prims := h.prims, bins := h.bins, raster := h.raster, pixels := h.pixels } c p
  { h with ring := f.ring, prims := f.prims, bins := f.bins, raster := f.raster, pixels := f.pixels }

/-- What ran under pennant `p` runs under the trunk from now on: teams, running launches, items in the front end, what is saved of them. -/
def State.toTrunk (s : State) (c p : Nat) : State :=
  let mine (lc lp : Nat) : Bool := lc == c && lp == p
  let s := s.mapTeams (fun t => if mine t.ctx t.pennant then
    { t with pennant := 0, bindings := t.bindings.map (fun b => { b with item := b.item.trunk c p }) } else t)
  { s with
    launches := s.launches.map (fun l =>
      if mine l.ctx l.pennant && decide (l.st = LaunchSt.running) then { l with pennant := 0 } else l)
    front := s.front.trunk c p
    shadows := s.shadows.map (fun h => h.trunk c p) }

/-- A record as the trunk's: PENNANT 0. -/
def Packet.trunk (p : Packet) : Packet := { p with d0 := p.d0 &&& ~~~ (0x7000 : DWord) }

/-- The waiting committed pushes of pennant `p` enter the store or its overflow list while there is room, at most `n` (R227). -/
def appendPushes (c p : Nat) : Nat → Act Unit
  | 0 => pure ()
  | n + 1 => do
    let s ← get
    match ((ctxOf s c).pen p).appending with
    | [] => pure ()
    | r :: rs => do
      let k ← storeRecord c r
      if k = 2 then pure ()
      else do
        change (fun s => s.updCtx c (fun x => x.updPen p (fun q => { q with appending := rs })))
        appendPushes c p n

/-- The flips of a committed pennant go to their heads, or are warp-held (R228). -/
def State.releaseFlips (s : State) (c p : Nat) : State :=
  let n := (ctxOf s c).pen p
  if n.exceeds then s.updCtx c (fun x => { x with held := x.held ++ n.flips })
  else n.flips.foldl State.appendFlip s

/-- The team whose COMMIT of context `c` is done has status 0, those behind it status 2 (R224), or go on where their pennant is Live. -/
def State.commitDone (s : State) (c : Nat) : State :=
  s.mapTeams (fun t => if t.ctx = c then (match t.wait with
    | .commit d _ => { t.resultX d 0 with wait := .none }
    | .behind d p => { (if ((ctxOf s c).pen p).st = .live then t else t.resultX d 2) with wait := .none }
    | _ => t) else t)

/-- A COMMIT packet of queue `q`, at physical address `pc` (R222, R255): its status, or its COMMIT begins; behind one under way it waits. -/
def commitFrom (ctx q : Nat) (pc : DWord) (p : Packet) : Act Unit := do
  let s ← get
  let n := bits p.d0.toNat 16 8
  let x := ctxOf s ctx
  if n < 1 ∨ 7 < n then writeStatus ctx pc (some q) [] p.d7 3
  else if x.commit.isSome || !(x.pensIn .committing).isEmpty then
    change (fun s => s.updCtx ctx (fun x => { x with commitQ := x.commitQ ++ [(q, pc, p)] }))
  else if (x.pen n).st ≠ .live then writeStatus ctx pc (some q) [] p.d7 2
  else do
    let _ ← beginCommit ctx n { pennant := n, queue := some q, pc := pc, stat := p.d7, switched := false }
    pure ()

/-- COMMIT_SWITCH (R222, R223): the switch and all that follows it. The pennant is Free, and the COMMIT done, once its writes to the PCB are
performed. -/
def execCommitSwitch (ctx : Nat) (s : State) : Out :=
  match (ctxOf s ctx).commit with
  | none => .next s
  | some run =>
    if pcbParked s ctx then .next s
    else if run.switched then
      runAct (do
        change (fun s =>
          let x := ctxOf s ctx
          ((s.updCtx ctx (fun x => { x.updPen run.pennant (fun n => { n with st := .free }) with commit := none, commitQ := [], late := [] })).commitDone
            ctx).after (x.late.map (fun id => Instr.freplyReplay ctx id)))
        writeStatus ctx run.pc run.queue [] run.stat 0
        (ctxOf s ctx).commitQ.forM (fun e => commitFrom ctx e.1 e.2.1 e.2.2)) s
    else
      runAct (do
        let p := run.pennant
        change (fun s =>
          let s := (((s.switchTrunk ctx p).toTrunk ctx p).releaseFlips ctx p)
          s.updCtx ctx (fun x => { x.updPen p (fun n =>
            { n with pushes := [], flips := [], appending := n.appending ++ n.pushes.map Packet.trunk }) with
            committed := p, commit := some { run with switched := true } }))
        appendPushes ctx p 32
        let _ ← pcbWrites ctx run.pc [(0x22c, leBytes 4 p), stateByte p 0]
        pure ()) s

/-- PUSH_APPEND (R227). -/
def execPushAppend (ctx pennant : Nat) (s : State) : Out := runAct (appendPushes ctx pennant 32) s

/-! ## SQUASH and dropping (R225, R226) -/

/-- SQUASH (R225): DROP_COMPLETE ends it. -/
def execSquash (d a : BitVec 5) (s : State) : Out :=
  let t := s.t
  let p := (t.xr a).toNat
  if t.wait ≠ .none then .next s
  else if t.pennant ≠ 0 then status s d 1
  else if p < 1 ∨ 7 < p then status s d 3
  else if tableLate s then .next s
  else if ((ctxOf s t.ctx).pen p).st ≠ .live then status s d 2
  else runAct (do
    change (fun s => s.stampTable.dropPennant t.ctx p false)
    let _ ← pcbWrites t.ctx 0 [stateByte p 3]
    change (fun s => s.upd (fun t => { t with wait := .squash d p }))) s

/-- Pennant `p` is Free: a SQUASH that waits for it is done. -/
def State.squashDone (s : State) (c p : Nat) : State :=
  s.mapTeams (fun t => if t.ctx = c then (match t.wait with
    | .squash d q => if q = p then { t.resultX d 0 with wait := .none } else t
    | _ => t) else t)

/-- The automatic-squash count of the PCB goes up by one (R232). -/
def countSquash (c p : Nat) : Act Bool := do
  let s ← get
  let x := ctxOf s c
  match x.pcb with
  | some b =>
    if (x.pen p).auto then do
      match ← fixedRead c 0 (b + 0x228) 4 with
      | .ok bs => do
        let _ ← pcbWrites c 0 [(0x228, leBytes 4 (leNat bs + 1))]
        pure true
      | .error f =>
        if f.replayable then do
          change (fun s => s.parkFixed c 0 0 (b + 0x228) f (.again (.dropComplete c p)))
          pure false
        else do
          change (fun s => s.dropFixed c 0 0 f)
          pure true
    else pure true
  | none => pure true

/-- A dropped pennant is Free, and a SQUASH that waits for it done. -/
def State.dropEnds (s : State) (c p : Nat) : State :=
  (s.updCtx c (fun x => x.updPen p (fun n => { n with st := .free, auto := false, freed := false }))).squashDone c p

/-- DROP_COMPLETE (R213): everything of the pennant is discarded, and it is Free once that is written to the PCB (R424). An automatic squash first
says Dropping there (R212, R232). -/
def execDropComplete (ctx pennant : Nat) (s : State) : Out :=
  let n := (ctxOf s ctx).pen pennant
  if n.st ≠ .dropping || pcbParked s ctx || parkedAgain s (.dropComplete ctx pennant) then .next s
  else if n.freed then .next (s.dropEnds ctx pennant)
  else if n.auto && n.unsaid then runAct (do
    change (fun s => s.updCtx ctx (fun x => x.updPen pennant (fun n => { n with unsaid := false })))
    let _ ← pcbWrites ctx 0 [stateByte pennant 3]
    pure ()) s
  else runAct (do
    if ← countSquash ctx pennant then do
      change (fun s => s.updCtx ctx (fun x => x.updPen pennant (fun n => { n with freed := true })))
      match ← pcbWrites ctx 0 [stateByte pennant 0] with
      | none => change (fun s => if pcbParked s ctx then s else s.dropEnds ctx pennant)
      | some _ => pure ()
    else pure ()) s

/-! ## RANK (R229, R230) -/

/-- A NaN of f32. -/
def isNan32 (w : Word) : Bool := (v32 w).isNan

/-- The square of an f32, exact. -/
def square32 (d : Word) : Num := Num.mul (v32 d) (v32 d)

/-- The default score of differences. -/
def defaultScore (ds : List Word) : Word := dotAccumulate 0 (ds.map square32)

/-- An f16 of a block of bytes. -/
def f16At (bs : List Byte) (o : Nat) : Num := f16.value (natAt bs o 2)

/-- The network score of differences under the 1,220 bytes of a network. -/
def networkScore (net : List Byte) (ds : List Word) : Word :=
  let u : List Num := ds.map (fun d => f16.value (f16.round .rn (v32 d)))
  let h (j : Nat) : Word :=
    let v := dotAccumulate (wordAt net (1024 + 4 * j)) ((List.range 16).map (fun i => Num.mul (f16At net (32 * j + 2 * i)) (u.getD i (.fin false 0 0))))
    if isNan32 v then v else if v.getLsbD 31 then 0 else v
  let r := dotAccumulate (wordAt net 1216) ((List.range 32).map (fun j =>
    Num.mul (f16At net (1152 + 2 * j)) (f16.value (f16.round .rn (v32 (h j))))))
  r &&& 0x7fffffff

/-- Whether a score exceeds a tolerance (R230). -/
def exceedsTol (score tol : Word) : Bool := isNan32 score || flt32 tol score

/-- The best of scored pennants, in ascending number: the lowest numeric score, or the first if all are NaN. -/
def bestOf : List (Nat × Word) → Option (Nat × Word)
  | [] => none
  | e :: es => match bestOf es with
    | none => some e
    | some b => if isNan32 b.2 || (!isNan32 e.2 && !flt32 b.2 e.2) then some e else some b

/-- A RANK's or a WARP's entry enters its team's queue (R229, R231). -/
def Team.putStall (t : Team) (copyQueue : Bool) (i : Instr) : Team :=
  { t.enqueue copyQueue (EngCmd.fresh .stall .none .none t.spc) with wait := .queued i }

/-- Whether that entry stands at the head of its queue. -/
def Team.atStall (t : Team) (copyQueue : Bool) : Bool :=
  (if copyQueue then t.copyQ else t.tileQ).head?.any (fun c => decide (c.body = .stall))

/-- That entry leaves its queue with its instruction. -/
def Team.dropStall (t : Team) (copyQueue : Bool) : Team :=
  let keep (c : EngCmd) : Bool := decide (c.body ≠ .stall)
  if copyQueue then { t with copyQ := t.copyQ.filter keep } else { t with tileQ := t.tileQ.filter keep }

/-- RANK over the pennants `live` under tolerance `tol`, both as they were when it began. -/
def doRank (d : BitVec 5) (pcb : DWord) (tol : Word) (live : List Nat) : Act (Except (Nat × TFault) Unit) := do
  let s ← get
  let c := s.t.ctx
  let x := ctxOf s c
  match ← streamReads [(pcb, 64), (pcb + 0x230, 8)] with
  | .error e => pure (.error e)
  | .ok bs => do
    let actual := wordsOf (bs.getD 0 []) 16
    let net := dwordAt (bs.getD 1 []) 0
    match ← (if net = 0 then pure (.ok []) else streamRead net 1220) with
    | .error e => pure (.error e)
    | .ok weights => do
      let score (p : Nat) : Word :=
        let ds := (actual.zip (x.pen p).pred).map (fun e => fsub32 e.1 e.2)
        if net = 0 then defaultScore ds else networkScore weights ds
      let scored := live.map (fun p => (p, score p))
      change (fun s => s.updCtx c (fun x => scored.foldl (fun x e =>
        x.updPen e.1 (fun n => { n with score := some e.2, exceeds := exceedsTol e.2 tol })) { x with ranked := true }))
      let id ← pcbWrites c 0 (scored.map (fun e => (0x200 + 4 * e.1, leBytes 4 e.2.toNat)))
      match bestOf scored with
      | some b => change (fun s => s.upd (fun t =>
          ((t.finishX d (BitVec.ofNat 64 (16 * b.1 + (if exceedsTol b.2 tol then 128 else 0)))).dropStall false).holdFor id))
      | none => pure ()
      pure (.ok ())

/-- What RANK scores and by which tolerance: as taken when it began, less what has been squashed since (assumption log 70). -/
def rankTakes (t : Team) (x : Ctx) : Word × List Nat :=
  match t.wait with
  | .rank _ tol live => (tol, live.filter (fun p => decide ((x.pen p).st = .live)))
  | _ => (x.warptol, x.pensIn .live)

/-- A RANK whose entry stands in the tile queue goes on once that is the oldest there. -/
def rankRun (d : BitVec 5) (pcb : DWord) (s : State) : Out :=
  let (tol, live) := rankTakes s.t (ctxOf s s.t.ctx)
  if !s.t.atStall false then .next s
  else if live.isEmpty then .next (s.upd (fun t => (t.finishX d 2).dropStall false))
  else streamAct (.rank d) (.rank (.rank d) tol live) (doRank d pcb tol live) s

/-- RANK (R229): it runs as an entry of its team's tile queue. -/
def execRank (d : BitVec 5) (s : State) : Out :=
  let t := s.t
  let x := ctxOf s t.ctx
  if t.pennant ≠ 0 then status s d 1
  else match x.pcb with
    | none => status s d 4
    | some pcb =>
      if t.wait ≠ .none then rankRun d pcb s
      else if (x.pensIn .live).isEmpty then status s d 2
      else if !t.room false 1 then .next s
      else rankRun d pcb (s.upd (fun t => t.putStall false (.rank d)))

/-! ## WARP (R231, R406) -/

/-- A warp block read from its bytes. -/
def warpBlock (bs : List Byte) : WarpBlock :=
  { src := dwordAt bs 0, dst := dwordAt bs 8, w := natAt bs 0x10 4, h := natAt bs 0x14 4, sp := natAt bs 0x18 4, dp := natAt bs 0x1c 4,
    fx := wordAt bs 0x20, fy := wordAt bs 0x24, cx := wordAt bs 0x28, cy := wordAt bs 0x2c, q := natAt bs 0x30 4 }

/-- Whether sizes and pitches of a block are in their limits. -/
def WarpBlock.sizesOk (b : WarpBlock) : Bool :=
  decide (1 ≤ b.w ∧ b.w ≤ 8192 ∧ 1 ≤ b.h ∧ b.h ≤ 8192 ∧ b.sp % 4 = 0 ∧ b.dp % 4 = 0 ∧ 4 * b.w ≤ b.sp ∧ 4 * b.w ≤ b.dp)

/-- The matrix M, row by row, of the rotation from `pred` to `actual` (words 3 to 6 of each). -/
def warpMatrix (pred actual : List Word) : List Word :=
  let px := fneg32 (pred.getD 3 0); let py := fneg32 (pred.getD 4 0); let pz := fneg32 (pred.getD 5 0); let pw := pred.getD 6 0
  let qx := actual.getD 3 0; let qy := actual.getD 4 0; let qz := actual.getD 5 0; let qw := actual.getD 6 0
  let m := fmul32; let a := fadd32; let u := fsub32
  let rw := u (u (u (m pw qw) (m px qx)) (m py qy)) (m pz qz)
  let rx := u (a (a (m pw qx) (m px qw)) (m py qz)) (m pz qy)
  let ry := a (a (u (m pw qy) (m px qz)) (m py qw)) (m pz qx)
  let rz := a (u (a (m pw qz) (m px qy)) (m py qx)) (m pz qw)
  let two : Word := 0x40000000
  let one : Word := 0x3f800000
  let diag (s t : Word) : Word := u one (m two (a (m s s) (m t t)))
  [diag ry rz, m two (u (m rx ry) (m rz rw)), m two (a (m rx rz) (m ry rw)),
   m two (a (m rx ry) (m rz rw)), diag rx rz, m two (u (m ry rz) (m rx rw)),
   m two (u (m rx rz) (m ry rw)), m two (a (m ry rz) (m rx rw)), diag rx ry]

/-- The integer below an f32 value; 0 for one that is not finite. -/
def floorOf (x : Word) : Int :=
  match v32 x with
  | .fin neg m e => floorInt neg m e
  | _ => 0

/-- RndEven of a finite f32 value. -/
def rndEven32 (x : Word) : Int :=
  match v32 x with
  | .fin neg m e => roundInt .rn neg m e
  | _ => 0

/-- What a destination pixel is made from: the corner of its four source pixels and where it lies between them; none: zeros. -/
def warpCorner (b : WarpBlock) (mat : List Word) (y x : Nat) : Option (Int × Int × Word × Word) :=
  let m (k : Nat) : Word := mat.getD k 0
  let half : Word := 0x3f000000
  let ax := fdiv32 (fsub32 (fadd32 (ofInt32 x) half) b.cx) b.fx
  let ay := fdiv32 (fsub32 (fadd32 (ofInt32 y) half) b.cy) b.fy
  let row (k : Nat) : Word := fadd32 (fadd32 (fmul32 (m k) ax) (fmul32 (m (k + 1)) ay)) (m (k + 2))
  let bz := row 6
  let u := fsub32 (fadd32 (fdiv32 (fmul32 b.fx (row 0)) bz) b.cx) half
  let v := fsub32 (fadd32 (fdiv32 (fmul32 b.fy (row 3)) bz) b.cy) half
  if !flt32 0 bz || !(v32 u).isFin || !(v32 v).isFin then none
  else
    let i := floorOf u
    let j := floorOf v
    some (i, j, fsub32 u (ofInt32 i), fsub32 v (ofInt32 j))

/-- The column or row of a source pixel, clamped to the edge. -/
def clampTo (n : Nat) (i : Int) : Nat := (clampInt 0 ((n : Int) - 1) i).toNat

/-- The column and row of the source pixels that destination pixel (x, y) reads. -/
def warpReads (b : WarpBlock) (mat : List Word) (y x : Nat) : List (Nat × Nat) :=
  match warpCorner b mat y x with
  | none => []
  | some (i, j, _, _) => [(i, j), (i + 1, j), (i, j + 1), (i + 1, j + 1)].map (fun c => (clampTo b.w c.1, clampTo b.h c.2))

/-- The four bytes of destination pixel (x, y), from the bytes of the source pixel in a column and row. -/
def warpPixel (b : WarpBlock) (mat : List Word) (src : Nat → Nat → List Byte) (y x : Nat) : List Byte :=
  match warpCorner b mat y x with
  | none => [0, 0, 0, 0]
  | some (i, j, fu, fv) =>
    let one : Word := 0x3f800000
    let mix (f p q : Word) : Word := fadd32 (fmul32 p (fsub32 one f)) (fmul32 q f)
    (List.range 4).map (fun ch =>
      let s (i j : Int) : Word := ofInt32 (((src (clampTo b.w i) (clampTo b.h j)).getD ch 0).toNat : Nat)
      let top := mix fu (s i j) (s (i + 1) j)
      let bot := mix fu (s i (j + 1)) (s (i + 1) (j + 1))
      BitVec.ofInt 8 (clampInt 0 255 (rndEven32 (mix fv top bot))))

/-- The address of a source pixel, and of a destination pixel. -/
def WarpBlock.srcAt (b : WarpBlock) (x y : Nat) : DWord := b.src + BitVec.ofNat 64 (y * b.sp + 4 * x)
def WarpBlock.dstAt (b : WarpBlock) (x y : Nat) : DWord := b.dst + BitVec.ofNat 64 (y * b.dp + 4 * x)

/-- Each source pixel of a list read, with its bytes. -/
def warpTexels (b : WarpBlock) : List (Nat × Nat) → Act (Except (Nat × TFault) (List ((Nat × Nat) × List Byte)))
  | [] => pure (.ok [])
  | p :: ps => do
    let s ← get
    match ← vread s.t.tag .load none 3 (b.srcAt p.1 p.2) 4 with
    | .error f => pure (.error (4, f))
    | .ok bs => do
      match ← warpTexels b ps with
      | .error e => pure (.error e)
      | .ok rest => pure (.ok ((p, bs) :: rest))

/-- Where the rows of a surface lie: the runs a translation of each now gives; none where it faults. -/
def surfacePlaces (s : State) (k : AKind) (base : DWord) (pitch w h : Nat) : List (Nat × Nat) :=
  (List.range h).flatMap (fun y => placesOf s s.t.tag k false (base + BitVec.ofNat 64 (y * pitch)) (4 * w))

/-- Where the source surface's bytes lie. -/
def WarpBlock.places (b : WarpBlock) (s : State) : List (Nat × Nat) := surfacePlaces s .load b.src b.sp b.w b.h

/-- Whether the two surfaces overlap (R406). -/
def WarpBlock.overlap (b : WarpBlock) (s : State) : Bool :=
  let from_ := b.places s
  (surfacePlaces s .store b.dst b.dp b.w b.h).any (fun q => from_.any (fun r => overlaps q.1 q.2 r.1 r.2))

/-- Source rows from `y` on, `n` of them. -/
def warpRows (b : WarpBlock) (y : Nat) : Nat → Act (Except (Nat × TFault) (List (List Byte)))
  | 0 => pure (.ok [])
  | n + 1 => do
    let s ← get
    match ← vread s.t.tag .load none 3 (b.srcAt 0 y) (4 * b.w) with
    | .error f => pure (.error (4, f))
    | .ok bs => do
      hotPass s.t.tag 4 (lineAddrs (b.srcAt 0 y) (4 * b.w))
      match ← warpRows b (y + 1) n with
      | .error e => pure (.error e)
      | .ok rest => pure (.ok (bs :: rest))

/-- Pixels `x0` to `x1` − 1 of destination row `y` are written, their source pixels read first, or taken from the source as it was at the
start, where an overlapping byte holds a free value (R406, assumption log 3). -/
def warpRow (r : WarpRun) (y x0 x1 : Nat) : Act (Except (Nat × TFault) Unit) := do
  let s ← get
  let b := r.blk
  let xs := (List.range (x1 - x0)).map (· + x0)
  let got ← (if r.snap.isEmpty then warpTexels b ((xs.flatMap (warpReads b r.mat y)).eraseDups) else pure (.ok []))
  match got with
  | .error e => pure (.error e)
  | .ok ts =>
    let src (x y : Nat) : List Byte :=
      if r.snap.isEmpty then ((ts.find? (fun e => e.1 == (x, y))).map (·.2)).getD []
      else ((r.snap.getD y []).drop (4 * x)).take 4
    let bs := xs.flatMap (warpPixel b r.mat src y)
    let bs := if r.snap.isEmpty then bs
      else freeOverlap (65536 * s.free) (b.places s) (placesOf s s.t.tag .store false (b.dstAt x0 y) bs.length) bs
    match ← vwrite s.t.tag .store 3 (b.dstAt x0 y) bs with
    | .error f => pure (.error (5, f))
    | .ok _ => do
      hotPass s.t.tag 4 (ts.flatMap (fun e => lineAddrs (b.srcAt e.1.1 e.1.2) 4))
      hotPass s.t.tag 4 (lineAddrs (b.dstAt x0 y) bs.length)
      pure (.ok ())

/-- A flip of the source surface shows the destination. -/
def WarpBlock.retarget (b : WarpBlock) (f : Flip) : Flip := if f.surface = b.src then { f with surface := b.dst } else f

/-- The rows, or parts of rows, from pixel `r.pos` to pixel `stop` − 1, at most `n` of them; what is written stays written when one faults. -/
def warpPixels (i : Instr) (d : BitVec 5) (stop : Nat) : Nat → WarpRun → State → Out
  | 0, _, s => .next s
  | n + 1, r, s =>
    let s := s.upd (fun t => { t with wait := .warp i r })
    if r.blk.w * r.blk.h ≤ r.pos then .next ((s.releaseHeld s.t.ctx r.blk.retarget).upd (fun t => (t.finishX d 0).dropStall true))
    else if stop ≤ r.pos then .next s
    else
      let y := r.pos / r.blk.w
      let next := min stop ((y + 1) * r.blk.w)
      match warpRow r y (r.pos % r.blk.w) (next - y * r.blk.w) s with
      | .ok (.ok _, s') => warpPixels i d stop n { r with pos := next } s'
      | .ok (.error (access, f), _) => .next (s.parkStream i access f.va f)
      | .error e => stopOut e

/-- A WARP that has begun goes on: pre-emption and other steps may come between any two pixels, so how many it writes before they do is a
free choice (R231, R300, assumption log 1). -/
def warpRun (i : Instr) (d : BitVec 5) (r : WarpRun) (s : State) : Out :=
  let left := r.blk.w * r.blk.h - r.pos
  warpPixels i d (r.pos + 1 + Config.choice s.free % left) (r.blk.h + 1) r s

/-- A WARP whose entry is the oldest of the copy queue runs: where its surfaces overlap, the source is read first as it is then. -/
def warpGo (i : Instr) (d : BitVec 5) (r : WarpRun) (s : State) : Out :=
  if !s.t.atStall true then .next s
  else if r.begun then warpRun i d r s
  else match (if r.blk.overlap s then warpRows r.blk 0 r.blk.h else pure (.ok [])) s with
    | .ok (.ok snap, s') => warpRun i d { r with begun := true, snap := snap } s'
    | .ok (.error (access, f), _) => .next (s.parkStream i access f.va f)
    | .error e => stopOut e

/-- A WARP has its block's bytes: its checks, then the actual record is read; a status leaves nothing of it but `before`. -/
def beginWarp (i : Instr) (d : BitVec 5) (pcb : DWord) (bs : List Byte) (before s : State) : Out :=
  let x := ctxOf s s.t.ctx
  let b := warpBlock bs
  let q := if b.q = 0 then x.committed else b.q
  let ends (n : DWord) : Out := .next (before.upd (fun t => (t.finishX d n).dropStall true))
  if !b.sizesOk ∨ 7 < b.q ∨ q = 0 then ends 3
  else if !bit x.forkMask q then ends 2
  else match streamRead pcb 64 s with
    | .ok (.ok act, s') =>
      let r : WarpRun := { blk := b, mat := warpMatrix (x.pen q).pred (wordsOf act 16), pos := 0, begun := false, snap := [] }
      warpGo i d r (s'.upd (fun t => { t with wait := .warp i r }))
    | .ok (.error (access, f), _) => .next ((s.parkStream i access f.va f).upd (fun t => { t with wait := .warpBlock i bs }))
    | .error e => stopOut e

/-- A WARP that has released reads its block. -/
def warpRead (i : Instr) (d a : BitVec 5) (pcb : DWord) (before s : State) : Out :=
  match streamRead (s.t.xr a) 52 s with
  | .ok (.ok bs, s') => beginWarp i d pcb bs before s'
  | .ok (.error (access, f), _) => .next (s.parkStream i access f.va f)
  | .error e => stopOut e

/-- WARP (R231, R406): it runs as an entry of its team's copy queue. Past its first three checks it releases and reads its block. -/
def execWarp (d a : BitVec 5) (s : State) : Out :=
  let t := s.t
  let i : Instr := .warp d a
  match t.wait, (ctxOf s t.ctx).pcb with
  | .warp _ r, _ => warpGo i d r s
  | .warpBlock _ bs, some pcb => beginWarp i d pcb bs s s
  | .queued _, some pcb => warpRead i d a pcb s s
  | _, pcb =>
    if t.pennant ≠ 0 then status s d 1
    else if (t.xr a).toNat % 128 ≠ 0 then status s d 3
    else match pcb with
      | none => status s d 2
      | some pcb =>
        if !t.room true 1 then .next s
        else warpRead i d a pcb s ((s.release 4).upd (fun t => t.putStall true i))

end Sys2Proof.Machine
end

