-- ==== Sys2Proof/Machine/Coverage.lean ====
section
/-! DEFINITION. Coverage launches: the lattice, the dispenser, the controller, Fondant, the gaze latch (chapter 11, R261, R394). -/

namespace Sys2Proof.Machine

/-! ## Lattices (R237) -/

/-- The number whose bits are listed, the highest first. -/
def ofBits (l : List Bool) : Nat := l.foldl (fun n b => 2 * n + (if b then 1 else 0)) 0

/-- Bits 0 to `n` − 1 of `a` and of `b` in turn. -/
def interleave (a b n : Nat) : List Bool := (List.range n).flatMap (fun i => [bit a i, bit b i])

/-- Rank(u, v) of a pattern (Table 11.3). -/
def rank (pattern u v : Nat) : Nat :=
  match pattern with
  | 0 => 16 * v + u
  | 1 => ofBits (interleave (Nat.xor u v) v 4)
  | 2 => ofBits ((List.range 4).map (bit v) ++ (List.range 4).map (bit u))
  | 3 => ofBits ((List.range 4).map (bit u) ++ (List.range 4).map (bit v))
  | 4 => ofBits ([bit u 0, bit v 0] ++ interleave (Nat.xor (u / 2) (v / 2)) (v / 2) 3)
  | _ => (167 * (16 * v + u) + 91) % 256

/-- Phases φx and φy of a frame phase index. -/
def phaseX (h : Nat) : Nat := 5 * h % 16
def phaseY (h : Nat) : Nat := 3 * (h / 2) % 16

/-- The rank of point (x, y) of a launch's field. -/
def Launch.rankAt (l : Launch) (x y : Nat) : Nat := rank l.pattern ((x + phaseX l.phase) % 16) ((y + phaseY l.phase) % 16)

/-- Cells in a row of the field, and in a column. -/
def CovBlock.cellsX (b : CovBlock) : Nat := ceilDiv b.w 16
def CovBlock.cellsY (b : CovBlock) : Nat := ceilDiv b.h 16

/-- How many indexes a launch hands out (R261). -/
def Launch.total (l : Launch) : Nat :=
  match l.cov with
  | some b => b.cellsX * b.cellsY
  | none => l.ext.1 * l.ext.2.1 * l.ext.2.2

/-- Index `i` as the dispenser returns it. -/
def Launch.coords (l : Launch) (i : Nat) : DWord :=
  let nx := match l.cov with
    | some b => b.cellsX
    | none => l.ext.1
  let ny := match l.cov with
    | some b => b.cellsY
    | none => l.ext.2.1
  BitVec.ofNat 64 (i / (nx * ny) * 2 ^ 40 + i / nx % ny * 2 ^ 20 + i % nx)

/-! ## The dispenser (R238) -/

/-- RndEven(FACC). -/
def Launch.fraction (l : Launch) : Nat := (rndEven32 l.facc).toNat

/-- M for the region of cell (cx, cy) (R238, R247). -/
def Launch.regionByte (l : Launch) (b : CovBlock) (cx cy : Nat) : Nat :=
  let px := min (16 * cx + 8) (b.w - 1)
  let py := min (16 * cy + 8) (b.h - 1)
  let m := (l.mapBytes.getD (8 * (8 * py / b.h) + 8 * px / b.w) 0).toNat
  if l.mapBytes.isEmpty || m == 0 then 256 else m

/-- CellCover of R238 for cell `i`. -/
def Launch.cellCover (l : Launch) (b : CovBlock) (gcap i : Nat) : Nat × Nat :=
  let m := l.regionByte b (i % b.cellsX) (i / b.cellsX)
  let c := max (min (ceilDiv (l.fraction * m) 256) gcap) 1
  (c, if !b.aud || c == 256 then 0 else (255 - c) / 64 + 1)

/-- Whether an update of R246 changes anything: N is not 0, and AUD enables the controller (Table 11.1). -/
def Launch.updating (l : Launch) (b : CovBlock) : Bool := b.aud && decide (l.errN ≠ 0)

/-- The controller update of R246; N is rounded before the division, the model's choice (assumption log 91). -/
def Launch.control (l : Launch) (b : CovBlock) (gcap : Nat) : Launch :=
  if !l.updating b then l
  else
    let ebar := fdiv32 l.errS (ofInt32 l.errN.toNat)
    let e := fsub32 ebar b.tgt
    let step0 := fmul32 b.kp (fsub32 e l.eprev)
    let step := if gcap < l.fraction ∧ flt32 0 e then step0 else fadd32 step0 (fmul32 b.ki e)
    let f := fadd32 l.facc step
    let facc := if isNan32 step then l.facc else if flt32 f b.fmin then b.fmin else if flt32 b.fmax f then b.fmax else f
    { l with facc := facc, eprev := e, errS := 0, errN := 0, updates := l.updates + 1 }

/-- The writes of a coverage block's state fields (R234). -/
def Launch.stateFields (l : Launch) : List (DWord × List Byte) :=
  [(l.cblk + 0x40, leBytes 4 l.facc.toNat), (l.cblk + 0x44, leBytes 4 l.eprev.toNat), (l.cblk + 0x48, leBytes 4 l.errS.toNat),
   (l.cblk + 0x4c, leBytes 4 l.errN.toNat), (l.cblk + 0x50, leBytes 4 l.updates.toNat), (l.cblk + 0x54, leBytes 4 l.unrec.toNat)]

/-- A map latched at mesh clock `clk` from core `core` joins those that wait (R248): of two of one clock the higher core's arrives later and
wins; of those of earlier clocks the latest alone may still be applied. -/
def addLatch (ls : List (Nat × Nat × List Byte)) (clk core : Nat) (m : List Byte) : List (Nat × Nat × List Byte) :=
  (ls.filter (fun e => e.1 != clk)).getLast?.toList ++
    (match ls.find? (fun e => e.1 == clk && decide (core < e.2.1)) with
      | some e => [e]
      | none => [(clk, core, m)])

/-- A wave start in mesh clock `clk`: the controller update, then the latched map (R248); one that came in the same clock waits for the next. -/
def Launch.waveStart (l : Launch) (b : CovBlock) (gcap clk : Nat) : Launch :=
  let l := l.control b gcap
  match (l.latched.filter (fun e => e.1 != clk)).getLast? with
  | some e => { l with mapBytes := e.2.2, latched := l.latched.filter (fun e => e.1 == clk) }
  | none => l

/-- Launch `id`. -/
def launchOf (s : State) (id : Nat) : Option Launch := s.launches.find? (fun l => l.id == id)

/-- sr.cover as placement sets it (R236). -/
def Launch.coverReg (l : Launch) : DWord :=
  BitVec.ofNat 64 ((if l.pattern = 0 then 0 else l.fraction % 256 * 2 ^ 24) + l.pattern % 16 * 2 ^ 20 + phaseX l.phase * 2 ^ 16 +
    phaseY l.phase * 2 ^ 12 + (if l.pattern = 0 then 0 else 256))

/-- sr.cover with TCOV and NAUD of a cell (R236). -/
def coverCell (v : DWord) (c a : Nat) : DWord :=
  (v &&& ~~~ (0xff000e00 : DWord)) ||| BitVec.ofNat 64 (c % 256 * 2 ^ 24 + a % 8 * 2 ^ 9)

/-- The cell a team holds becomes finished (R240). -/
def State.finishCell (s : State) : State :=
  match s.t.cell with
  | some c => (s.updLaunch s.t.launch (fun l => { l with finished := c :: l.finished })).upd (fun t => { t with cell := none })
  | none => s

/-- The dispenser hands cell `i` of a coverage launch to the issuing team; that cell 0 is no wave start is the model's reading (assumption log 91). -/
def handCell (d : BitVec 5) (l : Launch) (b : CovBlock) : Act Unit := do
  let s ← get
  let i := l.next
  let gcap := s.gov.gcap
  let wave := decide (i % 256 = 0 ∧ 0 < i)
  let l1 := if wave then l.waveStart b gcap (meshClock s) else l
  let ca := l1.cellCover b gcap i
  let l2 := { l1 with next := i + 1, covers := sset (0, 0) l1.covers i ca }
  change (fun s => s.updLaunch l.id (fun _ => l2))
  let id ← (if wave && l.updating b then fixedWrites s.t.ctx 0 0 none l1.stateFields else pure none)
  change (fun s => s.upd (fun t =>
    ({ t.resultX d (l.coords i) with cover := coverCell t.cover ca.1 ca.2, cell := some i }).holdFor id))

/-- TFETCH (R240, R261, R394). -/
def execTfetch (d : BitVec 5) (s : State) : Out :=
  match launchOf s s.t.launch with
  | none => .next (s.upd (fun t => t.resultX d (BitVec.allOnes 64)))
  | some l =>
    match l.cov with
    | none =>
      if l.total ≤ l.next then .next (s.upd (fun t => t.resultX d (BitVec.allOnes 64)))
      else .next ((s.updLaunch l.id (fun l => { l with next := l.next + 1 })).upd (fun t => t.resultX d (l.coords l.next)))
    | some b =>
      if s.t.inh then .next (s.trapScalar 0x01)
      else if !s.t.lanesDone then .next s
      else
        let s := (s.release 4).finishCell
        if l.total ≤ l.next then .next (s.upd (fun t => t.resultX d (BitVec.allOnes 64)))
        else match launchOf s l.id with
          | some l => runAct (handCell d l b) s
          | none => .next s

/-- AUDIT (R249, Table 11.5). -/
def auditItem (s : State) (l : Launch) (n : Nat) : DWord :=
  let cov := l.cov.isSome
  match n with
  | 0 => if cov then BitVec.ofNat 64 l.fraction else 256
  | 1 => if cov then l.facc.zeroExtend 64 else 0
  | 2 => if cov then l.errS.zeroExtend 64 else 0
  | 3 => if cov then l.errN.zeroExtend 64 else 0
  | 4 => if cov then l.updates.zeroExtend 64 else 0
  | 5 => BitVec.ofNat 64 s.gov.gcap
  | _ => BitVec.allOnes 64

/-- AUDIT (R249). -/
def execAudit (d a : BitVec 5) (s : State) : Out :=
  let n := (s.t.xr a).toNat
  .next (s.upd (fun t => t.resultX d (auditItem s ((launchOf s t.launch).getD (Launch.spent 0 0 0 0)) n)))

/-! ## The gaze latch (R248) -/

/-- A map's 64 bytes are handed, from core `core`, to every running launch of context `c` that uses the block. -/
def State.latchMap (s : State) (c core : Nat) (cblk : DWord) (m : List Byte) : State :=
  { s with launches := s.launches.map (fun l =>
    if l.ctx = c ∧ l.cblk = cblk ∧ l.cov.isSome ∧ l.st = LaunchSt.running then { l with latched := addLatch l.latched (meshClock s) core m }
    else l) }

/-- LATCH past its checks. -/
def doLatch (d : BitVec 5) (cblk : DWord) : Act (Except (Nat × TFault) Unit) := do
  change (fun s => s.release 4)
  match ← streamRead (cblk + 0x30) 8 with
  | .error e => pure (.error e)
  | .ok bs => do
    let map := dwordAt bs 0
    match ← (if map = 0 then pure (.ok []) else streamRead map 64) with
    | .error e => pure (.error e)
    | .ok m => do
      change (fun s => (s.latchMap s.t.ctx s.t.core cblk m).upd (fun t => t.resultX d 0))
      pure (.ok ())

/-- LATCH (R248). -/
def execLatch (d a : BitVec 5) (s : State) : Out :=
  if s.t.pennant ≠ 0 then status s d 1
  else if (s.t.xr a).toNat % 128 ≠ 0 then status s d 3
  else streamAct (.latch d a) .none (doLatch d (s.t.xr a)) s

/-! ## Fondant (R241 to R244) -/

/-- Bytes of an element (Table 11.4). -/
def elemSize (elem : Nat) : Nat := if elem = 1 then 8 else if elem = 4 then 2 else 4

/-- Whether a kernel is legal for an element. -/
def kernLegal (elem kern : Nat) : Bool :=
  match elem with
  | 0 => decide (kern ≤ 2)
  | 1 => decide (kern ≤ 2)
  | 2 => decide (kern ≤ 1)
  | 3 => decide (kern = 0)
  | 4 => decide (kern ≤ 2)
  | _ => false

/-- Whether (x, y) is a source: in the field, of rank below its cell's coverage. -/
def Launch.isSource (l : Launch) (b : CovBlock) (x y : Int) : Bool :=
  if x < 0 ∨ y < 0 ∨ (b.w : Int) ≤ x ∨ (b.h : Int) ≤ y then false
  else
    let i := y.toNat / 16 * b.cellsX + x.toNat / 16
    decide (l.rankAt x.toNat y.toNat < (sget (0, 0) l.covers i).1)

/-- The offsets of a square window of radius `r`, in row-major order. -/
def window (r : Nat) : List (Int × Int) :=
  (List.range (2 * r + 1)).flatMap (fun a => (List.range (2 * r + 1)).map (fun b => ((b : Int) - (r : Int), (a : Int) - (r : Int))))

/-- The nearest source of a ring: least squared distance, the first in row-major order among equals. -/
def nearestIn : List (Int × Int) → Option (Int × Int)
  | [] => none
  | o :: os => match nearestIn os with
    | none => some o
    | some p => if p.1 * p.1 + p.2 * p.2 < o.1 * o.1 + o.2 * o.2 then some p else some o

/-- The source KERN 0 takes, over rings `d` to 15 (R242). -/
def Launch.nearest (l : Launch) (b : CovBlock) (x y : Nat) : Nat → Option (Int × Int)
  | 0 => none
  | k + 1 =>
    let d := 15 - k
    let ring := (window d).filter (fun o =>
      decide (max o.1.natAbs o.2.natAbs = d) && l.isSource b ((x : Int) + o.1) ((y : Int) + o.2))
    match nearestIn ring with
    | some o => some o
    | none => Launch.nearest l b x y k

/-- The sources of point (x, y) with their weights: a kernel's window, or the nearest alone with weight 0. -/
def Launch.sources (l : Launch) (b : CovBlock) (x y : Nat) : List ((Int × Int) × Nat) :=
  let r := b.kern
  let inWin := if r = 0 then [] else (window r).filter (fun o => l.isSource b ((x : Int) + o.1) ((y : Int) + o.2))
  if inWin.isEmpty then (match l.nearest b x y 15 with
    | some o => [(o, 0)]
    | none => [])
  else inWin.map (fun o => (o, (r + 1 - o.1.natAbs) * (r + 1 - o.2.natAbs)))

/-- The address of a point (R242). -/
def CovBlock.pointAt (b : CovBlock) (x y : Nat) : DWord := b.base + BitVec.ofNat 64 (y * b.pitch + x * elemSize b.elem)

/-- The channels of an element as raw codes. -/
def channels (elem : Nat) (bs : List Byte) : List Nat :=
  match elem with
  | 1 => (List.range 4).map (fun k => natAt bs (2 * k) 2)
  | 2 => (List.range 4).map (fun k => natAt bs k 1)
  | 4 => [natAt bs 0 2]
  | _ => [natAt bs 0 4]

/-- The value of a channel's code. -/
def channelValue (elem code : Nat) : Num :=
  match elem with
  | 0 => f32.value code
  | 1 => f16.value code
  | 4 => f16.value code
  | _ => numOfInt (code : Int) 0 false

/-- The code Table 11.4 writes for an f32 value. -/
def channelCode (elem : Nat) (v : Word) : Nat :=
  match elem with
  | 0 => v.toNat
  | 2 => (clampInt 0 255 (rndEven32 v)).toNat
  | 3 => v.toNat
  | _ => f16.round .rn (v32 v)

/-- One reconstructed channel from its sources' codes and weights (R242); a NaN is written as the canonical one (R118, assumption log 64). -/
def mixChannel (elem : Nat) (qs : List (Nat × Nat)) : Nat :=
  match qs with
  | [(code, 0)] =>
    if elem = 1 ∨ elem = 4 then f16.round .rn (f16.value code)
    else if elem = 0 then f32.round .rn (f32.value code)
    else code
  | _ =>
    let num := dotAccumulate 0 (qs.map (fun q => Num.mul (numOfInt (q.2 : Int) 0 false) (channelValue elem q.1)))
    let den := ofInt32 ((qs.foldl (fun n q => n + q.2) 0 : Nat) : Int)
    channelCode elem (fdiv32 num den)

/-- Bytes a channel takes. -/
def channelSize (elem : Nat) : Nat := if elem = 2 then 1 else if elem = 1 ∨ elem = 4 then 2 else 4

/-- The number of channels. -/
def channelCount (elem : Nat) : Nat := if elem = 1 ∨ elem = 2 then 4 else 1

/-- The bytes of an element from its sources' bytes and weights. -/
def mixElement (elem : Nat) (qs : List (List Byte × Nat)) : List Byte :=
  (List.range (channelCount elem)).flatMap (fun k =>
    leBytes (channelSize elem) (mixChannel elem (qs.map (fun q => ((channels elem q.1).getD k 0, q.2)))))

/-- The error of a channel between the computed code and the reconstructed one (R244). -/
def channelError (elem c r : Nat) : Word :=
  let d := match elem with
    | 0 => fsub32 (BitVec.ofNat 32 c) (BitVec.ofNat 32 r)
    | 1 => rn32 (Num.add .rn (f16.value c) (f16.value r).neg)
    | 4 => rn32 (Num.add .rn (f16.value c) (f16.value r).neg)
    | 2 =>
      let u (v : Nat) : Word := fdiv32 (ofInt32 (v : Int)) (ofInt32 255)
      fsub32 (u c) (u r)
    | _ => rn32 (numOfInt ((c : Int) - (r : Int)) 0 false)
  d &&& 0x7fffffff

/-- The error of a point: the largest channel error, ECAP if one is NaN, capped (R244). -/
def pointError (b : CovBlock) (c r : List Byte) : Word :=
  let es := ((channels b.elem c).zip (channels b.elem r)).map (fun e => channelError b.elem e.1 e.2)
  if es.any isNan32 then b.ecap
  else
    let m := es.foldl (fun m e => if flt32 m e then e else m) 0
    if flt32 b.ecap m then b.ecap else m

/-- How a Fondant access ended: data, dropped, or parked at an address. -/
inductive FondantRead where
  | data (bs : List Byte)
  | dropped
  | parked (va : DWord) (f : TFault)
  deriving DecidableEq, Repr

/-- What a failed Fondant access comes to: it parks, or is dropped under a record of its stopping cause (R424). -/
def fondantFault (l : Launch) (va : DWord) (f : TFault) : Act FondantRead := do
  if f.replayable then pure (.parked va f)
  else do
    change (fun s => s.dropFixed l.ctx l.pennant 0 f)
    pure .dropped

/-- A Fondant read of one element. -/
def fondantRead (l : Launch) (b : CovBlock) (va : DWord) : Act FondantRead := do
  match ← fixedRead l.ctx l.pennant va (elemSize b.elem) with
  | .ok bs => pure (.data bs)
  | .error f => fondantFault l va f

/-- A Fondant write of one element. -/
def fondantWrite (l : Launch) (va : DWord) (bs : List Byte) : Act FondantRead := do
  match ← vwrite (fixedAcc l.ctx l.pennant) .fixWrite 3 va bs with
  | .ok _ => pure (.data [])
  | .error f => fondantFault l va f

/-- The bytes of a point's sources with their weights. -/
def fondantSources (l : Launch) (b : CovBlock) (x y : Nat) :
    List ((Int × Int) × Nat) → Act (Except FondantRead (List (List Byte × Nat)))
  | [] => pure (.ok [])
  | (o, w) :: os => do
    match ← fondantRead l b (b.pointAt ((x : Int) + o.1).toNat ((y : Int) + o.2).toNat) with
    | .data bs => do
      match ← fondantSources l b x y os with
      | .ok rest => pure (.ok ((bs, w) :: rest))
      | .error e => pure (.error e)
    | r => pure (.error r)

/-- Fondant's work on one point: nothing, a reconstruction or an audit; none: done. -/
def fondantPoint (l : Launch) (b : CovBlock) (c a x y : Nat) : Act (Option FondantRead) := do
  let r := l.rankAt x y
  let audit := decide (c ≤ r ∧ (r - c) % 64 = 0 ∧ (r - c) / 64 < a)
  if r < c then pure none
  else do
    let srcs := l.sources b x y
    match ← fondantSources l b x y srcs with
    | .error e => pure (some e)
    | .ok qs =>
      let va := b.pointAt x y
      if audit then
        if qs.isEmpty then pure none
        else do
          match ← fondantRead l b va with
          | .data bs => do
            let e := pointError b bs (mixElement b.elem qs)
            change (fun s => s.updLaunch l.id (fun l => { l with errS := fadd32 l.errS e, errN := l.errN + 1 }))
            pure none
          | r => pure (some r)
      else do
        match ← fondantWrite l va (if qs.isEmpty then List.replicate (elemSize b.elem) 0 else mixElement b.elem qs) with
        | .data _ => do
          if qs.isEmpty then change (fun s => s.updLaunch l.id (fun l => { l with unrec := l.unrec + 1 })) else pure ()
          pure none
        | r => pure (some r)

/-- Fondant's work on the points of a cell in order; a dropped access leaves its point and marks the launch, a parked one ends it. A point
whose access the driver refused is left as it stands (R424). -/
def fondantPoints (l : Launch) (b : CovBlock) (c a : Nat) : List (Nat × Nat) → Act (Option ((Nat × Nat) × DWord × TFault))
  | [] => pure none
  | (x, y) :: ps => do
    match ← (if l.lost.contains (x, y) then pure none else fondantPoint l b c a x y) with
    | some (.parked va f) => pure (some ((x, y), va, f))
    | some _ => do
      change (fun s => s.updLaunch l.id (fun l => { l with status := if l.status = 0 then 9 else l.status }))
      fondantPoints l b c a ps
    | none => fondantPoints l b c a ps

/-- The in-field points of cell `i`. -/
def CovBlock.points (b : CovBlock) (i : Nat) : List (Nat × Nat) :=
  (List.range 256).map (fun k => (16 * (i % b.cellsX) + k % 16, 16 * (i / b.cellsX) + k / 16))
    |>.filter (fun p => decide (p.1 < b.w ∧ p.2 < b.h))

/-- The cells of the field around cell `i`, itself included. -/
def CovBlock.around (b : CovBlock) (i : Nat) : List Nat :=
  (List.range (b.cellsX * b.cellsY)).filter (fun j =>
    decide (((j % b.cellsX : Nat) : Int) - ((i % b.cellsX : Nat) : Int) ≤ 1 ∧ ((i % b.cellsX : Nat) : Int) - ((j % b.cellsX : Nat) : Int) ≤ 1
      ∧ ((j / b.cellsX : Nat) : Int) - ((i / b.cellsX : Nat) : Int) ≤ 1 ∧ ((i / b.cellsX : Nat) : Int) - ((j / b.cellsX : Nat) : Int) ≤ 1))

/-- Whether a team of launch `id` exists, resident or saved. -/
def launchAlive (s : State) (id : Nat) : Bool :=
  ((s.t :: s.others) ++ s.shadows.flatMap (fun h => h.teams)).any (fun t => t.launch == id && decide (t.life ≠ .retired))

/-- Whether context `c` is switched out: a team of it is saved (R243; CTXCTL of R286 says the same). -/
def switchedOut (s : State) (c : Nat) : Bool :=
  s.shadows.any (fun h => h.teams.any (fun t => t.ctx == c && decide (t.life ≠ .retired)))

/-- Whether Fondant may take cell `i` of a launch now (R241, R226, R243). -/
def fondantReady (s : State) (l : Launch) (b : CovBlock) (i : Nat) : Bool :=
  decide (l.st = .running) && !l.cut && !switchedOut s l.ctx && decide (i < b.cellsX * b.cellsY) && !l.done.contains i &&
    (!launchAlive s l.id || (b.around i).all (fun j => l.finished.contains j))

/-- FONDANT_RECONSTRUCT_CELL (R241 to R244): the points are taken, and so the audits finished, in a free order (R244, R131); a faulted cell is done again whole once its access is replayed. -/
def execFondantReconstructCell (launch cell : Nat) (s : State) : Out :=
  match launchOf s launch with
  | none => .next s
  | some l =>
    match l.cov with
    | none => .next s
    | some b =>
      if !fondantReady s l b cell || parkedAgain s (.fondantReconstructCell launch cell) then .next s
      else
        let ca := sget (0, 0) l.covers cell
        match fondantPoints l b ca.1 ca.2 (laneOrder s (b.points cell)) s with
        | .ok (none, s') => .next (s'.updLaunch launch (fun l => { l with done := cell :: l.done }))
        | .ok (some (p, va, f), _) => .next ((s.updLaunch launch (fun l => { l with stuck := sset (0, 0) l.stuck cell p })).parkFixed
            l.ctx l.pennant 0 va f (.again (.fondantReconstructCell launch cell)))
        | .error e => stopOut e

end Sys2Proof.Machine
end

