-- ==== Sys2Proof/Machine/Launches.lean ====
section
/-! DEFINITION. Launches: acceptance, placement, ageing, completion, lending of scratchpad (R39, R40, R169, R174, R257 to R260). -/

namespace Sys2Proof
open Machine

/-- Whether a launch record has a nonzero field that Table 12.4 calls zero. -/
def Packet.launchReserved (p : Packet) : Bool :=
  decide (bits p.d0.toNat 32 32 ≠ 0 ∨ bits p.d3.toNat 22 42 ≠ 0 ∨ bits p.d4.toNat 60 4 ≠ 0 ∨ p.d6 ≠ 0)

end Sys2Proof

namespace Sys2Proof.Machine

/-! ## Clocks (R9, R11, R315) -/

/-- Whether more than `n` mesh clocks have passed since `State.mclk` was `since`: a mesh clock is 32 / (3·(point + 1)) ticks. -/
def meshPassed (s : State) (since n : Nat) : Bool := decide (n * 32 < (s.mclk - since) * 3)

/-- Whether `n` arithmetic clocks have passed since `State.clk` was `since`: an arithmetic clock is 8 / (point + 1) ticks. -/
def clocksPassed (s : State) (since n : Nat) : Bool := decide (n * 8 ≤ s.clk - since)

/-- The operating point of a frequency class (R315). -/
def classPoint (s : State) (k : Nat) : Nat :=
  let v := bits s.win.classtab.toNat (4 * k) 4
  if 1 ≤ v ∧ v ≤ 7 then v else 7

/-! ## Acceptance (R257 to R259) -/

/-- Whether a descriptor has a nonzero reserved field (Table 12.5). -/
def descReserved (d : List Byte) : Bool :=
  decide (natAt d 0x0a 1 / 2 ≠ 0 ∨ natAt d 0x0d 3 ≠ 0 ∨ natAt d 0x18 40 ≠ 0)

/-- Whether the clusters of a launch are legal (R15): shape, counts, mesh and partitions. -/
def clustersOk (origin r c gr gc : Nat) : Bool :=
  decide (1 ≤ r ∧ r ≤ 6 ∧ 1 ≤ c ∧ c ≤ 6 ∧ r * c ≤ 12 ∧ 1 ≤ gr ∧ gr ≤ 12 ∧ 1 ≤ gc ∧ gc ≤ 12 ∧ origin < Config.numCores ∧
    coreRow origin + gr * r ≤ 12 ∧ coreCol origin + gc * c ≤ 12) &&
  (List.range gr).all (fun a => (List.range gc).all (fun b =>
    let o := origin + 12 * (a * r) + b * c
    partitionOf o == partitionOf (o + 12 * (r - 1) + (c - 1))))

/-- The launch a record and its descriptor describe. -/
def launchFrom (id ctx : Nat) (queue : Option Nat) (pc : DWord) (time : Nat) (p : Packet) (d : List Byte) : Launch :=
  let h := p.d0.toNat
  let cdef := bit h 15
  { Launch.spent id ctx p.d7 0 with
    queue := queue, st := .held, since := time, holdClass := if bit h 11 ∧ bits h 8 3 ≠ 0 then some (bits h 8 3) else none
    fclass := bits h 8 3, pennant := bits h 12 3, entry := dwordAt d 0, gmax := BitVec.ofNat 5 (natAt d 8 1), nregs := natAt d 9 1
    priv := natAt d 0x10 4, claim := natAt d 0x14 4, args := p.d2, origin := bits p.d3.toNat 0 8, clrows := bits p.d3.toNat 8 3
    clcols := bits p.d3.toNat 11 3, gr := bits p.d3.toNat 14 4, gc := bits p.d3.toNat 18 4
    ext := (bits p.d4.toNat 0 20, bits p.d4.toNat 20 20, bits p.d4.toNat 40 20)
    pattern := if cdef then natAt d 0x0b 1 else bits h 16 4, cover0 := if cdef then natAt d 0x0c 1 else bits h 20 8
    phase := bits h 28 4, cblk := p.d5, cut := false, pc := pc }

/-- Whether a pennant a launch names is Live, or the trunk. -/
def Ctx.mayRun (x : Ctx) (p : Nat) : Bool := decide (p = 0 ∨ (x.pen p).st = .live)

/-- The status that rejects a launch at acceptance (Table 12.6); none: it is held. -/
def rejects (x : Ctx) (p : Packet) (d : List Byte) (l : Launch) : Option Nat :=
  let n := natAt d 9 1
  if 31 < natAt d 8 1 then some 1
  else if n % 2 = 1 ∨ n < 2 ∨ 128 < n then some 2
  else if !clustersOk l.origin l.clrows l.clcols l.gr l.gc then some 3
  else if l.pennant ≠ 0 ∧ !bit (natAt d 0x0a 1) 0 then some 4
  else if !x.mayRun l.pennant then some 5
  else if l.pattern ≠ 0 ∧ (6 ≤ l.pattern ∨ l.cblk.toNat % 128 ≠ 0) then some 6
  else if 524288 < l.claim ∨ 16384 < l.priv ∨ p.d1.toNat % 64 ≠ 0 ∨ l.entry.toNat % 4 ≠ 0 ∨ descReserved d || p.launchReserved ||
      (l.pattern == 0 && (l.ext.1 == 0 || l.ext.2.1 == 0 || l.ext.2.2 == 0)) then some 7
  else none

/-- A launch is over: its status is written and its queue's packet has completed (R259, R415). -/
def endLaunch (ctx : Nat) (queue : Option Nat) (pc stat : DWord) (fields : List (DWord × List Byte)) (v : Nat) : Act Unit :=
  writeStatus ctx pc queue fields stat v

/-- A record is accepted (R259): rejected, held, or its descriptor's read parks. `again`: the event that does it anew. -/
def acceptLaunch (again : Instr) (ctx : Nat) (queue : Option Nat) (pc : DWord) (p : Packet) : Act Unit := do
  let s ← get
  match ← fixedRead ctx 0 p.d1 64 with
  | .error f =>
    if f.replayable then change (fun s => s.parkFixed ctx 0 pc p.d1 f (.again again))
    else do
      change (fun s => s.dropFixed ctx 0 pc f)
      endLaunch ctx queue pc p.d7 [] 9
  | .ok d => do
    let l := { launchFrom s.nextLaunch ctx queue pc s.time p d with mclk0 := s.mclk }
    match rejects (ctxOf s ctx) p d l with
    | some v => endLaunch ctx queue pc p.d7 [] v
    | none => change (fun s => { s with launches := s.launches ++ [l], nextLaunch := s.nextLaunch + 1 })

/-! ## Placement (R39, R40, R174, R260) -/

/-- Whether an earlier launch of the same queue, or of the same context's store, is still held. -/
def orderedBehind (s : State) (l : Launch) : Bool :=
  s.launches.any (fun k => decide (k.st = .held ∧ k.id < l.id) &&
    (match l.queue with
    | some q => k.queue == some q
    | none => k.queue == none && k.ctx == l.ctx))

/-- Whether an older aged launch reserves core `c`. -/
def reservedFrom (s : State) (l : Launch) (c : Nat) : Bool :=
  s.launches.any (fun k => decide (k.st = .held ∧ k.id < l.id) && k.aged && k.cores.contains c)

/-- The machine as a launch finds it: without what restores requested after it had aged have reserved behind it (R260, assumption log 46). -/
def State.forLaunch (s : State) (l : Launch) : State :=
  let later := (s.shadows.filter (fun h => decide (h.pending = 2) && h.behind.contains l.id)).flatMap (fun h => h.teams)
  { s with reserved := later.foldl (fun r t => r.erase (t.core, t.slot, t.claim)) s.reserved }

/-- Whether core `c` can take the launch's team (R39). -/
def coreTakes (s : State) (l : Launch) (c : Nat) : Bool :=
  let u := s.forLaunch l
  !(freeSlots u c).isEmpty && decide (unitsClaimed u c + claimUnits l.claim ≤ 128) && !reservedFrom s l c

/-- Whether a HOLD launch still waits for its class (R256). -/
def stillHeld (s : State) (l : Launch) : Bool :=
  match l.holdClass with
  | some k => decide (s.gov.point < classPoint s k)
  | none => false

/-- The private window of a team placed in slot `k` of core `c` (R174). Windows of saved teams are held too; with every window of the
partition held the team shares 4·c + k (assumption log 37). -/
def windowFor (s : State) (c k : Nat) : Nat :=
  let used := ((s.t :: s.others) ++ s.shadows.flatMap (fun h => h.teams)).filterMap (fun t => if t.life = .retired then none else some t.win)
  if !used.contains (4 * c + k) then 4 * c + k
  else (((List.range (4 * Config.numCores)).filter (fun w => partitionOf (w / 4) == partitionOf c)).find? (fun w => !used.contains w)).getD (4 * c + k)

/-- A launch's team as placement leaves it (R40). -/
def Launch.team (l : Launch) (core slot clorg clidx win : Nat) : Team :=
  let n := laneCount l.gmax
  { Team.none with
    life := .running, before := .running, ctx := l.ctx, core := core, slot := slot, clorg := clorg, clrows := l.clrows
    clcols := l.clcols, clidx := clidx, gmax := l.gmax, win := win, launch := l.id, pennant := l.pennant, nregs := l.nregs
    priv := l.priv, claim := l.claim, spc := l.entry, x := sset 0 [] 1 l.args, bunting := fullMask n, bsum := summary (fullMask n)
    cover := l.coverReg }

/-- Cluster origin and index of a core of a launch. -/
def Launch.place (l : Launch) (core : Nat) : Nat × Nat :=
  let dr := coreRow core - coreRow l.origin
  let dc := coreCol core - coreCol l.origin
  (l.origin + 12 * (dr / l.clrows * l.clrows) + dc / l.clcols * l.clcols, dr % l.clrows * l.clcols + dc % l.clcols)

/-- One team of a launch is placed on a core. -/
def State.placeOn (s : State) (l : Launch) (core : Nat) : State :=
  match freeSlots (s.forLaunch l) core with
  | [] => s
  | k :: _ =>
    let s := (s.reclaim l.ctx core (claimUnits l.claim)).dropSamples [core]
    let o := l.place core
    { s.takeSlot core 256 with others := liveTeams (s.others ++ [l.team core k o.1 o.2 (windowFor s core k)]) }

/-- Every team of a launch is placed. -/
def State.placeAll (s : State) (l : Launch) : State :=
  (l.cores.foldl (fun s c => s.placeOn l c) s).updLaunch l.id (fun _ => { l with st := .running })

/-- The software fields of a coverage block (Table 11.1). -/
def covBlock (bs : List Byte) : CovBlock :=
  { base := dwordAt bs 0, pitch := natAt bs 8 4, w := natAt bs 0x0c 2, h := natAt bs 0x0e 2, elem := natAt bs 0x10 1,
    kern := natAt bs 0x11 1, aud := bit (natAt bs 0x12 1) 0, tgt := wordAt bs 0x14, kp := wordAt bs 0x18, ki := wordAt bs 0x1c,
    fmin := wordAt bs 0x20, fmax := wordAt bs 0x24, ecap := wordAt bs 0x28, map := dwordAt bs 0x30 }

/-- a ≤ b as f32 numbers, false for a NaN. -/
def le32 (a b : Word) : Bool := flt32 a b || Num.eq (v32 a) (v32 b)

/-- Whether a coverage block is within its limits (R235). -/
def covOk (bs : List Byte) : Bool :=
  let b := covBlock bs
  let size := elemSize b.elem
  let facc := wordAt bs 0x40
  let one : Word := 0x3f800000
  let top : Word := 0x43800000
  decide (b.base.toNat % size = 0 ∧ b.pitch % size = 0 ∧ b.w * size ≤ b.pitch ∧ 1 ≤ b.w ∧ b.w ≤ 16384 ∧ 1 ≤ b.h ∧ b.h ≤ 16384 ∧
    natAt bs 0x12 1 ≤ 1 ∧ b.map.toNat % 64 = 0) &&
  kernLegal b.elem b.kern && le32 0 b.tgt && le32 0 b.kp && le32 0 b.ki && le32 one b.fmin && le32 b.fmin b.fmax && le32 b.fmax top &&
  flt32 0 b.ecap && ((v32 facc).isZero || (le32 one facc && le32 facc top))

/-- A launch with its coverage block's state (R235). -/
def Launch.withCov (l : Launch) (bs map : List Byte) : Launch :=
  let l := { l with cov := some (covBlock bs), mapBytes := map, updates := wordAt bs 0x50, unrec := wordAt bs 0x54 }
  if (v32 (wordAt bs 0x40)).isZero then
    { l with facc := ofInt32 (if l.cover0 = 0 then 256 else l.cover0 : Nat), eprev := 0, errS := 0, errN := 0 }
  else { l with facc := wordAt bs 0x40, eprev := wordAt bs 0x44, errS := wordAt bs 0x48, errN := wordAt bs 0x4c }

/-- A held launch leaves the arbiter rejected. -/
def rejectHeld (l : Launch) (v : Nat) : Act Unit := do
  change (fun s => { s with launches := s.launches.filter (fun k => k.id != l.id) })
  endLaunch l.ctx l.queue l.pc l.stat [] v

/-- A read of placement failed (R424). -/
def placeFault (l : Launch) (va : DWord) (f : TFault) : Act Unit := do
  if f.replayable then change (fun s => s.parkFixed l.ctx 0 l.pc va f (.again (.launchPlacement l.id)))
  else do
    change (fun s => s.dropFixed l.ctx 0 l.pc f)
    rejectHeld l 9

/-- Placement once every core can take its team: the coverage block and map are read and checked, then the teams stand. -/
def placeLaunch (l : Launch) : Act Unit := do
  if l.pattern = 0 then change (fun s => s.placeAll l)
  else do
    match ← fixedRead l.ctx 0 l.cblk 128 with
    | .error f => placeFault l l.cblk f
    | .ok bs =>
      if !covOk bs then rejectHeld l 6
      else do
        let map := dwordAt bs 0x30
        match ← (if map = 0 then pure (.ok []) else fixedRead l.ctx 0 map 64) with
        | .error f => placeFault l map f
        | .ok m => change (fun s => s.placeAll (l.withCov bs m))

/-- Whether the arbiter can place a held launch now (R39, R256, R260). -/
def placeable (s : State) (l : Launch) : Bool :=
  decide (l.st = .held) && !orderedBehind s l && !stillHeld s l && !parkedAgain s (.launchPlacement l.id) && l.cores.all (coreTakes s l)

/-- LAUNCH_PLACEMENT (R39, R259, R260): held launches are tried in order of acceptance. -/
def execLaunchPlacement (launch : Nat) (s : State) : Out :=
  match launchOf s launch with
  | none => .next s
  | some l =>
    if !placeable s l || s.launches.any (fun k => decide (k.id < l.id) && placeable s k) then .next s
    else if !(ctxOf s l.ctx).mayRun l.pennant then runAct (rejectHeld l 5) s
    else runAct (placeLaunch l) s

/-- LAUNCH_AGED (R260): held for more than 4,096 mesh clocks. -/
def execLaunchAged (launch : Nat) (s : State) : Out :=
  .next (s.updLaunch launch (fun l => if l.st = .held ∧ meshPassed s l.mclk0 4096 then { l with aged := true } else l))

/-- HOLD_TIMEOUT (R256): 320,000 ticks end a hold. -/
def execHoldTimeout (launch : Nat) (s : State) : Out :=
  .next (s.updLaunch launch (fun l => if l.st = .held ∧ 320000 ≤ s.time - l.since then { l with holdClass := none } else l))

/-- The class the part requests: the highest of the running and held launches; 0: none (R256). -/
def requestedClass (s : State) : Nat := s.launches.foldl (fun m l => max m l.fclass) 0

/-- SCRATCH_LEND (R169): every unclaimed unit of the core serves its L1. -/
def execScratchLend (core : Nat) (s : State) : Out :=
  if Config.numCores ≤ core then .next s
  else .next { s with caches := { s.caches with lent := sset 0 s.caches.lent core (128 - unitsClaimed s core) } }

/-! ## Completion (R259, R415, R416) -/

/-- Whether Fondant has finished every cell of a launch. -/
def Launch.allDone (l : Launch) (b : CovBlock) : Bool := decide (b.cellsX * b.cellsY ≤ l.done.length)

/-- Whether a running launch is over: every team retired and Fondant done. -/
def launchOver (s : State) (l : Launch) : Bool :=
  decide (l.st = .running) && !launchAlive s l.id && (match l.cov with
    | some b => l.cut || l.allDone b
    | none => true)

/-- LAUNCH_COMPLETE (R234, R246, R259, R416): the last controller update where Fondant has finished every cell (assumption log 39), the state fields,
then the status, once no write of its state fields is parked. -/
def execLaunchComplete (launch : Nat) (s : State) : Out :=
  match launchOf s launch with
  | none => .next s
  | some l =>
    if !launchOver s l || parkedWrites s l.ctx (l.cblk + 0x40) 0x18 then .next s
    else runAct (do
      let fields := match l.cov with
        | some b => (if l.allDone b then l.control b s.gov.gcap else l).stateFields
        | none => []
      change (fun s => { s with launches := s.launches.filter (fun k => k.id != launch) })
      endLaunch l.ctx l.queue l.pc l.stat fields l.status) s

end Sys2Proof.Machine
end

