-- ==== Sys2Proof/Machine/CommandCore.lean ====
section
/-! DEFINITION. Command queues, the command core and its packets (§12.1, §12.2, R310, R311, R415, R425). -/

namespace Sys2Proof.Machine

/-! ## Control blocks (R252, R253) -/

/-- One byte of the CRC-32 of IEEE 802.3, reflected. -/
def crcByte (c : Nat) (b : Byte) : Nat :=
  (List.range 8).foldl (fun c _ => if c % 2 = 1 then Nat.xor (c / 2) 0xedb88320 else c / 2) (Nat.xor c b.toNat)

/-- The CRC-32 of a byte string. -/
def crc32 (bs : List Byte) : Nat := Nat.xor (bs.foldl crcByte 0xffffffff) 0xffffffff

/-- Whether a 64-byte copy of a control block is valid. -/
def copyValid (bs : List Byte) : Bool := decide (natAt bs 0x3c 4 = crc32 (bs.take 60))

/-- SEQ of a copy. -/
def seqOf (bs : List Byte) : BitVec 32 := wordAt bs 0x38

/-- Whether the current copy of two is B; none: neither is valid. -/
def currentIsB (a b : List Byte) : Option Bool :=
  match copyValid a, copyValid b with
  | true, true => some (decide (seqOf a ≠ seqOf b ∧ (seqOf b - seqOf a).toNat < 2 ^ 31))
  | true, false => some false
  | false, true => some true
  | false, false => none

/-- Queue `q`. -/
def queueOf (s : State) (q : Nat) : Queue := s.queues.getD q Queue.reset

/-- Change queue `q`. -/
def State.updQueue (s : State) (q : Nat) (f : Queue → Queue) : State := { s with queues := updNth s.queues q f }

/-- A queue enters the Error state (R254). -/
def State.queueError (s : State) (q cause : Nat) : State :=
  (s.updQueue q (fun k => { k with state := 2, cause := cause, errcnt := k.errcnt + 1 })).interrupt 3

/-- The physical reads and writes of the command core for a queue. -/
def queueAcc (k : Queue) : Acc := fixedAcc k.ctx 0

/-- The queue takes HEAD and its counts from the current copy of its control block, or enters Error with cause 2. -/
def revalidate (q : Nat) : Act Unit := do
  let s ← get
  let k := queueOf s q
  let a ← physRead (queueAcc k) (k.qhdr.toNat + 0x40) 64
  let b ← physRead (queueAcc k) (k.qhdr.toNat + 0x80) 64
  match currentIsB a b with
  | none => change (fun s => s.queueError q 2)
  | some cb =>
    let c := if cb then b else a
    change (fun s => s.updQueue q (fun k => { k with
      state := 1, head := natAt c 0 4, tail := natAt c 0 4, handed := wordAt c 4, fenceVal := dwordAt c 8, seqA := seqOf c, curB := cb }))

/-- Whether a queue's header passes R252's test. -/
def Queue.headerOk (k : Queue) : Bool := decide (4 ≤ k.log2 ∧ k.log2 ≤ 16 ∧ k.ring.toNat % 64 = 0)

/-- QUEUE_ENABLE (R251 to R253): EN = 1 written to a queue that is Disabled or in Error. To one that waits for its packet boundary to be
disabled, it withdraws that (assumption log 74). -/
def execQueueEnable (q : Nat) (s : State) : Out :=
  let k := queueOf s q
  if k.state = 1 then .next (s.updQueue q (fun k => { k with en := true }))
  else runAct (do
    let h ← physRead (queueAcc k) k.qhdr.toNat 24
    let k' := { k with en := true, ring := dwordAt h 8, log2 := natAt h 0x10 1 }
    change (fun s => s.updQueue q (fun k => { k with en := true, ring := dwordAt h 8, log2 := natAt h 0x10 1 }))
    if !k'.headerOk then change (fun s => s.queueError q 4) else revalidate q) s

/-- COMMAND_CORE_SAMPLE_TAIL (R254). -/
def execCommandCoreSampleTail (q : Nat) (s : State) : Out :=
  let k := queueOf s q
  if k.state ≠ 1 then .next s
  else runAct (do
    let bs ← physRead (queueAcc k) k.qhdr.toNat 4
    let tail := leNat bs
    let span := 2 * 2 ^ k.log2
    if span ≤ tail ∨ 2 ^ k.log2 < (tail + span - k.head % span) % span then change (fun s => s.queueError q 1)
    else change (fun s => s.updQueue q (fun k => { k with tail := tail }))) s

/-- The exit from an idle state begins (R316). -/
def State.wake (s : State) : State := if s.gov.idle ≠ 0 ∨ !s.gov.gated.isEmpty then s.after [.idleExit] else s

/-- QDB_DOORBELL (R251). -/
def execQdbDoorbell (q : Nat) (s : State) : Out := .next (s.wake.after [.commandCoreSampleTail q])

/-- The queues that are Active. -/
def activeQueues (s : State) : List Nat :=
  (List.range Config.numQueues).filter (fun q => decide ((queueOf s q).state = 1) && (queueOf s q).en)

/-- QUEUE_POLL (R251). -/
def execQueuePoll (s : State) : Out := .next (s.after ((activeQueues s).map .commandCoreSampleTail))

/-- COMMAND_CORE_WATCHDOG (R253): every enabled queue is validated; one whose header failed R252's test has no copy to resume from and stays
in Error (assumption log 74). -/
def execCommandCoreWatchdog (s : State) : Out :=
  runAct (((List.range Config.numQueues).filter (fun q => (queueOf s q).en && (queueOf s q).headerOk)).forM revalidate) s

/-- Packets between HEAD and TAIL (R254). -/
def Queue.pending (k : Queue) : Nat := (k.tail + 2 * 2 ^ k.log2 - k.head % (2 * 2 ^ k.log2)) % (2 * 2 ^ k.log2)

/-- The packet at a queue's head is handed off (R253): the copy that is not current is overwritten and becomes current. -/
def handOff (q : Nat) (fence : Option DWord) (runs : Bool) : Act Unit := do
  let s ← get
  let k := queueOf s q
  let k' := { k with
    head := (k.head + 1) % (2 * 2 ^ k.log2), handed := k.handed + 1, fenceVal := fence.getD k.fenceVal
    seqA := k.seqA + 1, curB := !k.curB, outstanding := k.outstanding + (if runs then 1 else 0) }
  let body := leBytes 4 k'.head ++ leBytes 4 k'.handed.toNat ++ leBytes 8 k'.fenceVal.toNat ++ List.replicate 40 0
  let at_ := k.qhdr.toNat + (if k.curB then 0x40 else 0x80)
  let seq := leBytes 4 k'.seqA.toNat
  physWrite (queueAcc k) at_ body
  physWrite (queueAcc k) (at_ + 0x38) (seq ++ leBytes 4 (crc32 (body ++ seq)))
  change (fun s => s.updQueue q (fun _ => k'))

/-- The physical address of the packet of index `n`. -/
def packetAt (k : Queue) (n : Nat) : Nat := k.ring.toNat + 64 * (n % 2 ^ k.log2)

/-- The address of the packet last handed off, for its records. -/
def lastPacket (k : Queue) : DWord := BitVec.ofNat 64 (packetAt k (k.head + 2 * 2 ^ k.log2 - 1))

/-- The address of the packet at the head. -/
def headPacket (k : Queue) : DWord := BitVec.ofNat 64 (packetAt k k.head)

/-! ## Packets (Table 12.3) -/

/-- Header bits a type of packet names. -/
def headerMask (kind : Nat) : Nat :=
  match kind with
  | 1 => 0xff07ff
  | 2 => 0xff07ff
  | 4 => 0xffffffff
  | 6 => 0x107ff
  | _ => 0x7ff

/-- How many dwords from dword 1 on a type of packet names. -/
def namedDwords (kind : Nat) : Nat :=
  match kind with
  | 1 => 1
  | 3 => 1
  | 5 => 3
  | 6 => 2
  | 7 => 2
  | 9 => 1
  | _ => 0

/-- Whether a packet sends its queue to Error (R255). -/
def packetBad (p : Packet) : Bool :=
  let kind := p.kind
  if kind < 1 ∨ 10 < kind then true
  else if kind = 4 then p.launchReserved
  else
    decide (p.d0.toNat - Nat.land p.d0.toNat (headerMask kind) ≠ 0) ||
      ([p.d1, p.d2, p.d3, p.d4, p.d5, p.d6].drop (namedDwords kind)).any (fun d => decide (d ≠ 0)) ||
      (kind == 1 && (decide (3 < bits p.d0.toNat 16 8) || decide (p.d1.toNat % 256 ≠ 0))) ||
      (kind == 5 && (!copyOk 0 p.d1 p.d2 p.d3 || (shapeOf p.d3).dk || (shapeOf p.d3).sk))

/-- A fixed unit's read that failed, for work that comes to an end without it: it parks, or `drop` follows (R424). -/
def fixedFault (ctx : Nat) (pc va : DWord) (f : TFault) (again : Instr) (drop : Act Unit) : Act Unit := do
  if f.replayable then change (fun s => s.parkFixed ctx 0 pc va f (.again again))
  else do
    change (fun s => s.dropFixed ctx 0 pc f)
    drop

/-- A packet that has acted gives its status and has completed. -/
def packetEnds (q : Nat) (p : Packet) (v : Nat) : Act Unit := do
  let s ← get
  let k := queueOf s q
  writeStatus k.ctx (lastPacket k) (some q) [] p.d7 v

/-- FLIP_PACKET (R228, R255): the flip joins its head's queue. -/
def execFlipPacket (q : Nat) (p : Packet) (s : State) : Out :=
  runAct (do
    change (fun s => s.appendFlip { head := bits p.d0.toNat 16 8, surface := p.d1, ctx := (queueOf s q).ctx })
    packetEnds q p 0) s

/-- COMMIT_PACKET (R222, R255): COMMIT_SWITCH ends it. -/
def execCommitPacket (q : Nat) (p : Packet) (s : State) : Out :=
  runAct (commitFrom (queueOf s q).ctx q (lastPacket (queueOf s q)) p) s

/-- LATCH_PACKET (R248, R255). -/
def execLatchPacket (q : Nat) (p : Packet) (s : State) : Out :=
  let k := queueOf s q
  let lost : Act Unit := change (fun s => s.packetDone q)
  let fault (va : DWord) (f : TFault) : Act Unit := fixedFault k.ctx (lastPacket k) va f (.latchPacket q p) lost
  runAct (
    if p.d1.toNat % 128 ≠ 0 then packetEnds q p 3
    else do
      match ← fixedRead k.ctx 0 (p.d1 + 0x30) 8 with
      | .error f => fault (p.d1 + 0x30) f
      | .ok bs => do
        let map := dwordAt bs 0
        match ← (if map = 0 then pure (.ok []) else fixedRead k.ctx 0 map 64) with
        | .error f => fault map f
        | .ok m => do
          change (fun s => s.latchMap k.ctx Config.numCores p.d1 m)
          packetEnds q p 0) s

/-- LAUNCH_PACKET (R259, R263): a queue's packet, or, from 32 on, a record of a context's store. -/
def execLaunchPacket (q : Nat) (p : Packet) (s : State) : Out :=
  if q < Config.numQueues then runAct (acceptLaunch (.launchPacket q p) (queueOf s q).ctx (some q) (lastPacket (queueOf s q)) p) s
  else runAct (acceptLaunch (.launchPacket q p) (q - Config.numQueues) none 0 p) s

/-- COPY_PACKET (R177, R178, R255): the whole copy, then the hand-off. -/
def execCopyPacket (q : Nat) (p : Packet) (s : State) : Out :=
  let k := queueOf s q
  let h := shapeOf p.d3
  let a := fixedAcc k.ctx 0
  runAct (do
    match ← copyRange a p.d1 p.d2 h [] 0 h.total with
    | .ok _ => handOff q none false
    | .error (_, f) => do
      set s
      fixedFault k.ctx (headPacket k) f.va f (.copyPacket q p) (change (fun s => s.queueError q 5))) s

/-- FENCE_PACKET (R255): every earlier packet of the queue having completed, the value is written and an interrupt may be raised. -/
def execFencePacket (q : Nat) (p : Packet) (s : State) : Out :=
  let k := queueOf s q
  if k.outstanding ≠ 0 then .next s
  else runAct (do
    match ← vwrite (fixedAcc k.ctx 0) .fixWrite 3 p.d1 (leBytes 8 p.d2.toNat) with
    | .ok _ => do
      change (fun s => if p.d0.getLsbD 16 then s.interrupt 4 else s)
      handOff q (some p.d2) false
    | .error f => fixedFault k.ctx (headPacket k) p.d1 f (.fencePacket q p) (change (fun s => s.queueError q 5))) s

/-- WAIT_PACKET (R255): handed off once the value is reached. -/
def execWaitPacket (q : Nat) (p : Packet) (s : State) : Out :=
  let k := queueOf s q
  runAct (do
    match ← fixedRead k.ctx 0 p.d1 8 with
    | .ok bs => if p.d2.toNat ≤ leNat bs then handOff q none false else pure ()
    | .error f => fixedFault k.ctx (headPacket k) p.d1 f (.waitPacket q p) (change (fun s => s.queueError q 5))) s

/-- CAPSTART_PACKET (R311). -/
def execCapstartPacket (q : Nat) (_p : Packet) (s : State) : Out :=
  .next ((s.updCtx (queueOf s q).ctx (fun x => { x with counters := List.replicate 16 0, capOn := true, capT0 := s.time })).packetDone q)

/-- A context's counters stop; DTIME is the ticks since CAPSTART (R310). -/
def Ctx.stopCapture (x : Ctx) (time : Nat) : Ctx :=
  if x.capOn then { x with capOn := false, counters := updNth x.counters 0 (fun _ => BitVec.ofNat 64 (time - x.capT0)) } else x

/-- CAPSTOP_PACKET (R311): the counters stop and are written out. -/
def execCapstopPacket (q : Nat) (p : Packet) (s : State) : Out :=
  let k := queueOf s q
  runAct (do
    change (fun s => s.updCtx k.ctx (fun x => x.stopCapture s.time))
    let s ← get
    match ← vwrite (fixedAcc k.ctx 0) .fixWrite 3 p.d1 ((ctxOf s k.ctx).counters.flatMap (fun v => leBytes 8 v.toNat)) with
    | .ok _ => do
      change (fun s => s.interrupt 9)
      handOff q none false
    | .error f => fixedFault k.ctx (headPacket k) p.d1 f (.capstopPacket q p) (change (fun s => s.queueError q 5))) s

/-- NOP_PACKET (R255). -/
def execNopPacket (q : Nat) (_p : Packet) (s : State) : Out := .next (s.packetDone q)

/-! ## Steps of the command core (R255, R260, R263) -/

/-- The event of a packet. -/
def packetEvent (q : Nat) (p : Packet) : Instr :=
  match p.kind with
  | 1 => .flipPacket q p
  | 2 => .commitPacket q p
  | 3 => .latchPacket q p
  | 4 => .launchPacket q p
  | 5 => .copyPacket q p
  | 6 => .fencePacket q p
  | 7 => .waitPacket q p
  | 8 => .capstartPacket q p
  | 9 => .capstopPacket q p
  | _ => .nopPacket q p

/-- Whether an event belongs to lane `q` of the command core, or is the placement of a launch of its. -/
def ofLane (s : State) (q : Nat) : Instr → Bool
  | .latchPacket k _ => k == q
  | .launchPacket k _ => k == q
  | .copyPacket k _ => k == q
  | .fencePacket k _ => k == q
  | .waitPacket k _ => k == q
  | .capstopPacket k _ => k == q
  | .launchPlacement id => match launchOf s id with
    | some l => (match l.queue with
      | some k => k == q
      | none => decide (q = Config.numQueues + l.ctx))
    | none => false
  | _ => false

/-- Whether the COMMIT of queue `q`'s packet waits on a parked write to the PCB (R424). -/
def commitParked (s : State) (q : Nat) : Bool :=
  let c := (queueOf s q).ctx
  pcbParked s c && (ctxOf s c).commit.any (fun r => decide (r.queue = some q))

/-- Whether lane `q` waits on a parked access, or on a packet event not yet run (R424). -/
def laneBusy (s : State) (q : Nat) : Bool :=
  commitParked s q || s.agenda.any (ofLane s q) || s.fixed.any (fun f => match f.work with
    | .again i => ofLane s q i
    | .writes _ k _ => decide (k = some q))

/-- Whether a WAIT's value is reached; a read that fails counts as present, so that it parks. -/
def waitReached (s : State) (c : Nat) (p : Packet) : Bool :=
  match fixedRead c 0 p.d1 8 s with
  | .ok (.ok bs, _) => decide (p.d2.toNat ≤ leNat bs)
  | _ => true

/-- QUEUE_DISABLE (R251): EN = 0; the queue is Disabled at the next packet boundary, once its lane holds no packet. -/
def execQueueDisable (q : Nat) (s : State) : Out :=
  .next (s.updQueue q (fun k => { k with en := false, state := if laneBusy s q then k.state else 0 }))

/-- Whether an event is an acceptance. -/
def isAcceptance : Instr → Bool
  | .launchPacket _ _ => true
  | _ => false

/-- Held launches in the placement arbiter, and acceptances already due or parked. -/
def arbiterUsed (s : State) : Nat :=
  (s.launches.filter (fun l => decide (l.st = .held))).length + (s.agenda.filter isAcceptance).length +
    (s.fixed.filter (fun f => match f.work with
      | .again i => isAcceptance i
      | _ => false)).length

/-- FLIP packets handed off to head `h` that have not reached its queue yet. -/
def flipsDue (s : State) (h : Nat) : Nat :=
  (s.agenda.filter (fun i => match i with
    | .flipPacket _ p => decide (bits p.d0.toNat 16 8 = h)
    | _ => false)).length

/-- Whether a head packet can act in this step (R255). -/
def packetPresent (s : State) (q : Nat) (p : Packet) : Bool :=
  let k := queueOf s q
  let h := bits p.d0.toNat 16 8
  match p.kind with
  | 1 => (headOf s h).room && decide ((headOf s h).queue.length + flipsDue s h < 16)
  | 4 => decide (arbiterUsed s < 64)
  | 6 => decide (k.outstanding = 0)
  | 7 => waitReached s k.ctx p
  | _ => true

/-- The packets at the heads of the Active queues whose lanes are free; a bad one sends its queue to Error. -/
def headPackets : List Nat → Act (List (Nat × Packet))
  | [] => pure []
  | q :: qs => do
    let s ← get
    let k := queueOf s q
    if k.pending = 0 || laneBusy s q then headPackets qs
    else do
      let bs ← physRead (queueAcc k) (packetAt k k.head) 64
      let p := packetOf bs
      if packetBad p then do
        change (fun s => s.queueError q 3)
        headPackets qs
      else do
        let rest ← headPackets qs
        pure ((q, p) :: rest)

/-- The contexts whose oldest store record may be taken, or whose overflow list has a record the store has room for. -/
def storeContexts (s : State) : List Nat :=
  (List.range Config.numContexts).filter (fun c =>
    (decide (0 < storeCount s c) || (decide ((ctxOf s c).ovHead < (ctxOf s c).ovTail) && storeRoom s c)) && !laneBusy s (Config.numQueues + c))

/-- A context's oldest record leaves the store for acceptance; its overflow list refills the store before and after (R263).
A record so taken no longer counts toward QUOTA: the model's choice (assumption log 91). -/
def takeRecord (c : Nat) : Act Unit := do
  overflowSettle c
  overflowRefill c 256
  let s ← get
  match s.store.find? (fun r => r.ctx == c) with
  | none => pure ()
  | some r =>
    if 64 ≤ arbiterUsed s then pure ()
    else do
      change (fun s => { s with store := s.store.erase r }.after [.launchPacket (Config.numQueues + c) r.pkt])
      overflowRefill c 256

/-- A packet acts in the step: those that reach a unit are handed off first (R253, R255). -/
def startPacket (e : Nat × Packet) : Act Unit := do
  let s ← get
  if packetPresent s e.1 e.2 then do
    if e.2.kind = 5 ∨ e.2.kind = 6 ∨ e.2.kind = 7 ∨ e.2.kind = 9 then pure () else handOff e.1 none true
    change (fun s => s.after [packetEvent e.1 e.2])
  else pure ()

/-- COMMAND_CORE_STEP (R255, R263): every lane that holds a packet of the highest-ranked type present runs it, in ascending queue
number, a LAUNCH step then takes one record of each context's store. -/
def execCommandCoreStep (s : State) : Out :=
  runAct (do
    let ps ← headPackets (activeQueues s)
    let s ← get
    let ready := ps.filter (fun e => packetPresent s e.1 e.2)
    let stored := if arbiterUsed s < 64 then storeContexts s else []
    let kinds := ready.map (fun e => e.2.kind) ++ (if stored.isEmpty then [] else [4])
    match kinds with
    | [] => pure ()
    | k :: ks => do
      let top := ks.foldl min k
      (ready.filter (fun e => e.2.kind == top)).forM startPacket
      if top = 4 then stored.forM takeRecord else pure ()) s

end Sys2Proof.Machine
end

