-- ==== Sys2Proof/WellFormed.lean ====
section
/-! DEFINITION. Which terms of `Instr` a program can hold: those a word of the spec's encodings decodes to (chapter 5). -/

namespace Sys2Proof
open Machine

/-- The FN values that choose the constructor of a lane opcode: the EMIT forms (Table 13.1) and the .E forms (R110). -/
def laneFnOk : Instr → LWord → Bool
  | .emitPut _, w => decide (w.fn.toNat = 0)
  | .emitTake _, w => decide (w.fn.toNat = 1)
  | .emitPrim _, w => decide (w.fn.toNat = 2)
  | .emitPix _, w => decide (w.fn.toNat = 3)
  | .bar _, w => decide (w.fn.toNat = 0)
  | .barE _, w => decide (w.fn.toNat = 1)
  | .await _, w => decide (w.fn.toNat = 0)
  | .awaitE _, w => decide (w.fn.toNat = 1)
  | _, _ => true

/-- The fields of a lane instruction. -/
def Instr.lword : Instr → Option LWord
  | .addLane w => some w
  | .subLane w => some w
  | .mulLane w => some w
  | .mulhLane w => some w
  | .mad w => some w
  | .divLane w => some w
  | .minLane w => some w
  | .maxLane w => some w
  | .abs w => some w
  | .andLane w => some w
  | .orLane w => some w
  | .xorLane w => some w
  | .andnLane w => some w
  | .shlLane w => some w
  | .shrLane w => some w
  | .sraLane w => some w
  | .clzLane w => some w
  | .popcLane w => some w
  | .brevLane w => some w
  | .bfeLane w => some w
  | .bfiLane w => some w
  | .sextLane w => some w
  | .zextLane w => some w
  | .selLane w => some w
  | .movLane w => some w
  | .liLane w => some w
  | .lihLane w => some w
  | .cmpLane w => some w
  | .sltLane w => some w
  | .fadd w => some w
  | .fsub w => some w
  | .fmul w => some w
  | .fma w => some w
  | .fmin w => some w
  | .fmax w => some w
  | .fcmp w => some w
  | .fdiv w => some w
  | .frcp w => some w
  | .frsq w => some w
  | .fsqrt w => some w
  | .fexp2 w => some w
  | .flog2 w => some w
  | .fsin w => some w
  | .fcos w => some w
  | .frnd w => some w
  | .fclass w => some w
  | .dot2 w => some w
  | .cvt w => some w
  | .blkq w => some w
  | .blkx w => some w
  | .plop w => some w
  | .vote w => some w
  | .shfl w => some w
  | .reduce w => some w
  | .scan w => some w
  | .br w => some w
  | .brx w => some w
  | .call w => some w
  | .ret => some LWord.zero
  | .join => some LWord.zero
  | .prio w => some w
  | .yield => some LWord.zero
  | .exit w => some w
  | .bar w => some w
  | .barE w => some w
  | .arrive w => some w
  | .await w => some w
  | .awaitE w => some w
  | .ldLane w => some w
  | .stLane w => some w
  | .sld w => some w
  | .sample w => some w
  | .atom w => some w
  | .atomGroupB w => some w
  | .fenceLane w => some w
  | .pathfence w => some w
  | .cpyLane w => some w
  | .mmaLane w => some w
  | .triLane w => some w
  | .tlutLane w => some w
  | .attr w => some w
  | .emitPut w => some w
  | .emitTake w => some w
  | .emitPrim w => some w
  | .emitPix w => some w
  | .osbegin w => some w
  | .osend w => some w
  | .trace w => some w
  | .launch w => some w
  | .nopLane => some LWord.zero
  | .srrdLane w => some w
  | .srwrLane w => some w
  | .timeLane w => some w
  | .trapLane => some LWord.zero
  | _ => none

/-- TYPE of a packet (Table 12.3). -/
def Packet.typeNo (p : Packet) : Nat := (p.d0.extractLsb' 0 8).toNat

/-- `i` is well formed in a kernel of `nregs` lane registers: its fields are ones its encoding admits. -/
def Instr.wf (nregs : Nat) (i : Instr) : Bool :=
  match i.lword with
  | some w => laneFnOk i w && decide (laneFate nregs (laneOpcode i) w = none)
  | none =>
    match i with
    | .cmp c _ _ _ => decide (c.toNat ≤ 5)
    | .sext w _ _ => decide (w.toNat ≤ 2)
    | .zext w _ _ => decide (w.toNat ≤ 2)
    | .b cond a _ => decide (cond.toNat ≤ 6) && decide (cond = 0 → a = 0)
    | .ld _ _ scope ord _ _ _ => decide (scope.toNat ≠ 7) && decide (ord.toNat ≤ 1)
    | .st _ _ scope ord _ _ _ => decide (scope.toNat ≠ 7) && decide (ord.toNat = 0 ∨ ord.toNat = 2)
    | .srrd num _ => decide (num.toNat ≤ 0x00b)
    | .srwr num _ => decide (num.toNat ≤ 0x00b)
    | .fence ord scope => decide (ord ≠ 0) && decide (scope.toNat ≠ 7)
    | .icflush scope _ _ => decide (2 ≤ scope.toNat ∧ scope.toNat ≤ 5)
    | .cpy ge g _ _ _ => ge || decide (g = 0)
    | .tld ge g _ _ _ => ge || decide (g = 0)
    | .tst ge g _ _ _ => ge || decide (g = 0)
    | .mma ge g _ _ _ => ge || decide (g = 0)
    | .tri ge g _ _ _ => ge || decide (g = 0)
    | .tlut ge g _ _ _ => ge || decide (g = 0)
    | .qfence ge g _ => ge || decide (g = 0)
    | .flipPacket _ p => decide (p.typeNo = 1)
    | .commitPacket _ p => decide (p.typeNo = 2)
    | .latchPacket _ p => decide (p.typeNo = 3)
    | .launchPacket _ p => decide (p.typeNo = 4)
    | .copyPacket _ p => decide (p.typeNo = 5)
    | .fencePacket _ p => decide (p.typeNo = 6)
    | .waitPacket _ p => decide (p.typeNo = 7)
    | .capstartPacket _ p => decide (p.typeNo = 8)
    | .capstopPacket _ p => decide (p.typeNo = 9)
    | .nopPacket _ p => decide (p.typeNo = 10)
    | _ => true

end Sys2Proof
end

