-- ==== Sys2Proof/Decode.lean ====
section
/-! DEFINITION. The decoder, total on any word, and the encoder written from the same tables (chapters 4 and 5). -/

namespace Sys2Proof
open Machine

/-- What a decoder answers: the instruction, or the fate of the word (R102). -/
abbrev Decoded := Except Fate Instr

/-- `i`, if no step fails (R112). -/
def decided (i : Instr) (steps : List (List Failure)) : Decoded :=
  match firstFate steps with
  | none => .ok i
  | some f => .error f

/-- A scalar field of five bits: a register. -/
def regField (w : Word) (lo : Nat) : BitVec 5 := w.extractLsb' lo 5

/-- OP, Table 5.2 (R105). -/
def decodeOp (w : Word) : Decoded :=
  let d := regField w 7
  let a := regField w 12
  let b := regField w 17
  let fn3 : BitVec 3 := w.extractLsb' 22 3
  let u := decide (fn3 = 1)
  let plain : List (List Failure) := [[(decide (fn3 ≠ 0), .reserved)]]
  let sgn : List (List Failure) := [[(decide (1 < fn3.toNat), .reserved)]]
  let unary : List (List Failure) := [[(decide (fn3 ≠ 0), .reserved)], [(decide (b ≠ 0), .illegal)]]
  let width : List (List Failure) := [[(decide (2 < fn3.toNat), .reserved)], [(decide (b ≠ 0), .illegal)]]
  match (w.extractLsb' 25 7).toNat with
  | 0x00 => decided (.add d a b) plain
  | 0x01 => decided (.sub d a b) plain
  | 0x02 => decided (.mul d a b) plain
  | 0x03 => decided (.mulh u d a b) sgn
  | 0x04 => decided (.div u d a b) sgn
  | 0x05 => decided (.rem u d a b) sgn
  | 0x06 => decided (.min u d a b) sgn
  | 0x07 => decided (.max u d a b) sgn
  | 0x08 => decided (.and d a b) plain
  | 0x09 => decided (.or d a b) plain
  | 0x0a => decided (.xor d a b) plain
  | 0x0b => decided (.andn d a b) plain
  | 0x0c => decided (.shl d a b) plain
  | 0x0d => decided (.shr d a b) plain
  | 0x0e => decided (.sra d a b) plain
  | 0x0f => decided (.slt u d a b) sgn
  | 0x10 => decided (.cmp fn3 d a b) [[(decide (5 < fn3.toNat), .reserved)]]
  | 0x11 => decided (.sel d a b) plain
  | 0x12 => decided (.mov d a) unary
  | 0x13 => decided (.clz d a) unary
  | 0x14 => decided (.popc d a) unary
  | 0x15 => decided (.brev d a) unary
  | 0x16 => decided (.sext fn3 d a) width
  | 0x17 => decided (.zext fn3 d a) width
  | 0x18 => decided (.bfe u d a b) sgn
  | 0x19 => decided (.bfi d a b) plain
  | _ => .error .reserved

/-- OP-I, Table 5.3 (R106). -/
def decodeOpImm (w : Word) : Decoded :=
  let d := regField w 7
  let a := regField w 12
  let imm : BitVec 12 := w.extractLsb' 20 12
  let c : BitVec 6 := w.extractLsb' 20 6
  let shift : List (List Failure) := [[(decide (w.extractLsb' 26 6 ≠ 0), .illegal)]]
  match (w.extractLsb' 17 3).toNat with
  | 0 => .ok (.addImm d a imm)
  | 1 => .ok (.andImm d a imm)
  | 2 => .ok (.orImm d a imm)
  | 3 => .ok (.xorImm d a imm)
  | 4 => decided (.shlImm d a c) shift
  | 5 => decided (.shrImm d a c) shift
  | 6 => decided (.sraImm d a c) shift
  | _ => .ok (.sltImm d a imm)

/-- SYS, Table 5.4 (R107). `z` names the register fields an instruction leaves unused. -/
def decodeSys (w : Word) : Decoded :=
  let d := regField w 7
  let a := regField w 12
  let b := regField w 17
  let g : BitVec 4 := w.extractLsb' 7 4
  let p : BitVec 4 := w.extractLsb' 12 4
  let fn10 : BitVec 10 := w.extractLsb' 22 10
  let dz : Failure := (decide (d ≠ 0), .illegal)
  let az : Failure := (decide (a ≠ 0), .illegal)
  let bz : Failure := (decide (b ≠ 0), .illegal)
  let gz : Failure := (decide (16 ≤ d.toNat), .illegal)
  let pz : Failure := (decide (16 ≤ a.toNat), .illegal)
  let scope : BitVec 3 := w.extractLsb' 22 3
  let ord : BitVec 2 := w.extractLsb' 25 2
  let fence : Decoded := decided (.fence ord scope)
    [[(decide (ord = 0), .illegal), (decide (scope.toNat = 7), .reserved)], [dz, az, bz]]
  let flush : Decoded := decided (.icflush scope a b)
    [[(decide (scope.toNat < 2 ∨ scope.toNat = 6), .illegal), (decide (scope.toNat = 7), .reserved)], [dz]]
  match fn10.toNat with
  | 0x000 => decided .nop [[dz, az, bz]]
  | 0x001 => decided .halt [[dz, az, bz]]
  | 0x002 => decided .lsync [[dz, az, bz]]
  | 0x003 => decided .trap [[dz, az, bz]]
  | 0x004 => decided .eret [[dz, az, bz]]
  | 0x005 => decided (.time d) [[az, bz]]
  | 0x006 => decided (.migrate d a) [[bz]]
  | 0x080 => decided (.gresP g) [[gz, az, bz]]
  | 0x081 => decided (.gres g a) [[gz, bz]]
  | 0x082 => decided (.gresAny g p) [[gz, pz, bz]]
  | 0x083 => decided (.gresAll g p) [[gz, pz, bz]]
  | 0x084 => decided (.gwait g) [[gz, az, bz]]
  | 0x090 => decided (.bclose d) [[az, bz]]
  | 0x091 => decided (.bwait a) [[dz, bz]]
  | 0x0a0 => decided (.tcfg d a) [[bz]]
  | 0x0b0 => decided (.tfetch d) [[az, bz]]
  | 0x0b2 => decided (.latch d a) [[bz]]
  | 0x0b3 => decided (.audit d a) [[bz]]
  | 0x0c0 => .ok (.fork d a b)
  | 0x0c1 => decided (.commit d a) [[bz]]
  | 0x0c2 => decided (.squash d a) [[bz]]
  | 0x0c3 => decided (.rank d) [[az, bz]]
  | 0x0c4 => decided (.warp d a) [[bz]]
  | 0x0c5 => .ok (.flip d a b)
  | n => if 0x040 ≤ n ∧ n ≤ 0x05f then fence else if 0x060 ≤ n ∧ n ≤ 0x067 then flush else .error .reserved

/-- ENG (R108). -/
def decodeEng (w : Word) : Decoded :=
  let g : BitVec 4 := w.extractLsb' 7 4
  let ge : Bool := w.getLsbD 11
  let a := regField w 12
  let b := regField w 17
  let c := regField w 22
  let gz : Failure := (!ge && decide (g ≠ 0), .illegal)
  match (w.extractLsb' 27 5).toNat with
  | 0 => decided (.cpy ge g a b c) [[gz]]
  | 1 => decided (.tld ge g a b c) [[gz]]
  | 2 => decided (.tst ge g a b c) [[gz]]
  | 3 => decided (.mma ge g a b c) [[gz]]
  | 4 => decided (.tri ge g a b c) [[gz]]
  | 5 => decided (.tlut ge g a b c) [[gz]]
  | 6 => decided (.qfence ge g a) [[gz, (decide (b ≠ 0), .illegal), (decide (c ≠ 0), .illegal)]]
  | _ => .error .reserved

/-- The scalar decoder: steps 2 to 6 of R112 (Table 5.1). -/
def decodeScalar (w : Word) : Decoded :=
  let d := regField w 7
  let a := regField w 12
  let b := regField w 17
  let imm20 : BitVec 20 := w.extractLsb' 12 20
  let off : BitVec 5 := w.extractLsb' 27 5
  let evict : BitVec 3 := w.extractLsb' 24 3
  let scope : BitVec 3 := w.extractLsb' 21 3
  let ord : BitVec 2 := w.extractLsb' 19 2
  let sz : BitVec 2 := w.extractLsb' 17 2
  let fn10 : BitVec 10 := w.extractLsb' 22 10
  let az : Failure := (decide (a ≠ 0), .illegal)
  let bz : Failure := (decide (b ≠ 0), .illegal)
  let dz : Failure := (decide (d ≠ 0), .illegal)
  match (w.extractLsb' 0 7).toNat with
  | 0x01 => decodeOp w
  | 0x02 => decodeOpImm w
  | 0x03 => .ok (.li d imm20)
  | 0x04 => .ok (.lih d imm20)
  | 0x05 => decided (.j imm20) [[dz]]
  | 0x06 => .ok (.jal d imm20)
  | 0x07 => decided (.jr d a (w.extractLsb' 20 12)) [[(decide (w.extractLsb' 17 3 ≠ 0), .illegal)]]
  | 0x08 =>
    let cond : BitVec 4 := w.extractLsb' 7 4
    let x := regField w 11
    decided (.b cond x (w.extractLsb' 19 13)) [[(decide (6 < cond.toNat), .reserved)],
      [(decide (w.extractLsb' 16 3 ≠ 0), .illegal), (decide (cond = 0 ∧ x ≠ 0), .illegal)]]
  | 0x09 => decided (.ld off evict scope ord sz a d) [[(decide (scope.toNat = 7), .reserved), (decide (2 ≤ ord.toNat), .reserved)]]
  | 0x0a => decided (.st off evict scope ord sz a d)
      [[(decide (scope.toNat = 7), .reserved), (decide (ord.toNat ≠ 0 ∧ ord.toNat ≠ 2), .reserved)]]
  | 0x0b => decided (.srrd fn10 d) [[az, bz], scalarSrFate fn10.toNat]
  | 0x0c => decided (.srwr fn10 a) [[dz, bz], scalarSrFate fn10.toNat]
  | 0x0d => decodeSys w
  | 0x0e => decided (.lrun imm20) [[dz]]
  | 0x10 => decodeEng w
  | 0x00 => .error .illegal
  | 0x7f => .error .illegal
  | _ => .error .reserved

/-- The fields of the lane word whose bits are `b` (Table 4.2). -/
def laneFields (b : BitVec 96) : LWord :=
  { pred := b.extractLsb' 10 4, pn := b.getLsbD 14, dst := b.extractLsb' 15 7, src1 := b.extractLsb' 22 7,
    src2 := b.extractLsb' 29 7, ty := b.extractLsb' 36 5, la := b.extractLsb' 41 4, ord := b.extractLsb' 45 2,
    scope := b.extractLsb' 47 3, evict := b.extractLsb' 50 3, use := b.extractLsb' 53 3, i := b.getLsbD 56,
    x1 := b.getLsbD 57, x2 := b.getLsbD 58, x3 := b.getLsbD 59, aw := b.getLsbD 60, fn := b.extractLsb' 61 3,
    hi := b.extractLsb' 64 32 }

/-- The instruction of lane opcode `op` (Table 5.5). -/
def laneInstr (op : Nat) (w : LWord) : Option Instr :=
  match op with
  | 0x001 => some (.addLane w)
  | 0x002 => some (.subLane w)
  | 0x003 => some (.mulLane w)
  | 0x004 => some (.mulhLane w)
  | 0x005 => some (.mad w)
  | 0x006 => some (.divLane w)
  | 0x007 => some (.minLane w)
  | 0x008 => some (.maxLane w)
  | 0x009 => some (.abs w)
  | 0x00a => some (.andLane w)
  | 0x00b => some (.orLane w)
  | 0x00c => some (.xorLane w)
  | 0x00d => some (.andnLane w)
  | 0x00e => some (.shlLane w)
  | 0x00f => some (.shrLane w)
  | 0x010 => some (.sraLane w)
  | 0x011 => some (.clzLane w)
  | 0x012 => some (.popcLane w)
  | 0x013 => some (.brevLane w)
  | 0x014 => some (.bfeLane w)
  | 0x015 => some (.bfiLane w)
  | 0x016 => some (.sextLane w)
  | 0x017 => some (.zextLane w)
  | 0x018 => some (.selLane w)
  | 0x019 => some (.movLane w)
  | 0x01a => some (.liLane w)
  | 0x01b => some (.lihLane w)
  | 0x01c => some (.cmpLane w)
  | 0x01d => some (.sltLane w)
  | 0x040 => some (.fadd w)
  | 0x041 => some (.fsub w)
  | 0x042 => some (.fmul w)
  | 0x043 => some (.fma w)
  | 0x044 => some (.fmin w)
  | 0x045 => some (.fmax w)
  | 0x046 => some (.fcmp w)
  | 0x047 => some (.fdiv w)
  | 0x048 => some (.frcp w)
  | 0x049 => some (.frsq w)
  | 0x04a => some (.fsqrt w)
  | 0x04b => some (.fexp2 w)
  | 0x04c => some (.flog2 w)
  | 0x04d => some (.fsin w)
  | 0x04e => some (.fcos w)
  | 0x04f => some (.frnd w)
  | 0x050 => some (.fclass w)
  | 0x051 => some (.dot2 w)
  | 0x080 => some (.cvt w)
  | 0x081 => some (.blkq w)
  | 0x082 => some (.blkx w)
  | 0x0c0 => some (.plop w)
  | 0x0c1 => some (.vote w)
  | 0x0c2 => some (.shfl w)
  | 0x0c3 => some (.reduce w)
  | 0x0c4 => some (.scan w)
  | 0x100 => some (.br w)
  | 0x101 => some (.brx w)
  | 0x102 => some (.call w)
  | 0x103 => some .ret
  | 0x104 => some .join
  | 0x105 => some (.prio w)
  | 0x106 => some .yield
  | 0x107 => some (.exit w)
  | 0x110 => if w.fn.toNat = 0 then some (.bar w) else some (.barE w)
  | 0x111 => some (.arrive w)
  | 0x112 => if w.fn.toNat = 0 then some (.await w) else some (.awaitE w)
  | 0x140 => some (.ldLane w)
  | 0x141 => some (.stLane w)
  | 0x142 => some (.sld w)
  | 0x143 => some (.sample w)
  | 0x144 => some (.atom w)
  | 0x148 => some (.atomGroupB w)
  | 0x145 => some (.fenceLane w)
  | 0x146 => some (.pathfence w)
  | 0x147 => some (.cpyLane w)
  | 0x180 => some (.mmaLane w)
  | 0x181 => some (.triLane w)
  | 0x182 => some (.tlutLane w)
  | 0x188 => some (.attr w)
  | 0x189 =>
    match w.fn.toNat with
    | 0 => some (.emitPut w)
    | 1 => some (.emitTake w)
    | 2 => some (.emitPrim w)
    | _ => some (.emitPix w)
  | 0x18a => some (.osbegin w)
  | 0x18b => some (.osend w)
  | 0x18c => some (.trace w)
  | 0x190 => some (.launch w)
  | 0x1c0 => some .nopLane
  | 0x1c1 => some (.srrdLane w)
  | 0x1c2 => some (.srwrLane w)
  | 0x1c3 => some (.timeLane w)
  | 0x1c4 => some .trapLane
  | _ => none

/-- The lane decoder in a kernel of `nregs` lane registers: steps 2 to 9 of R112. -/
def decodeLane (nregs : Nat) (b : BitVec 96) : Decoded :=
  let op := (b.extractLsb' 0 10).toNat
  let w := laneFields b
  match laneFate nregs op w, laneInstr op w with
  | none, some i => .ok i
  | some f, _ => .error f
  | none, none => .error .reserved

/-- Step 1 of R112 for a scalar fetch (R70). -/
def scalarAligned (pc : DWord) : Bool := decide (pc.toNat % 4 = 0)

/-- Step 1 of R112 for a lane fetch: line + 12·k (R71). -/
def laneAligned (pc : DWord) : Bool := decide (pc.toNat % 128 < 120 ∧ pc.toNat % 128 % 12 = 0)

/-- The packet of a ring entry or store record of queue `q` (Table 12.3); none: its TYPE is not in the table. -/
def packetInstr (q : Nat) (p : Packet) : Option Instr :=
  match p.typeNo with
  | 1 => some (.flipPacket q p)
  | 2 => some (.commitPacket q p)
  | 3 => some (.latchPacket q p)
  | 4 => some (.launchPacket q p)
  | 5 => some (.copyPacket q p)
  | 6 => some (.fencePacket q p)
  | 7 => some (.waitPacket q p)
  | 8 => some (.capstartPacket q p)
  | 9 => some (.capstopPacket q p)
  | 10 => some (.nopPacket q p)
  | _ => none

/-! ## The encoder -/

/-- S-R (Table 4.1). -/
def encR (fn7 : BitVec 7) (fn3 : BitVec 3) (b a d : BitVec 5) : Word := fn7 ++ fn3 ++ b ++ a ++ d ++ (0x01 : BitVec 7)

/-- S-I. -/
def encI (imm : BitVec 12) (fn3 : BitVec 3) (a d : BitVec 5) (op : BitVec 7) : Word := imm ++ fn3 ++ a ++ d ++ op

/-- S-L. -/
def encL (imm : BitVec 20) (d : BitVec 5) (op : BitVec 7) : Word := imm ++ d ++ op

/-- S-M. -/
def encM (off : BitVec 5) (evict scope : BitVec 3) (ord sz : BitVec 2) (b t : BitVec 5) (op : BitVec 7) : Word :=
  off ++ evict ++ scope ++ ord ++ sz ++ b ++ t ++ op

/-- S-B. -/
def encB (disp : BitVec 13) (a : BitVec 5) (cond : BitVec 4) : Word := disp ++ (0 : BitVec 3) ++ a ++ cond ++ (0x08 : BitVec 7)

/-- S-E. -/
def encE (fn5 c b a : BitVec 5) (ge : Bool) (g : BitVec 4) : Word := fn5 ++ c ++ b ++ a ++ BitVec.ofBool ge ++ g ++ (0x10 : BitVec 7)

/-- S-X. -/
def encX (fn10 : BitVec 10) (b a d : BitVec 5) (op : BitVec 7) : Word := fn10 ++ b ++ a ++ d ++ op

/-- SYS. -/
def encS (fn10 : BitVec 10) (b a d : BitVec 5) : Word := encX fn10 b a d 0x0d

/-- The FN3 of a signed or unsigned variant. -/
def fnBit (u : Bool) : BitVec 3 := if u then 1 else 0

/-- A guard slot or predicate in a register field (R107). -/
def slotField (g : BitVec 4) : BitVec 5 := (0 : BitVec 1) ++ g

/-- The word of a scalar instruction; none for what is no scalar instruction. -/
def encodeScalar : Instr → Option Word
  | .add d a b => some (encR 0x00 0 b a d)
  | .sub d a b => some (encR 0x01 0 b a d)
  | .mul d a b => some (encR 0x02 0 b a d)
  | .and d a b => some (encR 0x08 0 b a d)
  | .or d a b => some (encR 0x09 0 b a d)
  | .xor d a b => some (encR 0x0a 0 b a d)
  | .andn d a b => some (encR 0x0b 0 b a d)
  | .shl d a b => some (encR 0x0c 0 b a d)
  | .shr d a b => some (encR 0x0d 0 b a d)
  | .sra d a b => some (encR 0x0e 0 b a d)
  | .sel d a b => some (encR 0x11 0 b a d)
  | .bfi d a b => some (encR 0x19 0 b a d)
  | .mulh u d a b => some (encR 0x03 (fnBit u) b a d)
  | .div u d a b => some (encR 0x04 (fnBit u) b a d)
  | .rem u d a b => some (encR 0x05 (fnBit u) b a d)
  | .min u d a b => some (encR 0x06 (fnBit u) b a d)
  | .max u d a b => some (encR 0x07 (fnBit u) b a d)
  | .slt u d a b => some (encR 0x0f (fnBit u) b a d)
  | .mov d a => some (encR 0x12 0 0 a d)
  | .clz d a => some (encR 0x13 0 0 a d)
  | .popc d a => some (encR 0x14 0 0 a d)
  | .brev d a => some (encR 0x15 0 0 a d)
  | .cmp c d a b => some (encR 0x10 c b a d)
  | .sext w d a => some (encR 0x16 w 0 a d)
  | .zext w d a => some (encR 0x17 w 0 a d)
  | .bfe u d a b => some (encR 0x18 (fnBit u) b a d)
  | .addImm d a imm => some (encI imm 0 a d 0x02)
  | .andImm d a imm => some (encI imm 1 a d 0x02)
  | .orImm d a imm => some (encI imm 2 a d 0x02)
  | .xorImm d a imm => some (encI imm 3 a d 0x02)
  | .sltImm d a imm => some (encI imm 7 a d 0x02)
  | .shlImm d a c => some (encI ((0 : BitVec 6) ++ c) 4 a d 0x02)
  | .shrImm d a c => some (encI ((0 : BitVec 6) ++ c) 5 a d 0x02)
  | .sraImm d a c => some (encI ((0 : BitVec 6) ++ c) 6 a d 0x02)
  | .li d imm => some (encL imm d 0x03)
  | .lih d imm => some (encL imm d 0x04)
  | .j imm => some (encL imm 0 0x05)
  | .jal d imm => some (encL imm d 0x06)
  | .jr d a imm => some (encI imm 0 a d 0x07)
  | .b cond a disp => some (encB disp a cond)
  | .ld off evict scope ord sz b t => some (encM off evict scope ord sz b t 0x09)
  | .st off evict scope ord sz b t => some (encM off evict scope ord sz b t 0x0a)
  | .srrd num d => some (encX num 0 0 d 0x0b)
  | .srwr num a => some (encX num 0 a 0 0x0c)
  | .lrun imm => some (encL imm 0 0x0e)
  | .fence ord scope => some (encS ((2 : BitVec 5) ++ ord ++ scope) 0 0 0)
  | .icflush scope a b => some (encS ((0x0c : BitVec 7) ++ scope) b a 0)
  | .nop => some (encS 0x000 0 0 0)
  | .halt => some (encS 0x001 0 0 0)
  | .lsync => some (encS 0x002 0 0 0)
  | .trap => some (encS 0x003 0 0 0)
  | .eret => some (encS 0x004 0 0 0)
  | .time d => some (encS 0x005 0 0 d)
  | .migrate d a => some (encS 0x006 0 a d)
  | .gresP g => some (encS 0x080 0 0 (slotField g))
  | .gres g a => some (encS 0x081 0 a (slotField g))
  | .gresAny g p => some (encS 0x082 0 (slotField p) (slotField g))
  | .gresAll g p => some (encS 0x083 0 (slotField p) (slotField g))
  | .gwait g => some (encS 0x084 0 0 (slotField g))
  | .bclose d => some (encS 0x090 0 0 d)
  | .bwait a => some (encS 0x091 0 a 0)
  | .tcfg d a => some (encS 0x0a0 0 a d)
  | .tfetch d => some (encS 0x0b0 0 0 d)
  | .latch d a => some (encS 0x0b2 0 a d)
  | .audit d a => some (encS 0x0b3 0 a d)
  | .fork d a b => some (encS 0x0c0 b a d)
  | .commit d a => some (encS 0x0c1 0 a d)
  | .squash d a => some (encS 0x0c2 0 a d)
  | .rank d => some (encS 0x0c3 0 0 d)
  | .warp d a => some (encS 0x0c4 0 a d)
  | .flip d a b => some (encS 0x0c5 b a d)
  | .cpy ge g a b c => some (encE 0 c b a ge g)
  | .tld ge g a b c => some (encE 1 c b a ge g)
  | .tst ge g a b c => some (encE 2 c b a ge g)
  | .mma ge g a b c => some (encE 3 c b a ge g)
  | .tri ge g a b c => some (encE 4 c b a ge g)
  | .tlut ge g a b c => some (encE 5 c b a ge g)
  | .qfence ge g a => some (encE 6 0 0 a ge g)
  | _ => none

/-- The 96 bits of a lane word with opcode `op` (Table 4.2). -/
def laneBits (op : BitVec 10) (w : LWord) : BitVec 96 :=
  w.hi ++ w.fn ++ BitVec.ofBool w.aw ++ BitVec.ofBool w.x3 ++ BitVec.ofBool w.x2 ++ BitVec.ofBool w.x1 ++ BitVec.ofBool w.i ++ w.use ++
    w.evict ++ w.scope ++ w.ord ++ w.la ++ w.ty ++ w.src2 ++ w.src1 ++ w.dst ++ BitVec.ofBool w.pn ++ w.pred ++ op

/-- The bits of a lane instruction; none for what is none. -/
def encodeLane (i : Instr) : Option (BitVec 96) :=
  match i.lword with
  | some w => some (laneBits (BitVec.ofNat 10 (laneOpcode i)) w)
  | none => none

/-- The words of an instruction, lowest address first (R70, R71); none for a step that no word holds. -/
def encode (i : Instr) : Option (List Word) :=
  match encodeLane i with
  | some b => some [b.extractLsb' 0 32, b.extractLsb' 32 32, b.extractLsb' 64 32]
  | none =>
    match encodeScalar i with
    | some w => some [w]
    | none => none

/-- What the decoder reads from an instruction whose bits are `w`, as the opcode table numbers them: a scalar word of up to
32 bits, otherwise a lane word in a kernel of 128 lane registers. -/
def decodeTableWord (nbits w : Nat) : Option Instr :=
  let r := if nbits ≤ 32 then decodeScalar (BitVec.ofNat 32 w) else decodeLane 128 (BitVec.ofNat 96 w)
  match r with
  | .ok i => some i
  | .error _ => none

end Sys2Proof
end

