-- ==== Sys2Proof/Machine/LaneFile.lean ====
section
/-! DEFINITION. The physical lane file of a core: group-registers allocated, spilled to their team's spill area and reloaded (R34 to R37). A
register's value is the team's own (`Team.v`) wherever it stands. -/

namespace Sys2Proof.Machine

/-- Physical group-registers of a core (R34). -/
def fileSize : Nat := 6144

/-- The number of a group-register in its team. -/
def fileKey (g r : Nat) : Nat := 128 * g + r

/-- Physical group-registers in use on core `c`. -/
def fileUsed (s : State) (c : Nat) : Nat := (s.teams.filter (fun t => t.core == c)).foldl (fun n t => n + t.file.length) 0

/-- The earlier of two uses: stamp, slot, group-register. -/
def earlier (a b : Nat × Nat × Nat) : Nat × Nat × Nat := if b.1 < a.1 then b else a

/-- The least recently used group-register of core `c`, of any slot: its slot and number. -/
def fileVictim (s : State) (c : Nat) : Option (Nat × Nat) :=
  let all := (s.teams.filter (fun t => t.core == c)).flatMap (fun t => t.file.map (fun e => (e.2, t.slot, e.1)))
  match all with
  | [] => none
  | e :: es => some (es.foldl earlier e).2

/-- The 128 bytes of a group-register. -/
def Team.fileBytes (t : Team) (key : Nat) : List Byte :=
  (List.range 32).flatMap (fun j => leBytes 4 (t.vr (32 * (key / 128) + j) (key % 128)).toNat)

/-- Where a group-register lies in its team's spill area: window word D + r of its lanes (R174; the layout is a choice, assumption log 52). -/
def Team.spillVa (t : Team) (x : Ctx) (key : Nat) : DWord := t.windowVa x (32 * (key / 128)) (t.priv + key % 128)

/-- A group-register of the team in focus is in the file, used now. -/
def stampKey (key : Nat) : Act Unit := change (fun s => { s with
  caches := { s.caches with uses := s.caches.uses + 1 }
  t := { s.t with file := sset 0 s.t.file key (s.caches.uses + 1) } })

/-- A group-register of the team in focus leaves the file for its spill area, through the L1 (R36). Where the write faults the spill is not
performed: the register stays in the file, and the next victim is another (assumption log 52). -/
def spillKey (key : Nat) : Act Unit := do
  let s ← get
  let va := s.t.spillVa (ctxOf s s.t.ctx) key
  match ← vwrite s.t.tagPriv .store 3 va (s.t.fileBytes key) with
  | .error _ => stampKey key
  | .ok _ => do
    hotPass s.t.tagPriv 1 (lineAddrs va 128)
    change (fun s => s.upd (fun t => { t with file := sdel t.file key, spilled := key :: t.spilled }))

/-- The team in slot `k` of core `c` comes into focus again. -/
def refocus (c k : Nat) : Act Unit := change (fun s => (s.focus c k).getD s)

/-- Core `c` holds no more group-registers than its file does: the least recently used are spilled, at most `n` (R36). -/
def fitFile (c : Nat) : Nat → Act Unit
  | 0 => pure ()
  | n + 1 => do
    let s ← get
    if fileUsed s c ≤ fileSize then pure ()
    else match fileVictim s c with
      | none => pure ()
      | some (slot, key) => do
        let (core, home) := (s.t.core, s.t.slot)
        refocus c slot
        spillKey key
        refocus core home
        fitFile c n

/-- A spilled group-register of the team in focus is read back. Where a program has stored to its bytes, each of its lanes holds a free value
from then on (R37, assumption log 52). -/
def reloadKey (key : Nat) : Act Unit := do
  let s ← get
  let va := s.t.spillVa (ctxOf s s.t.ctx) key
  let r ← vread s.t.tagPriv .load none 3 va 128
  hotPass s.t.tagPriv 0 (lineAddrs va 128)
  let spoilt := match r with
    | .ok bs => decide (bs ≠ s.t.fileBytes key)
    | .error _ => false
  change (fun s => s.upd (fun t =>
    let t := { t with spilled := t.spilled.filter (fun k => k != key) }
    if spoilt then
      (List.range 32).foldl (fun t j => t.setV (32 * (key / 128) + j) (key % 128)
        (BitVec.ofNat 32 (leNat ((List.range 4).map (fun i => Config.freeByte (4096 * s.free + 4 * j + i)))))) t
    else t))

/-- A use of a group-register by the team in focus: a spilled one is reloaded, a first write allocates it, a read of one never written
allocates nothing (R35, R36). -/
def useKey (write : Bool) (key : Nat) : Act Unit := do
  let s ← get
  let held := decide (sget 0 s.t.file key ≠ 0)
  let away := s.t.spilled.contains key
  if away then reloadKey key else pure ()
  if held || away || write then stampKey key else pure ()

/-- The uses an instruction makes of the registers `reads` and `writes` in the groups of some lanes, pass by pass (R28), in each pass the
registers read first; then the file fits again. -/
def useFile (m : Mask) (reads writes : List Nat) : Act Unit := do
  let gs := (List.range 32).filter (fun g => decide (groupWord m g ≠ 0))
  gs.forM (fun g => do
    (reads.map (fileKey g)).forM (useKey false)
    (writes.map (fileKey g)).forM (useKey true))
  let s ← get
  fitFile s.t.core fileSize

end Sys2Proof.Machine
end

