-- ==== Sys2Proof/Machine/Fetch.lean ====
section
/-! DEFINITION. What stands between a stream and its next instruction: the fetch with its old copies, the scoreboards, the windows and the
lane file (R18, R34 to R36, R70, R71, R83, R84, R95, R99, R103, R112, R292, R294). -/

namespace Sys2Proof.Machine

/-! ## Fetch (R70, R71, R95, R99) -/

/-- Whether a copy of code is of the line the fetching pennant sees: its own, or the trunk's where it has no version (R215). -/
def CodeUnit.seenBy (u : CodeUnit) (s : State) (a : Acc) : Bool :=
  u.pennant == a.pennant || (u.pennant == 0 && (verOf s a.ctx a.pennant (lineOf u.pa)).isNone)

/-- The copies of an aligned 8-byte unit of code a core's lane or scalar instruction cache holds. -/
def codeCopies (s : State) (a : Acc) (lane : Bool) (va pa : Nat) : List (List Byte) :=
  (s.caches.icache.filter (fun u => u.core == a.core && u.lane == lane && u.ctx == a.ctx && u.va == va && u.pa == pa && u.seenBy s a)).map
    (fun u => u.data)

/-- Units an instruction cache holds: 64 KB for lane code, 16 KB for scalar code (R18). -/
def codeRoom (lane : Bool) : Nat := if lane then 8192 else 2048

/-- A unit enters an instruction cache; a full one gives up its oldest unit (assumption log 71). -/
def State.cacheCode (s : State) (u : CodeUnit) : State :=
  let mine (k : CodeUnit) : Bool := k.core == u.core && k.lane == u.lane
  let old := s.caches.icache.filter mine
  let kept := if codeRoom u.lane ≤ old.length then
      match old with
      | o :: _ => s.caches.icache.erase o
      | [] => s.caches.icache
    else s.caches.icache
  { s with caches := { s.caches with icache := kept ++ [u] } }

/-- What memory holds of a unit, as the fetching team's pennant sees it. -/
def codeMemory (a : Acc) (pa : Nat) : Act (List Byte) := do
  let s ← get
  match regionOf s.win.memCode pa with
  | .gddr => pure (if a.pennant = 0 then memBytes s.mem pa 8 else pennantBytes s a.ctx a.pennant 2 pa 8)
  | _ => physRead { a with team := false } pa 8

/-- One unit as a fetch takes it (R95): memory's bytes, or any copy the core holds; the free number `c` chooses where they differ. The
core holds memory's bytes from then on, too. -/
def fetchUnit (a : Acc) (lane : Bool) (c va pa : Nat) : Act (List Byte) := do
  let s ← get
  let now ← codeMemory a pa
  let held := codeCopies s a lane va pa
  if held.contains now then pure ()
  else change (fun s => s.cacheCode { core := a.core, ctx := a.ctx, pennant := a.pennant, lane := lane, va := va, pa := pa, data := now })
  let old := held.filter (fun d => d != now)
  pure (if old.isEmpty then now else (now :: old).getD (c % (old.length + 1)) now)

/-- Fetch `n` units in order. -/
def fetchUnits (a : Acc) (lane : Bool) (va pa : Nat) : Nat → Nat → Act (List Byte)
  | 0, _ => pure []
  | n + 1, c => do
    let s ← get
    let bs ← fetchUnit a lane c va pa
    let rest ← fetchUnits a lane (va + 8) (pa + 8) n (c / ((codeCopies s a lane va pa).length + 1))
    pure (bs ++ rest)

/-- Fetch the `n` bytes of an instruction at `pc`, which lie in one code line. -/
def fetchCode (a : Acc) (lane : Bool) (pc : DWord) (n : Nat) : Act (Except TFault (List Byte)) := do
  match ← translate a .fetch none pc with
  | .error f => pure (.error f)
  | .ok pa => do
    hotAccess a 3 pc
    let s ← get
    let off := pc.toNat % 8
    let bs ← fetchUnits a lane (pc.toNat - off) (pa - off) ((off + n + 7) / 8) (Config.choice s.free)
    pure (.ok ((bs.drop off).take n))

/-- A core fetches a unit of a team's code ahead of its issue (R95): a later fetch may take this copy. A fault has no effect. -/
def prefetch (a : Acc) (lane : Bool) (va : Nat) : Act Unit := do
  match ← translate a .fetch none (BitVec.ofNat 64 (8 * va)) with
  | .error _ => pure ()
  | .ok pa => do
    hotAccess a 3 (BitVec.ofNat 64 (8 * va))
    let s ← get
    if regionOf s.win.memCode pa = .gddr then do
      let _ ← fetchUnit a lane 0 ((BitVec.ofNat 64 (8 * va)).toNat) pa
      pure ()
    else pure ()

/-- Little-endian bytes as an instruction word. -/
def wordOf (n : Nat) (bs : List Byte) : BitVec n := BitVec.ofNat n (leNat bs)

/-- The instruction a decoded word issues as: what is no instruction issues as the illegal-instruction trap (R102). -/
def issueOf : Decoded → Instr
  | .ok i => i
  | .error f => .illegalInstructionIssue (decide (f = .reserved))

/-- The scalar stream's next instruction (R70, R112). -/
def fetchScalar (t : Team) : Act (Except TFault Instr) := do
  if !scalarAligned t.spc then pure (.ok (.illegalInstructionIssue false))
  else do
    match ← fetchCode t.tag false t.spc 4 with
    | .error f => pure (.error f)
    | .ok bs => pure (.ok (issueOf (decodeScalar (wordOf 32 bs))))

/-- The issuing path's next instruction (R71, R112). -/
def fetchLane (t : Team) : Act (Except TFault Instr) := do
  if !laneAligned t.cur.pc then pure (.ok (.illegalInstructionIssue false))
  else do
    match ← fetchCode t.tag true t.cur.pc 12 with
    | .error f => pure (.error f)
    | .ok bs => pure (.ok (issueOf (decodeLane t.nregs (wordOf 96 bs))))

/-- A fetch failed (R99): a stopping fault, or it parks like a data fault; nothing of the stream issues until its replay. -/
def State.fetchFault (s : State) (f : TFault) (lane : Bool) : State :=
  let t := s.t
  let pc := if lane then t.cur.pc else t.spc
  let g := if lane then ((List.range 32).find? (fun g => groupWord t.cur.mask g ≠ 0)).getD 0 else 0
  let site := t.site 3 g lane
  let lanes := if lane then groupWord t.cur.mask g else 0
  if !f.replayable then s.stopTeam f site pc lanes
  else if 64 ≤ logUsed s t.core then s
  else
    let id := freshId s t.ctx
    (s.record t.ctx id f site pc lanes).upd (fun t => { t with
      oplog := t.oplog ++ [{
        id := id, record := true, instr := none, tag := 0, access := 3, scalar := !lane, pc := pc, path := if lane then t.curPath else 0, group := g, lanes := []
        va := f.va }]
      sFetch := if lane then t.sFetch else some id })

/-! ## The scalar scoreboard (R84, R292) -/

/-- The x registers a scalar instruction reads or writes. -/
def scalarRegs : Instr → List (BitVec 5)
  | .add d a b | .sub d a b | .mul d a b | .and d a b | .or d a b | .xor d a b | .andn d a b | .shl d a b | .shr d a b | .sra d a b
  | .sel d a b | .bfi d a b | .fork d a b | .flip d a b => [d, a, b]
  | .mulh _ d a b | .div _ d a b | .rem _ d a b | .min _ d a b | .max _ d a b | .slt _ d a b | .cmp _ d a b | .bfe _ d a b => [d, a, b]
  | .mov d a | .clz d a | .popc d a | .brev d a | .migrate d a | .tcfg d a | .latch d a | .audit d a | .commit d a | .squash d a
  | .warp d a => [d, a]
  | .sext _ d a | .zext _ d a => [d, a]
  | .addImm d a _ | .andImm d a _ | .orImm d a _ | .xorImm d a _ | .sltImm d a _ | .jr d a _ => [d, a]
  | .shlImm d a _ | .shrImm d a _ | .sraImm d a _ => [d, a]
  | .li d _ | .lih d _ | .jal d _ | .time d | .bclose d | .tfetch d | .rank d => [d]
  | .b _ a _ | .srwr _ a | .gres _ a | .bwait a | .qfence _ _ a => [a]
  | .srrd _ d => [d]
  | .ld _ _ _ _ _ b t | .st _ _ _ _ _ b t => [b, t]
  | .icflush _ a b => [a, b]
  | .cpy _ _ a b c | .tld _ _ a b c | .tst _ _ a b c | .mma _ _ a b c | .tri _ _ a b c | .tlut _ _ a b c => [a, b, c]
  | _ => []

/-- Scalar memory accesses, fences and engine commands, and what acts as one: they wait for a parked access (R292). -/
def scalarOrdered : Instr → Bool
  | .ld _ _ _ _ _ _ _ | .st _ _ _ _ _ _ _ | .fence _ _ | .icflush _ _ _ | .lrun _ | .lsync | .migrate _ _ | .latch _ _
  | .fork _ _ _ | .commit _ _ | .squash _ _ | .rank _ | .warp _ _ | .flip _ _ _ | .cpy _ _ _ _ _ | .tld _ _ _ _ _ | .tst _ _ _ _ _
  | .mma _ _ _ _ _ | .tri _ _ _ _ _ | .tlut _ _ _ _ _ | .qfence _ _ _ => true
  | _ => false

/-- Whether an instruction waits for a parked scalar access: TFETCH does in a coverage launch, where it releases (R240, R261). -/
def scalarBehind (s : State) (i : Instr) : Bool :=
  scalarOrdered i || (match i with
    | .tfetch _ => (match launchOf s s.t.launch with
      | some l => l.cov.isSome
      | none => false)
    | _ => false)

/-- Traps of the scalar stream: every earlier instruction has completed by then (R103). -/
def scalarTraps : Instr → Bool
  | .trap | .eret | .illegalInstructionIssue _ => true
  | _ => false

/-- Scalar instructions that access memory as they issue. -/
def scalarAccess : Instr → Bool
  | .ld _ _ _ _ _ _ _ | .st _ _ _ _ _ _ _ | .warp _ _ => true
  | _ => false

/-- Loads and atomics that acquire (Table 4.5). -/
def acquires : Instr → Bool
  | .ldLane w | .sld w | .sample w | .atom w | .atomGroupB w => decide (w.ord = 1 ∨ w.ord = 3)
  | .ld _ _ _ ord _ _ _ => decide (ord = 1)
  | _ => false

/-- Whether a TIME waits for an earlier acquire of its stream or path that is parked (R396). -/
def Team.timeWaits (t : Team) (i : Instr) : Bool :=
  t.oplog.any (fun e => (match e.instr, i with
    | some j, .time _ => e.scalar && acquires j
    | some j, .timeLane _ => !e.scalar && acquires j && e.lanes.any (fun l => t.cur.mask.getLsbD l.lane)
    | _, _ => false))

/-- Whether a scalar instruction must wait at issue. -/
def scalarWaits (s : State) (i : Instr) : Bool :=
  (frozen s s.t && scalarAccess i) || s.t.timeWaits i || (match s.t.sPark with
    | none => false
    | some (_, _, xt) => scalarBehind s i || scalarTraps i || (decide (xt ≠ 0) && (scalarRegs i).contains xt))

/-- Whether the scalar stream issues at all: the team runs, no fetch of it is parked, its window is not used up, and an instruction of it
that is under way is one that goes on once its parked access is replayed. -/
def scalarLive (s : State) : Bool :=
  let t := s.t
  decide (t.life = .running) && !t.debug && t.sFetch.isNone &&
    (decide (t.wait = .none) || (t.wait.again.isSome && t.sPark.isNone)) && (match t.sPark with
    | some (_, k, _) => decide (k ≠ 0)
    | none => true)

/-! ## The lane scoreboard (R83, R103, R292, R294) -/

/-- The lane registers an operand position names. -/
def opdRegs (o : Opd) (f : BitVec 7) (x : Bool) : List Nat :=
  match o with
  | .v n => (List.range n).map (· + f.toNat)
  | .vx n => if x then [] else (List.range n).map (· + f.toNat)
  | _ => []

/-- The form of a lane instruction. -/
def formOf (i : Instr) : Option (LForm × LWord) :=
  match i.lword with
  | some w => (laneForm (laneOpcode i) w).map (fun m => (m, w))
  | none => none

/-- The lane registers an instruction reads or writes. -/
def laneRegs (i : Instr) : List Nat :=
  match formOf i with
  | some (m, w) => opdRegs m.dst w.dst false ++ opdRegs (m.opd1 w) w.src1 w.x1 ++ opdRegs (m.opd2 w) w.src2 w.x2 ++
      opdRegs (m.opd3 w) w.src3 w.x3opd
  | none => []

/-- The lane registers a parked instruction has still to write; stores, copies and quanta write none. -/
def pendingRegs (i : Instr) : List Nat :=
  match i, formOf i with
  | .stLane _, _ => []
  | .cpyLane _, _ => []
  | _, some (m, w) => opdRegs m.dst w.dst false
  | _, none => []

/-- Lane instructions that only read their DST. -/
def dstRead : Instr → Bool
  | .stLane _ | .cpyLane _ | .mmaLane _ | .triLane _ | .tlutLane _ => true
  | _ => false

/-- The lane registers an instruction writes. -/
def laneWrites (i : Instr) : List Nat :=
  match formOf i with
  | some (m, w) => if dstRead i then [] else opdRegs m.dst w.dst false
  | none => []

/-- The uses a lane instruction makes of the lane file in the groups of its participants (R35, R36). -/
def useRegs (i : Instr) : Act Unit := do
  let s ← get
  match formOf i with
  | some (_, w) => useFile (s.t.partMask w) (laneRegs i).eraseDups (laneWrites i).eraseDups
  | none => pure ()

/-- Whether an instruction names a register that is pending in a lane of the issuing path. -/
def Team.conflict (t : Team) (i : Instr) : Bool :=
  t.oplog.any (fun e => !e.scalar && e.lanes.any (fun l => t.cur.mask.getLsbD l.lane) && (match e.instr with
    | some j => (pendingRegs j).any (fun r => (laneRegs i).contains r)
    | .none => false))

/-- The lanes whose parked accesses a lane instruction waits for: the participants of a collective, of an EMIT and of an ordered section;
every lane of the path at a barrier, or at a RET that ends the block for them (R54, R292, R294, R384, R405). -/
def needsLanes (t : Team) : Instr → Mask
  | .ret => if t.cur.rstack.isEmpty then t.cur.mask else 0
  | .bar _ | .barE _ | .arrive _ | .await _ | .awaitE _ => t.cur.mask
  | .vote w | .shfl w | .reduce w | .scan w | .emitPut w | .emitTake w | .emitPrim w | .emitPix w | .osbegin w | .osend w => t.partMask w
  | _ => 0

/-- Whether an EXIT waits as a whole: every lane it ends has a parked access. Else those without one exit at once (R353). -/
def exitWaits (t : Team) : Instr → Bool
  | .exit w => !(t.parts w).isEmpty && (t.parts w).all t.pending
  | _ => false

/-- Whether a lane instruction waits for earlier ones of its path: a fence for those of its lanes (R183, R195), a trap for every one (R103), and
a JOIN at the rejoin point of its own split for every one of the arms (R66, R370). -/
def needsQuiet (t : Team) : Instr → Bool
  | .fenceLane _ | .pathfence _ => !t.lanesQuiet t.cur
  | .trapLane | .illegalInstructionIssue _ => !t.quiet t.cur
  | .join => t.cur.joined && !t.quiet t.cur
  | _ => false

/-- Lane instructions that access memory. -/
def laneAccess : Instr → Bool
  | .ldLane _ | .stLane _ | .sld _ | .sample _ | .atom _ | .atomGroupB _ | .cpyLane _ | .trace _ | .launch _ => true
  | _ => false

/-- Whether a lane of a mask has a parked access. -/
def Team.anyPending (t : Team) (m : Mask) : Bool := t.oplog.any (fun e => !e.scalar && e.lanes.any (fun l => m.getLsbD l.lane))

/-- Whether a lane instruction must wait at issue. -/
def laneWaits (s : State) (i : Instr) : Bool :=
  (frozen s s.t && laneAccess i) || s.t.timeWaits i || s.t.conflict i || s.t.anyPending (needsLanes s.t i) || exitWaits s.t i || needsQuiet s.t i

/-- Whether the issuing path may take an issue slot: it runs on an arm of a block that is not paused, is not held, has not arrived at its
rejoin point, its window is not used up and no fetch of it is parked. With NONSTOP = 1 a sibling arm runs on beside a path's debug stop
(R309). A barrier completes at the instant its last counted lane arrives (R326), so no path of the team issues before BARRIER_COMPLETE has
run for it. -/
def pathLive (s : State) : Bool :=
  let t := s.t
  let p := t.cur
  t.alive && !t.paused && t.running.isSome && (t.armOf t.curPath).isSome && !t.arrived p && t.barriers.all (fun b => !t.completes b.1) &&
    (match p.hold with
      | .none | .cube _ | .prim _ _ => laneRuns s t
      | .debug ok => ok && !t.debug
      | _ => false) &&
    t.windowsOpen p && t.oplog.all (fun e => e.scalar || e.instr.isSome || e.path != p.idx)

end Sys2Proof.Machine
end

