-- ==== Sys2Proof/Machine/FrontEnd.lean ====
section
/-! DEFINITION. The rendering front end: payload rings, primitive blocks, rasterisation, pixel items, attributes, ordered sections
(chapter 13, R351). -/

namespace Sys2Proof.Machine

/-! ## The payload ring (R266, R267) -/

/-- The lane an EMIT form reads its operands from (R266). -/
def Team.emitLane (t : Team) (w : LWord) : Option Nat := (t.parts w).head?

/-- The storage-operand fault of an EMIT form, naming its claim offset. -/
def State.emitStop (s : State) (off : Nat) : State := s.stopLane 0x07 0 (BitVec.ofNat 64 off)

/-- EMIT.PUT (R267): the path waits; PAYLOAD_PUT_COPY ends it. -/
def execEmitPut (w : LWord) (s : State) : Out :=
  match s.t.emitLane w with
  | none => .next (s.upd Team.endL)
  | some lane =>
    let off := s.t.a w lane 1
    let n := s.t.b w lane 1
    if off % 16 ≠ 0 ∨ 16384 < n ∨ s.t.claim < off + n then .next (s.emitStop off)
    else .next (s.upd (fun t => t.drainPort.updCur (fun p => { p with hold := .put off n })))

/-- Payloads in the ring of core `c`. -/
def ringUsed (s : State) (c : Nat) : Nat := (s.front.ring.filter (fun r => r.core == c)).length

/-- PAYLOAD_PUT_COPY (R267): a waiting PUT finds a free slot and copies its payload. -/
def execPayloadPutCopy (core slot path : Nat) (s : State) : Out :=
  match s.focus core slot with
  | none => .next s
  | some s =>
    let t := s.t
    match (t.path path).hold with
    | .put off n =>
      if !t.alive || t.paused || !laneRuns s t || decide (4 ≤ ringUsed s core) then .next s
      else
        let item : Payload := { core := core, ctx := t.ctx, pennant := t.pennant, data := t.spadRead off n }
        let s := { s with front := { s.front with ring := s.front.ring ++ [item] } }
        .next (s.upd (fun t => ({ t with curPath := path }.updCur (fun p => { p with hold := .none })).endL))
    | _ => .next s

/-- Remove the first element `f` accepts. -/
def dropFirst {α : Type} (f : α → Bool) : List α → List α
  | [] => []
  | a :: as => if f a then as else a :: dropFirst f as

/-- EMIT.TAKE (R267). -/
def execEmitTake (w : LWord) (s : State) : Out :=
  let t := s.t
  match t.emitLane w with
  | none => .next (s.upd Team.endL)
  | some lane =>
    let off := t.a w lane 1
    if off % 16 ≠ 0 ∨ t.claim < off + 16384 then .next (s.emitStop off)
    else
      let mine (r : Payload) : Bool := r.core == t.core && r.ctx == t.ctx && r.pennant == t.pennant
      match s.front.ring.find? mine with
      | none => .next (s.upd (fun t => (t.drainPort.mapV w 1 (fun _ => 0xffffffff)).endL))
      | some r =>
        let s := { s with front := { s.front with ring := dropFirst mine s.front.ring } }
        .next (s.upd (fun t => ((t.drainPort.spadWrite off r.data).mapV w 1 (fun _ => r.data.length)).endL))

/-! ## Primitive blocks (R269, R270) -/

/-- V, T and NA of a primitive block. -/
def primV (d : List Byte) : Nat := natAt d 0 2
def primT (d : List Byte) : Nat := natAt d 2 2
def primNA (d : List Byte) : Nat := natAt d 0x0d 1

/-- The size a block's header gives. -/
def primSize (d : List Byte) : Nat := 16 + 16 * primV d + 4 * primV d * primNA d + 3 * primT d

/-- Vertex number `k` of triangle `i`. -/
def primIndex (d : List Byte) (i k : Nat) : Nat := natAt d (16 + 16 * primV d + 4 * primV d * primNA d + 3 * i + k) 1

/-- Whether a header is within Table 13.2. -/
def primHeadOk (d : List Byte) : Bool :=
  decide (1 ≤ primV d ∧ primV d ≤ 256 ∧ primT d ≤ 512 ∧ 1 ≤ natAt d 8 2 ∧ natAt d 8 2 ≤ 16384 ∧ 1 ≤ natAt d 0x0a 2 ∧
    natAt d 0x0a 2 ≤ 16384 ∧ natAt d 0x0c 1 ≤ 1 ∧ primNA d ≤ 16 ∧ natAt d 0x0e 2 = 0 ∧ primSize d ≤ 16384)

/-- Whether every index of a block is below V. -/
def primIndexOk (d : List Byte) : Bool :=
  (List.range (primT d)).all (fun i => (List.range 3).all (fun k => decide (primIndex d i k < primV d)))

/-- A coordinate in units of 2^-8, rounded RN; none: not finite, or outside ±16,384 before it is rounded (R270, assumption log 89). -/
def fixedCoord (w : Word) : Option Int :=
  match v32 w with
  | .fin neg m e =>
    if Num.lt (.fin false 16384 0) (.fin false m e) then none else some (roundInt .rn neg m (e + 8))
  | _ => none

/-- A vertex in fixed point. -/
structure Vertex where
  x : Int
  y : Int
  deriving DecidableEq, Repr

/-- Vertex `n` of a block. -/
def primVertex (d : List Byte) (n : Nat) : Option Vertex :=
  match fixedCoord (wordAt d (16 + 16 * n)), fixedCoord (wordAt d (16 + 16 * n + 4)) with
  | some x, some y => some { x := x, y := y }
  | _, _ => none

/-- Twice the signed area, in units of 2^-16 (R270). -/
def area2 (a b c : Vertex) : Int := (b.x - a.x) * (c.y - a.y) - (c.x - a.x) * (b.y - a.y)

/-- The fixed-point vertices of triangle `i`, unless it is discarded (R270). -/
def primTri (d : List Byte) (i : Nat) : Option (Vertex × Vertex × Vertex) :=
  match primVertex d (primIndex d i 0), primVertex d (primIndex d i 1), primVertex d (primIndex d i 2) with
  | some a, some b, some c =>
    let s := area2 a b c
    let lo (f : Vertex → Int) : Int := min (f a) (min (f b) (f c))
    let hi (f : Vertex → Int) : Int := max (f a) (max (f b) (f c))
    if s = 0 ∨ (natAt d 0x0c 1 = 1 ∧ s < 0) ∨ hi (·.x) < 0 ∨ ((256 * natAt d 8 2 : Nat) : Int) ≤ lo (·.x) ∨ hi (·.y) < 0 ∨
      ((256 * natAt d 0x0a 2 : Nat) : Int) ≤ lo (·.y) then none
    else some (a, b, c)
  | _, _, _ => none

/-- Whether a triangle goes to the fixed rasteriser under threshold THR (R270). -/
def goesFixed (thr : Word) (v : Vertex × Vertex × Vertex) : Bool := decide (thr.toNat ≤ (area2 v.1 v.2.1 v.2.2).natAbs / 8192)

/-- The triangles of a block that are not discarded, classified, each with its sequence number. -/
def primTris (b : PrimBlock) (slot : Nat) : List BinTri :=
  (List.range (primT b.data)).filterMap (fun i => (primTri b.data i).map (fun v =>
    { core := b.core, slot := slot, launch := b.launch, clorg := b.clorg, clidx := b.clidx, ctx := b.ctx, pennant := b.pennant
      prim := b.id, tri := i, seq := wordAt b.data 4 + BitVec.ofNat 32 i, fixed := goesFixed b.thr v, flush := 0, endMark := false }))

/-- Whether something made from a block still stands: a triangle, an item, a binding (R269). -/
def primLive (s : State) (id : Nat) : Bool :=
  s.front.bins.any (fun b => b.prim == id && !b.endMark) || (s.front.raster ++ s.front.pixels).any (fun i => i.2.prim == id && !i.2.endMark) ||
    (s.teams ++ s.shadows.flatMap (fun h => h.teams)).any (fun t => t.bindings.any (fun b => b.item.prim == id)) ||
    s.shadows.any (fun h => h.bins.any (fun b => b.prim == id && !b.endMark) ||
      (h.raster ++ h.pixels).any (fun i => i.2.prim == id && !i.2.endMark))

/-- The attribute stores without the blocks nothing refers to. -/
def State.freePrims (s : State) : State :=
  { s with front := { s.front with prims := s.front.prims.filter (fun b => primLive s b.id) } }

/-- Bytes of core `c`'s attribute store in use. -/
def primsUsed (s : State) (c : Nat) : Nat := (s.front.prims.filter (fun b => b.core == c)).foldl (fun n b => n + b.data.length) 0

/-- Whether a triangle stands in the binned-geometry buffer of context `c`. -/
def BinTri.binned (c : Nat) (b : BinTri) : Bool := b.ctx == c && !b.fixed && !b.endMark && b.flush == 0

/-- Whether a context's binned-geometry buffer is full: the triangles in it reach the number its size holds, which is free (R271,
assumption log 88). -/
def binsFull (s : State) (c : Nat) : Bool :=
  decide (Config.binRoom (ctxOf s c).binsize ≤ (s.front.bins.filter (BinTri.binned c)).length)

/-- The full buffer of a context is flushed: every bin captured in it is rasterised, and it is empty (R271). The items wait for their turn in
their draw (R272, assumption log 73). -/
def State.flushBins (s : State) (c : Nat) : State :=
  let k := s.front.bins.foldl (fun m b => max m b.flush) 0 + 1
  { s with front := { s.front with bins := s.front.bins.map (fun b => if b.binned c then { b with flush := k } else b) } }

/-- The bytes of a context's binned-geometry buffer once something is binned: the format of a bin is not given, so each is free (R271,
assumption log 88). -/
def State.fillBins (s : State) (c : Nat) : State :=
  let x := ctxOf s c
  let pa := x.binbase.toNat
  let n := x.binsize
  if n = 0 ∨ regionOf s.win.memCode pa ≠ .gddr ∨ regionOf s.win.memCode (pa + n - 1) ≠ .gddr then s
  else
    let s := (s.drainAt pa n).recall pa n
    { s with mem := memSet s.mem pa ((List.range n).map (fun i => Config.freeByte (2 ^ 33 * s.free + i))) }

/-- A triangle or end mark joins its team's draw, a triangle of a micro-rasteriser in its context's buffer, which is flushed first when full. -/
def State.binTri (s : State) (b : BinTri) : State :=
  let s := if b.binned b.ctx then ((if binsFull s b.ctx then s.flushBins b.ctx else s).fillBins b.ctx) else s
  { s with front := { s.front with bins := s.front.bins ++ [b] } }

/-- A block enters the attribute store and its triangles the draw, in order, or the draw's end mark does (R269, R271). -/
def State.handBlock (s : State) (data : List Byte) (thr : Word) : State :=
  let t := s.t
  let b : PrimBlock :=
    { id := s.front.nextPrim, core := t.core, launch := t.launch, clorg := t.clorg, clidx := t.clidx, ctx := t.ctx, pennant := t.pennant
      data := data, thr := thr }
  let endTri : BinTri :=
    { core := t.core, slot := t.slot, launch := t.launch, clorg := t.clorg, clidx := t.clidx, ctx := t.ctx, pennant := t.pennant
      prim := b.id, tri := 0, seq := 0, fixed := false, flush := 0, endMark := true }
  let tris := if primT data = 0 then [endTri] else primTris b t.slot
  tris.foldl State.binTri { s with front := { s.front with
    nextPrim := s.front.nextPrim + 1
    prims := if tris.any (fun x => !x.endMark) then s.front.prims ++ [b] else s.front.prims } }

/-- A block read at issue enters the attribute store of the core, or its path holds while the store lacks room (R269, R270). -/
def State.handPrim (s : State) (data : List Byte) (thr : Word) : State :=
  let s := s.freePrims
  if 262144 < primsUsed s s.t.core + data.length then s.upd (fun t => t.updCur (fun p => { p with hold := .prim data thr }))
  else (s.handBlock data thr).upd (fun t => (t.updCur (fun p => { p with hold := .none })).endL)

/-- EMIT.PRIM (R269): it reads its block and sr.rastthr at issue, and waits while the attribute store lacks room. -/
def execEmitPrim (w : LWord) (s : State) : Out :=
  match s.t.cur.hold, s.t.emitLane w with
  | .prim data thr, _ => .next (s.handPrim data thr)
  | _, none => .next (s.upd Team.endL)
  | _, some lane =>
    let off := s.t.a w lane 1
    let s := s.upd Team.drainPort
    let head := s.t.spadRead off 16
    if s.t.claim < off + 16 ∨ !primHeadOk head then .next (s.emitStop off)
    else
      let data := s.t.spadRead off (primSize head)
      if s.t.claim < off + primSize head ∨ !primIndexOk data then .next (s.emitStop off)
      else .next (s.handPrim data (ctxOf s s.t.ctx).rastthr)

/-! ## Rasterisation (R270 to R272) -/

/-- An edge's function at a point: positive inside a triangle of positive area. -/
def edgeAt (a b : Vertex) (px py : Int) : Int := (b.x - a.x) * (py - a.y) - (b.y - a.y) * (px - a.x)

/-- A top or left edge of a triangle of positive area, y growing downwards. -/
def topLeft (a b : Vertex) : Bool := decide (b.y < a.y ∨ (b.y = a.y ∧ a.x < b.x))

/-- Whether an edge keeps a point. -/
def edgeKeeps (a b : Vertex) (px py : Int) : Bool :=
  let e := edgeAt a b px py
  decide (0 < e) || (decide (e = 0) && topLeft a b)

/-- Whether a triangle covers pixel (x, y) (R270). -/
def covers (v : Vertex × Vertex × Vertex) (x y : Nat) : Bool :=
  let px : Int := 256 * (x : Int) + 128
  let py : Int := 256 * (y : Int) + 128
  let a := v.1
  let (b, c) := if area2 v.1 v.2.1 v.2.2 < 0 then (v.2.2, v.2.1) else (v.2.1, v.2.2)
  edgeKeeps a b px py && edgeKeeps b c px py && edgeKeeps c a px py

/-- The first pixel column or row a coordinate range can cover, and how many follow within `n`. -/
def pixelSpan (lo hi : Int) (n : Nat) : List Nat :=
  let a := (lo / 256).toNat
  let b := min n ((hi / 256).toNat + 1)
  (List.range (b - a)).map (· + a)

/-- The pixels a triangle of a block covers, row by row. -/
def primPixels (d : List Byte) (i : Nat) : List (Nat × Nat) :=
  match primTri d i with
  | none => []
  | some v =>
    let lo (f : Vertex → Int) : Int := min (f v.1) (min (f v.2.1) (f v.2.2))
    let hi (f : Vertex → Int) : Int := max (f v.1) (max (f v.2.1) (f v.2.2))
    (pixelSpan (lo (·.y)) (hi (·.y)) (natAt d 0x0a 2)).flatMap (fun y =>
      ((pixelSpan (lo (·.x)) (hi (·.x)) (natAt d 8 2)).filter (fun x => covers v x y)).map (fun x => (x, y)))

/-- a before b in the serial sense (R275). -/
def seqBefore (a b : Word) : Bool := decide (a ≠ b ∧ (b - a).toNat < 2 ^ 31)

/-- Insert a triangle behind those of lower or equal sequence number. -/
def insertSeq (t : BinTri) : List BinTri → List BinTri
  | [] => [t]
  | u :: us => if seqBefore t.seq u.seq then t :: u :: us else u :: insertSeq t us

/-- The team whose draw a triangle or end mark is of. -/
def BinTri.team (b : BinTri) : Nat × Nat × Nat := (b.launch, b.clorg, b.clidx)

/-- The items of a triangle, each with the index of its 32 × 32 bin. -/
def triItems (s : State) (t : BinTri) : List (Nat × PixItem) :=
  match s.front.prims.find? (fun b => b.id == t.prim) with
  | none => []
  | some b =>
    (primPixels b.data t.tri).map (fun p =>
      (p.2 / 32 * ceilDiv (natAt b.data 8 2) 32 + p.1 / 32,
        { ctx := t.ctx, pennant := t.pennant, endMark := false, x := p.1, y := p.2, seq := t.seq, prim := t.prim, tri := t.tri, draw := t.team }))

/-- A free order of items in which those of one pixel keep theirs (R272). -/
def pixelOrder : List PixItem → List PixItem → List PixItem
  | [], _ => []
  | i :: is, rest =>
    match rest.find? (fun j => j.x == i.x && j.y == i.y) with
    | some j => j :: pixelOrder is (rest.erase j)
    | none => i :: pixelOrder is rest

/-- The items of micro-rasterised triangles in ascending bin index, freely ordered within a bin but for those of one pixel. -/
def binItems (s : State) (ts : List BinTri) : List PixItem :=
  let all := ts.flatMap (triItems s)
  let last := all.foldl (fun m e => max m e.1) 0
  (List.range (last + 1)).flatMap (fun k =>
    let here := (all.filter (fun e => e.1 == k)).map (·.2)
    pixelOrder (shuffle (Config.choice s.free) here) here)

/-- Whether an item of a draw's `i` must enter its pixel's order list before `j` (R272). -/
def entersFirst (i j : PixItem) : Bool := i.x == j.x && i.y == j.y && seqBefore i.seq j.seq

/-- The binned items in their order with the fixed rasteriser's among them: before a binned item those of its pixel with lower sequence
numbers, and elsewhere the next that nothing binned must precede, as the free number `c` has it. -/
def weave : Nat → List PixItem → List PixItem → List PixItem
  | _, [], fixed => fixed
  | c, m :: ms, fixed =>
    let due := fixed.filter (fun f => entersFirst f m)
    let rest := fixed.filter (fun f => !entersFirst f m)
    let more := if c % 2 = 0 then [] else (rest.take 1).filter (fun f => (m :: ms).all (fun k => !entersFirst k f))
    due ++ more ++ m :: weave (c / 2) ms (rest.drop more.length)

/-- The items of a draw's triangles (R270 to R272): those of each flush in turn, then those of the bins captured last, each flush's in ascending bin
index, and among them the fixed rasteriser's; at each pixel in ascending sequence number, whichever made them. -/
def drawItems (s : State) (ts : List BinTri) : List PixItem :=
  let sorted := ts.foldl (fun l t => insertSeq t l) []
  let micro := sorted.filter (fun t => !t.fixed)
  let items (ts : List BinTri) : List PixItem := ts.flatMap (fun t => (triItems s t).map (·.2))
  let flushes := ((List.range (micro.foldl (fun m t => max m t.flush) 0)).map (· + 1)) ++ [0]
  weave (Config.choice (s.free + 1))
    (pixelOrder (flushes.flatMap (fun k => binItems s (micro.filter (fun t => t.flush == k)))) (items micro))
    (items (sorted.filter (fun t => t.fixed)))

/-- The core that handed the block an item is made from. -/
def itemCore (s : State) (core : Nat) (i : PixItem) : Nat :=
  match s.front.prims.find? (fun b => b.id == i.prim) with
  | some b => b.core
  | none => core

/-- The triangles of a draw whose items may come before the draw is over: those of the fixed rasteriser and of flushed bins that no triangle of
lower sequence number meets at a pixel. -/
def earlyTris (s : State) (ts : List BinTri) : List BinTri :=
  let items (t : BinTri) : List PixItem := (triItems s t).map (·.2)
  ts.filter (fun t => (t.fixed || t.flush != 0) &&
    ts.all (fun u => !seqBefore u.seq t.seq || (items u).all (fun i => (items t).all (fun j => !entersFirst i j))))

/-- Whether a path on core `c` waits for room in the attribute store (R269). -/
def storePressed (s : State) (c : Nat) : Bool :=
  s.teams.any (fun t => t.core == c && t.paths.any (fun p => match p.hold with
    | .prim _ _ => true
    | _ => false))

/-- The item a core's rasterisers hand to its pixel queue next; none while an item of the same draw that came before it waits for another core's
queue (R272). -/
def nextRaster (core : Nat) : List (Nat × PixItem) → List (Nat × Nat × Nat) → Option (Nat × PixItem)
  | [], _ => none
  | i :: is, before =>
    if i.1 ≠ core then nextRaster core is (i.2.draw :: before) else if before.contains i.2.draw then none else some i

/-- Items the rasterisers of a core have made enter its pixel queue and the order lists while the queue has room, at most `n`. -/
def fillQueue (core : Nat) : Nat → State → State
  | 0, s => s
  | n + 1, s =>
    if 1024 ≤ (s.front.pixels.filter (fun i => i.1 == core)).length then s
    else match nextRaster core s.front.raster [] with
      | none => s
      | some i => fillQueue core n { s with front := { s.front with
          raster := dropFirst (fun j => j.1 == core) s.front.raster
          pixels := s.front.pixels ++ [i]
          orders := if i.2.endMark then s.front.orders else s.front.orders ++ [i.2] } }

/-- The items of some triangles leave the bins and wait for their cores' queues, then those of `ends`. -/
def State.rasterise (s : State) (core : Nat) (ts gone : List BinTri) (ends : List (Nat × PixItem)) : State :=
  let items := (drawItems s ts).map (fun i => (itemCore s core i, i)) ++ ends
  fillQueue core 1024 { s with front := { s.front with
    bins := s.front.bins.filter (fun b => !gone.contains b), raster := s.front.raster ++ items } }

/-- The item of a draw's end mark (R272). -/
def BinTri.endItem (m : BinTri) : PixItem :=
  { ctx := m.ctx, pennant := m.pennant, endMark := true, x := 0, y := 0, seq := 0, prim := m.prim, tri := 0, draw := m.team }

/-- What a team has handed, in order, up to its first end mark, and that mark: the draw it is in, or a draw that is over. -/
def drawOf (s : State) (d : Nat × Nat × Nat) : List BinTri × Option BinTri :=
  let mine := s.front.bins.filter (fun b => b.team == d)
  let ts := mine.takeWhile (fun b => !b.endMark)
  (ts, (mine.drop ts.length).head?)

/-- RASTERISE_BINS (R271, R272): the items still waiting go to the queue; then a draw that is over makes its items, in order. Before its end
mark the items of a draw wait, since a later block may come before them at a pixel, but for those that free room in a full attribute store
that a path waits for (assumption log 73). -/
def execRasteriseBins (core slot : Nat) (s : State) : Out :=
  if s.front.raster.any (fun i => i.1 == core) then .next (fillQueue core 1024 s)
  else
    let draws := (((s.front.bins.filter (fun b => b.core == core && b.slot == slot)).map BinTri.team).eraseDups).map (drawOf s)
    match draws.find? (fun d => d.2.isSome) with
    | some (ts, m) => .next (s.rasterise core ts (ts ++ m.toList) (m.toList.map (fun m => (m.core, m.endItem))))
    | none =>
      let early := if storePressed s core then draws.map (fun d => earlyTris s d.1) else []
      match early.find? (fun ts => !ts.isEmpty) with
      | some ts => .next (s.rasterise core ts ts [])
      | none => .next s

/-! ## Pixel items (R273) -/

/-- The item dealt to one lane: its previous binding ends, the oldest matching item is taken. -/
def State.dealPixel (s : State) (dst lane : Nat) : State :=
  let s := s.unbindLanes (laneBit lane)
  let t := s.t
  let mine (i : Nat × PixItem) : Bool := i.1 == t.core && i.2.ctx == t.ctx && i.2.pennant == t.pennant
  match s.front.pixels.find? mine with
  | none => s.upd (fun t => (t.setV lane dst 0xffffffff).setV lane (dst + 1) 0)
  | some i =>
    let s := { s with front := { s.front with pixels := dropFirst mine s.front.pixels } }
    if i.2.endMark then s.upd (fun t => (t.setV lane dst 0xfffffffe).setV lane (dst + 1) 0)
    else s.upd (fun t =>
      { ((t.setV lane dst (BitVec.ofNat 32 (i.2.y * 65536 + i.2.x))).setV lane (dst + 1) i.2.seq) with
        bindings := t.bindings ++ [{ lane := lane, item := i.2, token := false, lost := false, since := 0 }] })

/-- EMIT.PIX (R273). -/
def execEmitPix (w : LWord) (s : State) : Out :=
  let s := s.upd (fun t => if (t.parts w).isEmpty then t else t.drainPort)
  .next (((s.t.parts w).foldl (fun s lane => s.dealPixel w.dst.toNat lane) s).upd Team.endL)

/-! ## Attributes (R274) -/

/-- An exact integer divided by another, rounded once to f32. -/
def ratio32 (n d : Int) : Word := BitVec.ofNat 32 (f32.div .rn (numOfInt n 0 false) (numOfInt d 0 false))

/-- ATTR for a bound triangle: mode 0 .V, 1 .DX, 2 .DY; attribute word `a` at pixel (x, y). -/
def attrAt (d : List Byte) (tri a mode x y : Nat) : Word :=
  match primTri d tri with
  | none => 0
  | some v =>
    let v0 := v.1
    let v1 := v.2.1
    let v2 := v.2.2
    let s := area2 v0 v1 v2
    let px : Int := 256 * (x : Int) + 128
    let py : Int := 256 * (y : Int) + 128
    let opp : List (Vertex × Vertex) := [(v1, v2), (v2, v0), (v0, v1)]
    let b := opp.map (fun e => ratio32 (edgeAt e.1 e.2 px py) s)
    let dx := opp.map (fun e => ratio32 (256 * (e.1.y - e.2.y)) s)
    let dy := opp.map (fun e => ratio32 (256 * (e.2.x - e.1.x)) s)
    let idx := (List.range 3).map (primIndex d tri)
    let word (k : Nat) : Word := wordAt d (16 + 16 * primV d + 4 * (idx.getD k 0 * primNA d + a))
    let q (k : Nat) : Word := wordAt d (16 + 16 * idx.getD k 0 + 12)
    let sum (f : Nat → Word) : Word := fadd32 (fadd32 (f 0) (f 1)) (f 2)
    let num (c : List Word) : Word := sum (fun k => fmul32 (fmul32 (c.getD k 0) (word k)) (q k))
    let den (c : List Word) : Word := sum (fun k => fmul32 (c.getD k 0) (q k))
    if mode = 0 then fdiv32 (num b) (den b)
    else
      let g := if mode = 1 then dx else dy
      fdiv32 (fsub32 (fmul32 (num g) (den b)) (fmul32 (num b) (den g))) (fmul32 (den b) (den b))

/-- The value ATTR gives a lane: +0 without a binding or with no such attribute. -/
def attrLane (s : State) (mode a lane : Nat) : Word :=
  match s.t.bindings.find? (fun b => b.lane == lane) with
  | none => 0
  | some b =>
    match s.front.prims.find? (fun p => p.id == b.item.prim) with
    | none => 0
    | some p => if primNA p.data ≤ a then 0 else attrAt p.data b.item.tri a mode b.item.x b.item.y

/-- ATTR (R274). -/
def execAttr (w : LWord) (s : State) : Out :=
  .next (s.upd (fun t => (t.mapV w 1 (fun lane => (attrLane s w.fn.toNat (bits w.hi.toNat 0 4) lane).toNat)).endL))

/-! ## Ordered sections (R275 to R277) -/

/-- The item is of the same pixel of the same context. -/
def samePixel (a b : PixItem) : Bool := a.ctx == b.ctx && a.x == b.x && a.y == b.y

/-- Whether another lane holds the token of an item's pixel. -/
def tokenHeld (s : State) (i : PixItem) : Bool :=
  (s.teams ++ s.shadows.flatMap (fun h => h.teams)).any (fun t => t.bindings.any (fun b => b.token && !b.lost && samePixel b.item i))

/-- Whether OSBEGIN grants an item its token (R275). -/
def granted (s : State) (b : Binding) : Bool :=
  (b.token && !b.lost) ||
    (!tokenHeld s b.item && s.front.orders.all (fun i => !(samePixel i b.item && seqBefore i.seq b.item.seq)))

/-- OSBEGIN for one lane. In a team that is parked (R309) the token's time begins when it is released. -/
def State.osBegin (s : State) (pd lane : Nat) : State :=
  match s.t.bindings.find? (fun b => b.lane == lane) with
  | none => s.upd (fun t => t.setP pd lane false)
  | some b =>
    if granted s b then
      let new := if b.token && !b.lost then b else { b with token := true, lost := false, since := if s.t.debug then 0 else s.time }
      s.upd (fun t => { t.setP pd lane true with bindings := t.bindings.map (fun (c : Binding) => if c.lane = lane then new else c) })
    else s.upd (fun t => t.setP pd lane false)

/-- OSBEGIN (R275). -/
def execOsbegin (w : LWord) (s : State) : Out :=
  .next (((s.t.parts w).foldl (fun s lane => s.osBegin (w.dst.toNat % 16) lane) s).upd Team.endL)

/-- OSEND for one lane: the release, then the item leaves the list. -/
def State.osEnd (s : State) (lane : Nat) : State :=
  match s.t.bindings.find? (fun b => b.lane == lane) with
  | none => s
  | some b =>
    if b.token && !b.lost then
      let s := s.release 4
      { s with front := { s.front with orders := s.front.orders.filter (fun i => i != b.item) } }.upd (fun t =>
        { t with bindings := t.bindings.map (fun (c : Binding) => if c.lane = lane then { c with token := false } else c) })
    else s

/-- OSEND (R275). -/
def execOsend (w : LWord) (s : State) : Out := .next (((s.t.parts w).foldl State.osEnd s).upd Team.endL)

/-- OS_TIME_LIMIT (R276, R277): a token held past the limit is force-released. -/
def execOsTimeLimit (core slot lane : Nat) (s : State) : Out :=
  match s.focus core slot with
  | none => .next s
  | some s =>
    let limit := (ctxOf s s.t.ctx).oslimit.toNat * 1024
    match s.t.bindings.find? (fun b => b.lane == lane) with
    | none => .next s
    | some b =>
      if limit = 0 ∨ s.t.debug ∨ !b.token ∨ b.lost ∨ s.time - b.since < limit then .next s
      else
        let s := { s with front := { s.front with orders := s.front.orders.filter (fun i => i != b.item) } }
        .next ((s.bump s.t.ctx 15 1).upd (fun t =>
          { t with bindings := t.bindings.map (fun (c : Binding) => if c.lane = lane then { c with lost := true } else c) }))

end Sys2Proof.Machine
end

