-- ==== Sys2Proof/Machine/Sampling.lean ====
section
/-! DEFINITION. SAMPLE, TRACE and LAUNCH (R385, R279, R280, R401, R402, R264, R371). -/

namespace Sys2Proof.Machine

/-! ## SAMPLE (R385) -/

/-- An image descriptor (Table 18.9). -/
structure Image where
  base : Nat
  w : Nat
  h : Nat
  pitch : Nat
  fmt : Nat
  wrap : Nat
  deriving DecidableEq, Repr

/-- Bytes of a texel. -/
def Image.texelSize (m : Image) : Nat := if m.fmt = 1 then 8 else 4

/-- The descriptor in 32 bytes; none: a field outside Table 18.9. -/
def imageOf (bs : List Byte) : Option Image :=
  let m : Image := {
    base := natAt bs 0 8, w := natAt bs 8 2, h := natAt bs 10 2, pitch := natAt bs 12 4, fmt := natAt bs 16 1, wrap := natAt bs 17 1 }
  if m.base % 128 = 0 ∧ 1 ≤ m.w ∧ m.w ≤ 16384 ∧ 1 ≤ m.h ∧ m.h ≤ 16384 ∧ m.fmt ≤ 2 ∧ m.wrap ≤ 1 ∧ m.pitch % m.texelSize = 0 ∧
      m.w * m.texelSize ≤ m.pitch ∧ natAt bs 18 14 = 0 then some m
  else none

/-- A texel index mapped into 0 to n − 1 (clamp to edge, or repeat). -/
def wrapIndex (wrap n : Nat) (i : Int) : Nat := if wrap = 0 then (clampInt 0 ((n : Int) - 1) i).toNat else (i % (n : Int)).toNat

/-- An f32 with every NaN written as the canonical one (R118). -/
def canon32 (x : Word) : Word := if (v32 x).isNan then 0x7fc00000 else x

/-- Channels of a texel from its bytes, as f32 bits. -/
def texelChannels (fmt : Nat) (bs : List Byte) : List Word :=
  match fmt with
  | 0 => (List.range 4).map (fun i => BitVec.ofNat 32 (f32.div .rn (numOfInt ((natAt bs i 1 : Nat) : Int) 0 false) (.fin false 255 0)))
  | 1 => (List.range 4).map (fun i => rn32 (f16.value (natAt bs (2 * i) 2)))
  | _ => [canon32 (wordAt bs 0), 0, 0, 0x3f800000]

/-- Floor of an f32; of one that is not finite, a free number (assumption log 18). -/
def floor32 (x : Word) : Int :=
  match v32 x with
  | .fin neg m e => floorInt neg m e
  | _ => (Config.farTexel x : Int)

/-- x − Floor(x) in f32. -/
def fract32 (x : Word) : Word :=
  match v32 x with
  | .fin _ _ _ => rn32 (Num.add .rn (v32 x) (numOfInt (-(floor32 x)) 0 true))
  | _ => 0x7fc00000

/-- The address of Texel(i, j). -/
def Image.texelVa (m : Image) (c : Int × Int) : DWord :=
  BitVec.ofNat 64 (m.base + wrapIndex m.wrap m.h c.2 * m.pitch + wrapIndex m.wrap m.w c.1 * m.texelSize)

/-- a·(1 − f) + b·f per channel, each operation rounded on its own. -/
def blend (f : Word) (a b : List Word) : List Word :=
  (a.zip b).map (fun c => fadd32 (fmul32 c.1 (fsub32 0x3f800000 f)) (fmul32 c.2 f))

/-- Whether an f32 is finite. -/
def fin32 (x : Word) : Bool := (v32 x).isFin

/-- Some texels read through the sampler path in order: the channels of each. -/
def texels (prio : BitVec 3) (lane : Nat) (m : Image) : List (Int × Int) → Act (Except TFault (List (List Word)))
  | [] => pure (.ok [])
  | c :: cs => do
    let s ← get
    match ← vsample s.t.tag prio lane (m.texelVa c) m.texelSize with
    | .error e => pure (.error e)
    | .ok bs => do
      match ← texels prio lane m cs with
      | .error e => pure (.error e)
      | .ok ts => pure (.ok (texelChannels m.fmt bs :: ts))

/-- Where (u, v) lies in texels, half a texel to the lower left of it. -/
def Image.place (m : Image) (u v : Word) : Word × Word :=
  (fsub32 (fmul32 u (ofInt32 m.w)) 0x3f000000, fsub32 (fmul32 v (ofInt32 m.h)) 0x3f000000)

/-- The texels a SAMPLE at (u, v) reads, in order: of a linear one (i, j), (i + 1, j), (i, j + 1), (i + 1, j + 1). -/
def Image.coords (m : Image) (lin : Bool) (u v : Word) : List (Int × Int) :=
  let c := m.place u v
  if !fin32 u || !fin32 v then []
  else if lin then
    let i := floor32 c.1
    let j := floor32 c.2
    [(i, j), (i + 1, j), (i, j + 1), (i + 1, j + 1)]
  else [(floor32 (fadd32 c.1 0x3f000000), floor32 (fadd32 c.2 0x3f000000))]

/-- The filtered value of the texels read at (u, v). -/
def Image.filter (m : Image) (u v : Word) : List (List Word) → List Word
  | [] => [0, 0, 0, 0]
  | [t] => t
  | t :: ts =>
    let c := m.place u v
    let k (i : Nat) : List Word := (t :: ts).getD i []
    let fx := fract32 c.1
    blend (fract32 c.2) (blend fx (k 0) (k 1)) (blend fx (k 2) (k 3))

/-- Four lane registers written from `dst`. -/
def State.putQuad (s : State) (lane dst : Nat) (vs : List Word) : State :=
  s.upd (fun t => (vs.zip (List.range 4)).foldl (fun t v => t.setV lane (dst + v.2) v.1) t)

/-- SAMPLE of one lane: its descriptor, then its texels. -/
def sampleLane (w : LWord) : Perform := fun l => do
  let s ← get
  let u := BitVec.ofNat 32 l.data
  let v := BitVec.ofNat 32 (l.data / 2 ^ 32)
  match ← vsample s.t.tag w.evict l.lane l.addr 32 with
  | .error e => pure (.error e)
  | .ok bs =>
    match imageOf bs with
    | none => pure (.error (faultAt l.addr 0x07))
    | some m => do
      let cs := m.coords (decide (w.fn = 1)) u v
      match ← texels w.evict l.lane m cs with
      | .error e => pure (.error e)
      | .ok ts => do
        change (fun s => s.putQuad l.lane w.dst.toNat (m.filter u v ts))
        pure (.ok ((l.addr, 32) :: cs.map (fun c => (m.texelVa c, m.texelSize))))

/-- The descriptor's address, one for the path. -/
def Team.descAddr (t : Team) (w : LWord) : DWord := t.snapX (w.src2.toNat % 32) + w.hi.signExtend 64

/-- SAMPLE (R385). -/
def execSample (w : LWord) (s : State) : Out :=
  let at_ := s.t.descAddr w
  if at_.toNat % 32 ≠ 0 ∧ s.t.parts w ≠ [] then .next (s.stopLane 0x07 0 at_)
  else lanePasses (.sample w) w (memKind 0 8 true) (fun lane => { lane := lane, addr := at_, data := s.t.a w lane 2 }) (spanOf 32)
    (sampleLane w) false s

/-! ## TRACE (R279, R280) -/

/-- A vector of f32. -/
structure V3 where
  x : Word
  y : Word
  z : Word
  deriving DecidableEq, Repr

def V3.sub (a b : V3) : V3 := { x := fsub32 a.x b.x, y := fsub32 a.y b.y, z := fsub32 a.z b.z }

/-- Dot product, summed from left to right. -/
def V3.dot (a b : V3) : Word := fadd32 (fadd32 (fmul32 a.x b.x) (fmul32 a.y b.y)) (fmul32 a.z b.z)

/-- Cross product. -/
def V3.cross (a b : V3) : V3 :=
  { x := fsub32 (fmul32 a.y b.z) (fmul32 a.z b.y), y := fsub32 (fmul32 a.z b.x) (fmul32 a.x b.z),
    z := fsub32 (fmul32 a.x b.y) (fmul32 a.y b.x) }

/-- A ray: origin, tmin, direction, tmax. -/
structure Ray where
  o : V3
  tmin : Word
  d : V3
  tmax : Word
  deriving DecidableEq, Repr

/-- A ray's eight numbers. -/
def Ray.nums (r : Ray) : List Nat := [r.o.x, r.o.y, r.o.z, r.tmin, r.d.x, r.d.y, r.d.z, r.tmax].map (·.toNat)

/-- Word `i` of a 256-bit operand. -/
def word256 (v i : Nat) : Word := BitVec.ofNat 32 (v / 2 ^ (32 * i))

/-- The ray of a lane's operand log data. -/
def rayOf (v : Nat) : Ray :=
  { o := { x := word256 v 0, y := word256 v 1, z := word256 v 2 }, tmin := word256 v 3,
    d := { x := word256 v 4, y := word256 v 5, z := word256 v 6 }, tmax := word256 v 7 }

/-- A vector of a record's bytes. -/
def v3At (bs : List Byte) (o : Nat) : V3 := { x := wordAt bs o, y := wordAt bs (o + 4), z := wordAt bs (o + 8) }

/-- A hit: t, u, v, primitive id. -/
structure Hit where
  t : Word
  u : Word
  v : Word
  id : Word
  deriving DecidableEq, Repr

/-- The triangle test of R280 on a record of 48 bytes. -/
def hitTriangle (r : Ray) (bs : List Byte) : Option Hit :=
  let v0 := v3At bs 0
  let e1 := (v3At bs 12).sub v0
  let e2 := (v3At bs 24).sub v0
  let pv := r.d.cross e2
  let det := e1.dot pv
  if (v32 det).isZero then none
  else
    let inv := fdiv32 0x3f800000 det
    let tv := r.o.sub v0
    let u := fmul32 (tv.dot pv) inv
    if flt32 u 0 || flt32 0x3f800000 u then none
    else
      let qv := tv.cross e1
      let v := fmul32 (r.d.dot qv) inv
      if flt32 v 0 || flt32 0x3f800000 (fadd32 u v) then none
      else
        let t := fmul32 (e2.dot qv) inv
        if !(flt32 r.tmin t && flt32 t r.tmax) then none else some { t := t, u := u, v := v, id := wordAt bs 36 }

/-- The nearer of two hits; the lower primitive id on a tie (R280). -/
def nearer (a b : Option Hit) : Option Hit :=
  match a, b with
  | none, _ => b
  | _, none => a
  | some x, some y => if flt32 y.t x.t || (!flt32 x.t y.t && decide (y.id.toNat < x.id.toNat)) then b else a

/-- Where a structure's records lie: NB and TB. -/
structure Accel where
  nb : Nat
  tb : Nat
  deriving DecidableEq, Repr

/-- A read of the ray traversal unit: relaxed, through the L1 (R402). -/
def traceRead (prio : BitVec 3) (lane : Nat) (v : Span) : Act (Except TFault (List Byte)) := do
  let s ← get
  vread s.t.tag .load (some lane) prio v.1 v.2

/-- Whether a reference names a triangle. -/
def isTri (r : Word) : Bool := r.getLsbD 31

/-- The record of a triangle reference. -/
def Accel.tri (g : Accel) (r : Word) : Span := (BitVec.ofNat 64 (g.tb + 48 * (r.toNat % 2 ^ 31)), 48)

/-- The record of a node reference. -/
def Accel.node (g : Accel) (r : Word) : Span := (BitVec.ofNat 64 (g.nb + 64 * r.toNat), 64)

/-- How far a trace has come: the nearest hit so far, and the records it has read, newest first. -/
structure Walk where
  best : Option Hit
  read : List Span
  deriving DecidableEq, Repr

/-- The triangles among some references, tested in order. -/
def testTris (prio : BitVec 3) (lane : Nat) (g : Accel) (ray : Ray) : List Word → Walk → Act (Except TFault Walk)
  | [], k => pure (.ok k)
  | r :: rs, k => do
    if isTri r then
      match ← traceRead prio lane (g.tri r) with
      | .error e => pure (.error e)
      | .ok bs => testTris prio lane g ray rs { best := nearer k.best (hitTriangle ray bs), read := g.tri r :: k.read }
    else testTris prio lane g ray rs k

/-- Whether a triangle among those under some references, each node looked at once, takes the place of the nearest hit so far, or may: a
record that cannot be read counts as one, so that its fault is met (R280). -/
def hitUnder (prio : BitVec 3) (lane : Nat) (g : Accel) (ray : Ray) (best : Option Hit) : Nat → List Word → List Word → Act Bool
  | _, [], _ => pure false
  | 0, _ :: _, _ => pure false
  | n + 1, r :: rs, seen => do
    if isTri r then
      match ← traceRead prio lane (g.tri r) with
      | .error _ => pure true
      | .ok bs => if nearer best (hitTriangle ray bs) ≠ best then pure true else hitUnder prio lane g ray best n rs seen
    else if seen.contains r then hitUnder prio lane g ray best n rs seen
    else
      match ← traceRead prio lane (g.node r) with
      | .error _ => pure true
      | .ok bs => hitUnder prio lane g ray best n (wordAt bs 48 :: wordAt bs 52 :: rs) (r :: seen)

/-- Whether the box test of a child passes it over: a free choice for the ray and the box, but never where a triangle under the child would be
the nearer hit (R280, assumption log 19). -/
def passesOver (prio : BitVec 3) (lane : Nat) (g : Accel) (ray : Ray) (best : Option Hit) (box : List Byte) (child : Word) : Act Bool := do
  if Config.boxMissed (ray.nums ++ box.map (·.toNat)) then do
    let s ← get
    pure (match hitUnder prio lane g ray best (2 ^ 33) [child] [] s with
      | .ok (found, _) => !found
      | .error _ => false)
  else pure false

/-- The children of a node that its box tests let through. -/
def openKids (prio : BitVec 3) (lane : Nat) (g : Accel) (ray : Ray) (best : Option Hit) (bs : List Byte) : Act (List Word) := do
  let a ← passesOver prio lane g ray best (bs.take 24) (wordAt bs 48)
  let b ← passesOver prio lane g ray best ((bs.drop 24).take 24) (wordAt bs 52)
  pure ((if a then [] else [wordAt bs 48]) ++ (if b then [] else [wordAt bs 52]))

/-- The traversal: at most `fuel` node visits, over a stack of nodes; `none`: abandoned (R280). -/
def traverse (prio : BitVec 3) (lane : Nat) (g : Accel) (ray : Ray) :
    Nat → List Word → Walk → Act (Except TFault (Option (Option Hit) × List Span))
  | _, [], k => pure (.ok (some k.best, k.read))
  | 0, _ :: _, k => pure (.ok (none, k.read))
  | fuel + 1, n :: ns, k => do
    match ← traceRead prio lane (g.node n) with
    | .error e => pure (.error e)
    | .ok bs => do
      let kids ← openKids prio lane g ray k.best bs
      match ← testTris prio lane g ray kids { k with read := g.node n :: k.read } with
      | .error e => pure (.error e)
      | .ok k => traverse prio lane g ray fuel (kids.filter (fun r => !isTri r) ++ ns) k

/-- What TRACE writes (R280). -/
def traceResult : Option (Option Hit) → List Word
  | some (some h) => [h.t, h.u, h.v, h.id]
  | some none => [0x7f800000, 0, 0, 0xffffffff]
  | none => [0x7f800000, 0, 0, 0xfffffffe]

/-- The header's structure; none: malformed (R401). -/
def accelOf (bs : List Byte) : Option (Accel × Word) :=
  let g : Accel := { nb := natAt bs 0 8, tb := natAt bs 8 8 }
  if g.nb % 64 = 0 ∧ g.tb % 16 = 0 ∧ natAt bs 20 12 = 0 then some (g, wordAt bs 16) else none

/-- TRACE of one lane (R401, R402). -/
def traceLane (w : LWord) : Perform := fun l => do
  let head : Span := (l.addr, 32)
  let done (r : Option (Option Hit)) (read : List Span) : Act (Except TFault (List Span)) := do
    change (fun s => s.putQuad l.lane w.dst.toNat (traceResult r))
    pure (.ok (head :: read.reverse))
  match ← traceRead w.evict l.lane head with
  | .error e => pure (.error e)
  | .ok bs =>
    match accelOf bs with
    | none => done none []
    | some (g, root) => do
      let ray := rayOf l.data
      match ← testTris w.evict l.lane g ray [root] { best := none, read := [] } with
      | .error e => pure (.error e)
      | .ok k =>
        let nodes := if isTri root then [] else [root]
        match ← traverse w.evict l.lane g ray (2 ^ 20) nodes k with
        | .error e => pure (.error e)
        | .ok (r, read) => done r read

/-- TRACE (R280, R401): reads of the ray traversal unit are no lane access, so they are not watched or traced. -/
def execTrace (w : LWord) (s : State) : Out :=
  let at_ := s.t.snapX (w.src3.toNat % 32)
  if at_.toNat % 32 ≠ 0 ∧ s.t.parts w ≠ [] then .next (s.stopLane 0x07 0 at_)
  else lanePasses (.trace w) w { access := 0, hot := 0, watch := none, traced := none }
    (fun lane => { lane := lane, addr := at_, data := s.t.vrs lane w.src1.toNat 4 + 2 ^ 128 * s.t.vrs lane w.src2.toNat 4 })
    (fun _ => []) (traceLane w) false s

/-! ## LAUNCH (R264) -/

/-- vd and pd of a LAUNCH's lane. -/
def launchDone (w : LWord) (lane st : Nat) (s : State) : State :=
  s.upd (fun t => (t.setV lane w.dst.toNat (BitVec.ofNat 32 st)).setP (w.src3.toNat % 16) lane (decide (st = 2)))

/-- LAUNCH of one lane. -/
def launchLane (w : LWord) : Perform := fun l => do
  if l.addr.toNat % 64 ≠ 0 then do
    change (launchDone w l.lane 3)
    pure (.ok [])
  else
    match ← laneRead w.evict l.lane l.addr 64 with
    | .error e => pure (.error e)
    | .ok bs => do
      let r := packetOf bs
      let s ← get
      let st ← (if r.kind ≠ 4 then pure 3
        else if s.t.pennant ≠ 0 then pushRecord s.t.ctx s.t.pennant r
        else storeRecord s.t.ctx r)
      change (launchDone w l.lane st)
      pure (.ok [(l.addr, 64)])

/-- LAUNCH (R264, R371): the lanes run in ascending order. -/
def execLaunch (w : LWord) (s : State) : Out :=
  lanePasses (.launch w) w { access := 0, hot := 0, watch := some 8, traced := none }
    (fun lane => { lane := lane, addr := s.t.ea w lane, data := 0 }) (spanOf 64) (launchLane w) true s

end Sys2Proof.Machine
end

