-- ==== Sys2Proof/Machine/Shadows.lean ====
section
/-! DEFINITION. Shadow slots, their save areas and reply logs (R299, R302, R303). -/

namespace Sys2Proof.Machine

/-- Shadow slot `k`. -/
def shadowOf (s : State) (k : Nat) : Shadow := s.shadows.getD k Shadow.reset

/-- Change shadow slot `k`. -/
def State.updShadow (s : State) (k : Nat) (f : Shadow → Shadow) : State := { s with shadows := updNth s.shadows k f }

/-- Bytes of a save area (R299). -/
def areaSize : Nat := 2 ^ 26

/-- The bytes of a save area written under number `n`: the layout is not stated (assumption log 45). -/
def areaBytes (n : Nat) : List Byte := (List.range areaSize).map (fun i => Config.freeByte (areaSize * n + i))

/-- A save area holds its slot as it now is, the reply log among it (R302). -/
def State.fillArea (s : State) (k : Nat) : State :=
  match (shadowOf s k).area with
  | none => s
  | some (pa, _) =>
    let s := (s.drainAt pa areaSize).recall pa areaSize
    { (s.updShadow k (fun h => { h with area := some (pa, s.free) })) with mem := memSet s.mem pa (areaBytes s.free), free := s.free + 1 }

/-- A slot is copied to its save area, where that lies whole in this part's memory (R302; assumption log 45). -/
def State.copyArea (s : State) (k : Nat) : State :=
  let pa := alignDown (s.win.psave.getD k 0).toNat (2 ^ 21)
  if regionOf s.win.memCode pa ≠ .gddr ∨ regionOf s.win.memCode (pa + areaSize - 1) ≠ .gddr then s
  else (s.updShadow k (fun h => { h with area := some (pa, 0) })).fillArea k

/-- What a restore of slot `k` reads: the slot, or its save area, which holds the slot unless something else was stored there
(assumption log 45). -/
def State.savedSlot (s : State) (k : Nat) : Shadow :=
  let h := shadowOf s k
  match h.area with
  | none => h
  | some (pa, n) =>
    let bs := memBytes (s.drainAt pa areaSize).mem pa areaSize
    if bs = areaBytes n then h else @Config.areaSlot Shadow ⟨h⟩ bs

/-- Responses join the reply logs of the slots, in the save area for one that was evicted (R302). -/
def State.logged (s : State) (f : Shadow → List Reply) : State :=
  (List.range 4).foldl (fun s k =>
    match f (shadowOf s k) with
    | [] => s
    | rs => (s.updShadow k (fun h => { h with replies := h.replies ++ rs })).fillArea k) s

end Sys2Proof.Machine
end

