-- ==== Sys2Proof/Machine/Replay.lean ====
section
/-! DEFINITION. The driver's replies to fault records: replaying, failing, killing (R292 to R296, R302, R424). -/

namespace Sys2Proof.Machine

/-! ## One operand-log entry -/

/-- How a parked lane instruction performs one lane (R293). -/
def performer : Instr → Option Perform
  | .ldLane w => some (loadLane w)
  | .stLane w => some (storeLane w)
  | .sld w => some (sldLane w)
  | .sample w => some (sampleLane w)
  | .atom w => some (atomLane w false)
  | .atomGroupB w => some (atomLane w true)
  | .trace w => some (traceLane w)
  | .launch w => some (launchLane w)
  | .cpyLane w => some (cpyLane w)
  | _ => none

/-- The ACCESS code of a parked instruction (Table 14.4). -/
def accessOf : Instr → Nat
  | .stLane _ => 1
  | .st _ _ _ _ _ _ _ => 1
  | .atom _ => 2
  | .atomGroupB _ => 2
  | .cpyLane w => (cpyKind w).access
  | _ => 0

/-- The site of a replayed entry. -/
def entrySite (t : Team) (e : OpEntry) (access : Nat) : Site :=
  { access := access, pennant := t.pennant, core := t.core, slot := t.slot, path := e.path, group := e.group, scalar := e.scalar }

/-- An engine command parked under `old` stands parked under `id`. -/
def EngCmd.renamed (old id : Nat) (c : EngCmd) : EngCmd :=
  match c.stage with
  | .parked i a va => if i = old then { c with stage := .parked id a va } else c
  | _ => c

/-- What stands parked under a replayed entry's old ID stands under its new one: the scalar access, or the pass at the head of the copy
queue. -/
def Team.renamePark (t : Team) (old id : Nat) : Team :=
  { t with
    sPark := t.sPark.map (fun p => if p.1 = old then (id, p.2.1, p.2.2) else p)
    copyQ := t.copyQ.map (EngCmd.renamed old id) }

/-- A replayed entry faulted again: it stands in the log once more, at its place, under a new record (R296). -/
def State.reparked (s : State) (at_ : Nat) (e : OpEntry) (access : Nat) (f : TFault) : State :=
  let id := freshId s s.t.ctx
  let s := s.record s.t.ctx id f (entrySite s.t e access) e.pc (if e.scalar then 0 else groupBits e.lanes)
  s.upd (fun t => { (t.renamePark e.id id) with
    oplog := t.oplog.take at_ ++ [{ e with id := id, record := true, va := f.va }] ++ t.oplog.drop at_ })

/-- The scalar access or fetch parked under `id` is done: the stream goes on. -/
def Team.unpark (t : Team) (id : Nat) : Team :=
  { t with
    sPark := if t.sPark.map (fun p => p.1) = some id then Option.none else t.sPark
    sFetch := if t.sFetch = some id then Option.none else t.sFetch }

/-- Replay a scalar entry, taken out of the log at `at_`. A fetch and a stalling instruction are issued again. -/
def replayScalar (at_ : Nat) (e : OpEntry) : Act Unit := do
  let l := e.lanes.headD { lane := 0, addr := 0, data := 0 }
  let again (access : Nat) (f : TFault) : Act Unit := change (fun s =>
    if f.replayable then s.reparked at_ e access f else s.stopTeam f (entrySite s.t e access) e.pc 0)
  match e.instr with
  | some (.ld _ evict _ _ sz _ t) => do
    match ← scalarLoad evict l.addr (2 ^ sz.toNat) with
    | .ok v => change (fun s => s.upd (fun u => (u.setX t v).unpark e.id))
    | .error f => again 0 f
  | some (.st _ evict scope ord sz _ _) => do
    match ← scalarStore evict scope ord l.addr (2 ^ sz.toNat) l.data with
    | .ok _ => change (fun s => s.upd (fun t => t.unpark e.id))
    | .error f => again 1 f
  | _ => change (fun s => s.upd (fun t => t.unpark e.id))

/-- The word of a replayed instruction that may carry a release (R190). -/
def orderedWord : Instr → Option LWord
  | .stLane w => some w
  | .atom w => some w
  | .atomGroupB w => some w
  | _ => none

/-- The release of a replayed instruction comes before its lanes, and after the link writes it waits for are acknowledged (R190, R210). -/
def State.replayRelease (s : State) (i : Instr) : State :=
  match orderedWord i with
  | some w => (if s.t.ordWait w then s.upd (fun t => { t with linkOut := 0 }) else s).ordRelease w
  | none => s

/-- Replay the lanes of an entry, taken out of the log at `at_`. -/
def replayLanes (at_ : Nat) (e : OpEntry) : Act Unit := do
  match e.instr with
  | none => pure ()
  | some i =>
    match performer i with
    | none => pure ()
    | some f => do
      change (fun s => s.replayRelease i)
      useFile (maskOf (e.lanes.map (·.lane))) (laneWrites i).eraseDups (laneWrites i).eraseDups
      ownFirst i e.lanes
      let s ← get
      let done ← performAll f (match i with
        | .launch _ => e.lanes
        | _ => passOrder s e.lanes)
      match stopOf done.faults with
      | some (_, x) => change (fun s => s.stopTeam x (entrySite s.t e (accessOf i)) e.pc 0)
      | none => do
        change State.clearMet
        hotPasses (if accessOf i = 4 ∨ accessOf i = 5 then 4 else accessOf i) done.reached
        match groupFault e.group done.faults with
        | some x => change (fun s => s.reparked at_ { e with lanes := inGroup e.group (done.faults.map (·.1)) } (accessOf i) x)
        | none => pure ()

/-- The lanes of an entry that no entry of `before` holds. -/
def freeLanes (before : List OpEntry) (e : OpEntry) : List LogLane :=
  e.lanes.filter (fun l => !before.any (fun b => !b.scalar && b.lanes.any (fun k => k.lane == l.lane)))

/-- The lanes of an entry behind wait on nothing earlier now: those of a per-lane copy join their pass in the queue (R180), others replay. -/
def replayFree (at_ : Nat) (e : OpEntry) : Act Unit :=
  match e.instr with
  | some (.cpyLane _) => change (fun s => s.upd (fun t => t.joinPass e e.lanes))
  | _ => replayLanes at_ e

/-- The entries behind: each entry without a record whose lanes wait on nothing earlier replays by itself, in program order (R292).
`n` bounds the entries still to look at, from place `at_` of the log on. -/
def replayBehind : Nat → Nat → Act Unit
  | 0, _ => pure ()
  | n + 1, at_ => do
    let s ← get
    match s.t.oplog[at_]? with
    | none => pure ()
    | some e => do
      let free := freeLanes (s.t.oplog.take at_) e
      if e.record || e.scalar || free.isEmpty then replayBehind n (at_ + 1)
      else do
        let rest := e.lanes.filter (fun l => !free.contains l)
        change (fun s => s.upd (fun t => { t with
          oplog := t.oplog.take at_ ++ (if rest.isEmpty then [] else [{ e with lanes := rest }]) ++ t.oplog.drop (at_ + 1) }))
        replayFree at_ { e with lanes := free }
        let s' ← get
        replayBehind n (if s'.t.oplog.length < s.t.oplog.length then at_ else at_ + 1)

/-- Replay the entry `id` of the team in focus, then what waited behind it. -/
def replayEntry (id : Nat) : Act Unit := do
  let s ← get
  let at_ := s.t.oplog.findIdx (fun e => e.record && e.id == id)
  match s.t.oplog[at_]? with
  | none => pure ()
  | some e => do
    change (fun s => s.upd (fun t => { t with oplog := t.oplog.take at_ ++ t.oplog.drop (at_ + 1) }))
    if e.scalar then replayScalar at_ e else replayLanes at_ e
    replayBehind (2 * s.t.oplog.length) 0
    change (fun s => s.upd Team.settle)

/-- An engine command parked under `id` goes on from where it parked (R177). -/
def Team.unparkEngine (t : Team) (id : Nat) : Team :=
  let f (c : EngCmd) : EngCmd := if c.stage.record = some id then { c with stage := if c.progress = 0 then .queued else .started } else c
  { t with tileQ := t.tileQ.map f, copyQ := t.copyQ.map f }

/-! ## Who owns an ID -/

/-- Whether a live operand-log entry or engine command of a team stands under a record `id`. -/
def Team.ownsEntry (t : Team) (id : Nat) : Bool :=
  t.oplog.any (fun e => e.record && e.id == id) || (t.tileQ ++ t.copyQ).any (fun c => decide (c.stage.record = some id))

/-- Whether a team is named by `id`: by an entry, or as Stopped by a fault (R296). -/
def Team.named (t : Team) (ctx id : Nat) : Bool :=
  t.ctx == ctx && decide (t.life ≠ .retired) && (t.ownsEntry id || decide (t.why = .fault id))

/-- The resident team that owns entry `id`. -/
def ownerOf (s : State) (ctx id : Nat) : Option Team := s.teams.find? (fun t => t.ctx == ctx && t.ownsEntry id)

/-- A reply to a saved team joins its slot's reply log (R302). -/
def State.logReply (s : State) (f : Team → Bool) (r : Reply) : State :=
  s.logged (fun h => if h.teams.any f then [r] else [])

/-- The fixed unit's access parked under `id`. -/
def fixedOf (s : State) (ctx id : Nat) : Option FixedPark := s.fixed.find? (fun f => f.ctx == ctx && f.id == id)

/-- Remove a fixed unit's parked access. -/
def State.unfix (s : State) (ctx id : Nat) : State := { s with fixed := s.fixed.filter (fun f => !(f.ctx == ctx && f.id == id)) }

/-- A stream that waited on the writes under `old` now waits on those under `new`, or goes on, its FORK being complete if it was one (R221). -/
def State.rehold (s : State) (ctx old : Nat) (new : Option Nat) : State :=
  let held := (s.teams ++ s.shadows.flatMap (fun h => h.teams)).filter (fun t => t.ctx == ctx && decide (t.sPark.map (fun p => p.1) = some old))
  let ended := held.filter (fun t => match t.wait with
    | .forked _ => false
    | _ => true)
  let s := if new.isSome then s else s.updCtx ctx (fun x => { x with forks := x.forks.filter (fun e => ended.all (fun t => t.ident != e)) })
  s.mapTeams (fun t => match t.sPark with
    | some p => if t.ctx = ctx ∧ p.1 = old ∧ !t.ownsEntry old then { t with sPark := new.map (fun n => (n, p.2.1, p.2.2)) } else t
    | none => t)

/-- A fixed unit's writes are performed from the parked one on; `skip`: that one is dropped. -/
def resumeWrites (f : FixedPark) (pc : DWord) (queue : Option Nat) (ws : List (DWord × List Byte)) : Act Unit := do
  change (fun s => s.unfix f.ctx f.id)
  let new ← fixedWrites f.ctx f.pennant pc queue ws
  change (fun s => s.rehold f.ctx f.id new)

/-! ## REPLAY -/

/-- FREPLY_REPLAY (R296). -/
def execFreplyReplay (ctx id : Nat) (s : State) : Out :=
  match fixedOf s ctx id with
  | some f =>
    match f.work with
    | .again i => .next ((s.unfix ctx id).after [i])
    | .writes pc queue ws => runAct (resumeWrites f pc queue ws) s
  | none =>
    match ownerOf s ctx id with
    | some t =>
      if frozen s t then .next (s.updCtx ctx (fun x => { x with late := x.late ++ [id] }))
      else eventAt t.core t.slot (fun s => runAct (do
        replayEntry id
        change (fun s => s.upd (fun t => t.unparkEngine id))) s) s
    | none => .next (s.logReply (fun t => t.ctx == ctx && t.ownsEntry id) (.replay ctx id))

/-- The IDs of the live entries of a team. -/
def Team.entryIds (t : Team) : List Nat :=
  (t.oplog.filter (fun e => e.record)).map (fun e => e.id) ++ (t.tileQ ++ t.copyQ).filterMap (fun c => c.stage.record)

/-- Every live entry of context `ctx`, as the saved teams of a slot hold them, is owed a replay (R302). -/
def Shadow.allOwed (h : Shadow) (ctx : Nat) : List Reply :=
  (((h.teams.filter (fun t => t.ctx == ctx)).flatMap Team.entryIds).eraseDups).map (.replay ctx)

/-- FREPLY_REPLAY_ALL (R296). -/
def execFreplyReplayAll (ctx : Nat) (s : State) : Out :=
  let ids := (s.fixed.filter (fun f => f.ctx == ctx)).map (fun f => f.id) ++ (s.teams.filter (fun t => t.ctx == ctx)).flatMap Team.entryIds
  .next ((s.logged (fun h => h.allOwed ctx)).after (ids.eraseDups.map (fun i => .freplyReplay ctx i)))

/-! ## FAIL and KILL -/

/-- What follows when the driver refuses a fixed unit's access (R424). -/
def refuseWork (f : FixedPark) : Instr → Act Unit
  | .launchPacket q p => do
    let s ← get
    if q < Config.numQueues then endLaunch f.ctx (some q) (lastPacket (queueOf s q)) p.d7 [] 9 else endLaunch f.ctx none 0 p.d7 [] 9
  | .launchPlacement id => do
    let s ← get
    match launchOf s id with
    | some l => rejectHeld l 9
    | none => pure ()
  | .fondantReconstructCell l c => change (fun s => (s.updLaunch l (fun k => { k with
      lost := sget (0, 0) k.stuck c :: k.lost, status := if k.status = 0 then 9 else k.status })).after [.fondantReconstructCell l c])
  | .waitPacket q _ => change (fun s => s.queueError q 5)
  | .fencePacket q _ => change (fun s => s.queueError q 5)
  | .copyPacket q _ => change (fun s => s.queueError q 5)
  | .capstopPacket q _ => change (fun s => s.queueError q 5)
  | .latchPacket q _ => change (fun s => s.packetDone q)
  | .dropComplete c p => change (fun s => (s.updCtx c (fun x => x.updPen p (fun n => { n with auto := false }))).after [.dropComplete c p])
  | _ => pure ()

/-- A fixed unit's parked access is dropped. -/
def refuseFixed (f : FixedPark) : Act Unit := do
  match f.work with
  | .again i => do
    change (fun s => s.unfix f.ctx f.id)
    refuseWork f i
  | .writes pc queue ws => resumeWrites f pc queue (ws.drop 1)

/-- The site, PC and address of the access parked under `id`. -/
def Team.failSite (t : Team) (id : Nat) : Site × DWord × DWord :=
  match t.oplog.find? (fun e => e.record && e.id == id) with
  | some e =>
    (entrySite t e e.access, e.pc, e.va)
  | .none =>
    match (t.tileQ ++ t.copyQ).find? (fun c => decide (c.stage.record = some id)) with
    | some c =>
      match c.stage with
      | .parked _ access va => (t.cmdSite c access, c.pc, va)
      | _ => (t.cmdSite c 4, c.pc, 0)
    | .none => (t.site 0 0 false, t.spc, 0)

/-- The entry under `id` leaves the log, or the command waits held with its Stopped team (R290). -/
def Team.dropEntry (t : Team) (id : Nat) : Team :=
  { (t.unparkEngine id).unpark id with oplog := t.oplog.filter (fun e => !(e.record && e.id == id)) }

/-- FREPLY_FAIL (R296): the replay-refused stopping fault. -/
def execFreplyFail (ctx id : Nat) (s : State) : Out :=
  match fixedOf s ctx id with
  | some f => runAct (refuseFixed f) s
  | none =>
    match ownerOf s ctx id with
    | some t => eventAt t.core t.slot (fun s =>
        let x := s.t.failSite id
        .next ((s.stopTeam (plainFault 0x0c x.2.2) x.1 x.2.1 0).upd (fun t => t.dropEntry id))) s
    | none => .next (s.logReply (fun t => t.ctx == ctx && t.ownsEntry id) (.fail ctx id))

/-- FREPLY_KILL (R296): the team of the record is cut. -/
def execFreplyKill (ctx id : Nat) (s : State) : Out :=
  match fixedOf s ctx id with
  | some f => runAct (refuseFixed f) s
  | none =>
    if s.teams.any (fun t => t.named ctx id) then
      match s.teams.find? (fun t => t.named ctx id) with
      | some t => .next ((s.finishStarted t.core t.slot).cut (fun u => u.core == t.core && u.slot == t.slot && u.named ctx id) 9)
      | none => .next s
    else .next (s.logReply (fun t => t.named ctx id) (.kill ctx id))

end Sys2Proof.Machine
end

