-- ==== Sys2Proof/Machine/TeamSteps.lean ====
section
/-! DEFINITION. Steps of a team's own units: blocks, barriers, merges, retirement, arrival, flushes (R42, R46, R52, R54, R63, R83, R96,
R326). -/

namespace Sys2Proof.Machine

/-- Whether a team's streams move at all. -/
def Team.moves (t : Team) : Bool := t.alive && !t.debug

/-- LANE_BLOCK_BEGIN (R52). -/
def execLaneBlockBegin (core slot : Nat) (s : State) : Out :=
  eventAt core slot (fun s =>
    if !s.t.moves || s.t.paused || s.t.running.isSome then .next s
    else match s.t.waiting with
      | [] => .next s
      | b :: bs => .next (s.upd (fun t => t.beginBlock b bs))) s

/-- LANE_BLOCK_END (R54, R170, R326, R363). -/
def execLaneBlockEnd (core slot : Nat) (s : State) : Out :=
  eventAt core slot (fun s =>
    if !s.t.moves || s.t.paused || !s.t.blockOver then .next s else .next ((s.drainCore core).upd Team.endBlock)) s

/-- Whether a path waits at barrier `b`; with `e`, in the .E form. -/
def Path.waitsAt (p : Path) (b : Nat) (e : Bool) : Bool :=
  match p.hold with
  | .barrier c f => c == b && (!e || f)
  | _ => false

/-- The paths that waited at barrier `b` stand at its successor, its flags are clear (R326). -/
def Team.passBarrier (t : Team) (b : Nat) : Team :=
  let t := t.setFlags b 0
  let t := { t with paths := t.paths.map (fun (p : Path) => if p.waitsAt b false then { p with hold := .none, pc := laneNext p.pc } else p) }
  { t with arms := t.arms.mapIdx (fun k (a : Arm) => a.release (t.merging k) (fun i => (t.path i).atBarrier)) }.settle

/-- BARRIER_COMPLETE (R326, R334, R182). -/
def execBarrierComplete (core slot bar : Nat) (s : State) : Out :=
  eventAt core slot (fun s =>
    if !s.t.moves || s.t.paused || !s.t.completes bar then .next s
    else
      let s := if s.t.paths.any (fun p => p.waitsAt bar true) then s.drainEngine else s
      .next (s.upd (fun t => t.passBarrier bar))) s

/-- PATH_MERGE (R63); beside a debug stop under NONSTOP the sibling arm's splits merge too (R309). -/
def execPathMerge (core slot split : Nat) (s : State) : Out :=
  eventAt core slot (fun s =>
    match s.t.splits.find? (fun u => u.id == split) with
    | none => .next s
    | some u => if s.t.alive && laneRuns s s.t && !s.t.paused && s.t.canMerge u then .next (s.upd (fun t => t.merge u)) else .next s) s

/-- The commands of a Retiring team held under pending guards are discarded (R42). -/
def Team.dropHeld (t : Team) : Team :=
  { t with tileQ := t.tileQ.filter (fun c => c.guard.isNone), copyQ := t.copyQ.filter (fun c => c.guard.isNone) }

/-- Whether a Retiring team has no work left but commands held under guards. -/
def Team.retirable (t : Team) : Bool :=
  t.idleLanes && t.oplog.isEmpty && t.sPark.isNone && t.sFetch.isNone && decide (t.linkOut = 0) && t.dropHeld.tileQ.isEmpty && t.dropHeld.copyQ.isEmpty

/-- TEAM_RETIRE (R42, R240, R276): the release, the last cell finished, bindings ended, the slot free. -/
def execTeamRetire (core slot : Nat) (s : State) : Out :=
  eventAt core slot (fun s =>
    if !s.t.moves || decide (s.t.life ≠ .retiring) || !s.t.idleLanes then .next s
    else if !s.t.retirable then .next (s.upd Team.dropHeld)
    else
      let s := (s.release 4).finishCell
      let s := s.t.bindings.foldl State.unbind s
      .next (s.upd Team.cutDown)) s

/-- LONG_LATENCY_COMPLETE (R83): the windows of the path's instructions whose results are all written are gone. -/
def execLongLatencyComplete (core slot path : Nat) (s : State) : Out :=
  eventAt core slot (fun s => .next (s.upd (fun t =>
    (t.updPath path (fun p => { p with windows := t.liveWindows p.windows })).settle))) s

/-- A migrating team stands at its target (R46, R47, R287). -/
def Team.land (t : Team) : Team :=
  match t.wait with
  | .migrate d _ => { t.resultX d 0 with wait := .none, life := t.before, why := .none, lastPages := [], acc := [], spad := [] }
  | _ => t

/-- MIGRATE_ARRIVAL (R46): the team's group-registers enter the target's lane file (R36). -/
def execMigrateArrival (core slot : Nat) (s : State) : Out :=
  eventAt core slot (fun s => if s.t.why = .transit then runAct (fitFile core fileSize) (s.upd Team.land) else .next s) s

/-- ICFLUSH_COMPLETE (R96): every core of the scope has discarded the range. -/
def execIcflushComplete (core slot : Nat) (s : State) : Out :=
  eventAt core slot (fun s =>
    match s.t.wait with
    | .icflush sc a b =>
      if s.t.alive then
        .next ((s.discardCode s.t.ctx (scopeCores s.t sc) (flushRange a b)).upd (fun t => { t.nextS with wait := .none }))
      else .next s
    | _ => .next s) s

end Sys2Proof.Machine
end

