-- ==== Sys2Proof/Machine/Preempt.lean ====
section
/-! DEFINITION. Pre-emption: saving, restoring and evicting a partition (R299 to R303, R48, R268, R351). -/

namespace Sys2Proof.Machine

/-- A team at its halt (R300): a finished move lands, waits that are abandoned stand at their instruction again, an ICFLUSH that has discarded
nothing yet among them (R367), ordered sections stop counting. -/
def Team.halted (t : Team) (time : Nat) : Team :=
  let t := t.land
  let t := { t with
    paths := t.paths.map (fun (p : Path) => match p.hold with
      | .put _ _ => { p with hold := .none }
      | .prim _ _ => { p with hold := .none }
      | _ => p)
    wait := match t.wait with
      | .icflush _ _ _ => ScalarWait.none
      | w => w
    tileQ := t.tileQ.map (fun (c : EngCmd) => if c.stage = EngStage.ready then { c with stage := EngStage.queued } else c) }
  let t := if t.debug then t else t.freezeOs time
  match t.why with
  | .fault _ => t
  | _ => { t with before := t.life, life := .stopped, why := .saved }

/-- Whether a team stands in partition `k`. -/
def inPartition (k : Nat) (t : Team) : Bool := decide (t.life ≠ .retired) && partitionOf t.core == k

/-- The stores of partition `k`'s cores go to its slot, or come back. -/
def onCores (k c : Nat) : Bool := partitionOf c == k

/-- PREEMPT_SAVE (R300, R301): the partition halts and its state leaves the cores; SAVE_COMPLETE ends the transfer. -/
def execPreemptSave (part : Nat) (s : State) : Out :=
  let h := shadowOf s part
  if 3 < part ∨ h.pstat ≠ 0 ∨ h.pending ≠ 0 then .next s.wake
  else
    let s := (s.teams.filter (inPartition part)).foldl (fun s t => s.finishStarted t.core t.slot) s
    let s := (s.drainWc (fun l => onCores part l.core)).drainQuanta (fun q => onCores part q.core)
    let gone := (s.teams.filter (inPartition part)).map (fun t => t.halted s.time)
    let keep (c : Nat) : Bool := !onCores part c
    let s := s.updShadow part (fun h => { h with
      pstat := 1, pending := 1, teams := gone, ring := s.front.ring.filter (fun r => onCores part r.core)
      prims := s.front.prims.filter (fun b => onCores part b.core), bins := s.front.bins.filter (fun b => onCores part b.core)
      raster := s.front.raster.filter (fun i => onCores part i.1), pixels := s.front.pixels.filter (fun i => onCores part i.1) })
    .next { s.wake with
      t := if inPartition part s.t then Team.none else s.t
      others := s.others.filter (fun t => !inPartition part t)
      reserved := s.reserved ++ gone.map (fun t => (t.core, t.slot, t.claim))
      order := s.order ++ [(part, 1)]
      front := { s.front with
        ring := s.front.ring.filter (fun r => keep r.core), prims := s.front.prims.filter (fun b => keep b.core)
        bins := s.front.bins.filter (fun b => keep b.core), raster := s.front.raster.filter (fun i => keep i.1)
        pixels := s.front.pixels.filter (fun i => keep i.1) } }

/-- A partition's reservations end. -/
def State.unreserve (s : State) (part : Nat) : State := { s with reserved := s.reserved.filter (fun r => partitionOf r.1 != part) }

/-- Whether a launch that had aged when the slot's restore was requested still waits for a core of its teams: what is free there is the
launch's (R260, assumption log 46). -/
def Shadow.waitsFor (h : Shadow) (l : Launch) : Bool :=
  decide (l.st = .held) && h.behind.contains l.id && h.teams.any (fun t => l.cores.contains t.core)

/-- Whether every saved team's own slot is free, with its scratchpad and accumulator elements (R303), and no earlier reservation holds them. -/
def canRestore (s : State) (part : Nat) : Bool :=
  let h := shadowOf s part
  !s.launches.any h.waitsFor && h.teams.all (fun t => !s.teams.any (inSlot t.core t.slot) && decide (unitsClaimed s t.core ≤ 128) && decide (elementsHeld s t.core ≤ 16384))

/-- Whether no operation stands before this one but restores that wait for their cores (R301). -/
def opTurn (s : State) (part op : Nat) : Bool :=
  (s.order.takeWhile (fun o => o != (part, op))).all (fun o => o.2 == 2 && !canRestore s o.1)

/-- A PREEMPT operation ended: the slot's state, the interrupt (R299). -/
def State.preemptEnds (s : State) (part op pstat : Nat) : State :=
  { (s.updShadow part (fun h => { h with pstat := pstat, pending := 0 })) with order := s.order.filter (fun o => o != (part, op)) }.interrupt 6

/-- SAVE_COMPLETE (R301). -/
def execSaveComplete (part : Nat) (s : State) : Out :=
  if (shadowOf s part).pending ≠ 1 || !opTurn s part 1 then .next s
  else .next ((s.unreserve part).preemptEnds part 1 2)

/-- PREEMPT_RESTORE (R303): the saved teams' own slots and scratchpad are reserved, behind the launches that have aged (R260). -/
def execPreemptRestore (part : Nat) (s : State) : Out :=
  let h := shadowOf s part
  if 3 < part ∨ (h.pstat ≠ 2 ∧ h.pstat ≠ 3) ∨ h.pending ≠ 0 then .next s.wake
  else
    let aged := (s.launches.filter (fun l => decide (l.st = .held) && l.aged)).map (fun l => l.id)
    .next { (s.wake.updShadow part (fun h => { h with pstat := 1, pending := 2, behind := aged })) with
      reserved := s.reserved ++ h.teams.map (fun t => (t.core, t.slot, t.claim)), order := s.order ++ [(part, 2)] }

/-- A saved team as it goes on (R41, R303, R287). -/
def Team.restored (t : Team) (time : Nat) : Team :=
  let t := if t.debug then t else t.freezeOs time
  match t.why with
  | .saved => { t with life := t.before, why := .none }
  | _ => t

/-- The event of a logged response. -/
def Reply.event : Reply → Instr
  | .replay c i => .freplyReplay c i
  | .fail c i => .freplyFail c i
  | .kill c i => .freplyKill c i
  | .ack c k => .peerWriteAcknowledge c k

/-- The last-page registers of a context's teams are cleared (R287). -/
def State.clearPages (s : State) (c : Nat) : State := s.mapTeams (fun t => if t.ctx = c then { t with lastPages := [] } else t)

/-- The front end with what a slot saved of its cores, which stands before what came since (R268, R273), be it
beyond the core's sizes: the model's choice (assumption log 91). -/
def Front.taken (f : Front) (h : Shadow) : Front :=
  { f with
    ring := h.ring ++ f.ring, prims := h.prims ++ f.prims, bins := h.bins ++ f.bins, raster := h.raster ++ f.raster
    pixels := h.pixels ++ f.pixels }

/-- RESTORE_COMPLETE (R303): the state is back from the slot or its save area, the contexts' last-page registers are clear and the sampler caches empty, each core's lane
file fits, and the reply log is applied before anything issues. -/
def execRestoreComplete (part : Nat) (s : State) : Out :=
  let h := shadowOf s part
  if h.pending ≠ 2 || !opTurn s part 2 || !canRestore s part then .next s
  else
    let h := s.savedSlot part
    let s := (h.teams.foldl (fun s t => s.reclaim t.ctx t.core 0) s).dropSamples ((List.range Config.numCores).filter (onCores part))
    let s := s.unreserve part
    let s := { s with
      others := liveTeams (s.others ++ h.teams.map (fun (t : Team) => t.restored s.time))
      agenda := h.replies.map Reply.event ++ s.agenda
      front := s.front.taken h }
    let s := ((h.teams.map (fun t => t.ctx)).eraseDups).foldl State.clearPages s
    runAct (((h.teams.map (fun t => t.core)).eraseDups).forM (fun c => fitFile c fileSize))
      ((s.updShadow part (fun _ => { Shadow.reset with pending := 2 })).preemptEnds part 2 0)

/-- PREEMPT_EVICT (R302). -/
def execPreemptEvict (part : Nat) (s : State) : Out :=
  let h := shadowOf s part
  if 3 < part ∨ h.pstat ≠ 2 ∨ h.pending ≠ 0 then .next s.wake
  else .next (s.wake.updShadow part (fun h => { h with pstat := 1, pending := 3 }))

/-- EVICT_COMPLETE (R302). -/
def execEvictComplete (part : Nat) (s : State) : Out :=
  if (shadowOf s part).pending ≠ 3 then .next s else .next ((s.copyArea part).preemptEnds part 3 3)

end Sys2Proof.Machine
end

