-- ==== Sys2Proof/Machine/Driver.lean ====
section
/-! DEFINITION. What the driver does through the register window: context records, invalidation, heads, debug, plain registers
(R286, R289, R305, R309, R315, R317, R319, R421). -/

namespace Sys2Proof.Machine

/-! ## The context record (R286, R421) -/

/-- A LOAD of a context's record begins: LOADED clears in the same mesh clock as the write (R421). -/
def State.startLoad (s : State) (ctx : Nat) : State := s.wake.updCtx ctx (fun x => { x with loaded := false, loading := true })

/-- CONTEXT_LOAD (R421). -/
def execContextLoad (ctx : Nat) (s : State) : Out := .next (s.startLoad ctx)

/-- Range entry `k` of a record. -/
def recordRange (r : List Byte) (k : Nat) : RangeEnt :=
  let o := 0x80 + 0x20 * k
  { vbase := dwordAt r o, vlim := dwordAt r (o + 8), pbase := dwordAt r (o + 16), perm := dwordAt r (o + 24) }

/-- Whether every field of a record that has a stated limit is inside it (R286). -/
def recordOk (ctxrec : DWord) (r : List Byte) : Bool :=
  let al (o n : Nat) : Bool := decide ((dwordAt r o).toNat % n = 0)
  let hot := natAt r 0x3c 4
  let log2n := bits hot 0 5
  decide (ctxrec.toNat % 256 = 0) && al 0 4096 && al 0x10 4 && al 0x18 4096 && al 0x28 64 && al 0x30 65536 && al 0x40 4096 &&
    decide (natAt r 0x24 2 ≤ 256 ∧ 4 ≤ natAt r 0x26 1 ∧ natAt r 0x26 1 ≤ 16 ∧ natAt r 0x38 4 % 65536 = 0 ∧ 65536 ≤ natAt r 0x38 4) &&
    (decide (dwordAt r 0x28 = 0) || decide (4 ≤ natAt r 0x27 1 ∧ natAt r 0x27 1 ≤ 12)) &&
    (decide (log2n = 0) || decide (4 ≤ log2n ∧ log2n ≤ 20 ∧ 4 ≤ bits hot 10 6 ∧ bits hot 10 6 ≤ 20)) &&
    decide (bits (natAt r 8 8) 3 9 ≠ 0) &&
    (List.range 4).all (fun k => let e := recordRange r k
      decide (e.vbase.toNat % 65536 = 0 ∧ e.vlim.toNat % 65536 = 0 ∧ e.pbase.toNat % 65536 = 0))

/-- A context with the values of a record (Table 14.2). -/
def Ctx.take (x : Ctx) (r : List Byte) : Ctx :=
  let hw := natAt r 8 8
  let same := decide (x.ovbase = dwordAt r 0x28)
  { x with
    root := dwordAt r 0, hwm := bits hw 48 16, pbase := bits hw 12 36, wstride := bits hw 3 9, tvec := dwordAt r 0x10
    frbase := dwordAt r 0x18, oslimit := wordAt r 0x20, quota := natAt r 0x24 2, frlog2 := natAt r 0x26 1, ovk := natAt r 0x27 1
    ovbase := dwordAt r 0x28, ovHead := if same then x.ovHead else 0, ovTail := if same then x.ovTail else 0
    ovOwed := if same then x.ovOwed else 0
    binbase := dwordAt r 0x30, binsize := natAt r 0x38 4, hotctl := wordAt r 0x3c, hotbase := dwordAt r 0x40
    ranges := (List.range 4).map (recordRange r), loaded := true, loading := false }

/-- CONTEXT_LOAD_COMPLETE (R286, R287, R421): the record is read and checked; its values apply, or LOADED stays 0. The read clears the
context's last-page registers either way. -/
def execContextLoadComplete (ctx : Nat) (s : State) : Out :=
  let x := ctxOf s ctx
  if !x.loading then .next s
  else runAct (do
    let r ← physRead (fixedAcc ctx 0) x.ctxrec.toNat 256
    change (fun s => (s.updCtx ctx (fun x => if recordOk x.ctxrec r then x.take r else { x with loading := false })).clearPages ctx)) s

/-! ## Invalidation (R289) -/

/-- The page-TLB entries of a context that `f` selects leave every core; BUSY is set until the invalidation is complete. -/
def State.invalidate (s : State) (ctx lo n : Nat) (f : TlbEnt → Bool) : State :=
  let s := { s with
    caches := { s.caches with tlb := s.caches.tlb.filter (fun e => !(e.ctx == ctx && f e)) }
    win := { s.win with invCtx := some (ctx, lo, n) } }
  s.clearPages ctx

/-- INVALIDATE_ALL (R289). -/
def execInvalidateAll (ctx : Nat) (s : State) : Out := .next (s.invalidate ctx 0 (2 ^ 45) (fun _ => true))

/-- Whether a TLB entry translates some address of [lo, lo + n): it serves its whole run (R283). -/
def TlbEnt.overlaps (e : TlbEnt) (lo n : Nat) : Bool :=
  let size := 2 ^ (12 + 9 * e.lvl)
  Sys2Proof.Machine.overlaps (alignDown e.vpn e.run * size) (e.run * size) lo n

/-- INVALIDATE_RANGE (R289): lengths outside 2^12 to 2^34 act as ALL. -/
def execInvalidateRange (ctx : Nat) (vpn : BitVec 45) (log2len : BitVec 6) (s : State) : Out :=
  let k := log2len.toNat
  if k < 12 ∨ 34 < k then .next (s.invalidate ctx 0 (2 ^ 45) (fun _ => true))
  else
    let lo := alignDown (vpn.toNat * 4096) (2 ^ k)
    .next (s.invalidate ctx (lo / 4096) (2 ^ k / 4096) (fun e => e.overlaps lo (2 ^ k)))

/-- INVALIDATION_COMPLETE (R289): the accesses that used the translations are performed, BUSY returns to 0. -/
def execInvalidationComplete (s : State) : Out :=
  match s.win.invCtx with
  | none => .next s
  | some (c, _, _) =>
    let s := (s.drainWc (fun l => l.ctx == c || l.bytes.any (fun b => b.ctx == c))).drainQuanta (fun q => q.ctx == c)
    .next { s with win := { s.win with invCtx := none } }

/-! ## Debug, heads (R309, R319) -/

/-- A team released from a debug stop: its held access issues now. -/
def Team.resumed (t : Team) (time : Nat) : Team :=
  { t.freezeOs time with
    debug := false
    paths := t.paths.map (fun (p : Path) => if p.hold = .debug false then { p with hold := .debug true } else p) }

/-- A saved team released from a debug stop: its ordered sections go on counting at its restore (R309, R277). -/
def Team.resumedSaved (t : Team) : Team := { t.resumed 0 with bindings := t.bindings }

/-- Whether a RESUME of `id` releases a team. -/
def Team.resumes (id : BitVec 64) (t : Team) : Bool := t.debug && decide (t.life ≠ .retired) && decide (t.srTeamid = id)

/-- A RESUME reaches the saved teams of a slot, or of its save area. -/
def State.resumeSaved (s : State) (id : BitVec 64) (k : Nat) : State :=
  if (shadowOf s k).teams.any (Team.resumes id) then
    (s.updShadow k (fun h => { h with teams := h.teams.map (fun t => if t.resumes id then t.resumedSaved else t) })).fillArea k
  else s

/-- RESUME (R309): the stopped team of that sr.teamid is released; where none is resident, a saved one (assumption log 60). -/
def execResume (id : BitVec 64) (s : State) : Out :=
  if s.teams.any (Team.resumes id) then
    let f (t : Team) : Team := if t.resumes id then t.resumed s.time else t
    .next { s with t := f s.t, others := s.others.map f }
  else .next ((List.range 4).foldl (fun s k => s.resumeSaved id k) s)

/-- Ticks of a head's frame period. -/
def Head.period (h : Head) : Nat := 256 * bits h.hcfg.toNat 4 18

/-- HCFG_WRITE (R319): a write that leaves the head enabled restarts its period. -/
def execHcfgWrite (h : Nat) (v : BitVec 64) (s : State) : Out :=
  .next { s with heads := updNth s.heads h (fun d =>
    let d := { d with hcfg := v &&& ~~~ (0xe : DWord) }
    (if d.enabled then { d with blankAt := s.time + d.period } else d).settle) }

/-- Bytes of a surface as scan-out reads them, at most `k` pages: through the flip's context, under the trunk; what fails reads zero. -/
def scanPages (ctx : Nat) : Nat → DWord → Nat → State → List Byte × State
  | 0, _, _, s => ([], s)
  | k + 1, va, n, s =>
    if n = 0 then ([], s)
    else
      let m := min n (4096 - va.toNat % 4096)
      let r := match vread (fixedAcc ctx 0) .fixRead none 3 va m s with
        | .ok (.ok bs, s') => (bs, s')
        | _ => (List.replicate m 0, s)
      let rest := scanPages ctx k (va + BitVec.ofNat 64 m) (n - m) r.2
      (r.1 ++ rest.1, rest.2)

/-- The rows of a frame from row `y` on. -/
def scanRows (d : Head) (f : Flip) : Nat → Nat → State → List Byte × State
  | 0, _, s => ([], s)
  | k + 1, y, s =>
    let n := 4 * (bits d.hcfg.toNat 51 13 + 1)
    let r := scanPages f.ctx (n / 4096 + 2) (f.surface + BitVec.ofNat 64 (y * 256 * bits d.hcfg.toNat 22 16)) n s
    let rest := scanRows d f k (y + 1) r.2
    (r.1 ++ rest.1, rest.2)

/-- A head scans out the surface it shows. -/
def State.scanOut (s : State) (h : Nat) : State :=
  let d := headOf s h
  match d.shown with
  | none => s
  | some f =>
    let r := scanRows d f (bits d.hcfg.toNat 38 13 + 1) 0 s
    { r.2 with heads := updNth r.2.heads h (fun d => { d with frame := r.1 }) }

/-- VERTICAL_BLANK (R319): the oldest queued flip is presented, VBL is set, and the frame that follows is read from the surface shown. -/
def execVerticalBlank (h : Nat) (s : State) : Out :=
  let d := headOf s h
  if !d.enabled ∨ s.time < d.blankAt then .next s
  else
    let s := { s with heads := updNth s.heads h (fun d => { d with
      blankAt := d.blankAt + d.period, queue := d.queue.drop 1, shown := match d.queue with
        | f :: _ => some f
        | [] => d.shown }) }
    .next ((s.interrupt (12 + h)).scanOut h)

/-- FLIP_ENTER_QUEUE (R228): the oldest flip outside a head's queue enters it. -/
def execFlipEnterQueue (h : Nat) (s : State) : Out :=
  .next { s with heads := updNth s.heads h (fun d =>
    match d.outside with
    | f :: fs => if d.queue.length < 16 then { d with queue := d.queue ++ [f], outside := fs } else d
    | [] => d) }

/-! ## Plain registers (R305) -/

/-- Change the window's registers. -/
def State.updWin (s : State) (f : Window → Window) : State := { s with win := f s.win }

/-- A write of GOVCTL (Table 15.10): one outside its ranges is ignored, PLIMIT is capped at the platform maximum. -/
def writeGovctl (v : DWord) (w : Window) : Window :=
  let n := v.toNat
  let g := bits n 16 9
  let t := bits n 9 7
  let p := bits n 0 9
  if 1 ≤ g ∧ g ≤ 256 ∧ 60 ≤ t ∧ t ≤ 110 ∧ 150 ≤ p ∧ p ≤ 420 then { w with gfloor := g, tlimit := t, plimit := min p w.platMax } else w

/-- The event a write of PREEMPT asks for (R299): with no operation, the exit from an idle state alone (R316). -/
def preemptEvent (v : Nat) : List Instr :=
  match bits v 4 2 with
  | 1 => [.preemptSave (bits v 6 2)]
  | 2 => [.preemptRestore (bits v 6 2)]
  | 3 => [.preemptEvict (bits v 6 2)]
  | _ => [.idleExit]

/-- The event a write of FREPLY asks for (R296). -/
def freplyEvent (v : Nat) : Instr :=
  let c := bits v 32 4
  let i := bits v 0 32
  match bits v 36 2 with
  | 0 => .freplyReplay c i
  | 1 => .freplyFail c i
  | 2 => .freplyReplayAll c
  | _ => .freplyKill c i

/-- The event a write of INVCTL asks for (R289). -/
def invEvent (v : Nat) : List Instr :=
  if !bit v 0 then []
  else if bit v 1 then [.invalidateAll (bits v 2 4)]
  else [.invalidateRange (bits v 2 4) (BitVec.ofNat 45 (bits v 12 45)) (BitVec.ofNat 6 (bits v 6 6))]

/-- Whether a queue's EN reads 1 or a write of 1 is about to take effect. -/
def enabling (s : State) (q : Nat) : Bool := (queueOf s q).en || s.agenda.contains (.queueEnable q)

/-- A write of QCTL (Table 12.1): CTX only while EN = 0, then EN. -/
def writeQctl (q : Nat) (v : Nat) (s : State) : State :=
  let s := if enabling s q then s else s.updQueue q (fun k => { k with ctx := bits v 20 4 })
  if bit v 0 then s.after [.queueEnable q] else if enabling s q then s.after [.queueDisable q] else s

/-- A write of a watchpoint's half (R309). -/
def writeWatch (i w : Nat) (ctl : Bool) (v : DWord) (s : State) : State :=
  s.updCtx i (fun x => { x with watch := updNth x.watch w (fun p => if ctl then { p with ctl := v &&& 0x71f } else { p with addr := v }) })

/-- What a write at a window offset does; registers that are read-only, and offsets with no register, ignore it. CLASSTAB keeps all 64 bits as
written, those of no field among them (assumption log 89). -/
def writeRegister (off : Nat) (v : DWord) (s : State) : State :=
  let n := v.toNat
  if 0x400 ≤ off ∧ off < 0x500 then
    let i := (off - 0x400) / 16
    if off % 16 = 0 then s.updCtx i (fun x => { x with ctxrec := v })
    else if off % 16 = 8 ∧ bit n 0 then s.startLoad i else s
  else if off = 0x800 then s.after (invEvent n)
  else if off = 0x840 then s.after (preemptEvent n)
  else if 0x850 ≤ off ∧ off < 0x870 ∧ off % 8 = 0 then s.updWin (fun w => { w with psave := updNth w.psave ((off - 0x850) / 8) (fun _ => v) })
  else if off = 0x870 then s.after [freplyEvent n]
  else if off = 0x880 then s.updWin (fun w => { w with intstat := w.intstat &&& ~~~ v })
  else if off = 0x888 then s.updWin (fun w => { w with inten := v &&& 0xfffc })
  else if off = 0x900 then s.updWin (writeGovctl v)
  else if off = 0x908 then s.updWin (fun w => { w with lattol := v.setWidth 32 })
  else if off = 0x910 then s.updWin (fun w => { w with classtab := v })
  else if 0xc00 ≤ off ∧ off < 0xd00 then
    let i := (off - 0xc00) / 16
    if off % 16 = 0 then s.updCtx i (fun x => { x with trctl := (v &&& 0x3ffe0).setWidth 32 })
    else if off % 16 = 8 then s.updCtx i (fun x => { x with trbase := v }) else s
  else if 0x1000 ≤ off ∧ off < 0x1400 then
    let q := (off - 0x1000) / 32
    if off % 32 = 0 then s.updQueue q (fun k => { k with qhdr := v })
    else if off % 32 = 8 then writeQctl q n s
    else if off % 32 = 16 then s.after [.qdbDoorbell q] else s
  else if 0x2000 ≤ off ∧ off < 0x2100 ∧ off % 64 = 0 then s.after [.hcfgWrite ((off - 0x2000) / 64) v]
  else if 0x3000 ≤ off ∧ off < 0x3400 then
    if off % 8 = 0 then writeWatch ((off - 0x3000) / 64) ((off - 0x3000) % 64 / 16) (decide (off % 16 = 8)) v s else s
  else if off = 0x3400 then s.after [.resume v]
  else s

/-- REGISTER_WRITE (R6, R305, R306, R315, R317). -/
def execRegisterWrite (off : Nat) (v : BitVec 64) (s : State) : Out := .next (writeRegister off v s)

end Sys2Proof.Machine
end

