-- ==== Sys2Proof/Machine/Approx.lean ====
section
/-! DEFINITION. The approximating instructions (R359, Table 17.5): a free f32 pattern, kept where it lies inside the bound
(assumption log 4). Each reference value is computed to far more bits than the bound needs. -/

namespace Sys2Proof.Machine

/-- Bits after the point of the reference computations. -/
def refBits : Nat := 200
/-- Floor(ln 2 · 2^200). -/
def refLn2 : Nat := 0xb17217f7d1cf79abc9e3b39803f2f6af40f343267298b62d8a
/-- Floor(π · 2^200). -/
def refPi : Nat := 0x3243f6a8885a308d313198a2e03707344a4093822299f31d008

/-- Taylor sum of e^y in fixed point: `k` terms left, term number `i`. -/
def expTaylor (y : Nat) : Nat → Nat → Nat → Nat
  | 0, _, _ => 0
  | k + 1, i, t => t + expTaylor y k (i + 1) (t * y / (i * 2 ^ refBits))

/-- 2^(f / 2^200) for f below 2^200, in fixed point. -/
def exp2Frac (f : Nat) : Nat := expTaylor (f * refLn2 / 2 ^ refBits) 50 1 (2 ^ refBits)

/-- `k` bits of log2 x for x in [1, 2), in fixed point, most significant first. -/
def log2Bits : Nat → Nat → Nat
  | 0, _ => 0
  | k + 1, x =>
    let y := x * x / 2 ^ refBits
    if 2 ^ (refBits + 1) ≤ y then 2 ^ k + log2Bits k (y / 2) else log2Bits k y

/-- Taylor sum of sin z in fixed point. -/
def sinTaylor (z2 : Nat) : Nat → Nat → Int → Int
  | 0, _, _ => 0
  | k + 1, i, t => t + sinTaylor z2 k (i + 2) (-(t * (z2 : Int) / ((i * (i + 1) : Nat) * 2 ^ refBits : Int)))

/-- sin(π · y / 2^200) for y up to a half turn's half, in fixed point. -/
def sinQuarter (y : Nat) : Int :=
  let z := y * refPi / 2 ^ refBits
  sinTaylor (z * z / 2 ^ refBits) 40 2 (z : Int)

/-- sin(π · r / 2^200) for r below 2^201, in fixed point. -/
def sinTurn (r : Nat) : Int :=
  let q := r / 2 ^ (refBits - 1)
  let t := r % 2 ^ (refBits - 1)
  let s := if q % 2 = 0 then sinQuarter t else sinQuarter (2 ^ (refBits - 1) - t)
  if q < 2 then s else -s

/-- A finite f32 value modulo 2, as a non-negative number over 2^200. -/
def modTwo (neg : Bool) (m : Nat) (e : Int) : Nat :=
  let r := m * 2 ^ (e + refBits).toNat % 2 ^ (refBits + 1)
  if neg ∧ r ≠ 0 then 2 ^ (refBits + 1) - r else r

/-- One ulp of a finite value in f32, as a power of two. -/
def ulpExp (m : Nat) (e : Int) : Int := max ((Nat.log2 m : Int) + e - 23) (-149)

/-- |a − b| ≤ k · 2^q. -/
def within (a b : Num) (k : Nat) (q : Int) : Bool :=
  match Num.add .rn a b.neg with
  | .fin _ m e => !Num.lt (.fin false k q) (.fin false m e)
  | _ => false

/-- The pattern `p`, if it is a finite value the test accepts, otherwise the reference rounded RN; a zero result is +0 but where the input is a
zero. -/
def keepWithin (p : Word) (ref : Num) (ok : Num → Bool) : Word :=
  let r := if (v32 p).isFin && ok (v32 p) then p else rn32 ref
  if r = 0x80000000 then 0 else r

/-- Within `k` ulp of the reference. -/
def withinUlp (ref : Num) (k : Nat) (v : Num) : Bool :=
  match ref with
  | .fin _ m e => within v ref k (ulpExp m e)
  | _ => false

/-- FRCP on f32 bits. -/
def frcp32 (x : Word) : Word :=
  match v32 x with
  | .nan => 0x7fc00000
  | .inf s => BitVec.ofNat 32 (f32.pack s 0)
  | .fin s m e =>
    if m = 0 then BitVec.ofNat 32 (f32.infBits s)
    else
      let k := refBits + Nat.log2 m
      let ref := Num.fin s (2 ^ k / m) (-e - (k : Int))
      if (v32 (rn32 ref)).isInf then rn32 ref else keepWithin (Config.approx 0x048 x) ref (withinUlp ref 1)

/-- FRSQ on f32 bits. -/
def frsq32 (x : Word) : Word :=
  match v32 x with
  | .nan => 0x7fc00000
  | .inf s => if s then 0x7fc00000 else 0
  | .fin s m e =>
    if m = 0 then BitVec.ofNat 32 (f32.infBits s)
    else if s then 0x7fc00000
    else
      let r := sqrtFin m e
      let k := refBits + Nat.log2 r.1
      let ref := Num.fin false (2 ^ k / r.1) (-r.2.1 - (k : Int))
      keepWithin (Config.approx 0x049 x) ref (withinUlp ref 1)

/-- FEXP2 on f32 bits. -/
def fexp232 (x : Word) : Word :=
  match v32 x with
  | .nan => 0x7fc00000
  | .inf s => if s then 0 else 0x7f800000
  | .fin s m e =>
    if !Num.lt (v32 x) (.fin false 128 0) then 0x7f800000
    else if Num.lt (v32 x) (.fin true 160 0) then 0
    else
      let a := finInt s m e (-(refBits : Int))
      let n := a / (2 ^ refBits : Int)
      let f := (a % (2 ^ refBits : Int)).toNat
      if f = 0 then rn32 (.fin false 1 n)
      else
        let ref := Num.fin false (exp2Frac f) (n - refBits)
        keepWithin (Config.approx 0x04b x) ref (withinUlp ref 2)

/-- FLOG2 on f32 bits. -/
def flog232 (x : Word) : Word :=
  match v32 x with
  | .nan => 0x7fc00000
  | .inf s => if s then 0x7fc00000 else 0x7f800000
  | .fin s m e =>
    if m = 0 then 0xff800000
    else if s then 0x7fc00000
    else
      let l := Nat.log2 m
      if m = 2 ^ l then rn32 (numOfInt ((l : Int) + e) 0 false)
      else
        let fr := log2Bits 100 (m * 2 ^ (refBits - l))
        let ref := numOfInt (((l : Int) + e) * (2 ^ 100 : Int) + (fr : Int)) (-100) false
        let near := !Num.lt (v32 x) (.fin false 1 (-1)) && !Num.lt (.fin false 2 0) (v32 x)
        keepWithin (Config.approx 0x04c x) ref (fun v => withinUlp ref 2 v && (!near || within v ref 1 (-22)))

/-- Sine of π times r over 2^200, by a free pattern of opcode `op`. -/
def sinBits (op : BitVec 10) (x : Word) (r : Nat) : Word :=
  if r % 2 ^ (refBits - 1) = 0 then
    match r / 2 ^ (refBits - 1) with
    | 1 => 0x3f800000
    | 3 => 0xbf800000
    | _ => 0
  else
    let ref := numOfInt (sinTurn r) (-(refBits : Int)) false
    keepWithin (Config.approx op x) ref (fun v => within v ref 1 (-22))

/-- FSIN on f32 bits. -/
def fsin32 (x : Word) : Word :=
  match v32 x with
  | .nan => 0x7fc00000
  | .inf _ => 0x7fc00000
  | .fin s m e => if m = 0 then x else sinBits 0x04d x (modTwo s m e)

/-- FCOS on f32 bits. -/
def fcos32 (x : Word) : Word :=
  match v32 x with
  | .nan => 0x7fc00000
  | .inf _ => 0x7fc00000
  | .fin s m e => sinBits 0x04e x ((modTwo s m e + 2 ^ (refBits - 1)) % 2 ^ (refBits + 1))

/-- An approximating instruction under TYPE .F32 or .F16: the .F16 form widens exactly and rounds the f32 result once (R359). -/
def approxTyped (op : Word → Word) (ty raw : Nat) : Nat :=
  if ty = 13 then f16.round .rn (v32 (op (rn32 (f16.value (raw % 2 ^ 16)))))
  else (op (BitVec.ofNat 32 raw)).toNat

end Sys2Proof.Machine
end

