-- ==== Sys2Proof/Machine/LaneFloat.lean ====
section
/-! DEFINITION. The floating-point lane instructions, ABS, DOT2, conversions and block formats (§16.2, §16.13, §16.14, §16.24, §17.3,
§17.7). -/

namespace Sys2Proof
open Machine

/-- The element format of the word's TYPE. -/
def LWord.fmt (w : LWord) : Fmt := fmtOf w.ty.toNat

/-- The rounding mode FN names. -/
def LWord.mode (w : LWord) : RMode := modeOf w.fn

/-- The source TYPE of a CVT (R345). -/
def LWord.cvtSrc (w : LWord) : Nat := (w.modb.extractLsb' 0 5).toNat

end Sys2Proof

namespace Sys2Proof.Machine

/-! ## Elements (R116) -/

/-- A TYPE of two packed elements. -/
def packed (ty : Nat) : Bool := decide (ty = 19 ∨ ty = 20)

/-- A function of up to three element patterns, applied to each element of a value of TYPE `ty`. -/
def eachElem (ty : Nat) (f : Nat → Nat → Nat → Nat) (a b c : Nat) : Nat :=
  let m := 2 ^ (fmtOf ty).width
  if packed ty then f (a % m) (b % m) (c % m) + m * f (a / m % m) (b / m % m) (c / m % m) else f (a % m) (b % m) (c % m)

/-- A binary float operation on patterns. -/
def floatBinary (w : LWord) (f : Nat → Nat → Nat) (s : State) : Out :=
  laneResult w w.n (fun t lane => eachElem w.ty.toNat (fun a b _ => f a b) (t.a w lane w.n) (t.b w lane w.n) 0) s

/-- A unary float operation on patterns. -/
def floatUnary (w : LWord) (f : Nat → Nat) (s : State) : Out :=
  laneResult w w.n (fun t lane => eachElem w.ty.toNat (fun a _ _ => f a) (t.a w lane w.n) 0 0) s

/-- The sign bit cleared; a NaN gives the canonical NaN (R324). -/
def Fmt.absBits (f : Fmt) (raw : Nat) : Nat := if (f.value raw).isNan then f.nan else raw % 2 ^ (f.width - 1)

/-- An approximating instruction. -/
def approxResult (w : LWord) (op : Word → Word) (s : State) : Out :=
  laneResult w 1 (fun t lane => approxTyped op w.ty.toNat (t.a w lane 1)) s

/-- ABS (R324). -/
def execAbs (w : LWord) (s : State) : Out := 
  if w.ty.toNat = 10 ∨ w.ty.toNat = 12 then laneUnary w iabs s else floatUnary w w.fmt.absBits s
/-- FADD (R354). -/
def execFadd (w : LWord) (s : State) : Out := 
  floatBinary w (fun a b => w.fmt.round w.mode (Num.add w.mode (w.fmt.value a) (w.fmt.value b))) s
/-- FSUB (R354). -/
def execFsub (w : LWord) (s : State) : Out := 
  floatBinary w (fun a b => w.fmt.round w.mode (Num.add w.mode (w.fmt.value a) (w.fmt.value b).neg)) s
/-- FMUL (R354). -/
def execFmul (w : LWord) (s : State) : Out := 
  floatBinary w (fun a b => w.fmt.round w.mode (Num.mul (w.fmt.value a) (w.fmt.value b))) s
/-- FMA (R354): rounded once. -/
def execFma (w : LWord) (s : State) : Out := 
  laneResult w w.n (fun t lane => eachElem w.ty.toNat
    (fun a b c => w.fmt.round w.mode (Num.add w.mode (Num.mul (w.fmt.value a) (w.fmt.value b)) (w.fmt.value c)))
    (t.a w lane w.n) (t.b3 w lane w.n) (t.c w lane w.n)) s
/-- FMIN (R355). -/
def execFmin (w : LWord) (s : State) : Out := floatBinary w (w.fmt.minmax false) s
/-- FMAX (R355). -/
def execFmax (w : LWord) (s : State) : Out := floatBinary w (w.fmt.minmax true) s
/-- FCMP (R357). -/
def execFcmp (w : LWord) (s : State) : Out := 
  lanePred w (fun t lane =>
    let m := 2 ^ w.fmt.width
    fcmpHolds w.fn (w.fmt.value (t.a w lane w.n % m)) (w.fmt.value (t.b w lane w.n % m))) s
/-- FDIV (R354). -/
def execFdiv (w : LWord) (s : State) : Out := floatBinary w (fun a b => w.fmt.div w.mode (w.fmt.value a) (w.fmt.value b)) s
/-- FRCP (R359). -/
def execFrcp (w : LWord) (s : State) : Out := approxResult w frcp32 s
/-- FRSQ (R359). -/
def execFrsq (w : LWord) (s : State) : Out := approxResult w frsq32 s
/-- FEXP2 (R359). -/
def execFexp2 (w : LWord) (s : State) : Out := approxResult w fexp232 s
/-- FLOG2 (R359). -/
def execFlog2 (w : LWord) (s : State) : Out := approxResult w flog232 s
/-- FSIN (R359). -/
def execFsin (w : LWord) (s : State) : Out := approxResult w fsin32 s
/-- FCOS (R359). -/
def execFcos (w : LWord) (s : State) : Out := approxResult w fcos32 s
/-- FSQRT (R354). -/
def execFsqrt (w : LWord) (s : State) : Out := floatUnary w (fun a => w.fmt.sqrt w.mode (w.fmt.value a)) s
/-- FRND (R356). -/
def execFrnd (w : LWord) (s : State) : Out := floatUnary w (w.fmt.toIntegral w.mode) s
/-- FCLASS (R358): a single destination register. -/
def execFclass (w : LWord) (s : State) : Out := 
  laneResult w 1 (fun t lane => w.fmt.classify (t.a w lane w.n % 2 ^ w.fmt.width)) s
/-- DOT2 (R350). -/
def execDot2 (w : LWord) (s : State) : Out := 
  laneResult w 1 (fun t lane =>
    let a := t.a w lane 1
    let b := t.b3 w lane 1
    let term (k : Nat) : Num := Num.mul (w.fmt.value (bits a (16 * k) 16)) (w.fmt.value (bits b (16 * k) 16))
    (dotAccumulate (BitVec.ofNat 32 (t.c w lane 1)) [term 0, term 1]).toNat) s

/-! ## Block formats and conversions -/

/-- BLKQ's result in a lane of a participating quarter: its code, and the scale record above it (R337). -/
def blkqValue (t : Team) (w : LWord) (lane : Nat) : Nat :=
  let m := t.partMask w
  let base := lane / 8 * 8
  let xs := (List.range 8).map (fun k =>
    if m.getLsbD (base + k) then f32.value (t.a w (base + k) 1) else Num.fin false 0 0)
  let q := quantise w.ty.toNat w.mode xs
  q.1.getD (lane % 8) 0 + 2 ^ 32 * q.2

/-- BLKX's result in a lane: the element value in f32 (R338). -/
def blkxValue (t : Team) (w : LWord) (ty lane : Nat) : Nat := (rn32 (blockValue ty (t.a w lane 1) (t.b3 w lane 1))).toNat

/-- BLKQ (R337). -/
def execBlkq (w : LWord) (s : State) : Out := laneResult w 2 (fun t lane => blkqValue t w lane) s
/-- BLKX (R338). -/
def execBlkx (w : LWord) (s : State) : Out := laneResult w 1 (fun t lane => blkxValue t w w.ty.toNat lane) s

/-- CVT (R345, Table 16.9). -/
def execCvt (w : LWord) (s : State) : Out :=
  let d := w.ty.toNat
  let c := w.cvtSrc
  if 21 ≤ c then laneResult w 1 (fun t lane => blkxValue t w c lane) s
  else if 21 ≤ d then laneResult w 2 (fun t lane => blkqValue t w lane) s
  else if packed d then
    laneResult w 1 (fun t lane =>
      w.fmt.round w.mode (f32.value (t.a w lane 1)) + 2 ^ 16 * w.fmt.round w.mode (f32.value (t.b3 w lane 1))) s
  else laneResult w w.n (fun t lane => fillBits d (convertTo w.mode d (typedValue c (t.a w lane (typeRegs c))))) s

end Sys2Proof.Machine
end

