-- ==== Sys2Proof/Machine/Units.lean ====
section
/-! DEFINITION. Steps of the cores' buffers and caches, of the observation units, of power, errors, firmware and the outside
(R16, R170, R171, R202, R205, R207, R210, R250, R295, R307, R312 to R318, R320). -/

namespace Sys2Proof.Machine

/-! ## Buffers, combiners, sampler caches, tokens -/

/-- WC_BUFFER_DRAIN (R170): a line of the core's buffer drains, in any order. -/
def execWcBufferDrain (core idx : Nat) (s : State) : Out :=
  match (s.caches.wc.filter (fun l => l.core == core))[idx]? with
  | some x => .next (s.drainWc (fun l => l == x))
  | none => .next s

/-- WC_BUFFER_TIMEOUT (R170): a line older than 256 clocks drains. -/
def execWcBufferTimeout (core idx : Nat) (s : State) : Out :=
  match (s.caches.wc.filter (fun l => l.core == core))[idx]? with
  | some x => if clocksPassed s x.since 256 then .next (s.drainWc (fun l => l == x)) else .next s
  | none => .next s

/-- QUANTUM_TIMEOUT (R202): 64 ticks after its issue a quantum is performed. -/
def execQuantumTimeout (core idx : Nat) (s : State) : Out :=
  match (s.caches.quanta.filter (fun q => q.core == core))[idx]? with
  | some x => if x.since + 64 ≤ s.time then .next (s.drainQuanta (fun q => q == x)) else .next s
  | none => .next s

/-- SAMPLER_LINE_FILL (R171, R418): a line the cache holds is read again whole. -/
def execSamplerLineFill (core ctx pennant line : Nat) (s : State) : Out :=
  if s.caches.samp.any (fun l => l.core == core && l.ctx == ctx && l.pennant == pennant && l.line == line) then
    runAct (do
      let _ ← fillSample { core := core, slot := 0, ctx := ctx, pennant := pennant, team := false } line
      pure ()) s
  else .next s

/-- PERSISTENT_REQUEST (R205): a request that lacks its tokens stands at the block's home, in order of arrival. -/
def execPersistentRequest (holder block : Nat) (write : Bool) (s : State) : Out :=
  if Config.numCores < holder ∨ s.caches.persist.any (fun r => r.block == block && r.holder == holder) ∨ !lacks s holder block write then .next s
  else .next (s.request holder block write)

/-- PERSISTENT_ACTIVATION (R205): the oldest request of the block is served; every other holder sends its tokens, and its line with them. -/
def execPersistentActivation (block : Nat) (s : State) : Out := .next (s.activate block)

/-! ## Records -/

/-- The 64 bytes of a fault record (Table 14.4). -/
def FaultRec.bytes (r : FaultRec) : List Byte :=
  leBytes 8 r.time ++ leBytes 8 r.addr.toNat ++ leBytes 8 r.pc.toNat ++ leBytes 8 r.info.toNat ++ leBytes 4 r.lanes.toNat ++
    leBytes 4 r.id ++ List.replicate 24 0

/-- The fault interrupt of a context, merged with one less than 256 ticks before (R295). -/
def State.faultIrq (s : State) (c : Nat) : State :=
  let x := ctxOf s c
  if x.lastIrq ≠ 0 ∧ s.time < x.lastIrq - 1 + 256 then s
  else (s.interrupt 2).updCtx c (fun x => { x with lastIrq := s.time + 1 })

/-- FAULT_RECORD_WRITE (R295): the oldest waiting record goes to its slot once the driver has freed it. -/
def execFaultRecordWrite (ctx : Nat) (s : State) : Out :=
  let x := ctxOf s ctx
  match x.faultQ with
  | [] => .next s
  | r :: rs =>
    let at_ := x.frbase.toNat + 64 * (x.faultN % 2 ^ x.frlog2)
    runAct (do
      let v ← physRead (fixedAcc ctx 0) (at_ + 0x1f) 1
      if (leNat v).testBit 7 then pure ()
      else do
        physWrite (fixedAcc ctx 0) at_ r.bytes
        change (fun s => (s.updCtx ctx (fun x => { x with faultN := x.faultN + 1, faultQ := rs })).faultIrq ctx)) s

/-- The path that last issued in a team's slot, if it has one. -/
def Team.lastPath (t : Team) : Option Path :=
  t.paths.foldl (fun b p => match b with
    | some q => if q.last < p.last then some p else some q
    | .none => some p) (Option.none : Option Path)

/-! ## Top-down leaves (Table 15.6) -/

/-- The leaf of a stream with an instruction ready that this step did not issue: how many of its clocks it issues in, waits for fetch, for
a memory access or for another result is timing, and free (assumption log 5). -/
def readyLeaf (n : Nat) : Nat := [2, 4, 5, 6].getD (Config.leaf n % 4) 2

/-- The instructions that may find at issue that they must wait, and are then issued again: what they come to in `s`. -/
def attempt (i : Instr) (s : State) : Option Out :=
  match i with
  | .bwait a => some (execBwait a s)
  | .tfetch d => some (execTfetch d s)
  | .tcfg d a => some (execTcfg d a s)
  | .cpy ge g a b c => some (execCpy ge g a b c s)
  | .tld ge g a b c => some (execTld ge g a b c s)
  | .tst ge g a b c => some (execTst ge g a b c s)
  | .mma ge g a b c => some (execMma ge g a b c s)
  | .tri ge g a b c => some (execTri ge g a b c s)
  | .tlut ge g a b c => some (execTlut ge g a b c s)
  | .qfence ge g a => some (execQfence ge g a s)
  | .rank d => some (execRank d s)
  | .warp d a => some (execWarp d a s)
  | .lsync => some (execLsync s)
  | .gwait g => some (execGwait g s)
  | .fence ord scope => some (execFence ord scope s)
  | .ld off evict scope ord sz b t => some (execLd off evict scope ord sz b t s)
  | .st off evict scope ord sz b t => some (execSt off evict scope ord sz b t s)
  | .lrun imm => some (execLrun imm s)
  | .migrate d a => some (execMigrate d a s)
  | .flip d a b => some (execFlip d a b s)
  | .fork d a b => some (execFork d a b s)
  | .commit d a => some (execCommit d a s)
  | .squash d a => some (execSquash d a s)
  | .cpyLane w => some (execCpyLane w s)
  | .mmaLane w => some (execMmaLane w s)
  | .triLane w => some (execTriLane w s)
  | .tlutLane w => some (execTlutLane w s)
  | .emitPrim w => some (execEmitPrim w s)
  | .ldLane w => some (execLdLane w s)
  | .stLane w => some (execStLane w s)
  | .sld w => some (execSld w s)
  | .sample w => some (execSample w s)
  | .trace w => some (execTrace w s)
  | .launch w => some (execLaunch w s)
  | .atom w => some (execAtom w s)
  | .atomGroupB w => some (execAtomGroupB w s)
  | .fenceLane w => some (execFenceLane w s)
  | _ => none

/-- Whether an attempt has left the team as it was: the instruction waits and is issued again. -/
def stalled (i : Instr) (s u : State) : Bool := (attempt i s).isSome && decide (u.t = s.t)

/-- The leaf of an instruction that waits so: a synchronisation (8), a memory access (5), another result (6), an engine (7). -/
def stallLeaf : Instr → Nat
  | .lsync | .gwait _ => 8
  | .fence _ _ | .fenceLane _ | .ld _ _ _ _ _ _ _ | .st _ _ _ _ _ _ _ | .ldLane _ | .stLane _ | .atom _ | .atomGroupB _ | .sld _ | .sample _ |
    .trace _ | .launch _ => 5
  | .lrun _ | .migrate _ _ | .flip _ _ _ | .fork _ _ _ | .commit _ _ | .squash _ _ => 6
  | _ => 7

/-- The leaf of a stream at an instruction that the scoreboard lets issue: one that would wait is charged to what it waits on. -/
def attemptLeaf (s : State) (n : Nat) (i : Instr) : Nat :=
  match attempt i s with
  | some (.next u) => if u.t = s.t then stallLeaf i else readyLeaf n
  | _ => readyLeaf n

/-- The leaf of a stream whose instruction is `i`; `waits`: the scoreboard holds it. -/
def instrLeaf (s : State) (n : Nat) (waits : Bool) (i : Instr) : Nat := if waits then 5 else attemptLeaf s n i

/-- The leaf of the scalar stream of the team in focus. -/
def scalarStreamLeaf (s : State) (n : Nat) : Nat :=
  let t := s.t
  if t.debug then 8
  else if t.sFetch.isSome then 4
  else match t.sPark, t.wait with
    | some (_, 0, _), _ => 5
    | _, .icflush _ _ _ => 5
    | _, .commit _ _ | _, .behind _ _ | _, .squash _ _ => 6
    | _, .queued _ => 7
    | _, .rank _ _ _ => if t.atStall false then 5 else 7
    | _, .warp _ _ => if t.atStall true then 5 else 7
    | _, .none =>
      if t.life = .retiring then (if t.oplog.isEmpty && decide (t.linkOut = 0) then (if t.tileQ.isEmpty && t.copyQ.isEmpty then 9 else 7) else 5)
      else match fetchScalar t s with
        | .ok (.ok i, _) => instrLeaf s n (scalarWaits s i) i
        | _ => 4
    | _, _ => 5

/-- The leaf of path `p` of the team in focus. -/
def pathLeaf (s : State) (n : Nat) (p : Path) : Nat :=
  let t := s.t
  match p.hold with
  | .barrier _ _ | .debug _ => 8
  | .put _ _ | .prim _ _ | .cube _ => 7
  | .none =>
    if t.arrived p || t.debug then 8
    else if t.oplog.any (fun e => !e.scalar && e.instr.isNone && e.path == p.idx) then 4
    else if !t.windowsOpen p then 5
    else match fetchLane { t with curPath := p.idx } s with
      | .ok (.ok i, _) =>
        let s := s.upd (fun t => { t with curPath := p.idx })
        instrLeaf s n (laneWaits s i) i
      | _ => 4

/-- The first leaf of Table 15.6 whose condition a team meets: `issued` is the team that issued; a pipe of a team with no path ready may
pass for another slot's arm, which is free. -/
def leafOf (s : State) (issued : Option (Nat × Nat)) (t : Team) : Nat :=
  let n := 4 * t.core + t.slot + 1024 * s.free
  match s.focus t.core t.slot with
  | none => 9
  | some u =>
    let lanes := (u.t.arms.filterMap (fun a => a.run)).map (fun i => pathLeaf u n (u.t.path i))
    let lent := lanes.all (fun l => l ≠ 2) && s.teams.any (fun v => v.core == t.core && v.slot != t.slot && v.arms.length == 2) &&
      decide (Config.leaf n / 4 % 2 = 1)
    if issued = some (t.core, t.slot) then 2 else if lent then 3 else (scalarStreamLeaf u n :: lanes).foldl min 9

/-- The kind-1 record of one team (R307). -/
def sampleTeam (t : Team) : Act Unit := do
  let s ← get
  let leaf := leafOf s none t
  match t.lastPath with
  | some p => traceRecord t.ctx [s.time, p.pc.toNat, traceIdent t p.idx (lowGroup p.mask) 1 p.mask, leaf]
  | none => traceRecord t.ctx [s.time, t.spc.toNat, traceIdent t 0 0 1 0, leaf]

/-- TRACE_SAMPLE (R307). -/
def execTraceSample (ctx : Nat) (s : State) : Out :=
  if bits (ctxOf s ctx).trctl.toNat 5 5 = 0 then .next s
  else runAct ((s.teams.filter (fun t => t.ctx == ctx && decide (t.life = .running))).forM sampleTeam) s

/-! ## Errors (R312 to R314) -/

/-- Zeros over the 64-byte block of a physical address. -/
def State.zeroBlock (s : State) (pa : Nat) : State := { s with mem := memSet s.mem (alignDown pa 64) (List.replicate 64 0) }

/-- Zeros over the same block in core `core`'s sampler cache (R312). -/
def State.zeroSample (s : State) (core pa : Nat) : State :=
  { s with caches := { s.caches with samp := s.caches.samp.map (fun l =>
      if l.core = core ∧ l.line = lineOf pa then { l with data := overlay (128 * l.line) l.data (alignDown pa 64) (List.replicate 64 0) } else l) } }

/-- Data of the team in a slot is dropped: counted, logged, and STICKY (R312). -/
def dropTeamData (core slot pa : Nat) (f : State → State) (s : State) : Out :=
  eventAt core slot (fun s => .next ((f s).dropData s.t.ctx pa core true)) s

/-- UNCORRECTABLE_ERROR (R312, Table 15.7). -/
def execUncorrectableError (what : ErrWhere) (s : State) : Out :=
  match what with
  | .block pa core slot => dropTeamData core slot pa (fun s => (s.zeroBlock pa).zeroSample core pa) s
  | .atomic pa core slot => dropTeamData core slot pa (fun s =>
      let s := (s.zeroBlock pa).zeroSample core pa
      { s with caches := { s.caches with spoilt := s.caches.spoilt ++ [(pa / 64, core, slot)] } }) s
  | .fetch pa core ctx => .next (({ s.zeroBlock pa with caches := { s.caches with
      icache := s.caches.icache.filter (fun u => !(u.core == core && u.pa / 64 == pa / 64)) } } : State).dropData ctx pa core false)
  | .table pa ctx => .next ((s.zeroBlock pa).dropData ctx pa 255 false)
  | .laneReg core slot lane reg => dropTeamData core slot 0 (fun s => s.upd (fun t => t.setV lane reg 0)) s
  | .scratch core slot off => dropTeamData core slot 0 (fun s => s.upd (fun t => t.spadWrite off [0])) s
  | .accumulator core slot a r c =>
    dropTeamData core slot 0 (fun s => s.upd (fun t => { t with acc := sset 0 t.acc ((a * 512 + r) * 512 + c) 0 })) s
  | .writeBack pa ctx => .next ((s.zeroBlock pa).dropData ctx pa 255 false)
  | .version c p block =>
    match verOf s c p (block / 2) with
    | some v => .next ((s.setVer c p (block / 2) (overlay (128 * (block / 2)) v.data (64 * block) (List.replicate 64 0))).dropData c (64 * block) 255 false)
    | none => .next s

/-- CORRECTABLE_ERROR (R312). -/
def execCorrectableError (ctx : Nat) (s : State) : Out := .next (s.bump ctx 13 1)

/-- CONTROL_STATE_ERROR (R313): the team in the slot is cut, its launch reports 9; one saved from that slot is not. -/
def execControlStateError (core slot : Nat) (s : State) : Out :=
  match s.teams.find? (inSlot core slot) with
  | some t => .next ((s.finishStarted core slot).cut (fun u => inSlot core slot u && u.ident == t.ident) 9)
  | none => .next s

/-- The most spares of a kind that SPARESTAT counts: cores, cube rows, mesh links, version-cache ways, GDDR-7 lanes (R314). -/
def spareLimit (kind : Nat) : Nat := [8, 255, 15, 255, 15].getD kind 0

/-- Whether no context is resident on partition `k`: no team stands there, none is on its way there, and no save or restore of it is under way
(R16). -/
def partitionFree (s : State) (k : Nat) : Bool :=
  !s.teams.any (fun t => partitionOf t.core == k) && !s.reserved.any (fun r => partitionOf r.1 == k) &&
    !decide ((s.shadows.getD k Shadow.reset).pending ∈ [1, 2])

/-- Whether a spare of a kind comes in at once: a core, row or link while no context is resident on the partition it serves, which is a free
one (assumption log 48); the others only across a reset (R16). -/
def spareNow (s : State) (kind : Nat) : Bool := decide (kind < 3) && partitionFree s (Config.choice s.free % 4)

/-- SPARE_BRING_IN (R16, R314): a spare that may not come in now does at the next device reset, and SPARE is set when it does; a device without
one left sets it at once. -/
def execSpareBringIn (kind : Nat) (found : Bool) (s : State) : Out :=
  let w := s.win
  .next (if !found || decide (spareLimit kind ≤ sget 0 w.spares kind + sget 0 w.sparesNext kind) then s.interrupt 11
    else if spareNow s kind then { s with win := { w with spares := sset 0 w.spares kind (sget 0 w.spares kind + 1) } }.interrupt 11
    else { s with win := { w with sparesNext := sset 0 w.sparesNext kind (sget 0 w.sparesNext kind + 1) } })

/-- The spares in use after a reset. -/
def sparesAfter (w : Window) : SMap Nat :=
  (List.range 5).foldl (fun m k => sset 0 m k (sget 0 m k + sget 0 w.sparesNext k)) w.spares

/-- CORE_MAPPING_CHANGE (R16): no rule depends on which site stands behind a logical core. -/
def execCoreMappingChange (s : State) : Out := .next s

/-- DEVICE_RESET (R16, R314): every field takes its reset value; memory, device time, the link and what firmware found stay, and the spares
that waited come in, which sets SPARE. -/
def execDeviceReset (s : State) : Out :=
  let u := { State.reset with
    free := s.free, time := s.time, mem := s.mem, peerMem := s.peerMem, linkUp := s.linkUp, agenda := s.agenda
    win := { Window.reset with spares := sparesAfter s.win, memCode := s.win.memCode, peer := s.win.peer } }
  .next (if s.win.sparesNext.isEmpty then u else u.interrupt 11)

/-! ## The governor and the operating point (R250, R256, R315 to R318) -/

/-- Whether a coverage launch is running. -/
def coverageRuns (s : State) : Bool := s.launches.any (fun l => decide (l.st = .running) && l.cov.isSome)

/-- One step of the governor (R250); `top`: the point the platform allows. -/
def governed (g : Gov) (floor top : Nat) (cov : Bool) : Gov :=
  if g.exceeded then
    if cov ∧ floor < g.gcap then { g with gcap := max (g.gcap - 16) floor }
    else { g with point := max 1 (g.point - 1), cap := max 1 (g.point - 1) }
  else if !g.recovering then g
  else if g.cap < top then { g with point := g.point + 1, cap := g.cap + 1 }
  else { g with gcap := min 256 (g.gcap + 16) }

/-- Whether readings exceed a limit (R317, R318): the power the lower of PLIMIT and the platform maximum, the temperature TLIMIT. -/
def overLimit (w : Window) (power temp : Nat) : Bool := decide (min w.plimit w.platMax < power ∨ w.tlimit < temp)

/-- New readings of the mean package power and the hottest sensor (R318): THERM is set when the limit is first exceeded. -/
def State.readSensors (s : State) (power temp : Nat) : State :=
  let high := overLimit s.win power temp
  let s' := if high && !s.gov.exceeded then s.interrupt 10 else s
  let g := s'.gov
  { s' with gov := { g with
    power := power, temp := temp, exceeded := high, thermal := decide (s.win.tlimit < temp), recovering := g.recovering && !high
    metAt := if g.exceeded && !high then s.time else g.metAt } }

/-- GOVERNOR_TICK (R250, R318): the readings of the last 100 µs, which are free, then the governor's step. -/
def execGovernorTick (s : State) : Out :=
  let s := s.readSensors (Config.choice s.free % 2 ^ 10) (Config.choice s.free / 2 ^ 10)
  .next { s with gov := governed s.gov s.win.gfloor s.win.platTop (coverageRuns s) }

/-- GOVERNOR_RECOVERY_TIMER (R250): both limits have been met for 1 ms. -/
def execGovernorRecoveryTimer (s : State) : Out :=
  .next (if !s.gov.exceeded && decide (s.gov.metAt + 3200000 ≤ s.time) then { s with gov := { s.gov with recovering := true } } else s)

/-- LIMIT_EXCEEDED (R318): a reading, free but for that, exceeds its limit. -/
def execLimitExceeded (thermal : Bool) (s : State) : Out :=
  let d := 1 + Config.choice s.free
  .next (if thermal then s.readSensors s.gov.power (s.win.tlimit + d) else s.readSensors (min s.win.plimit s.win.platMax + d) s.gov.temp)

/-- OPERATING_POINT_REACHED (R256): a higher point than now is reached only with no limit exceeded in the last 1 ms, and never above what the
governor and the platform let a request reach (R250). -/
def execOperatingPointReached (point : Nat) (s : State) : Out :=
  if point < 1 ∨ 7 < point ∨ (s.gov.point < point ∧ (!s.gov.recovering ∨ s.gov.cap < point ∨ s.win.platTop < point)) then .next s
  else .next { s with gov := { s.gov with point := point } }

/-- Whether a core has issued nothing for 1,000 ticks (R316). -/
def coreIdle (s : State) (core : Nat) : Bool := decide (sget 0 s.gov.issuedAt core + 1000 ≤ s.time)

/-- LIGHT_IDLE_ENTRY (R316). -/
def execLightIdleEntry (core : Nat) (s : State) : Out :=
  if Config.numCores ≤ core ∨ s.gov.gated.contains core ∨ !coreIdle s core then .next s
  else .next { s with gov := { s.gov with gated := s.gov.gated ++ [core] } }

/-- Whether Deep and Sleep may be entered: no team, no queue with a packet outstanding, and no enabled one with a packet waiting (R316). -/
def partIdle (s : State) : Bool :=
  s.teams.isEmpty && s.queues.all (fun q => decide (q.outstanding = 0) && (!q.en || decide (q.pending = 0)))

/-- IDLE_STATE_ENTRY (R316): the deepest state whose exit latency LATTOL allows, 300 µs for Sleep and 20 µs for Deep. -/
def execIdleStateEntry (sleep : Bool) (s : State) : Out :=
  if !partIdle s || (if sleep then decide (s.win.lattol.toNat < 300) else decide (s.win.lattol.toNat < 20 ∨ 300 ≤ s.win.lattol.toNat)) then
    .next s
  else .next { s with gov := { s.gov with idle := if sleep then 3 else 2 } }

/-- IDLE_EXIT (R316). -/
def execIdleExit (s : State) : Out := .next { s with gov := { s.gov with idle := 0, gated := [] } }

/-! ## The link, the coherence agent, endpoints (R207, R210, R320) -/

/-- KWENEN_LINK_DOWN (R320). -/
def execKwenenLinkDown (s : State) : Out := .next { s with linkUp := false }

/-- KWENEN_LINK_UP (R320). -/
def execKwenenLinkUp (s : State) : Out := .next { s with linkUp := true }

/-- Data of an access from outside is dropped (R304, R312): no context and no team is concerned. -/
def State.dropOutside (s : State) (pa : Nat) : State :=
  let s := s.interrupt 7
  { s with win := { s.win with
    errAddr := BitVec.ofNat 64 pa, errTime := BitVec.ofNat 64 s.time, errSrc := BitVec.ofNat 64 255 } }

/-- The tokens an agent collects for the lines of an access (R207), its requests reaching the cores (R206). -/
def State.agentTokens (s : State) (h addr n : Nat) (write : Bool) : State :=
  let s := s.conflict h (trunkBlocks addr n) write
  { s with caches := { s.caches with
    tokens := (linesOf addr n).foldl (fun ts l => takeTokens (takeTokens ts h (2 * l) write) h (2 * l + 1) write) s.caches.tokens } }

/-- An access from outside to this part's memory, coherent at system scope: buffered stores of its bytes drain first, a write takes the cores'
lines with their tokens; in absent memory it is dropped (R304). -/
def outsideAccess (holder : Option Nat) (addr : Nat) (wr : Option (List Byte)) (len : Nat) (s : State) : Out :=
  let n := match wr with
    | some bs => bs.length
    | none => len
  let first := regionOf s.win.memCode addr
  let last := regionOf s.win.memCode (addr + n - 1)
  if first = .absent ∨ (first = .gddr ∧ last = .absent) then .next (s.dropOutside addr)
  else if first ≠ .gddr ∨ last ≠ .gddr then .next s
  else
    let s := s.drainAt addr n
    let s := if wr.isSome then s.recall addr n else s
    let s := match holder with
      | some h => s.agentTokens h addr n wr.isSome
      | none => s
    match wr with
    | some bs => .next { s with mem := memSet s.mem addr bs }
    | none => .next s

/-- PEER_LINK_REQUEST (R210). -/
def execPeerLinkRequest (addr : Nat) (wr : Option (List Byte)) (len : Nat) (s : State) : Out := outsideAccess none addr wr len s

/-- COHERENCE_AGENT_REQUEST (R207): the agent is core 144. -/
def execCoherenceAgentRequest (addr : Nat) (wr : Option (List Byte)) (len : Nat) (s : State) : Out :=
  outsideAccess (some Config.numCores) addr wr len s

/-- PCIE_ENDPOINT_DMA (R320). -/
def execPcieEndpointDma (addr : Nat) (wr : Option (List Byte)) (len : Nat) (s : State) : Out := outsideAccess none addr wr len s

/-- Whether the peer still owes an acknowledgement to the team a slot saved from slot `k` of core `c` (R210, R360). -/
def Shadow.owedAck (h : Shadow) (c k : Nat) : Bool :=
  h.teams.any (fun t => t.core == c && t.slot == k && decide (t.linkOut ≠ 0)) && !h.replies.contains (.ack c k)

/-- PEER_WRITE_ACKNOWLEDGE (R210): the peer has the team's link writes. One owed to a saved team, whose writes are the earlier ones, stands in
its slot's reply log until the restore (R302, R360). -/
def execPeerWriteAcknowledge (core slot : Nat) (s : State) : Out :=
  if s.shadows.any (fun h => h.owedAck core slot) then
    .next (s.logged (fun h => if h.owedAck core slot then [.ack core slot] else []))
  else .next (s.updAt core slot (fun t => { t with linkOut := 0 }))

end Sys2Proof.Machine
end

