-- ==== Sys2Proof/Machine/Dispatch.lean ====
section
/-! DEFINITION. What each instruction does: one arm per constructor of Instr, each a direct call of its meaning. -/

namespace Sys2Proof.Machine

/-- The instruction `i` performed in state `s`. -/
def exec (i : Instr) (s : State) : Host.Outcome State Fault Refusal :=
  match i with
  | .add d a b => Sys2Proof.Machine.execAdd d a b s
  | .sub d a b => Sys2Proof.Machine.execSub d a b s
  | .mul d a b => Sys2Proof.Machine.execMul d a b s
  | .mulh u d a b => Sys2Proof.Machine.execMulh u d a b s
  | .div u d a b => Sys2Proof.Machine.execDiv u d a b s
  | .rem u d a b => Sys2Proof.Machine.execRem u d a b s
  | .min u d a b => Sys2Proof.Machine.execMin u d a b s
  | .max u d a b => Sys2Proof.Machine.execMax u d a b s
  | .and d a b => Sys2Proof.Machine.execAnd d a b s
  | .or d a b => Sys2Proof.Machine.execOr d a b s
  | .xor d a b => Sys2Proof.Machine.execXor d a b s
  | .andn d a b => Sys2Proof.Machine.execAndn d a b s
  | .shl d a b => Sys2Proof.Machine.execShl d a b s
  | .shr d a b => Sys2Proof.Machine.execShr d a b s
  | .sra d a b => Sys2Proof.Machine.execSra d a b s
  | .slt u d a b => Sys2Proof.Machine.execSlt u d a b s
  | .cmp c d a b => Sys2Proof.Machine.execCmp c d a b s
  | .sel d a b => Sys2Proof.Machine.execSel d a b s
  | .mov d a => Sys2Proof.Machine.execMov d a s
  | .clz d a => Sys2Proof.Machine.execClz d a s
  | .popc d a => Sys2Proof.Machine.execPopc d a s
  | .brev d a => Sys2Proof.Machine.execBrev d a s
  | .sext w d a => Sys2Proof.Machine.execSext w d a s
  | .zext w d a => Sys2Proof.Machine.execZext w d a s
  | .bfe sgn d a b => Sys2Proof.Machine.execBfe sgn d a b s
  | .bfi d a b => Sys2Proof.Machine.execBfi d a b s
  | .addImm d a imm => Sys2Proof.Machine.execAddImm d a imm s
  | .andImm d a imm => Sys2Proof.Machine.execAndImm d a imm s
  | .orImm d a imm => Sys2Proof.Machine.execOrImm d a imm s
  | .xorImm d a imm => Sys2Proof.Machine.execXorImm d a imm s
  | .shlImm d a c => Sys2Proof.Machine.execShlImm d a c s
  | .shrImm d a c => Sys2Proof.Machine.execShrImm d a c s
  | .sraImm d a c => Sys2Proof.Machine.execSraImm d a c s
  | .sltImm d a imm => Sys2Proof.Machine.execSltImm d a imm s
  | .li d imm => Sys2Proof.Machine.execLi d imm s
  | .lih d imm => Sys2Proof.Machine.execLih d imm s
  | .j imm => Sys2Proof.Machine.execJ imm s
  | .jal d imm => Sys2Proof.Machine.execJal d imm s
  | .jr d a imm => Sys2Proof.Machine.execJr d a imm s
  | .b cond a disp => Sys2Proof.Machine.execB cond a disp s
  | .ld off evict scope ord sz b t => Sys2Proof.Machine.execLd off evict scope ord sz b t s
  | .st off evict scope ord sz b t => Sys2Proof.Machine.execSt off evict scope ord sz b t s
  | .srrd num d => Sys2Proof.Machine.execSrrd num d s
  | .srwr num a => Sys2Proof.Machine.execSrwr num a s
  | .lrun imm => Sys2Proof.Machine.execLrun imm s
  | .time d => Sys2Proof.Machine.execTime d s
  | .migrate d a => Sys2Proof.Machine.execMigrate d a s
  | .fence ord scope => Sys2Proof.Machine.execFence ord scope s
  | .icflush scope a b => Sys2Proof.Machine.execIcflush scope a b s
  | .gresP g => Sys2Proof.Machine.execGresP g s
  | .gres g a => Sys2Proof.Machine.execGres g a s
  | .gresAny g p => Sys2Proof.Machine.execGresAny g p s
  | .gresAll g p => Sys2Proof.Machine.execGresAll g p s
  | .gwait g => Sys2Proof.Machine.execGwait g s
  | .bclose d => Sys2Proof.Machine.execBclose d s
  | .bwait a => Sys2Proof.Machine.execBwait a s
  | .tcfg d a => Sys2Proof.Machine.execTcfg d a s
  | .tfetch d => Sys2Proof.Machine.execTfetch d s
  | .latch d a => Sys2Proof.Machine.execLatch d a s
  | .audit d a => Sys2Proof.Machine.execAudit d a s
  | .fork d a b => Sys2Proof.Machine.execFork d a b s
  | .commit d a => Sys2Proof.Machine.execCommit d a s
  | .squash d a => Sys2Proof.Machine.execSquash d a s
  | .rank d => Sys2Proof.Machine.execRank d s
  | .warp d a => Sys2Proof.Machine.execWarp d a s
  | .flip d a b => Sys2Proof.Machine.execFlip d a b s
  | .cpy ge g a b c => Sys2Proof.Machine.execCpy ge g a b c s
  | .tld ge g a b c => Sys2Proof.Machine.execTld ge g a b c s
  | .tst ge g a b c => Sys2Proof.Machine.execTst ge g a b c s
  | .mma ge g a b c => Sys2Proof.Machine.execMma ge g a b c s
  | .tri ge g a b c => Sys2Proof.Machine.execTri ge g a b c s
  | .tlut ge g a b c => Sys2Proof.Machine.execTlut ge g a b c s
  | .qfence ge g a => Sys2Proof.Machine.execQfence ge g a s
  | .illegalInstructionIssue reserved => Sys2Proof.Machine.execIllegalInstructionIssue reserved s
  | .addLane w => Sys2Proof.Machine.execAddLane w s
  | .subLane w => Sys2Proof.Machine.execSubLane w s
  | .mulLane w => Sys2Proof.Machine.execMulLane w s
  | .mulhLane w => Sys2Proof.Machine.execMulhLane w s
  | .mad w => Sys2Proof.Machine.execMad w s
  | .divLane w => Sys2Proof.Machine.execDivLane w s
  | .minLane w => Sys2Proof.Machine.execMinLane w s
  | .maxLane w => Sys2Proof.Machine.execMaxLane w s
  | .abs w => Sys2Proof.Machine.execAbs w s
  | .andLane w => Sys2Proof.Machine.execAndLane w s
  | .orLane w => Sys2Proof.Machine.execOrLane w s
  | .xorLane w => Sys2Proof.Machine.execXorLane w s
  | .andnLane w => Sys2Proof.Machine.execAndnLane w s
  | .shlLane w => Sys2Proof.Machine.execShlLane w s
  | .shrLane w => Sys2Proof.Machine.execShrLane w s
  | .sraLane w => Sys2Proof.Machine.execSraLane w s
  | .clzLane w => Sys2Proof.Machine.execClzLane w s
  | .popcLane w => Sys2Proof.Machine.execPopcLane w s
  | .brevLane w => Sys2Proof.Machine.execBrevLane w s
  | .bfeLane w => Sys2Proof.Machine.execBfeLane w s
  | .bfiLane w => Sys2Proof.Machine.execBfiLane w s
  | .sextLane w => Sys2Proof.Machine.execSextLane w s
  | .zextLane w => Sys2Proof.Machine.execZextLane w s
  | .selLane w => Sys2Proof.Machine.execSelLane w s
  | .movLane w => Sys2Proof.Machine.execMovLane w s
  | .liLane w => Sys2Proof.Machine.execLiLane w s
  | .lihLane w => Sys2Proof.Machine.execLihLane w s
  | .cmpLane w => Sys2Proof.Machine.execCmpLane w s
  | .sltLane w => Sys2Proof.Machine.execSltLane w s
  | .fadd w => Sys2Proof.Machine.execFadd w s
  | .fsub w => Sys2Proof.Machine.execFsub w s
  | .fmul w => Sys2Proof.Machine.execFmul w s
  | .fma w => Sys2Proof.Machine.execFma w s
  | .fmin w => Sys2Proof.Machine.execFmin w s
  | .fmax w => Sys2Proof.Machine.execFmax w s
  | .fcmp w => Sys2Proof.Machine.execFcmp w s
  | .fdiv w => Sys2Proof.Machine.execFdiv w s
  | .frcp w => Sys2Proof.Machine.execFrcp w s
  | .frsq w => Sys2Proof.Machine.execFrsq w s
  | .fsqrt w => Sys2Proof.Machine.execFsqrt w s
  | .fexp2 w => Sys2Proof.Machine.execFexp2 w s
  | .flog2 w => Sys2Proof.Machine.execFlog2 w s
  | .fsin w => Sys2Proof.Machine.execFsin w s
  | .fcos w => Sys2Proof.Machine.execFcos w s
  | .frnd w => Sys2Proof.Machine.execFrnd w s
  | .fclass w => Sys2Proof.Machine.execFclass w s
  | .dot2 w => Sys2Proof.Machine.execDot2 w s
  | .cvt w => Sys2Proof.Machine.execCvt w s
  | .blkq w => Sys2Proof.Machine.execBlkq w s
  | .blkx w => Sys2Proof.Machine.execBlkx w s
  | .plop w => Sys2Proof.Machine.execPlop w s
  | .vote w => Sys2Proof.Machine.execVote w s
  | .shfl w => Sys2Proof.Machine.execShfl w s
  | .reduce w => Sys2Proof.Machine.execReduce w s
  | .scan w => Sys2Proof.Machine.execScan w s
  | .br w => Sys2Proof.Machine.execBr w s
  | .brx w => Sys2Proof.Machine.execBrx w s
  | .call w => Sys2Proof.Machine.execCall w s
  | .prio w => Sys2Proof.Machine.execPrio w s
  | .exit w => Sys2Proof.Machine.execExit w s
  | .bar w => Sys2Proof.Machine.execBar w s
  | .barE w => Sys2Proof.Machine.execBarE w s
  | .arrive w => Sys2Proof.Machine.execArrive w s
  | .await w => Sys2Proof.Machine.execAwait w s
  | .awaitE w => Sys2Proof.Machine.execAwaitE w s
  | .ldLane w => Sys2Proof.Machine.execLdLane w s
  | .stLane w => Sys2Proof.Machine.execStLane w s
  | .sld w => Sys2Proof.Machine.execSld w s
  | .sample w => Sys2Proof.Machine.execSample w s
  | .atom w => Sys2Proof.Machine.execAtom w s
  | .atomGroupB w => Sys2Proof.Machine.execAtomGroupB w s
  | .fenceLane w => Sys2Proof.Machine.execFenceLane w s
  | .pathfence w => Sys2Proof.Machine.execPathfence w s
  | .cpyLane w => Sys2Proof.Machine.execCpyLane w s
  | .mmaLane w => Sys2Proof.Machine.execMmaLane w s
  | .triLane w => Sys2Proof.Machine.execTriLane w s
  | .tlutLane w => Sys2Proof.Machine.execTlutLane w s
  | .attr w => Sys2Proof.Machine.execAttr w s
  | .emitPut w => Sys2Proof.Machine.execEmitPut w s
  | .emitTake w => Sys2Proof.Machine.execEmitTake w s
  | .emitPrim w => Sys2Proof.Machine.execEmitPrim w s
  | .emitPix w => Sys2Proof.Machine.execEmitPix w s
  | .osbegin w => Sys2Proof.Machine.execOsbegin w s
  | .osend w => Sys2Proof.Machine.execOsend w s
  | .trace w => Sys2Proof.Machine.execTrace w s
  | .launch w => Sys2Proof.Machine.execLaunch w s
  | .srrdLane w => Sys2Proof.Machine.execSrrdLane w s
  | .srwrLane w => Sys2Proof.Machine.execSrwrLane w s
  | .timeLane w => Sys2Proof.Machine.execTimeLane w s
  | .flipPacket q p => Sys2Proof.Machine.execFlipPacket q p s
  | .commitPacket q p => Sys2Proof.Machine.execCommitPacket q p s
  | .latchPacket q p => Sys2Proof.Machine.execLatchPacket q p s
  | .launchPacket q p => Sys2Proof.Machine.execLaunchPacket q p s
  | .copyPacket q p => Sys2Proof.Machine.execCopyPacket q p s
  | .fencePacket q p => Sys2Proof.Machine.execFencePacket q p s
  | .waitPacket q p => Sys2Proof.Machine.execWaitPacket q p s
  | .capstartPacket q p => Sys2Proof.Machine.execCapstartPacket q p s
  | .capstopPacket q p => Sys2Proof.Machine.execCapstopPacket q p s
  | .nopPacket q p => Sys2Proof.Machine.execNopPacket q p s
  | .qdbDoorbell q => Sys2Proof.Machine.execQdbDoorbell q s
  | .queueEnable q => Sys2Proof.Machine.execQueueEnable q s
  | .queueDisable q => Sys2Proof.Machine.execQueueDisable q s
  | .commandCoreSampleTail q => Sys2Proof.Machine.execCommandCoreSampleTail q s
  | .contextLoad ctx => Sys2Proof.Machine.execContextLoad ctx s
  | .contextLoadComplete ctx => Sys2Proof.Machine.execContextLoadComplete ctx s
  | .invalidateRange ctx vpn log2len => Sys2Proof.Machine.execInvalidateRange ctx vpn log2len s
  | .invalidateAll ctx => Sys2Proof.Machine.execInvalidateAll ctx s
  | .freplyReplay ctx id => Sys2Proof.Machine.execFreplyReplay ctx id s
  | .freplyFail ctx id => Sys2Proof.Machine.execFreplyFail ctx id s
  | .freplyReplayAll ctx => Sys2Proof.Machine.execFreplyReplayAll ctx s
  | .freplyKill ctx id => Sys2Proof.Machine.execFreplyKill ctx id s
  | .preemptSave part => Sys2Proof.Machine.execPreemptSave part s
  | .preemptRestore part => Sys2Proof.Machine.execPreemptRestore part s
  | .preemptEvict part => Sys2Proof.Machine.execPreemptEvict part s
  | .saveComplete part => Sys2Proof.Machine.execSaveComplete part s
  | .restoreComplete part => Sys2Proof.Machine.execRestoreComplete part s
  | .evictComplete part => Sys2Proof.Machine.execEvictComplete part s
  | .resume id => Sys2Proof.Machine.execResume id s
  | .hcfgWrite h v => Sys2Proof.Machine.execHcfgWrite h v s
  | .registerWrite off v => Sys2Proof.Machine.execRegisterWrite off v s
  | .verticalBlank h => Sys2Proof.Machine.execVerticalBlank h s
  | .flipEnterQueue h => Sys2Proof.Machine.execFlipEnterQueue h s
  | .limitExceeded thermal => Sys2Proof.Machine.execLimitExceeded thermal s
  | .holdTimeout launch => Sys2Proof.Machine.execHoldTimeout launch s
  | .lightIdleEntry core => Sys2Proof.Machine.execLightIdleEntry core s
  | .idleStateEntry sleep => Sys2Proof.Machine.execIdleStateEntry sleep s
  | .launchPlacement launch => Sys2Proof.Machine.execLaunchPlacement launch s
  | .scratchLend core => Sys2Proof.Machine.execScratchLend core s
  | .launchAged launch => Sys2Proof.Machine.execLaunchAged launch s
  | .launchComplete launch => Sys2Proof.Machine.execLaunchComplete launch s
  | .fondantReconstructCell launch cell => Sys2Proof.Machine.execFondantReconstructCell launch cell s
  | .laneBlockBegin core slot => Sys2Proof.Machine.execLaneBlockBegin core slot s
  | .laneBlockEnd core slot => Sys2Proof.Machine.execLaneBlockEnd core slot s
  | .barrierComplete core slot bar => Sys2Proof.Machine.execBarrierComplete core slot bar s
  | .pathMerge core slot split => Sys2Proof.Machine.execPathMerge core slot split s
  | .teamRetire core slot => Sys2Proof.Machine.execTeamRetire core slot s
  | .dropComplete ctx pennant => Sys2Proof.Machine.execDropComplete ctx pennant s
  | .commitSwitch ctx => Sys2Proof.Machine.execCommitSwitch ctx s
  | .pushAppend ctx pennant => Sys2Proof.Machine.execPushAppend ctx pennant s
  | .migrateArrival core slot => Sys2Proof.Machine.execMigrateArrival core slot s
  | .icflushComplete core slot => Sys2Proof.Machine.execIcflushComplete core slot s
  | .engineCommandComplete core slot copyQueue => Sys2Proof.Machine.execEngineCommandComplete core slot copyQueue s
  | .cubeOpStart core => Sys2Proof.Machine.execCubeOpStart core s
  | .cubeOpEnd core => Sys2Proof.Machine.execCubeOpEnd core s
  | .splitRendezvous core slot => Sys2Proof.Machine.execSplitRendezvous core slot s
  | .panelMulticastSend core slot => Sys2Proof.Machine.execPanelMulticastSend core slot s
  | .tileCopyChunk core slot => Sys2Proof.Machine.execTileCopyChunk core slot s
  | .wcBufferDrain core idx => Sys2Proof.Machine.execWcBufferDrain core idx s
  | .wcBufferTimeout core idx => Sys2Proof.Machine.execWcBufferTimeout core idx s
  | .quantumTimeout core idx => Sys2Proof.Machine.execQuantumTimeout core idx s
  | .samplerLineFill core ctx pennant line => Sys2Proof.Machine.execSamplerLineFill core ctx pennant line s
  | .persistentRequest holder block write => Sys2Proof.Machine.execPersistentRequest holder block write s
  | .persistentActivation block => Sys2Proof.Machine.execPersistentActivation block s
  | .longLatencyComplete core slot path => Sys2Proof.Machine.execLongLatencyComplete core slot path s
  | .faultRecordWrite ctx => Sys2Proof.Machine.execFaultRecordWrite ctx s
  | .traceSample ctx => Sys2Proof.Machine.execTraceSample ctx s
  | .osTimeLimit core slot lane => Sys2Proof.Machine.execOsTimeLimit core slot lane s
  | .payloadPutCopy core slot path => Sys2Proof.Machine.execPayloadPutCopy core slot path s
  | .rasteriseBins core slot => Sys2Proof.Machine.execRasteriseBins core slot s
  | .uncorrectableError what => Sys2Proof.Machine.execUncorrectableError what s
  | .correctableError ctx => Sys2Proof.Machine.execCorrectableError ctx s
  | .controlStateError core slot => Sys2Proof.Machine.execControlStateError core slot s
  | .spareBringIn kind found => Sys2Proof.Machine.execSpareBringIn kind found s
  | .peerLinkRequest addr wr len => Sys2Proof.Machine.execPeerLinkRequest addr wr len s
  | .peerWriteAcknowledge core slot => Sys2Proof.Machine.execPeerWriteAcknowledge core slot s
  | .coherenceAgentRequest addr wr len => Sys2Proof.Machine.execCoherenceAgentRequest addr wr len s
  | .pcieEndpointDma addr wr len => Sys2Proof.Machine.execPcieEndpointDma addr wr len s
  | .operatingPointReached point => Sys2Proof.Machine.execOperatingPointReached point s
  | .nop => Sys2Proof.Machine.execNop s
  | .halt => Sys2Proof.Machine.execHalt s
  | .lsync => Sys2Proof.Machine.execLsync s
  | .trap => Sys2Proof.Machine.execTrap s
  | .eret => Sys2Proof.Machine.execEret s
  | .ret => Sys2Proof.Machine.execRet s
  | .join => Sys2Proof.Machine.execJoin s
  | .yield => Sys2Proof.Machine.execYield s
  | .nopLane => Sys2Proof.Machine.execNopLane s
  | .trapLane => Sys2Proof.Machine.execTrapLane s
  | .queuePoll => Sys2Proof.Machine.execQueuePoll s
  | .commandCoreStep => Sys2Proof.Machine.execCommandCoreStep s
  | .commandCoreWatchdog => Sys2Proof.Machine.execCommandCoreWatchdog s
  | .invalidationComplete => Sys2Proof.Machine.execInvalidationComplete s
  | .governorTick => Sys2Proof.Machine.execGovernorTick s
  | .governorRecoveryTimer => Sys2Proof.Machine.execGovernorRecoveryTimer s
  | .idleExit => Sys2Proof.Machine.execIdleExit s
  | .coreMappingChange => Sys2Proof.Machine.execCoreMappingChange s
  | .deviceReset => Sys2Proof.Machine.execDeviceReset s
  | .kwenenLinkDown => Sys2Proof.Machine.execKwenenLinkDown s
  | .kwenenLinkUp => Sys2Proof.Machine.execKwenenLinkUp s

end Sys2Proof.Machine
end

