-- ==== Sys2Proof/Machine/Issue.lean ====
section
/-! DEFINITION. What a step of the machine does around an instruction: fetch, the scoreboard and the windows, the order among streams, the
units that move by themselves, and the passing of time (R11, R32, R62 to R65, R83, R84, R95, R99, R112, R250, R251, R292, R307, R310). -/

namespace Sys2Proof.Machine

/-! ## Which path issues (R32, R62, R64, R65) -/

/-- A stream's team in focus, with the path that issues. -/
def State.aim (s : State) : Agent → Option State
  | .scalar c k => s.focus c k
  | .lane c k i => (s.focus c k).map (fun s => s.upd (fun t => { t with curPath := i }))

/-- Whether path `i` of the team in focus has a lane instruction ready to issue. -/
def pathReady (s : State) (i : Nat) : Bool :=
  let s := s.upd (fun t => { t with curPath := i })
  pathLive s && (match fetchLane s.t s with
    | .ok (.ok j, s') => !laneWaits s' j
    | _ => true)

/-- The paths of the team in slot `k` of core `c` that are ready. -/
def readyPaths (s : State) (c k : Nat) : List Path :=
  match s.focus c k with
  | some s => (s.t.arms.filterMap (fun a => a.run)).filterMap (fun i => if pathReady s i then some (s.t.path i) else none)
  | none => []

/-- Whether a pipe of core `c` other than `k` is idle (R32): none of its ready paths may take its next issue slot (R65). -/
def pipeIdle (s : State) (c k : Nat) : Bool :=
  (List.range Config.numSlots).any (fun j => j != k && (readyPaths s c j).all (fun p => p.yielded))

/-- A path that has not issued in the last 255 issues of its team (R64, test 1). -/
def Path.late (issues : Nat) (p : Path) : Bool := decide (p.last + 255 ≤ issues)

/-- The first of two paths in the order of R64. -/
def firstPath (issues : Nat) (a b : Path) : Path :=
  if a.late issues != b.late issues then (if a.late issues then a else b)
  else if a.prio ≠ b.prio then (if b.prio.toNat < a.prio.toNat then a else b)
  else if a.last ≤ b.last then a else b

/-- The path that issues next of a team's ready ones: any of them while a pipe is idle for the other arm to borrow and none is late
(R49), else R64's. A path that yielded gives way. -/
def nextPath (s : State) (c k n : Nat) : Option Path :=
  let ready := readyPaths s c k
  let able := ready.filter (fun p => !p.yielded)
  let from_ := if able.isEmpty then ready else able
  let issues := match s.focus c k with
    | some u => u.t.issues
    | none => 0
  if pipeIdle s c k && from_.all (fun p => !p.late issues) then from_[n % from_.length]?
  else
    from_.foldl (fun b p => match b with
      | some q => some (firstPath issues q p)
      | none => some p) none

/-! ## What moves by itself -/

/-- The steps a team's own units may take. -/
def teamMoves (s : State) (t : Team) : List Instr :=
  let c := t.core
  let k := t.slot
  (if t.waiting.isEmpty ∨ t.running.isSome then [] else [.laneBlockBegin c k]) ++
  (if t.blockOver then [.laneBlockEnd c k] else []) ++
  ((t.barriers.map (fun b => b.1)).filter t.completes).map (.barrierComplete c k) ++
  (t.splits.filter t.canMerge).map (fun u => .pathMerge c k u.id) ++
  (if t.life = .retiring then [.teamRetire c k] else []) ++
  (match t.wait with
    | .icflush _ _ _ => [.icflushComplete c k]
    | .migrate _ _ => [.migrateArrival c k]
    | _ => []) ++
  (if t.tileQ.isEmpty then [] else
    [.engineCommandComplete c k false, .cubeOpStart c, .cubeOpEnd c, .splitRendezvous c k, .panelMulticastSend c k]) ++
  (if t.copyQ.isEmpty then [] else [.engineCommandComplete c k true, .tileCopyChunk c k]) ++
  t.paths.filterMap (fun p => match p.hold with
    | .put _ _ => some (.payloadPutCopy c k p.idx)
    | _ => none) ++
  t.paths.filterMap (fun p => if p.windows.any (fun x => !t.underWay x.1) then some (.longLatencyComplete c k p.idx) else none) ++
  (t.bindings.filter (fun b => b.token && !b.lost && decide ((ctxOf s t.ctx).oslimit.toNat ≤ s.time - b.since))).map
    (fun b => .osTimeLimit c k b.lane) ++
  (if t.linkOut = 0 then [] else [.peerWriteAcknowledge c k])

/-- The acknowledgements the peer owes to saved teams (R210, R360). -/
def savedAcks (s : State) : List Instr :=
  s.shadows.flatMap (fun h => (h.teams.filter (fun t => h.owedAck t.core t.slot)).map (fun t => .peerWriteAcknowledge t.core t.slot))

/-- The steps a context's units may take. -/
def ctxMoves (s : State) (c : Nat) : List Instr :=
  let x := ctxOf s c
  (if x.loading then [.contextLoadComplete c] else []) ++ (if x.faultQ.isEmpty then [] else [.faultRecordWrite c]) ++
  (x.pensIn .dropping).map (.dropComplete c) ++
  (if x.commit.isSome then [.commitSwitch c] else []) ++
  ((List.range 8).filter (fun p => !(x.pen p).appending.isEmpty)).map (.pushAppend c)

/-- The steps a launch may take. -/
def launchMoves (s : State) (l : Launch) : List Instr :=
  match l.st with
  | .held => (if placeable s l then [.launchPlacement l.id] else []) ++ [.launchAged l.id, .holdTimeout l.id]
  | .running =>
    let cells := match l.cov with
      | some b => if launchAlive s l.id then l.finished else List.range (b.cellsX * b.cellsY)
      | none => []
    .launchComplete l.id :: (cells.filter (fun c => !l.done.contains c)).map (.fondantReconstructCell l.id)

/-- The steps of the stores of the cores. -/
def storeMoves (s : State) : List Instr :=
  let cores := (s.caches.wc.map (fun l => l.core)).eraseDups
  let at_ (c : Nat) : List Nat := List.range (s.caches.wc.filter (fun l => l.core == c)).length
  cores.flatMap (fun c => (at_ c).flatMap (fun i => [.wcBufferDrain c i, .wcBufferTimeout c i])) ++
  ((s.caches.quanta.map (fun q => q.core)).eraseDups).flatMap (fun c =>
    (List.range (s.caches.quanta.filter (fun q => q.core == c)).length).map (.quantumTimeout c)) ++
  s.caches.samp.map (fun l => .samplerLineFill l.core l.ctx l.pennant l.line) ++
  ((s.caches.persist.map (fun r => r.block)).eraseDups).map .persistentActivation ++
  ((s.front.bins.map (fun (b : BinTri) => (b.core, b.slot))) ++ s.front.raster.map (fun (i : Nat × PixItem) => (i.1, 0))).eraseDups.map (fun (b : Nat × Nat) => Instr.rasteriseBins b.1 b.2)

/-- Whether a queue whose EN was cleared has come to its next packet boundary (R251). -/
def closing (s : State) (q : Nat) : Bool := decide ((queueOf s q).state ≠ 0) && !(queueOf s q).en && !laneBusy s q

/-- Every step the part's units may take by themselves. -/
def unitMoves (s : State) : List Instr :=
  s.teams.flatMap (teamMoves s) ++ (List.range Config.numContexts).flatMap (ctxMoves s) ++ s.launches.flatMap (launchMoves s) ++
  savedAcks s ++ storeMoves s ++
  (if (activeQueues s).isEmpty && (storeContexts s).isEmpty then [] else [.commandCoreStep]) ++
  (if s.win.invCtx.isSome then [.invalidationComplete] else []) ++
  (List.range 4).flatMap (fun k => match (shadowOf s k).pending with
    | 1 => [.saveComplete k]
    | 2 => [.restoreComplete k]
    | 3 => [.evictComplete k]
    | _ => []) ++
  (List.range 4).flatMap (fun h => [.verticalBlank h, .flipEnterQueue h]) ++
  (if s.gov.recovering then [] else [.governorRecoveryTimer]) ++
  (if requestedClass s = 0 then [] else [.operatingPointReached (classPoint s (requestedClass s))]) ++
  (if partIdle s then [.idleStateEntry false, .idleStateEntry true] else []) ++
  (if s.gov.idle = 0 then [] else [.idleExit]) ++
  ((List.range Config.numQueues).filter (fun q => closing s q)).map .queueDisable ++
  ((List.range Config.numCores).filter (fun c => coreIdle s c && !s.gov.gated.contains c)).map .lightIdleEntry ++
  ((List.range Config.numCores).filter (fun c => decide (sget 0 s.caches.lent c + unitsClaimed s c < 128))).map .scratchLend

/-- What a step with nothing decided may turn to. -/
inductive Move where
  | event (i : Instr)
  | stream (a : Agent)
  /-- A core fetches a unit of a team's code ahead of its issue (R95). -/
  | prefetch (t : Acc) (lane : Bool)
  /-- The driver tears down a context every team of which is Stopped (R41, R290; assumption log 75). -/
  | teardown (ctx : Nat)
  /-- Firmware sets the platform maximum of R317, 150 to 420 W (R12), and the highest operating point the platform allows (R250; assumption
  log 47). -/
  | platform (watts top : Nat)
  deriving DecidableEq, Repr

/-- The teams of a context, resident and saved. -/
def ctxTeams (s : State) (c : Nat) : List Team := (s.teams ++ s.shadows.flatMap (fun h => h.teams)).filter (fun t => t.ctx == c)

/-- Whether a context can be torn down: it has teams, and all of them are Stopped, the one state but a cut's that leads to Retired by it
(Table 2.5). -/
def tornDown (s : State) (c : Nat) : Bool :=
  !(ctxTeams s c).isEmpty && (ctxTeams s c).all (fun t => decide (t.life = .stopped))

/-- The teardown of a context: every team of it is cut (R41). -/
def State.teardown (s : State) (c : Nat) : State :=
  ((s.teams.filter (fun t => t.ctx == c)).foldl (fun s t => s.finishStarted t.core t.slot) s).cut (fun t => t.ctx == c) 9

/-- Firmware's limits for the platform (R250, R317): PLIMIT is capped at the maximum at once. -/
def State.setPlatform (s : State) (watts top : Nat) : State :=
  { s with win := { s.win with platMax := watts, platTop := top, plimit := min s.win.plimit watts } }

/-- A core with or without a team may hold code of any context (R95), and fetch it ahead: core, context, pennant and cache are the free number `n`'s. -/
def anyPrefetch (n : Nat) : Move :=
  .prefetch { core := n % 144, slot := 0, ctx := n / 144 % 16, pennant := n / 2304 % 8, team := false } (decide (n / 18432 % 2 = 1))

/-- What may happen to the teams that is no instruction. -/
def teamEvents (s : State) : List Move :=
  s.teams.flatMap (fun t => if t.alive then [Move.prefetch t.tag false, Move.prefetch t.tag true] else []) ++
  ((List.range Config.numContexts).filter (tornDown s)).map Move.teardown

/-- The streams that may issue; `n` decides between the two arms of a team. -/
def streamMoves (s : State) (n : Nat) : List Move :=
  s.teams.flatMap (fun t =>
    (match s.focus t.core t.slot with
      | some u => if scalarLive u then [Move.stream (.scalar t.core t.slot)] else []
      | none => []) ++
    (match nextPath s t.core t.slot n with
      | some p => [Move.stream (.lane t.core t.slot p.idx)]
      | none => []))

/-- The free choice among everything that may happen next (R50): which arm, then which move. -/
def State.pick (s : State) : State :=
  let n := Config.choice s.free
  let ms := (unitMoves s).map Move.event ++ streamMoves s (n % 2) ++ teamEvents s ++
    [anyPrefetch (Config.choice (s.free + 3)), Move.platform (150 + Config.choice (s.free + 1) % 271) (1 + Config.choice (s.free + 2) % 7)]
  let s' := { s with free := s.free + 1 }
  match ms[n / 2 % ms.length]? with
  | some (.event i) => { s' with agenda := [i] }
  | some (.stream a) => { s' with turn := some a }
  | some (.prefetch a lane) =>
    match prefetch a lane (Config.choice (s.free + 1)) s' with
    | .ok (_, u) => u
    | .error _ => s'
  | some (.teardown c) => s'.teardown c
  | some (.platform w k) => s'.setPlatform w k
  | none => s'

/-! ## Around an instruction -/

/-- What a step comes to: an instruction performed in a state, `idle` being that state before the issue was counted; or a step that is over. -/
inductive Issue where
  | run (i : Instr) (s idle : State)
  | over (o : Out)

/-- A core that issues has its clock again (R316); what the instruction chooses is chosen anew. -/
def State.readied (s : State) : State :=
  { s with
    gov := { s.gov with gated := s.gov.gated.filter (fun c => c != s.t.core), issuedAt := sset 0 s.gov.issuedAt s.t.core s.time }
    free := s.free + 1 }

/-- The scalar stream in focus takes its issue slot (R84, R292, R312); an instruction that has begun goes on without a fetch. -/
def State.issueScalar (s : State) : Issue :=
  if !scalarLive s then .over (.next s)
  else if s.t.errPend && s.t.sPark.isNone && decide (s.t.wait = .none) then .over (.next s.errorTrap)
  else match s.t.wait.again with
  | some i => if scalarWaits s i then .over (.next s) else .run i s.readied s
  | none =>
    match fetchScalar s.t s with
    | .error e => .over (stopOut e)
    | .ok (.error f, s') => .over (.next (s'.fetchFault f false))
    | .ok (.ok i, s') => if scalarWaits s' i then .over (.next s') else .run i s'.readied s'

/-- The path in focus takes its issue slot, and uses the lane file (R36); one that yielded lets it pass (R65). -/
def State.issueLane (s : State) : Issue :=
  if !pathLive s then .over (.next s)
  else if s.t.cur.yielded then .over (.next (s.upd (fun t => t.updCur (fun p => { p with yielded := false }))))
  else match fetchLane s.t s with
    | .error e => .over (stopOut e)
    | .ok (.error f, s') => .over (.next (s'.fetchFault f true))
    | .ok (.ok i, s') =>
      if laneWaits s' i then .over (.next s')
      else match useRegs i s' with
        | .error e => .over (stopOut e)
        | .ok (_, u) => .run i (u.readied.upd Team.countIssue) u

/-- What this step does: first what units and the outside have begun, then the stream whose turn it is. -/
def State.issue (s : State) : Issue :=
  match s.agenda, s.turn with
  | i :: is, _ => .run i { s with agenda := is } { s with agenda := is }
  | [], some a =>
    match s.aim a with
    | none => .over (.next s)
    | some u =>
      match a with
      | .scalar _ _ => u.issueScalar
      | .lane _ _ _ => u.issueLane
  | [], none => .over (.next s)

/-- Scalar jumps and branches. -/
def scalarJump : Instr → Bool
  | .j _ | .jal _ _ | .jr _ _ _ | .b _ _ _ => true
  | _ => false

/-- A scalar instruction that issued beside a parked access has used up a place of its window (R84, R292). -/
def Team.scalarSpent (i : Instr) (before t : Team) : Team :=
  match before.sPark, t.sPark with
  | some p, some q =>
    if p.1 = q.1 ∧ (t.spc ≠ before.spc ∨ scalarJump i) then { t with sPark := some (q.1, q.2.1 - 1, q.2.2) } else t
  | _, _ => t

/-- After a lane instruction: the access a path was released for has issued (R309), the others' yielded slot has passed (R65). -/
def Team.laneSpent (i : Instr) (before t : Team) : Team :=
  { t with paths := t.paths.map (fun (p : Path) =>
    if p.idx = t.curPath then
      (if p.hold = .debug true ∧ (p.pc ≠ before.cur.pc ∨ !laneAccess i) then { p with hold := .none } else p)
    else { p with yielded := false }) }

/-- What a step adds once its instruction is performed: `s` is the state it was performed in. -/
def State.settleIssue (s : State) (i : Instr) (u : State) : State :=
  match s.agenda, s.turn with
  | _, some (.scalar _ _) => u.upd (Team.scalarSpent i s.t)
  | _, some (.lane _ _ _) => u.upd (Team.laneSpent i s.t)
  | _, none => u

/-! ## Time (R11, R250, R251, R307, R310) -/

/-- Whether a multiple of `n` lies in (a, b]. -/
def crosses (n a b : Nat) : Bool := decide (n ≠ 0 ∧ a / n < b / n)

/-- A context's counters take `clocks` slot clocks of a team whose leaf is `leaf`. -/
def Ctx.slotClocks (x : Ctx) (clocks leaf : Nat) : Ctx :=
  let up (k : Nat) (cs : List DWord) : List DWord := updNth cs k (fun v => v + BitVec.ofNat 64 clocks)
  if x.capOn then { x with counters := up leaf (up 1 x.counters) } else x

/-- Slot clocks of every Running or Retiring team whose context captures, each to the team's leaf (R310). -/
def State.countSlots (s : State) (issued : Option (Nat × Nat)) (clocks : Nat) : State :=
  (s.teams.filter (fun t => t.alive)).foldl (fun u t =>
    if (ctxOf s t.ctx).capOn then u.updCtx t.ctx (fun x => x.slotClocks clocks (leafOf s issued t)) else u) s

/-- The leading elements of a list that `f` accepts, counted. -/
def countWhile {α : Type} (f : α → Bool) (l : List α) : Nat := (l.takeWhile f).length

/-- The buffered lines and pending operands whose time is up (R170, R202): on each core they stand oldest first. -/
def dueStores (s : State) : List Instr :=
  ((s.caches.wc.map (fun l => l.core)).eraseDups).flatMap (fun c => List.replicate
    (countWhile (fun l => clocksPassed s l.since 256) (s.caches.wc.filter (fun l => l.core == c))) (.wcBufferTimeout c 0)) ++
  ((s.caches.quanta.map (fun q => q.core)).eraseDups).flatMap (fun c => List.replicate
    (countWhile (fun q => decide (q.since + 64 ≤ s.time)) (s.caches.quanta.filter (fun q => q.core == c))) (.quantumTimeout c 0))

/-- The vertical blanks that are due (R319). -/
def dueBlanks (s : State) : List Instr :=
  ((List.range 4).filter (fun h => (headOf s h).enabled && decide ((headOf s h).blankAt ≤ s.time))).map .verticalBlank

/-- The ordered sections whose time limit is up (R277). -/
def dueSections (s : State) : List Instr :=
  s.teams.flatMap (fun t =>
    let limit := (ctxOf s t.ctx).oslimit.toNat * 1024
    (t.bindings.filter (fun b => limit ≠ 0 && !t.debug && b.token && !b.lost && decide (limit ≤ s.time - b.since))).map
      (fun b => .osTimeLimit t.core t.slot b.lane))

/-- What is overdue at once, before anything that waits. -/
def dueFirst (s : State) : List Instr := dueStores s ++ dueBlanks s ++ dueSections s

/-- The held launches that age, or whose hold ends (R256, R260). -/
def dueLaunches (s : State) : List Instr :=
  s.launches.flatMap (fun l =>
    if l.st = .held then
      (if !l.aged && meshPassed s l.mclk0 4096 then [.launchAged l.id] else []) ++
        (if l.holdClass.isSome && decide (320000 ≤ s.time - l.since) then [.holdTimeout l.id] else [])
    else [])

/-- The steps that fall due in a state, after its time was `a` and its mesh clock count `m`. -/
def dueSteps (s : State) (a m : Nat) : List Instr :=
  (if crosses (4096 * 32) (3 * m) (3 * s.mclk) then [.queuePoll] else []) ++
  (if !s.gov.recovering && !s.gov.exceeded && decide (a < s.gov.metAt + 3200000 ∧ s.gov.metAt + 3200000 ≤ s.time) then
    [.governorRecoveryTimer] else []) ++
  List.replicate (s.time / 320000 - a / 320000) .governorTick ++
  (List.range Config.numContexts).flatMap (fun c =>
    let k := bits (ctxOf s c).trctl.toNat 5 5
    if k = 0 then [] else List.replicate (s.time / 2 ^ k - a / 2 ^ k) (.traceSample c)) ++
  dueLaunches s

/-- The team a stream belongs to. -/
def Agent.place : Agent → Nat × Nat
  | .scalar c k => (c, k)
  | .lane c k _ => (c, k)

/-- Clock counts after `n` ticks: the mesh stands at point 1 in Deep and Sleep (R9, R315, R316). -/
def State.clocks (s : State) (n : Nat) : State :=
  { s with
    time := s.time + n, clk := s.clk + n * (s.gov.point + 1), mclk := s.mclk + n * (if 2 ≤ s.gov.idle then 2 else s.gov.point + 1) }

/-- What stands next once `due` is overdue: it comes before everything that waits already (R170, R202, R277, R319). -/
def duePast (due agenda : List Instr) : List Instr := due ++ agenda.filter (fun i => !due.contains i)

/-- Time passes at the end of a step: a free number of ticks, what falls due, the slot clocks; the next step is undecided. `issued`: whether
the stream whose turn it was issued. -/
def State.tick (issued : Bool) (s : State) : State :=
  let u := s.clocks (Config.ticks s.free)
  let u := u.countSlots (if issued then s.turn.map Agent.place else none) (u.clk / 8 - s.clk / 8)
  { u with free := s.free + 1, turn := none, agenda := duePast (dueFirst u) u.agenda ++ dueSteps u s.time s.mclk }

/-- The outcome of a step, with what comes after an instruction. -/
def finishStep (f : State → State) (o : Out) : Out :=
  match o with
  | .next u => .next (f u)
  | .fault e => .fault e
  | .refused r => .refused r

/-- Whether the stream whose turn it is stands inside an instruction it issued earlier. -/
def State.goesOn (s : State) : Bool :=
  match s.turn with
  | some (.scalar _ _) => s.t.wait.again.isSome
  | some (.lane _ _ _) => s.t.cur.goesOn
  | none => false

/-- After instruction `i`, performed in `s` and come to `u`: one that must wait has not issued, and its issue is not counted (R83, R310, R316);
then time passes. -/
def afterRun (i : Instr) (s idle u : State) : State :=
  if stalled i s u then ({ u with gov := idle.gov, t := idle.t } : State).tick false else (s.settleIssue i u).tick (!idle.goesOn)

end Sys2Proof.Machine
end

