-- ==== Sys2Proof/Machine/Place.lean ====
section
/-! DEFINITION. A program placed from outside: one team on core 0 whose next instruction is a given word (R40; assumption log 12). -/

namespace Sys2Proof.Machine

/-- Where the placed word lies, virtual and physical. -/
def placeAt : Nat := 0x10000

/-- Context 0 as loaded with one range entry: virtual addresses 0 to 2^36 − 1 are physical ones, with every right (R288, Table 14.1). -/
def placeCtx (x : Ctx) : Ctx :=
  { x with
    loaded := true
    ranges := { vbase := 0, vlim := 0x1000000000, pbase := 0, perm := 0x3d } :: List.replicate 3 RangeEnt.reset }

/-- A team of one group and 128 lane registers just placed in slot 0 of core 0 (R40). -/
def placeTeam : Team :=
  { Team.none with life := .running, clrows := 1, clcols := 1, nregs := 128, spc := BitVec.ofNat 64 placeAt, bunting := 0xffffffff, bsum := 1 }

/-- As `placeTeam`, with a running block whose one path, of one lane, stands at the word. -/
def placeLaneTeam : Team :=
  let t := { placeTeam with bunting := 1 }
  t.beginBlock { no := 1, entry := BitVec.ofNat 64 placeAt, snap := [] } []

/-- A word of `n` bytes placed, with the team and the turn that fetch it. -/
def State.placed (s : State) (n w : Nat) (t : Team) (a : Agent) : State :=
  { s with
    t := t, turn := some a, agenda := [], mem := memSet s.mem placeAt (leBytes n w)
    ctxs := updNth s.ctxs 0 placeCtx, caches := { s.caches with icache := [] } }

/-- What `withFetchWord` does: a scalar word for a scalar stream, a lane word for a path. -/
def State.placeWord (s : State) (nbits w : Nat) : State :=
  if nbits ≤ 32 then s.placed 4 w placeTeam (.scalar 0 0) else s.placed 12 w placeLaneTeam (.lane 0 0 0)

end Sys2Proof.Machine
end

