-- ==== Sys2Proof/Machine/Step.lean ====
section
/-! DEFINITION. One step of the machine: what is decided, or a free choice among what may happen next, then the passing of time. -/

namespace Sys2Proof.Machine

/-- The state in which something is decided: as it stands, or after a free choice. -/
def State.decided (s : State) : State :=
  match s.agenda, s.turn with
  | [], none => s.pick
  | _, _ => s

/-- One step of the machine. -/
def step (s : State) : Host.Outcome State Fault Refusal :=
  match s.decided.issue with
  | .over o => finishStep (State.tick false) o
  | .run i u idle => finishStep (afterRun i u idle) (exec i u)

/-- The state with the instruction whose bits are `w` placed where the next step fetches. -/
def State.withFetchWord (s : State) (nbits w : Nat) : State := s.placeWord nbits w

end Sys2Proof.Machine
end

