-- ==== Sys2Proof/Safety.lean ====
section
/-! DEFINITION. What counts as a safe run, in the terms the statements use: steps that end in a next state, the invariants of the state, and
states whose accesses the part's own memory serves. -/

namespace Sys2Proof.Machine

/-! ## Runs -/

/-- Instruction `i` performed in `s` ends in the state `t`. -/
def Goes (i : Instr) (s t : State) : Prop := exec i s = .next t

/-- Instruction `i` performed in `s` ends in a next state, of which `P` holds. -/
def Ends (i : Instr) (s : State) (P : State → Prop) : Prop := ∃ t, exec i s = .next t ∧ P t

/-- A step from `s` ends in a next state. -/
def Safe (s : State) : Prop := ∃ t, step s = .next t

/-! ## What an instruction leaves: one form for each kind of result -/

/-- `i` writes `v` to xd and the scalar stream moves past its word; x0 discards the write; everything else, every byte of memory
included, is as it was (R73). -/
def WritesX (i : Instr) (s : State) (d : BitVec 5) (v : DWord) : Prop :=
  Ends i s (fun t => (∀ q, t.t.xr q = if q = d ∧ d ≠ 0 then v else s.t.xr q) ∧
    t = { s with t := { s.t with x := t.t.x, spc := s.t.spc + 4 } })

/-- `i` writes nothing: the scalar stream moves past its word. -/
def PassesS (i : Instr) (s : State) : Prop := exec i s = .next { s with t := { s.t with spc := s.t.spc + 4 } }

/-- `i` waits: it is issued again, and nothing has changed. -/
def Waits (i : Instr) (s : State) : Prop := exec i s = .next s

/-- What a path's move past its instruction leaves of a team (R71, R62): its PC at the successor, its arms settled. -/
def Team.moved (t u : Team) : Prop :=
  u.paths = t.paths.map (fun p => if p.idx = t.curPath then { p with pc := laneNext p.pc } else p) ∧ u.arms = t.endL.arms

/-- `i` writes the number `f lane` into the `n` registers from DST of each participating lane; no other register of any lane, and
nothing else but the path's place, changes (R29, R116). -/
def WritesV (i : Instr) (s : State) (w : LWord) (n : Nat) (f : Nat → Nat) : Prop :=
  Ends i s (fun t =>
    (∀ lane ∈ s.t.parts w, t.t.vrs lane w.dst.toNat n = f lane % 2 ^ (32 * n)) ∧
    (∀ lane r, r < 128 → ¬ (lane ∈ s.t.parts w ∧ w.dst.toNat ≤ r ∧ r < w.dst.toNat + n) → t.t.vr lane r = s.t.vr lane r) ∧
    s.t.moved t.t ∧ t = { s with t := { s.t with v := t.t.v, paths := t.t.paths, arms := t.t.arms } })

/-- `i` sets predicate DST to `f lane` in each participating lane, discarding a write to p0; no other predicate bit, and nothing else
but the path's place, changes (R29, R76). -/
def WritesP (i : Instr) (s : State) (w : LWord) (f : Nat → Bool) : Prop :=
  Ends i s (fun t =>
    (∀ lane < 1024, ∀ k, (t.t.pm k).getLsbD lane =
      if k = w.dst.toNat % 16 ∧ k ≠ 0 ∧ lane ∈ s.t.parts w then f lane else (s.t.pm k).getLsbD lane) ∧
    s.t.moved t.t ∧ t = { s with t := { s.t with p := t.t.p, paths := t.t.paths, arms := t.t.arms } })

/-- `i` writes nothing: the path moves past its instruction. -/
def PassesL (i : Instr) (s : State) : Prop := exec i s = .next { s with t := s.t.endL }

/-! ## Traps and stopping faults (R290, R297) -/

/-- `i` takes the trap of cause `cause` at `pc` (R297): sr.fault is set, INH rises, a running block pauses, the scalar stream stands at
TVEC, the team no longer stands among those that wait to FORK; nothing else changes. -/
def TakesTrap (i : Instr) (s : State) (cause : Nat) (lane : Bool) (pc : DWord) : Prop :=
  exec i s = .next { s with ctxs := s.leaveForks.ctxs, t := { s.t with
    fCause := BitVec.ofNat 7 cause, fEpc := epcOf pc, inh := true, fLane := lane, paused := true, spc := (ctxOf s s.t.ctx).tvec
    resume := if lane then s.t.spc else epcOf pc + 4
    trapPath := if lane then s.t.curPath else s.t.trapPath } }

/-- `i` stops the team (R290, R297): it is Stopped under a record ID, the first if it was Stopped already, the record waits to be written with
its cause, address, PC, core, slot, pennant and stream, sr.fault shows the cause, and of the rest only the context's record bookkeeping
changes. -/
def StopsTeam (i : Instr) (s : State) (cause access : Nat) (lane : Bool) (pc addr : DWord) : Prop :=
  Ends i s (fun t => ∃ (id : Nat) (r : FaultRec), t.t.life = .stopped ∧ t.t.why = .fault id ∧
    (ctxOf t s.t.ctx).faultQ = (ctxOf s s.t.ctx).faultQ ++ [r] ∧
    r.id = id ∧ r.pc = pc ∧ r.addr = addr ∧ r.time = s.time ∧ r.lanes = 0 ∧
    r.info.getLsbD 63 = true ∧ (r.info.extractLsb' 56 7).toNat = cause % 128 ∧ (r.info.extractLsb' 49 3).toNat = access % 8 ∧
    (r.info.extractLsb' 46 3).toNat = s.t.pennant % 8 ∧ (r.info.extractLsb' 38 8).toNat = s.t.core % 256 ∧
    (r.info.extractLsb' 36 2).toNat = s.t.slot % 4 ∧ r.info.getLsbD 24 = !lane ∧
    (∀ n, s.t.why = .fault n → id = n) ∧
    t = { s with ctxs := t.ctxs, t := { s.t with
      life := .stopped, why := .fault id, before := t.t.before, fCause := BitVec.ofNat 7 cause, fEpc := epcOf pc, fLane := lane } } ∧
    ∀ c, c ≠ s.t.ctx → ctxOf t c = ctxOf s c)

/-- Where `i` traps, or stops the team when the trap may not be taken (R297). -/
def TrapsOrStops (i : Instr) (s : State) (cause : Nat) (lane : Bool) (pc : DWord) : Prop :=
  let refused := (ctxOf s s.t.ctx).tvec = 0 ∨ s.t.inh = true ∨ (lane = true ∧ s.t.life = .retiring)
  (¬ refused → TakesTrap i s cause lane pc) ∧ (refused → s.t.ctx < s.ctxs.length → StopsTeam i s cause 0 lane pc 0)

/-! ## Parked accesses (R292, R293, R295) -/

/-- From `s` to `t` the context of the team in focus gains one record, which names the fault `f` and says where it was met (Table 14.4); the
other contexts are as they were. -/
def Records (s t : State) (r : FaultRec) (f : TFault) (access group : Nat) (lane : Bool) (pc : DWord) (lanes : Word) : Prop :=
  (ctxOf t s.t.ctx).faultQ = (ctxOf s s.t.ctx).faultQ ++ [r] ∧ r.pc = pc ∧ r.addr = f.addr ∧ r.time = s.time ∧ r.lanes = lanes ∧
    r.info.getLsbD 63 = true ∧ (r.info.extractLsb' 56 7).toNat = f.cause % 128 ∧ r.info.getLsbD 55 = f.walk ∧
    (r.info.extractLsb' 52 3).toNat = f.level % 8 ∧ (r.info.extractLsb' 49 3).toNat = access % 8 ∧
    (r.info.extractLsb' 46 3).toNat = s.t.pennant % 8 ∧ (r.info.extractLsb' 38 8).toNat = s.t.core % 256 ∧
    (r.info.extractLsb' 36 2).toNat = s.t.slot % 4 ∧ (r.info.extractLsb' 30 6).toNat = (if lane then s.t.curPath % 64 else 0) ∧
    (r.info.extractLsb' 25 5).toNat = group % 32 ∧ r.info.getLsbD 24 = !lane ∧ ∀ c, c ≠ s.t.ctx → ctxOf t c = ctxOf s c

/-- The scalar access `i` of `va` with data `data` parks on the fault `f` (R292, R293): an operand-log entry keeps it under the ID of a new
record, the stream moves on for up to 4 instructions, and nothing else changes. -/
def ParksScalar (i : Instr) (s : State) (f : TFault) (access : Nat) (va : DWord) (data : Nat) (xt : BitVec 5) : Prop :=
  Ends i s (fun t => ∃ (r : FaultRec) (e : OpEntry), Records s t r f access 0 false s.t.spc 0 ∧
    e.id = r.id ∧ e.record = true ∧ e.instr = some i ∧ e.scalar = true ∧ e.pc = s.t.spc ∧ e.lanes = [{ lane := 0, addr := va, data := data }] ∧
    t = { s with ctxs := t.ctxs, t := { s.t with
      oplog := s.t.oplog ++ [e], sPark := some (r.id, 4, xt), spc := s.t.spc + 4 } })

/-- The access `i` of the one lane `l` of the issuing path parks on the fault `f` (R83, R292, R293): an operand-log entry of its group keeps
it under the ID of a new record, the path moves on within a window of LA instructions, and no register and no byte of memory changes. -/
def ParksLane (i : Instr) (s : State) (w : LWord) (f : TFault) (access : Nat) (l : LogLane) : Prop :=
  Ends i s (fun t => ∃ (r : FaultRec) (e : OpEntry),
    Records s t r f access (l.lane / 32) true s.t.cur.pc (BitVec.ofNat 32 (2 ^ (l.lane % 32))) ∧
    e.id = r.id ∧ e.record = true ∧ e.instr = some i ∧ e.scalar = false ∧ e.pc = s.t.cur.pc ∧ e.path = s.t.curPath ∧
    e.group = l.lane / 32 ∧ e.lanes = [l] ∧
    t.t.paths = s.t.paths.map (fun p => if p.idx = s.t.curPath then
      { p with windows := p.windows ++ [(s.t.issues, w.la.toNat)], pc := laneNext p.pc } else p) ∧
    t = { s with
      ctxs := t.ctxs, caches := { s.caches with met := [] }
      t := { s.t with oplog := s.t.oplog ++ [e], paths := t.t.paths, arms := t.t.arms } })

/-! ## Debug stops (R309) -/

/-- The issuing path stands in the team's path table. -/
def Team.Issues (t : Team) : Prop := (t.paths.any (fun p => p.idx == t.curPath)) = true

/-- The context's trace ring lies in memory, and no core buffers a line (R306). -/
def Rings (s : State) : Prop :=
  s.win.memCode ≠ 0 ∧ s.t.ctx < s.ctxs.length ∧ s.caches.wc = [] ∧
    (ctxOf s s.t.ctx).trbase.toNat + 64 * 2 ^ ((ctxOf s s.t.ctx).trctl.extractLsb' 13 5).toNat ≤ 0x1000000000

/-- `i` makes a debug stop with reason `reason` (R309): its path is held, or the scalar stream stays at it; its team is parked, and with
NONSTOP = 0 every team of the context; a kind-4 record stands in the next slot of the trace ring, or is dropped where the slot's V is 1;
DBG is set; no other byte of memory and no register changes. -/
def DebugStops (i : Instr) (s : State) (reason : Nat) (lane : Bool) : Prop :=
  let x := ctxOf s s.t.ctx
  let slot := x.trbase.toNat + 64 * (x.trN % 2 ^ (x.trctl.extractLsb' 13 5).toNat)
  let free := (sget 0 s.mem (slot + 16)).getLsbD 0 = false
  let pc := if lane then s.t.cur.pc else s.t.spc
  Ends i s (fun t => t.t.debug = true ∧ t.win.intstat.getLsbD 8 = true ∧
    (free → memBytes t.mem slot 16 = leBytes 8 s.time ++ leBytes 8 pc.toNat ∧ (sget 0 t.mem (slot + 16)).toNat % 16 = 2 * 4 + 1 ∧
      memBytes t.mem (slot + 24) 40 = leBytes 8 reason ++ List.replicate 32 0) ∧
    (∀ a, ¬ (free ∧ slot ≤ a ∧ a < slot + 64) → sget 0 t.mem a = sget 0 s.mem a) ∧
    (lane = true → s.t.Issues → t.t.cur.hold = .debug false) ∧ (∀ p, t.t.path p = { s.t.path p with hold := (t.t.path p).hold }) ∧
    t.t = { s.t with debug := true, paths := t.t.paths, bindings := t.t.bindings } ∧
    (x.trctl.getLsbD 12 = true → t.others = s.others ∧ t.shadows = s.shadows) ∧
    (x.trctl.getLsbD 12 = false → t.others = s.others.map (fun u =>
      if u.ctx = s.t.ctx ∧ u.life ≠ .retired then u.debugPark s.time else u)))

/-! ## Invariants -/

/-- Both memories are in their canonical form. -/
def State.MemWf (s : State) : Prop := Memory.wf s.mem = true ∧ Memory.wf s.peerMem = true

/-- The machine has its contexts, queues, heads and shadow slots (R20, R251, R299, R319), and each context its pennants, range entries,
counters and watchpoints (R213, R286, R309, R310). -/
def State.Sized (s : State) : Prop :=
  s.ctxs.length = 16 ∧ s.queues.length = 32 ∧ s.heads.length = 4 ∧ s.shadows.length = 4 ∧
    ∀ x ∈ s.ctxs, x.pens.length = 7 ∧ x.ranges.length = 4 ∧ x.counters.length = 16 ∧ x.watch.length = 4

/-- The governor stays within its limits (R250, R315), and the operating point within what it lets a request reach. -/
def State.GovOk (s : State) : Prop :=
  1 ≤ s.gov.gcap ∧ s.gov.gcap ≤ 256 ∧ 1 ≤ s.gov.point ∧ s.gov.point ≤ s.gov.cap ∧ s.gov.cap ≤ 7 ∧ s.win.platTop ≤ 7 ∧ 1 ≤ s.win.gfloor

/-! ## States whose accesses are served -/

/-- A range entry that maps the virtual addresses 0 to 2^36 − 1 to the same physical ones with every right (R288, Table 14.1). -/
def flatRange : RangeEnt := { vbase := 0, vlim := 0x1000000000, pbase := 0, perm := 0x3d }

/-- Context `c` reaches the whole of a 64 GB part's memory under its own addresses, and no sampling of it is on (R298, R304). -/
def Flat (s : State) (c : Nat) : Prop :=
  s.win.memCode ≠ 0 ∧ (ctxOf s c).hotctl = 0 ∧ (ctxOf s c).ranges.head? = some flatRange

/-- A physical range of the part's own memory. -/
def InMemory (s : State) (pa n : Nat) : Prop := s.win.memCode ≠ 0 ∧ pa + n ≤ 0x1000000000

/-! ## States in which a lane's access to memory completes -/

/-- No core's buffered line overlaps [pa, pa + n) (R170). -/
def Unbuffered (s : State) (pa n : Nat) : Prop := ∀ l ∈ s.caches.wc, overlaps (128 * l.line) 128 pa n = false

/-- Nothing but a plain access happens on the lane path of the team in focus: memory is mapped flat, nothing of the team is parked, nothing
is buffered, no damaged block waits for it, and no watchpoint, trace or sampling is on. -/
def Calm (s : State) : Prop :=
  Flat s s.t.ctx ∧ s.t.oplog = [] ∧ s.t.lastPages = [] ∧ s.caches.wc = [] ∧ s.caches.quanta = [] ∧
    s.caches.spoilt = [] ∧ (ctxOf s s.t.ctx).trctl = 0 ∧ ∀ i, ((ctxOf s s.t.ctx).watch.getD i Watch.reset).ctl = 0

/-- As `Calm`, on the trunk. -/
def Plain (s : State) : Prop := Calm s ∧ s.t.pennant = 0

/-- As `Calm`, under a pennant that is not being dropped; fewer than 12 ways of the version cache are in use, so no set is full (R216). -/
def OnPennant (s : State) : Prop :=
  Calm s ∧ s.t.pennant ≠ 0 ∧ pennantGone s s.t.ctx s.t.pennant = false ∧ (wayLines s).length < 12 ∧
    ∀ v ∈ s.caches.vers, v.data.length = 128

/-- Each participating lane's access of `n` bytes lies in memory. -/
def LanesIn (s : State) (w : LWord) (n : Nat) : Prop := ∀ lane ∈ s.t.parts w, (s.t.ea w lane).toNat + n ≤ 0x1000000000

/-- `t` differs from `s` in the team in focus, and in the bookkeeping of caches and counters alone: memory, buffered stores, versions,
logs and every unit are as they were. -/
def OnlyTeam (s t : State) : Prop :=
  t = { s with t := t.t, ctxs := t.ctxs, caches := { s.caches with
    l1 := t.caches.l1, homes := t.caches.homes, tokens := t.caches.tokens, rdSig := t.caches.rdSig, wrSig := t.caches.wrSig
    tlb := t.caches.tlb, persist := t.caches.persist, met := t.caches.met } } ∧
  ∀ c, ∃ ks, ctxOf t c = { ctxOf s c with counters := ks }

/-- Context `c` reaches memory under its own addresses, and nothing is buffered or pending anywhere: what an instruction reads and writes
is memory itself. -/
def Still (s : State) (c : Nat) : Prop := Flat s c ∧ s.caches.wc = [] ∧ s.caches.quanta = []

/-- Memory in `t` is memory in `s` with these bytes at these addresses written in order; the peer's memory is as it was. -/
def Wrote (s t : State) (ws : List (Nat × List Byte)) : Prop :=
  (∀ a, sget 0 t.mem a = sget 0 (ws.foldl (fun m w => memSet m w.1 w.2) s.mem) a) ∧ t.peerMem = s.peerMem

/-- Context `c` stands in the machine with its seven pennants, and its control block lies at `b` in memory. -/
def PcbAt (s : State) (c : Nat) (b : DWord) : Prop :=
  c < s.ctxs.length ∧ (ctxOf s c).pens.length = 7 ∧ (ctxOf s c).pcb = some b ∧ b.toNat + 1024 ≤ 0x1000000000

/-- The byte at `pa` as core `core` reads it on the trunk: its buffered stores before memory (R170). -/
def coreByte (s : State) (core pa : Nat) : Byte := (wcMerge s core 0 0 pa [sget 0 s.mem pa]).headD 0

/-- The bytes [pa, pa + n) as the team in focus reads them under its pennant: its core's buffered stores over its pennant's lines (R170,
R214). -/
def pennantView (s : State) (pa n : Nat) : List Byte :=
  wcMerge s s.t.core s.t.ctx s.t.pennant pa (pennantBytes s s.t.ctx s.t.pennant (n / 128 + 2) pa n)

/-! ## Page tables (R281, R282) -/

/-- The table entry at physical address `pa`. -/
def entryOf (m : Mem) (pa : Nat) : DWord := BitVec.ofNat 64 (leNat (memBytes m pa 8))

/-- Where a walk for `va` reads its entry at level `lvl`, of the node at `node` (R281). -/
def entryPlace (va : DWord) (lvl node : Nat) : Nat := node + 8 * (va.toNat / 2 ^ (12 + 9 * lvl) % 512)

/-- The physical address an entry names (Table 14.1). -/
def entryPa (e : DWord) : Nat := 4096 * (e.extractLsb' 12 36).toNat

/-- A valid entry that leads on to a node: L, the reserved bits, MIG, NR and MT 2 and 3 are clear (Table 14.1, R291). -/
def leadsOn (e : DWord) : Prop := e.getLsbD 0 = true ∧ e.getLsbD 1 = false ∧ e.extractLsb' 51 13 = 0 ∧ e.getLsbD 11 = false

/-- A walk for `va` from the node `p` at level `n` comes to the node `q` at level `k`; all the nodes lie in memory. -/
inductive Leads (m : Mem) (va : DWord) : Nat → Nat → Nat → Nat → Prop
  | here (n p : Nat) : p + 4096 ≤ 0x1000000000 → Leads m va n p n p
  | down (n p k q : Nat) : p + 4096 ≤ 0x1000000000 → leadsOn (entryOf m (entryPlace va (n + 1) p)) →
      Leads m va n (entryPa (entryOf m (entryPlace va (n + 1) p))) k q → Leads m va (n + 1) p k q

/-! ## Numbers as rationals, and what rounding makes of them (R117, R119, R120) -/

/-- The rational a finite number is. -/
def Num.rat : Num → ℚ
  | .fin s m e => (if s then -1 else 1) * m * 2 ^ e
  | _ => 0

/-- Rnd(y, mode) of R124: the integer a rational rounds to under a mode of Table 6.3. -/
def rnd (mode : RMode) (y : ℚ) : ℤ :=
  let f := ⌊y⌋
  let up (tie : Bool) : ℤ := if y - f < 1 / 2 then f else if y - f = 1 / 2 then (if tie then f + 1 else f) else f + 1
  match mode with
  | .rn => up (decide (f % 2 = 1))
  | .rz => if 0 ≤ y then f else ⌈y⌉
  | .rm => f
  | .rp => ⌈y⌉
  | .rna => up (decide (0 ≤ y))

/-- Clamp(a, lo, hi). -/
def bounded (lo hi a : ℤ) : ℤ := max lo (min hi a)

/-- The largest finite value of a format (Table 6.2). -/
def Fmt.big (f : Fmt) : ℚ := if f.sat then 448 else (2 - 2 ^ (-(f.fbits : ℤ))) * 2 ^ (f.bias : ℤ)

/-- Whether a result beyond the format's range, of sign `neg`, becomes an infinity (Table 6.4). -/
def Fmt.toInf (f : Fmt) (mode : RMode) (neg : Bool) : Bool :=
  !f.sat && (match mode with
    | .rz => false
    | .rm => neg
    | .rp => !neg
    | _ => true)

/-- The pattern `raw` is the nonzero rational `y`, of sign `neg`, rounded once in the format under the mode: to a multiple of its step 2^q
there, or, where that lies beyond the largest finite value, to an infinity or that value as Table 6.4 says. -/
def Fmt.Rounds (f : Fmt) (mode : RMode) (y : ℚ) (neg : Bool) (raw : ℕ) : Prop :=
  ∀ q : ℤ, f.minExp ≤ q → |y| < 2 ^ (q + f.fbits + 1) → (q = f.minExp ∨ 2 ^ (q + f.fbits) ≤ |y|) →
    let z : ℚ := rnd mode (y / 2 ^ q) * 2 ^ q
    (|z| ≤ f.big → (f.value raw).isFin = true ∧ (f.value raw).sign = neg ∧ (f.value raw).rat = z) ∧
    (f.big < |z| → f.value raw = .inf neg ∧ f.toInf mode neg = true ∨
      f.toInf mode neg = false ∧ (f.value raw).isFin = true ∧ (f.value raw).rat = if neg then -f.big else f.big)

/-- `v` lies within `k` ulp of `y` in f32. -/
def UlpNear (k : ℕ) (v y : ℚ) : Prop := ∃ q : ℤ, (q = -149 ∨ 2 ^ (q + 23) ≤ |y|) ∧ |v - y| ≤ k * 2 ^ q

/-! ## What the array leaves (R132, R159, R161, R398) -/

/-- Term k of element (i, j) of an op over operands in the team's claim (R130, R132 to R134, R136). -/
def Team.term (t : Team) (op : CubeOp) (d : Desc) (i k j : Nat) : Num :=
  let len := (t.share d).nc
  let m := if d.place = 3 then t.mapEntry d k else (k, k)
  let a := t.aValue d op.aOff (t.share d).kc i k
  let b := typedValue d.bfmt (t.elemCode d.bfmt (op.bOff + (m.1 * len + j) * typeBytes d.bfmt))
  let at_ := match d.place with
    | 1 => k
    | 2 => i * (t.share d).kc + k
    | _ => m.2 * len + j
  if op.kind = 0 then Num.mul a b else triTerm a b (typedValue d.cfmt (t.elemCode d.cfmt (d.cadr + at_ * typeBytes d.cfmt)))

/-- The weight of index k and column j: two's complement in two bits, or −1 and +1 in one (R126, R137). -/
def Team.weight (t : Team) (op : CubeOp) (d : Desc) (k j : Nat) : Int :=
  let n := j * (32 * d.k32) + k
  if d.w2 then signed ((sget 0 t.spad (op.bOff + n / 4)).toNat / 4 ^ (k % 4) % 4) 2
  else if (sget 0 t.spad (op.bOff + n / 8)).getLsbD (k % 8) then 1 else -1

/-- The table entry of row i that the weights of group g of column j select: Σ w·a over the group's four activations, exact, rounded once to f32
(R126, R137, R400). -/
def Team.lutTerm (t : Team) (op : CubeOp) (d : Desc) (i g j : Nat) : Num :=
  let act (k : Nat) : Num :=
    typedValue (if d.afmt = 8 then 13 else 14) (leNat (sgetRange 0 t.spad (op.aOff + (i * (32 * d.k32) + k) * 2) 2))
  f32.value (f32.round .rn (((List.range 4).map (fun n => Num.mul (numOfInt (t.weight op d (4 * g + n) j) 0 false) (act (4 * g + n)))).foldl
    (fun x v => Num.add .rn x v) (Num.fin true 0 0)))

/-- DotAccumulate of an element that holds `x` and all its terms (R128, R132). -/
def Team.dot (t : Team) (op : CubeOp) (d : Desc) (i j : Nat) (x : Word) : Word :=
  dotAccumulate x ((List.range (t.share d).kc).map (fun k => t.term op d i k j))

/-- DotAccumulate of an element of row `i` and panel column `j` that holds `x` and its terms over a panel `p` of rows from `k0` on (R159). -/
def Team.panelDot (t : Team) (op : CubeOp) (d : Desc) (k0 : Nat) (p : List Nat) (i j : Nat) (x : Word) : Word :=
  dotAccumulate x ((List.range 32).map (fun k => t.cubeTerm op.kind d op.aOff (t.share d).kc k0 p i k j))

/-- The region of a team's share of an op lies within a tile of 512 rows and columns. -/
def Team.fits (t : Team) (op : CubeOp) (d : Desc) : Prop :=
  8 * d.row0 + op.rowOff + (t.share d).mc ≤ 512 ∧ 32 * d.col0 + (t.share d).nc ≤ 512

/-- Element (i, j) of the region of a team's share. -/
def Team.elem (t : Team) (op : CubeOp) (d : Desc) (i j : Nat) : Word := t.tileAt d.acc (8 * d.row0 + op.rowOff + i) (32 * d.col0 + j)

/-- `u` is `t`, but that element (i, j) of the region of its share of an op, of the rows the op computes, holds `f i j`. -/
def RegionIs (t u : Team) (op : CubeOp) (d : Desc) (f : Nat → Nat → Word) : Prop :=
  let inside (i j : Nat) : Prop := i < (t.share d).mc ∧ j < (t.share d).nc ∧ op.rows.getLsbD i = true
  u = { t with acc := u.acc } ∧ (∀ i j, inside i j → u.elem op d i j = f i j) ∧
    ∀ a r c, a < 4 → r < 512 → c < 512 → (∀ i j, inside i j → ¬ (a = d.acc ∧ r = 8 * d.row0 + op.rowOff + i ∧ c = 32 * d.col0 + j)) →
      u.tileAt a r c = t.tileAt a r c

/-! ## The binned-geometry buffer (R271) -/

/-- Bins and the triangles `ts` captured behind them, in order: a buffer that holds `n` triangles or more is flushed first. -/
def capture (n : Nat) (bins : List BinTri) : List BinTri → List BinTri
  | [] => bins
  | t :: ts =>
    let full := t.binned t.ctx && decide (n ≤ (bins.filter (BinTri.binned t.ctx)).length)
    let k := bins.foldl (fun m b => max m b.flush) 0 + 1
    capture n ((if full then bins.map (fun b => if b.binned t.ctx then { b with flush := k } else b) else bins) ++ [t]) ts

/-- A pixel item of triangle `x` of block `b`, whose vertices are `v`, at a pixel it covers inside its target. -/
def ItemOf (x : BinTri) (b : PrimBlock) (v : Vertex × Vertex × Vertex) (e : Nat × PixItem) : Prop :=
  e = (b.core, { ctx := x.ctx, pennant := x.pennant, endMark := false, x := e.2.x, y := e.2.y, seq := x.seq, prim := x.prim, tri := x.tri, draw := x.team }) ∧
    covers v e.2.x e.2.y = true ∧ e.2.x < natAt b.data 8 2 ∧ e.2.y < natAt b.data 10 2

/-! ## Ray structures (R279, R280) -/

/-- A structure of nodes and triangles, each under its reference. -/
inductive Bvh where
  | tri (ref : Word)
  | node (ref : Word) (a b : Bvh)
  deriving Repr

/-- The reference of a structure. -/
def Bvh.ref : Bvh → Word
  | .tri r => r
  | .node r _ _ => r

/-- The triangle references of a structure. -/
def Bvh.tris : Bvh → List Word
  | .tri r => [r]
  | .node _ a b => a.tris ++ b.tris

/-- Nodes of a structure. -/
def Bvh.nodes : Bvh → Nat
  | .tri _ => 0
  | .node _ a b => 1 + a.nodes + b.nodes

/-- Memory holds the structure's records at the places its references name. -/
def Bvh.At (m : Mem) (g : Accel) : Bvh → Prop
  | .tri r => r.getLsbD 31 = true ∧ g.tb + 48 * (r.toNat % 2 ^ 31) + 48 ≤ 0x1000000000
  | .node r a b => r.getLsbD 31 = false ∧ g.nb + 64 * r.toNat + 64 ≤ 0x1000000000 ∧
      memBytes m (g.nb + 64 * r.toNat + 48) 8 = leBytes 4 a.ref.toNat ++ leBytes 4 b.ref.toNat ∧ a.At m g ∧ b.At m g

end Sys2Proof.Machine
end

