-- ==== Sys2Proof/Certificates/Slice0/Obligations.lean ====
section
/-! DEFINITION. The statements for the provers: what the spec's rules say of the model. -/

open Sys2Proof Sys2Proof.Machine

/-! ## Encoding -/

/-- Every well-formed scalar instruction decodes from its word, with every operand (§4.2, §5.2). -/
def Obligations.ScalarDecodeOfEncode : Prop :=
  ∀ (i : Instr) (w : Word), encodeScalar i = some w → i.wf 128 = true → decodeScalar w = .ok i

/-- Every well-formed lane instruction decodes from its 96 bits, with every field (§4.3, §5.3). -/
def Obligations.LaneDecodeOfEncode : Prop :=
  ∀ (nregs : Nat) (i : Instr) (b : BitVec 96), encodeLane i = some b → i.wf nregs = true → decodeLane nregs b = .ok i

/-- A word means at most one instruction: what a scalar word decodes to is well formed and encodes to that word, and what 96 bits of a
lane word decode to is well formed and encodes to those bits (§5.1, §5.2, §5.3, §5.4). -/
def Obligations.EncodeOfDecode : Prop :=
  (∀ (w : Word) (i : Instr), decodeScalar w = .ok i → i.wf 128 = true ∧ encodeScalar i = some w) ∧
  (∀ (nregs : Nat) (b : BitVec 96) (i : Instr), decodeLane nregs b = .ok i → i.wf nregs = true ∧ encodeLane i = some b)

/-- A few words of the spec decode to what the spec says they are (§5.2, §5.3, §16.8, §17.8, §18.5). -/
def Obligations.SpecWordsDecode : Prop :=
  decodeScalar 0x000e6281 = .ok (.add 5 6 7) ∧ decodeScalar 0xfff06282 = .ok (.addImm 5 6 0xfff) ∧
  decodeScalar 0x03861289 = .ok (.ld 0 3 4 0 3 1 5) ∧ decodeScalar 0x00402908 = .ok (.b 2 5 8) ∧
  decodeScalar 0x0040000d = .ok .halt ∧ decodeScalar 0x1700000d = .ok (.fence 3 4) ∧
  decodeScalar 0x01cc5910 = .ok (.cpy true 2 5 6 7) ∧ decodeScalar 0x00000000 = .error .illegal ∧
  decodeScalar 0x0001000d = .error .illegal ∧
  (∃ w, decodeLane 128 0x00000000050e0020a0c20140 = .ok (.ldLane w) ∧ w.dst = 4 ∧ w.src1 = 3 ∧ w.src2 = 5 ∧ w.scope = 4 ∧ w.evict = 3) ∧
  decodeLane 128 0x00000000050f8020a0c20140 = .error .reserved ∧ decodeLane 128 0x000000001d0e0020a0c20140 = .error .illegal ∧
  decodeLane 128 0x104 = .ok .join ∧ decodeLane 128 0x3ff = .error .illegal

/-! ## A step runs the decoded instruction -/

/-- The instruction `i` is performed in `u`, and the step ends with what comes around it (`afterRun`): one that must wait has not issued and
its issue is not counted, `idle` being the state before that count; else the windows settle; and time passes. -/
def stepRuns (s : State) (i : Instr) (u idle : State) : Prop := step s = finishStep (afterRun i u idle) (exec i u)

/-- A step of the scalar stream: the word fetched at the scalar PC decodes, and the step performs that instruction in the state the fetch
left (R70, R112); a word that is no instruction is performed as the issue of an illegal instruction (§4.1, §5.1). The model's choice, in
assumption logs 1 and 31: which stream steps stands in State.turn and what units have due in State.agenda, and an instruction under way
that goes on after a replay (Team.wait) is performed without a fetch. -/
def Obligations.StepRunsScalarWord : Prop :=
  ∀ (s u v : State) (c k : Nat) (bs : List Byte), s.agenda = [] → s.turn = some (.scalar c k) → s.focus c k = some u →
    scalarLive u = true →
    (∀ i, u.t.wait.again = some i → scalarWaits u i = false → stepRuns s i u.readied u) ∧
    (u.t.wait = .none → (u.t.errPend && u.t.sPark.isNone) = false → scalarAligned u.t.spc = true →
      fetchCode u.t.tag false u.t.spc 4 u = .ok (.ok bs, v) →
      (∀ i, decodeScalar (wordOf 32 bs) = .ok i → scalarWaits v i = false → stepRuns s i v.readied v) ∧
      (∀ f, decodeScalar (wordOf 32 bs) = .error f → scalarWaits v (.illegalInstructionIssue (decide (f = .reserved))) = false →
        stepRuns s (.illegalInstructionIssue (decide (f = .reserved))) v.readied v))

/-- A step of a path of the lane stream, likewise (§4.1, §5.1). The model's choice, in assumption logs 1 and 52: the path whose turn it is, and
that an instruction's uses of the lane file (R36, R37) come between its fetch and the instruction. -/
def Obligations.StepRunsLaneWord : Prop :=
  ∀ (s f u v : State) (c k p : Nat) (bs : List Byte), s.agenda = [] → s.turn = some (.lane c k p) → s.focus c k = some f →
    u = f.upd (fun t => { t with curPath := p }) → pathLive u = true → u.t.cur.yielded = false → laneAligned u.t.cur.pc = true →
    fetchCode u.t.tag true u.t.cur.pc 12 u = .ok (.ok bs, v) →
      (∀ i z, decodeLane u.t.nregs (wordOf 96 bs) = .ok i → laneWaits v i = false → useRegs i v = .ok ((), z) →
        stepRuns s i (z.readied.upd Team.countIssue) z) ∧
      (∀ e, decodeLane u.t.nregs (wordOf 96 bs) = .error e → laneWaits v (.illegalInstructionIssue (decide (e = .reserved))) = false →
        stepRuns s (.illegalInstructionIssue (decide (e = .reserved))) (v.readied.upd Team.countIssue) v)

/-- A step of a unit or of the outside: the first step that is due is performed (§0.6). State.agenda and its order are the model's own, in
assumption logs 1 and 13: the spec does not say which of several due steps comes first. -/
def Obligations.StepRunsAgenda : Prop :=
  ∀ (s : State) (i : Instr) (is : List Instr), s.agenda = i :: is → stepRuns s i { s with agenda := is } { s with agenda := is }

/-- On the trunk, with memory mapped flat and no older copy held, a fetch takes the bytes memory holds (§4.1, §4.8). That it takes memory's
bytes whatever its own core's write-combining buffer holds is the model's choice, in assumption log 11. -/
def Obligations.FetchTakesMemory : Prop :=
  ∀ (s : State) (a : Acc) (lane : Bool) (pc : DWord) (n : Nat), Flat s a.ctx → a.pennant = 0 → s.caches.icache = [] →
    pc.toNat + 16 ≤ 0x1000000000 → (n = 4 ∧ scalarAligned pc = true ∨ n = 12 ∧ laneAligned pc = true) →
    ∃ v, fetchCode a lane pc n s = .ok (.ok (memBytes s.mem pc.toNat n), v) ∧ v.mem = s.mem ∧ v.t = s.t

/-! ## Invariants -/

/-- Every step keeps both memories in their canonical form: addresses rise strictly, and no byte is listed that an unlisted address reads
as. The form is the model's own representation of memory (Table 15.1), in assumption log 7. -/
def Obligations.StepKeepsMemoryForm : Prop := ∀ s t : State, s.MemWf → step s = .next t → t.MemWf

/-- Every step keeps the governor's cap within 1 to 256, and the operating point from 1 up to the point the governor lets a request reach,
the model's Gov.cap (assumption log 47), itself at most 7 (§11.7, §15.6). -/
def Obligations.StepKeepsGovernorLimits : Prop := ∀ s t : State, s.GovOk → step s = .next t → t.GovOk

/-- Reset has both invariants, and what the spec gives reset: no team, queues Disabled, GCAP 256, GFLOOR 64, TLIMIT 95, PLIMIT 380,
CLASSTAB mapping k to k, the ordered-section limit 0xc35, the WARP tolerance infinite, the rasteriser threshold 0x400 (§11.7, §12.1, §13.3,
§13.6, §10.8, §15.6). That every pennant is Free and that no team is resident are the model's choice, in assumption log 8. -/
def Obligations.ResetState : Prop :=
  State.reset.MemWf ∧ State.reset.GovOk ∧ State.reset.teams = [] ∧ (∀ q ∈ State.reset.queues, q.state = 0 ∧ q.en = false) ∧
    State.reset.gov.gcap = 256 ∧ State.reset.win.gfloor = 64 ∧ State.reset.win.tlimit = 95 ∧ State.reset.win.plimit = 380 ∧
    (∀ k, 1 ≤ k → k ≤ 7 → classPoint State.reset k = k) ∧
    (∀ x ∈ State.reset.ctxs, x.oslimit = 0xc35 ∧ x.warptol = 0x7f800000 ∧ x.rastthr = 0x400 ∧ ∀ n ∈ x.pens, n.st = .free)

/-! ## Scalar arithmetic and logic -/

/-- ADD, SUB, MUL, MULH, MIN, MAX and SLT write their result to xd for every operand, and nothing else but the PC changes (§4.2, §16.3,
§18.8). -/
def Obligations.ScalarArithmetic : Prop :=
  ∀ (s : State) (d a b : BitVec 5) (imm : BitVec 12),
    let x := s.t.xr a
    let y := s.t.xr b
    WritesX (.add d a b) s d (x + y) ∧ WritesX (.sub d a b) s d (x - y) ∧ WritesX (.mul d a b) s d (x * y) ∧
    WritesX (.addImm d a imm) s d (x + imm.signExtend 64) ∧
    WritesX (.mulh true d a b) s d (BitVec.ofNat 64 (x.toNat * y.toNat / 2 ^ 64)) ∧
    WritesX (.mulh false d a b) s d (BitVec.ofInt 64 (x.toInt * y.toInt / 2 ^ 64)) ∧
    WritesX (.min true d a b) s d (if x.toNat ≤ y.toNat then x else y) ∧
    WritesX (.min false d a b) s d (if x.toInt ≤ y.toInt then x else y) ∧
    WritesX (.max true d a b) s d (if x.toNat < y.toNat then y else x) ∧
    WritesX (.max false d a b) s d (if x.toInt < y.toInt then y else x) ∧
    WritesX (.slt true d a b) s d (if x.toNat < y.toNat then 1 else 0) ∧
    WritesX (.slt false d a b) s d (if x.toInt < y.toInt then 1 else 0) ∧
    WritesX (.sltImm d a imm) s d (if x.toInt < imm.toInt then 1 else 0)

/-- The bitwise operations, MOV, SEL (whose condition is the old xd), the constants LI and LIH, CMP and TIME (§16.3, §16.21, §18.6, §18.8,
§19.12). -/
def Obligations.ScalarLogic : Prop :=
  ∀ (s : State) (d a b : BitVec 5) (imm : BitVec 12) (k : BitVec 20),
    let x := s.t.xr a
    let y := s.t.xr b
    WritesX (.and d a b) s d (x &&& y) ∧ WritesX (.or d a b) s d (x ||| y) ∧ WritesX (.xor d a b) s d (x ^^^ y) ∧
    WritesX (.andn d a b) s d (x &&& ~~~ y) ∧
    WritesX (.andImm d a imm) s d (x &&& imm.signExtend 64) ∧ WritesX (.orImm d a imm) s d (x ||| imm.signExtend 64) ∧
    WritesX (.xorImm d a imm) s d (x ^^^ imm.signExtend 64) ∧
    WritesX (.mov d a) s d x ∧ WritesX (.sel d a b) s d (if s.t.xr d ≠ 0 then x else y) ∧
    WritesX (.li d k) s d (k.signExtend 64) ∧ WritesX (.lih d k) s d (BitVec.ofNat 64 ((s.t.xr d).toNat * 2 ^ 20 + k.toNat)) ∧
    WritesX (.cmp 0 d a b) s d (if x = y then 1 else 0) ∧ WritesX (.cmp 1 d a b) s d (if x = y then 0 else 1) ∧
    WritesX (.cmp 2 d a b) s d (if x.toInt < y.toInt then 1 else 0) ∧ WritesX (.cmp 3 d a b) s d (if x.toInt < y.toInt then 0 else 1) ∧
    WritesX (.cmp 4 d a b) s d (if x.toNat < y.toNat then 1 else 0) ∧ WritesX (.cmp 5 d a b) s d (if x.toNat < y.toNat then 0 else 1) ∧
    WritesX (.time d) s d (BitVec.ofNat 64 s.time)

/-- DIV and REM complete on every operand: the quotient truncates toward zero and the remainder takes the dividend's sign; a zero divisor
gives all ones and the dividend; −2⁶³ by −1 gives the dividend and 0 (§17.2). -/
def Obligations.ScalarDivide : Prop :=
  ∀ (s : State) (d a b : BitVec 5),
    let x := s.t.xr a
    let y := s.t.xr b
    (y = 0 → ∀ u, WritesX (.div u d a b) s d (BitVec.allOnes 64) ∧ WritesX (.rem u d a b) s d x) ∧
    (y ≠ 0 → WritesX (.div true d a b) s d (BitVec.ofNat 64 (x.toNat / y.toNat)) ∧
      WritesX (.rem true d a b) s d (BitVec.ofNat 64 (x.toNat % y.toNat))) ∧
    (x.toInt = -2 ^ 63 → y.toInt = -1 → WritesX (.div false d a b) s d x ∧ WritesX (.rem false d a b) s d 0) ∧
    (y ≠ 0 → ¬ (x.toInt = -2 ^ 63 ∧ y.toInt = -1) → ∃ q r : DWord, WritesX (.div false d a b) s d q ∧ WritesX (.rem false d a b) s d r ∧
      q.toInt = x.toInt.tdiv y.toInt ∧ r.toInt = x.toInt - y.toInt * x.toInt.tdiv y.toInt)

/-- A shift count is the unsigned value of the count operand: all of xs2 or IMM12[5:0] in the scalar form, the 32-bit SRC2 register or
IMM32 in the lane form. SHL gives (a · 2ᶜ) mod 2ⁿ, SHR Floor(a / 2ᶜ), SRA Floor(s / 2ᶜ) mod 2ⁿ with s the signed value (R379). -/
def Obligations.Shifts : Prop :=
  (∀ (s : State) (d a b : BitVec 5) (c : BitVec 6),
    let x := s.t.xr a
    let n := (s.t.xr b).toNat
    (WritesX (.shl d a b) s d (BitVec.ofNat 64 (x.toNat * 2 ^ n)) ∧ WritesX (.shr d a b) s d (BitVec.ofNat 64 (x.toNat / 2 ^ n)) ∧
      WritesX (.sra d a b) s d (BitVec.ofInt 64 (x.toInt / 2 ^ n))) ∧
    (WritesX (.shlImm d a c) s d (BitVec.ofNat 64 (x.toNat * 2 ^ c.toNat)) ∧
      WritesX (.shrImm d a c) s d (BitVec.ofNat 64 (x.toNat / 2 ^ c.toNat)) ∧
      WritesX (.sraImm d a c) s d (BitVec.ofInt 64 (x.toInt / 2 ^ c.toNat)))) ∧
  (∀ (s : State) (w : LWord), (w.ty = 2 ∨ w.ty = 3) → w.dst.toNat + w.n ≤ 128 →
    let a (lane : Nat) : Nat := s.t.a w lane w.n
    let c (lane : Nat) : Nat := if w.i then w.hi.toNat else s.t.src lane 1 w.x2 w.src2
    let neg (lane : Nat) : Int := (BitVec.ofNat (32 * w.n) (a lane)).toInt
    WritesV (.shlLane w) s w w.n (fun lane => a lane * 2 ^ c lane) ∧ WritesV (.shrLane w) s w w.n (fun lane => a lane / 2 ^ c lane) ∧
      WritesV (.sraLane w) s w w.n (fun lane => (BitVec.ofInt (32 * w.n) (neg lane / 2 ^ c lane)).toNat))

/-- CLZ counts the leading zeros and POPC the ones of xs1, BREV reverses its bits, SEXT and ZEXT extend its low 8, 16 or 32 bits; BFE and
BFI take pos = ctl[5:0] and len = min(ctl[14:8], 64) from xs2, bits past the top reading as zero or the sign, and not being written
(§16.11, §16.12, §16.16, §16.20, §19.14, §18.8). -/
def Obligations.ScalarBits : Prop :=
  (∀ (s : State) (d a : BitVec 5),
    let x := s.t.xr a
    (∃ n ≤ 64, WritesX (.clz d a) s d (BitVec.ofNat 64 n) ∧ (∀ i < 64, 64 - n ≤ i → x.getLsbD i = false) ∧
      (n < 64 → x.getLsbD (63 - n) = true)) ∧
    WritesX (.popc d a) s d (BitVec.ofNat 64 ((List.range 64).countP (fun i => x.getLsbD i))) ∧
    (∃ r : DWord, WritesX (.brev d a) s d r ∧ ∀ i < 64, r.getLsbD i = x.getLsbD (63 - i)) ∧
    (∀ w : BitVec 3, w.toNat ≤ 2 → ∃ r q : DWord, WritesX (.sext w d a) s d r ∧ WritesX (.zext w d a) s d q ∧
      ∀ i < 64, r.getLsbD i = x.getLsbD (min i (8 * 2 ^ w.toNat - 1)) ∧ q.getLsbD i = (decide (i < 8 * 2 ^ w.toNat) && x.getLsbD i))) ∧
  (∀ (s : State) (d a b : BitVec 5),
    let x := s.t.xr a
    let pos := ((s.t.xr b).extractLsb' 0 6).toNat
    let len := min ((s.t.xr b).extractLsb' 8 7).toNat 64
    (∃ r : DWord, WritesX (.bfe false d a b) s d r ∧ ∀ i < 64, r.getLsbD i = (decide (i < len) && x.getLsbD (pos + i))) ∧
    (∃ r : DWord, WritesX (.bfe true d a b) s d r ∧ ∀ i < 64, r.getLsbD i = (decide (len ≠ 0) && x.getLsbD (min (pos + min i (len - 1)) 63))) ∧
    (∃ r : DWord, WritesX (.bfi d a b) s d r ∧
      ∀ i < 64, r.getLsbD i = if pos ≤ i ∧ i < pos + len then x.getLsbD (i - pos) else (s.t.xr d).getLsbD i))

/-! ## Scalar control -/

/-- J, JAL, JR and B go to their targets; JAL and JR write PC + 4 to xd, JR reading xs1 first; B tests xs by its condition; NOP passes;
HALT makes the team Retiring (§16.8, §17.13, §18.2, §18.10); that a block a trap had paused then goes on as after ERET is the model's choice,
in assumption log 26. -/
def Obligations.ScalarJumps : Prop :=
  ∀ (s : State) (d a : BitVec 5) (imm : BitVec 12) (k : BitVec 20) (disp : BitVec 13),
    let pc := s.t.spc
    let x := s.t.xr a
    exec (.j k) s = .next { s with t := { s.t with spc := pc + 4 * k.signExtend 64 } } ∧
    Ends (.jal d k) s (fun t => (∀ q, t.t.xr q = if q = d ∧ d ≠ 0 then pc + 4 else s.t.xr q) ∧
      t = { s with t := { s.t with x := t.t.x, spc := pc + 4 * k.signExtend 64 } }) ∧
    Ends (.jr d a imm) s (fun t => (∀ q, t.t.xr q = if q = d ∧ d ≠ 0 then pc + 4 else s.t.xr q) ∧
      t = { s with t := { s.t with x := t.t.x, spc := x + imm.signExtend 64 } }) ∧
    (∀ (cond : BitVec 4) (taken : Prop) [Decidable taken],
      (cond = 0 ∧ taken ∨ cond = 1 ∧ (taken ↔ x = 0) ∨ cond = 2 ∧ (taken ↔ x ≠ 0) ∨ cond = 3 ∧ (taken ↔ x.toInt < 0) ∨
        cond = 4 ∧ (taken ↔ 0 ≤ x.toInt) ∨ cond = 5 ∧ (taken ↔ 0 < x.toInt) ∨ cond = 6 ∧ (taken ↔ x.toInt ≤ 0)) →
      exec (.b cond a disp) s = .next { s with t := { s.t with spc := if taken then pc + 4 * disp.signExtend 64 else pc + 4 } }) ∧
    PassesS .nop s ∧
    (s.t.paused = false → exec .halt s = .next { s with t := { s.t with life := .retiring } }) ∧
    (s.t.paused = true →
      let t : Team := { s.t with
        life := .retiring, paused := false
        paths := if s.t.fLane then
            s.t.paths.map (fun p => if p.idx = s.t.trapPath then { p with pc := laneNext s.t.fEpc } else p)
          else s.t.paths }
      exec .halt s = .next { s with t := { t with arms := t.settle.arms } })

/-- GRES sets, resolves or binds a guard slot, releasing or discarding the commands held under it; GWAIT passes once its guard is
resolved, waits on a bound one and raises the guard-wait fault on a pending, unbound one (§3.2, §17.11, §17.12). The ACCESS 0 of a
guard-wait record is the model's choice, in assumption log 23. -/
def Obligations.GuardSlots : Prop :=
  ∀ (s : State) (g p : BitVec 4) (a : BitVec 5),
    let sets (i : Instr) (k : Guard) (f : List EngCmd → List EngCmd) : Prop := Ends i s (fun t =>
      (∀ n, t.t.guard n = if n = g.toNat then k else s.t.guard n) ∧
      t = { s with t := { s.t with guards := t.t.guards, tileQ := f s.t.tileQ, copyQ := f s.t.copyQ, spc := s.t.spc + 4 } })
    let live := s.t.blockNo ≠ 0 ∧ s.t.blockLive s.t.blockNo = true
    let some_ := s.t.bunting &&& s.t.pm p.toNat ≠ 0
    let all_ := s.t.bunting &&& ~~~ s.t.pm p.toNat = 0
    let frees (v : Bool) (q : List EngCmd) : List EngCmd :=
      if v then q.map (fun c => if c.guard = some g.toNat then { c with guard := none } else c)
      else q.filter (fun c => c.guard ≠ some g.toNat)
    sets (.gresP g) (.pending none) id ∧
    sets (.gres g a) (.resolved (decide (s.t.xr a ≠ 0))) (frees (decide (s.t.xr a ≠ 0))) ∧
    (live → sets (.gresAny g p) (.pending (some { block := s.t.blockNo, pred := p, all := false })) id ∧
      sets (.gresAll g p) (.pending (some { block := s.t.blockNo, pred := p, all := true })) id) ∧
    (¬ live → sets (.gresAny g p) (.resolved (decide some_)) (frees (decide some_)) ∧
      sets (.gresAll g p) (.resolved (decide all_)) (frees (decide all_))) ∧
    (∀ v, s.t.guard g.toNat = .resolved v → PassesS (.gwait g) s) ∧
    (∀ b, s.t.guard g.toNat = .pending (some b) → Waits (.gwait g) s) ∧
    (s.t.guard g.toNat = .pending none → s.t.ctx < s.ctxs.length → StopsTeam (.gwait g) s 0x04 0 false s.t.spc 0)

/-- BCLOSE writes the open batch's number and opens the next, never 0; BWAIT passes once every batch up to n is done, closing the open
batch first when n lies above the last closed number, waits otherwise, and faults on a command held under an unbound guard (§7.8, §16.10,
§16.18). The ACCESS 0 of a
guard-wait record is the model's choice, in assumption log 23. -/
def Obligations.Batches : Prop :=
  ∀ (s : State) (d a : BitVec 5),
    let next := if s.t.batch = 0xffffffff then 1 else s.t.batch + 1
    let last := batchBefore s.t.batch
    let n : BitVec 32 := (s.t.xr a).setWidth 32
    let above := n ≠ 0 ∧ 2 ^ 31 ≤ (last - n).toNat
    let counts (c : EngCmd) : Prop := ∃ b, c.batch = some b ∧
      (above ∨ ((if n = 0 then last else n) - BitVec.ofNat 32 b).toNat < 2 ^ 31)
    let cmds := s.t.tileQ ++ s.t.copyQ
    Ends (.bclose d) s (fun t => (∀ q, t.t.xr q = if q = d ∧ d ≠ 0 then s.t.batch.zeroExtend 64 else s.t.xr q) ∧
      t = { s with t := { s.t with x := t.t.x, batch := next, spc := s.t.spc + 4 } }) ∧
    ((∀ c ∈ cmds, ¬ counts c) → exec (.bwait a) s =
      .next { s with t := { s.t with batch := if above then next else s.t.batch, spc := s.t.spc + 4 } }) ∧
    ((∃ c ∈ cmds, counts c) → (∀ c ∈ cmds, counts c → s.t.heldUnbound c = false) → Waits (.bwait a) s) ∧
    ((∃ c ∈ cmds, counts c ∧ s.t.heldUnbound c = true) → s.t.ctx < s.ctxs.length → StopsTeam (.bwait a) s 0x04 0 false s.t.spc 0)

/-- TCFG waits for the lane blocks and the tile queue; then a legal operand that fits reshapes the tiles, all of them +0, with status 0;
one that does not fit gives status 1 and an illegal one status 2, and nothing changes (§7.7, §19.2). The model's choice: one that is both has
status 2 (assumption log 89), and a guard-wait record has ACCESS 0 (log 23). -/
def Obligations.TileShapes : Prop :=
  ∀ (s : State) (d a : BitVec 5),
    let v := s.t.xr a
    let rows (k : Nat) : Nat := 8 * (v.extractLsb' (16 * k + 9) 7).toNat
    let cols (k : Nat) : Nat := 32 * (v.extractLsb' (16 * k + 4) 5).toNat
    let legal := ∀ k < 4, (v.extractLsb' (16 * k) 4) = 0 ∧ rows k ≤ 512 ∧ cols k ≤ 512 ∧ (rows k = 0 ↔ cols k = 0)
    let total := rows 0 * cols 0 + rows 1 * cols 1 + rows 2 * cols 2 + rows 3 * cols 3
    let free := 16384 - elementsElsewhere s
    (¬ s.t.idleLanes → Waits (.tcfg d a) s) ∧
    (s.t.idleLanes → s.t.tileQ ≠ [] → (∀ c ∈ s.t.tileQ, s.t.heldUnbound c = false) → Waits (.tcfg d a) s) ∧
    (s.t.idleLanes → (∃ c ∈ s.t.tileQ, s.t.heldUnbound c = true) → s.t.ctx < s.ctxs.length →
      StopsTeam (.tcfg d a) s 0x04 0 false s.t.spc 0) ∧
    (s.t.idleLanes → s.t.tileQ = [] → ¬ legal → WritesX (.tcfg d a) s d 2) ∧
    (s.t.idleLanes → s.t.tileQ = [] → legal → free < total → WritesX (.tcfg d a) s d 1) ∧
    (s.t.idleLanes → s.t.tileQ = [] → legal → total ≤ free → Ends (.tcfg d a) s (fun t =>
      (∀ q, t.t.xr q = if q = d ∧ d ≠ 0 then 0 else s.t.xr q) ∧ (∀ k < 4, sget (0, 0) t.t.shapes k = (rows k, cols k)) ∧
      (∀ k, sget 0 t.t.acc k = 0) ∧
      t = { s with t := { s.t with x := t.t.x, shapes := t.t.shapes, acc := t.t.acc, spc := s.t.spc + 4 } }))

/-- A scalar SRRD gives each system register its own value, read-only ones included; SRWR changes sr.errtrap, sr.warptol and sr.rastthr by
their fields' access codes and leaves every other register as it was; of two writes of one of a context's registers at the same tick the
one from the higher core, then slot, stands (§4.6, §18.22). -/
def Obligations.ScalarSystemRegisters : Prop :=
  ∀ (s : State) (d a : BitVec 5),
    let x := ctxOf s s.t.ctx
    let v := s.t.xr a
    let me := (s.time, s.t.core, s.t.slot)
    let beaten (last : Option (Nat × Nat × Nat)) : Prop :=
      ∃ core slot, last = some (s.time, core, slot) ∧ (s.t.core < core ∨ (core = s.t.core ∧ s.t.slot < slot))
    (WritesX (.srrd 0x000 d) s d (BitVec.ofNat 64 (0x98400b190000 + s.win.memCode.toNat * 256 + (if s.win.peer then 1 else 0)))) ∧
    (∃ r : DWord, WritesX (.srrd 0x001 d) s d r ∧ (r.extractLsb' 44 4).toNat = s.t.ctx % 16 ∧ (r.extractLsb' 36 8).toNat = s.t.core % 256 ∧
      (r.extractLsb' 28 8).toNat = s.t.clorg % 256 ∧ (r.extractLsb' 25 3).toNat = s.t.clrows % 8 ∧
      (r.extractLsb' 22 3).toNat = s.t.clcols % 8 ∧ (r.extractLsb' 18 4).toNat = s.t.clidx % 16 ∧
      (r.extractLsb' 16 2).toNat = s.t.slot % 4 ∧ r.extractLsb' 11 5 = s.t.gmax ∧ (r.extractLsb' 1 10).toNat = s.t.win % 1024) ∧
    WritesX (.srrd 0x002 d) s d (s.t.bsum.zeroExtend 64) ∧
    (∃ r : DWord, WritesX (.srrd 0x003 d) s d r ∧ ∀ k < 16, (r.extractLsb' (2 * k) 2).toNat = (match s.t.guard k with
      | .resolved true => 0
      | .resolved false => 1
      | .pending _ => 2) ∧ (r.getLsbD (32 + k) = true ↔ ∃ b, s.t.guard k = .pending (some b))) ∧
    WritesX (.srrd 0x004 d) s d (BitVec.ofNat 64 (s.t.pennant % 8)) ∧ WritesX (.srrd 0x005 d) s d s.t.cover ∧
    (∃ r : DWord, WritesX (.srrd 0x006 d) s d r ∧ (r.extractLsb' 48 16).toNat = x.hwm % 65536 ∧
      (r.extractLsb' 12 36).toNat = x.pbase % 2 ^ 36 ∧ (r.extractLsb' 3 9).toNat = x.wstride % 512) ∧
    WritesX (.srrd 0x007 d) s d (s.t.fCause ++ s.t.fEpc.extractLsb' 2 55 ++ BitVec.ofBool s.t.inh ++ BitVec.ofBool s.t.fLane) ∧
    WritesX (.srrd 0x008 d) s d (BitVec.ofNat 64 ((if s.t.sticky then 2 else 0) + (if s.t.trapEn then 1 else 0))) ∧
    WritesX (.srrd 0x009 d) s d (x.warptol.zeroExtend 64) ∧ WritesX (.srrd 0x00a d) s d (x.rastthr.zeroExtend 64) ∧
    WritesX (.srrd 0x00b d) s d (x.oslimit.zeroExtend 64) ∧
    exec (.srwr 0x008 a) s = .next { s with t := { s.t with
      sticky := s.t.sticky && !v.getLsbD 1, trapEn := v.getLsbD 0, spc := s.t.spc + 4 } } ∧
    (¬ beaten x.warpBy → exec (.srwr 0x009 a) s = .next { s with
      ctxs := updNth s.ctxs s.t.ctx (fun x => { x with warptol := v.setWidth 32, warpBy := some me }), t := { s.t with spc := s.t.spc + 4 } }) ∧
    (beaten x.warpBy → PassesS (.srwr 0x009 a) s) ∧
    (¬ beaten x.rastBy → exec (.srwr 0x00a a) s = .next { s with
      ctxs := updNth s.ctxs s.t.ctx (fun x => { x with rastthr := v.setWidth 32, rastBy := some me }), t := { s.t with spc := s.t.spc + 4 } }) ∧
    (beaten x.rastBy → PassesS (.srwr 0x00a a) s) ∧
    (∀ n : BitVec 10, n.toNat ≤ 0x00b → n ≠ 0x008 → n ≠ 0x009 → n ≠ 0x00a → PassesS (.srwr n a) s)

/-- sr.laneid gives each lane its own index: bits [31:10] zero, the group in bits [9:5], the lane in group in bits [4:0] with its quarter
in bits [4:3]; the lane stream reads it with SRRD, and it is read-only (R26). -/
def Obligations.LaneId : Prop :=
  ∀ (s : State) (w : LWord), w.srNum = 0x100 → WritesV (.srrdLane w) s w 1 id ∧ PassesL (.srwrLane w) s ∧
    ∀ lane ∈ s.t.parts w, ∀ v : Word, v = BitVec.ofNat 32 lane → (v.extractLsb' 10 22).toNat = 0 ∧
      (v.extractLsb' 5 5).toNat = lane / 32 ∧ (v.extractLsb' 0 5).toNat = lane % 32 ∧
      (v.extractLsb' 3 2).toNat = lane % 32 / 8 ∧ (v.extractLsb' 0 10).toNat = lane

/-- The lane stream's other system-register forms: SRRD of sr.prio, SRWR of sr.prio by the lowest participant for the whole path, an SRWR
of sr.laneid without effect, and TIME, one sample for every lane (§18.22, §19.4). -/
def Obligations.LaneSystemRegisters : Prop :=
  ∀ (s : State) (w : LWord),
    (w.srNum = 0x101 → WritesV (.srrdLane w) s w 1 (fun _ => s.t.cur.prio.toNat)) ∧
    (w.dst.toNat < 127 → WritesV (.timeLane w) s w 2 (fun _ => s.time % 2 ^ 64)) ∧
    (s.t.parts w = [] → PassesL (.srwrLane w) s) ∧
    (∀ lane rest, s.t.parts w = lane :: rest → w.srNum = 0x101 → Ends (.srwrLane w) s (fun t =>
      t.t.paths = s.t.paths.map (fun p => if p.idx = s.t.curPath then
        { p with prio := BitVec.ofNat 3 (s.t.src lane 1 w.x2 w.src2), pc := laneNext p.pc } else p) ∧
      t = { s with t := { s.t with paths := t.t.paths, arms := t.t.arms } }))

/-- TRAP and a word that is no instruction take their traps, or stop the team where TVEC is 0, in a handler, or after HALT; EPC keeps a
canonical, aligned address as it is. ERET with INH = 1 clears INH and resumes both streams, changing no other register: after a scalar
trap the scalar stream goes on at EPC + 4, after a lane trap where it stood and the path at the successor of EPC; with INH = 0 it is an
illegal instruction; the arms settle at the paths' places. An error trap that is pending is taken at the scalar stream's next boundary, with
cause 0x09. With BPSTOP set a TRAP makes a debug stop with reason 0, and so does a lane access that touches a watched range, with the
watchpoint's number 1 to 4 (§4.7, §14.4, §15.3, §15.4, §17.5, §19.8, §5.1). The model's choice: a trap that acts as a stopping fault is recorded
with ACCESS 0 (assumption log 23), and an error trap has EPC four below the next instruction (log 16). -/
def Obligations.Traps : Prop :=
  ((∀ s : State, (ctxOf s s.t.ctx).trctl.getLsbD 11 = false → TrapsOrStops .trap s 0x03 false s.t.spc ∧
    (s.t.wait = .none → TrapsOrStops .trapLane s 0x03 true s.t.cur.pc)) ∧
  (∀ (s : State) (r : Bool), (∀ c k p, s.turn ≠ some (.lane c k p)) →
    TrapsOrStops (.illegalInstructionIssue r) s (if r then 0x02 else 0x01) false s.t.spc) ∧
  (∀ (s : State) (r : Bool) (c k p : Nat), s.turn = some (.lane c k p) → s.t.wait = .none →
    TrapsOrStops (.illegalInstructionIssue r) s (if r then 0x02 else 0x01) true s.t.cur.pc) ∧
  (∀ pc : DWord, canonical pc = true → pc.toNat % 4 = 0 → epcOf pc = pc)) ∧
  ((∀ s : State, s.t.inh = false → TrapsOrStops .eret s 0x01 false s.t.spc) ∧
  (∀ s : State, s.t.inh = true →
    let t : Team := { s.t with
      inh := false, paused := false, spc := s.t.resume
      paths := if s.t.fLane then
          s.t.paths.map (fun p => if p.idx = s.t.trapPath then { p with pc := laneNext s.t.fEpc } else p)
        else s.t.paths }
    exec .eret s = .next { s with t := { t with arms := t.settle.arms } }) ∧
  (∀ (i : Instr) (s t : State) (cause : Nat) (pc : DWord), TakesTrap i s cause false pc → exec i s = .next t → t.t.resume = t.t.fEpc + 4)) ∧
  (∀ (s u : State) (c k : Nat), s.agenda = [] → s.turn = some (.scalar c k) → s.focus c k = some u → scalarLive u = true →
    u.t.errPend = true → u.t.sPark = none → u.t.wait = .none →
    let refused := (ctxOf u u.t.ctx).tvec = 0 ∨ u.t.inh = true
    (¬ refused → step s = finishStep (State.tick false) (.next { u with ctxs := u.leaveForks.ctxs, t := { u.t with
      errPend := false, fCause := 0x09, fEpc := epcOf (u.t.spc - 4), inh := true, fLane := false, paused := true
      resume := epcOf (u.t.spc - 4) + 4, spc := (ctxOf u u.t.ctx).tvec } })) ∧
    (refused → ∃ v, step s = finishStep (State.tick false) (.next v) ∧ v.t.life = .stopped ∧ v.t.errPend = false ∧ v.t.fCause = 0x09 ∧
      v.t.fEpc = epcOf (u.t.spc - 4) ∧ v.t.spc = u.t.spc ∧ v.mem = u.mem)) ∧
  (∀ s : State, Rings s → (ctxOf s s.t.ctx).trctl.getLsbD 11 = true → DebugStops .trap s 0 false ∧ DebugStops .trapLane s 0 true) ∧
  (∀ (s : State) (w : LWord) (i : Instr) (b n : Nat), Rings s → s.t.cur.hold ≠ .debug true →
    (i = .ldLane w ∧ b = 8 ∧ n = typeBytes w.ty.toNat ∧ w.fn = 0 ∨ i = .stLane w ∧ b = 9 ∧ n = typeBytes w.ty.toNat ∧ w.fn = 0 ∧ w.ord = 0 ∨
      i = .atom w ∧ b = 10 ∧ n = 4 * w.n ∧ w.ord = 0 ∧ s.t.pennant = 0 ∧ ∀ lane ∈ s.t.parts w, (s.t.ea w lane).toNat % n = 0) →
    let hits (r lane : Nat) : Prop := let p := (ctxOf s s.t.ctx).watch.getD (r - 1) Watch.reset
      p.ctl.getLsbD b = true ∧ p.addr.toNat < (s.t.ea w lane).toNat + n ∧ (s.t.ea w lane).toNat < p.addr.toNat + 2 ^ (p.ctl.extractLsb' 0 5).toNat
    (∃ r lane, 1 ≤ r ∧ r ≤ 4 ∧ lane ∈ s.t.parts w ∧ hits r lane) →
      ∃ r lane, 1 ≤ r ∧ r ≤ 4 ∧ lane ∈ s.t.parts w ∧ hits r lane ∧ DebugStops i s r true)

/-- LRUN starts a block with a snapshot of x1 to x31, waits while three wait and is illegal in a handler; LSYNC passes once no block and
no lane-form op of one is left; the sequencer begins the oldest waiting block with one path over the Bunting at priority 4, and ends it
when no lane is left on a path (§3.1, §18.7). The model's choice: the block's end empties the whole core's buffer and the whole write port
(assumption log 87), and the stops of LRUN and LSYNC in a handler have ACCESS 0 (log 23). -/
def Obligations.LaneBlocks : Prop :=
  (∀ (s : State) (imm : BitVec 20), s.t.inh = false → s.t.waiting.length < 3 → exec (.lrun imm) s = .next { s with t := { s.t with
    blockNo := s.t.blockNo + 1, spc := s.t.spc + 4
    waiting := s.t.waiting ++ [{ no := s.t.blockNo + 1, snap := s.t.x
                                 entry := BitVec.ofNat 64 (s.t.spc.toNat / 128 * 128) + 128 * imm.signExtend 64 }] } }) ∧
  (∀ (s : State) (imm : BitVec 20), s.t.inh = false → 3 ≤ s.t.waiting.length → Waits (.lrun imm) s) ∧
  (∀ (s : State) (imm : BitVec 20), s.t.inh = true → s.t.ctx < s.ctxs.length →
    StopsTeam (.lrun imm) s 0x01 0 false s.t.spc 0 ∧ StopsTeam .lsync s 0x01 0 false s.t.spc 0) ∧
  (∀ s : State, s.t.inh = false →
    let over_ := s.t.running = none ∧ s.t.waiting = [] ∧ ∀ c ∈ s.t.tileQ, c.batch ≠ none
    (over_ → PassesS .lsync s) ∧ (¬ over_ → Waits .lsync s)) ∧
  (∀ (s u : State) (c k : Nat) (b : Block) (bs : List Block), s.focus c k = some u → u.t.moves = true → u.t.paused = false →
    u.t.running = none → u.t.waiting = b :: bs → Ends (.laneBlockBegin c k) s (fun t =>
      t.t.running = some b ∧ t.t.waiting = bs ∧ t.t.splits = [] ∧ (∃ p, t.t.paths = [p] ∧ p.idx = 0 ∧ p.pc = b.entry ∧
        p.mask = u.t.bunting ∧ p.prio = 4 ∧ p.split = none ∧ p.rstack = [] ∧ p.hold = .none) ∧
      t = { u with t := { u.t with running := some b, waiting := bs, splits := [], curPath := 0, paths := t.t.paths, arms := t.t.arms } })) ∧
  (∀ (s u : State) (c k : Nat), s.focus c k = some u → u.t.moves = true → u.t.paused = false → u.t.blockOver = true →
    Ends (.laneBlockEnd c k) s (fun t => t.t.running = none ∧ t.t.paths = [] ∧ t.t.splits = [] ∧ t.t.arms = [] ∧ t.t.barriers = [] ∧
      t.t.port = [] ∧ t.t.waiting = u.t.waiting ∧ t.t.x = u.t.x ∧ t.t.v = u.t.v ∧ t.t.p = u.t.p ∧ t.t.spc = u.t.spc ∧
      (∀ l ∈ t.caches.wc, l.core ≠ c) ∧ (∀ j < 16, ∀ g b, u.t.running = some b → u.t.guard j = .pending (some g) → g.block = b.no →
        t.t.guard j = .resolved (u.t.bindValue g.pred.toNat g.all))))

/-! ## Fences and code flushes -/

/-- What a release leaves (R170, R190, R202): at any scope but .LANE no line of the core is buffered, nor what other cores buffer of its
blocks; at .CORE and wider none of its quanta pends, nor a trunk line buffered over one; where no damaged block waits other buffered lines
stay, and memory changes only at bytes that were buffered or pending there. What a lane FENCE drains at any ORD and scope: the lines that hold
stores of its team's slot, with what other cores buffer of their blocks, and nothing else (§8.3, §9.3, §9.5). That these are more than the stores
of the lanes concerned, which R170 speaks of, is the model's choice, in assumption log 87. -/
def Obligations.ReleaseDrains : Prop :=
  ∀ (s : State) (sc : Nat),
    let t := s.release sc
    let shared (l : WcLine) : Prop := ∃ k ∈ s.caches.wc, k.core = s.t.core ∧ k.line = l.line ∧ k.pennant = l.pennant ∧
      (l.pennant = 0 ∨ k.ctx = l.ctx)
    let asked (l : WcLine) : Prop := 2 ≤ sc ∧ l.pennant = 0 ∧ ∃ q ∈ s.caches.quanta, q.core = s.t.core ∧
      128 * l.line < q.pa + q.size ∧ q.pa < 128 * l.line + 128
    (sc = 0 → t = s) ∧
    (sc ≠ 0 → ∀ l ∈ t.caches.wc, l ∈ s.caches.wc ∧ l.core ≠ s.t.core ∧ ¬ shared l) ∧
    (sc ≠ 0 → s.caches.spoilt = [] → ∀ l, l ∈ t.caches.wc ↔ l ∈ s.caches.wc ∧ l.core ≠ s.t.core ∧ ¬ shared l ∧ ¬ asked l) ∧
    (2 ≤ sc → ∀ q, q ∈ t.caches.quanta ↔ q ∈ s.caches.quanta ∧ q.core ≠ s.t.core) ∧
    (∀ a, (∀ l ∈ s.caches.wc, l.pennant = 0 → shared l ∨ asked l → ∀ b ∈ l.bytes, a ≠ 128 * l.line + b.off) →
      (∀ q ∈ s.caches.quanta, q.core = s.t.core → ¬ (q.pa ≤ a ∧ a < q.pa + q.size)) → sget 0 t.mem a = sget 0 s.mem a) ∧
    (∀ l, s.caches.wc = [l] → l.core = s.t.core → l.pennant = 0 → (l.bytes.map (·.off)).Nodup → s.caches.quanta = [] → sc ≠ 0 →
      ∀ b ∈ l.bytes, sget 0 t.mem (128 * l.line + b.off) = b.val) ∧
    t.t = s.t ∧
    -- a lane FENCE
    let u := s.drainLanes
    let goes (l : WcLine) : Prop := ∃ k ∈ s.caches.wc, k.core = s.t.core ∧ (∃ b ∈ k.bytes, b.slot = s.t.slot) ∧ k.line = l.line ∧
      k.pennant = l.pennant ∧ (l.pennant = 0 ∨ k.ctx = l.ctx)
    (∀ l, l ∈ u.caches.wc ↔ l ∈ s.caches.wc ∧ ¬ goes l) ∧
    (∀ a, (∀ l ∈ s.caches.wc, l.pennant = 0 → goes l → ∀ b ∈ l.bytes, a ≠ 128 * l.line + b.off) → sget 0 u.mem a = sget 0 s.mem a) ∧
    (∀ l, s.caches.wc = [l] → goes l → l.pennant = 0 → (l.bytes.map (·.off)).Nodup →
      ∀ b ∈ l.bytes, sget 0 u.mem (128 * l.line + b.off) = b.val) ∧
    u.caches.quanta = s.caches.quanta ∧ u.t = s.t

/-- Every FENCE at .PEER waits for the team's link writes; then FENCE.ACQ passes, FENCE.REL and FENCE.AR release at their scope, and a lane FENCE
of any ORD drains the buffered lines of its team's stores; PATHFENCE drains the
core's buffer and the scratchpad write port and, at .CORE and wider, empties the scope's sampler caches. ICFLUSH releases and stalls the
scalar stream; when it completes, every core of its scope has discarded what it had fetched of the 128-byte code lines of the range, or of
the whole context when the length is 0 or above 2³², no other fetched code is discarded, and the stream goes on (§4.8, §8.8, §9.3, §9.8, §17.8,
§17.14). That they drain the whole core's buffer, and PATHFENCE the whole write port, is the model's choice, in assumption logs 87 and 80. -/
def Obligations.Fences : Prop :=
  (∀ (s : State) (w : LWord) (scope : BitVec 3),
    (¬ (scope = 6 ∧ s.t.linkOut ≠ 0) → PassesS (.fence 1 scope) s) ∧
    (w.ord = 1 → ¬ (w.scope = 6 ∧ s.t.linkOut ≠ 0) → exec (.fenceLane w) s = .next { s.drainLanes with t := s.t.endL }) ∧
    (scope = 6 → s.t.linkOut ≠ 0 → ∀ o : BitVec 2, Waits (.fence o scope) s) ∧
    (w.scope = 6 → s.t.linkOut ≠ 0 → Waits (.fenceLane w) s) ∧
    (∀ o : BitVec 2, o ≠ 1 → ¬ (scope = 6 ∧ s.t.linkOut ≠ 0) →
      exec (.fence o scope) s = .next { s.release scope.toNat with t := { s.t with spc := s.t.spc + 4 } }) ∧
    (w.ord ≠ 1 → ¬ (w.scope = 6 ∧ s.t.linkOut ≠ 0) →
      exec (.fenceLane w) s = .next { (s.release w.scope.toNat).drainLanes with t := s.t.endL }) ∧
    Ends (.pathfence w) s (fun t => t.t.port = [] ∧ (∀ o, sget 0 t.t.spad o = s.t.spadByte o) ∧
      (∀ l ∈ t.caches.wc, l.core ≠ s.t.core) ∧
      (2 ≤ w.fn.toNat → ∀ l, l ∈ t.caches.samp ↔ l ∈ s.caches.samp ∧ l.core ∉ scopeCores s.t w.fn.toNat) ∧
      s.t.moved t.t ∧ t.t = { s.t with port := t.t.port, spad := t.t.spad, paths := t.t.paths, arms := t.t.arms })) ∧
  (∀ (s : State) (scope : BitVec 3) (a b : BitVec 5),
    (s.t.wait = .none → exec (.icflush scope a b) s = .next { s.release scope.toNat with
      t := { s.t with wait := .icflush scope.toNat (s.t.xr a) (s.t.xr b) } }) ∧
    (s.t.wait ≠ .none → Waits (.icflush scope a b) s) ∧
    ∀ (u : State) (c k sc : Nat) (x y : DWord), s.focus c k = some u → u.t.wait = .icflush sc x y → u.t.alive = true →
      Ends (.icflushComplete c k) s (fun t =>
        (∀ e, e ∈ t.caches.icache ↔ e ∈ u.caches.icache ∧ ¬ (e.core ∈ scopeCores u.t sc ∧ e.ctx = u.t.ctx ∧
          (y = 0 ∨ 2 ^ 32 < y.toNat ∨ (x.toNat / 128 * 128 < e.va + 8 ∧ e.va < (x.toNat + y.toNat + 127) / 128 * 128)))) ∧
        t = { u with caches := { u.caches with icache := t.caches.icache }, t := { u.t with wait := .none, spc := u.t.spc + 4 } }))

/-! ## Scalar loads and stores -/

/-- LD reads 1, 2, 4 or 8 bytes at xb + OFF5 · size and zero-extends them into xt; nothing else changes, memory included; an address that
is not canonical stops the team with cause 0x0b. On the trunk ST writes the low 1, 2, 4 or 8 bytes of xt to memory at xb + OFF5 · size,
and no other byte of memory changes; under a pennant it writes the pennant's version of the line, and memory keeps every byte. An access
whose translation meets a replayable fault parks: an operand-log entry keeps its operands under the ID of a new record, and the stream moves
on for up to 4 instructions; with the core's log of 64 entries full it waits (§4.4, §10.3, §14.4, §18.5, §18.23). -/
def Obligations.ScalarMemory : Prop :=
  (∀ (s : State) (off : BitVec 5) (evict scope : BitVec 3) (ord sz : BitVec 2) (b xt : BitVec 5),
    let n := 2 ^ sz.toNat
    let va := s.t.xr b + BitVec.ofNat 64 (off.toNat * n)
    (Flat s s.t.ctx → s.t.pennant = 0 → va.toNat + n ≤ 0x1000000000 → Unbuffered s va.toNat n →
      Ends (.ld off evict scope ord sz b xt) s (fun t =>
        (∀ q, t.t.xr q = if q = xt ∧ xt ≠ 0 then BitVec.ofNat 64 (leNat (memBytes s.mem va.toNat n)) else s.t.xr q) ∧
        OnlyTeam s t ∧ t.t = { s.t with x := t.t.x, spc := s.t.spc + 4 })) ∧
    (canonical va = false → s.t.ctx < s.ctxs.length → StopsTeam (.ld off evict scope ord sz b xt) s 0x0b 0 false s.t.spc va) ∧
    (∀ f : TFault, translate s.t.tag .load none va s = .ok (.error f, s) → f.replayable = true → s.t.ctx < s.ctxs.length →
      va.toNat % 4096 + n ≤ 4096 → (logUsed s s.t.core < 64 → ParksScalar (.ld off evict scope ord sz b xt) s f 0 va 0 xt) ∧
      (64 ≤ logUsed s s.t.core → Waits (.ld off evict scope ord sz b xt) s)) ∧
    (∀ f : TFault, translate s.t.tag .store none va s = .ok (.error f, s) → f.replayable = true → s.t.ctx < s.ctxs.length → ord = 0 →
      va.toNat % 4096 + n ≤ 4096 → (logUsed s s.t.core < 64 → ParksScalar (.st off evict scope ord sz b xt) s f 1 va (s.t.xr xt).toNat 0) ∧
      (64 ≤ logUsed s s.t.core → Waits (.st off evict scope ord sz b xt) s))) ∧
  (∀ (s : State) (off : BitVec 5) (evict scope : BitVec 3) (ord sz : BitVec 2) (b xt : BitVec 5),
    let n := 2 ^ sz.toNat
    let va := s.t.scalarEa b off sz
    (Flat s s.t.ctx → s.t.pennant = 0 → va.toNat + n ≤ 0x1000000000 → Unbuffered s va.toNat n →
      (ord = 2 → s.caches.wc = [] ∧ s.caches.quanta = [] ∧ s.t.linkWait scope.toNat = false) →
      Ends (.st off evict scope ord sz b xt) s (fun t =>
        (∀ a, sget 0 t.mem a = if va.toNat ≤ a ∧ a < va.toNat + n then
          BitVec.ofNat 8 ((s.t.xr xt).toNat / 256 ^ (a - va.toNat)) else sget 0 s.mem a) ∧
        OnlyTeam { s with mem := t.mem } t ∧ t.t = { s.t with spc := s.t.spc + 4 })) ∧
    (∀ v : Ver, Flat s s.t.ctx → s.t.pennant ≠ 0 → va.toNat + n ≤ 0x1000000000 → va.toNat % n = 0 → ord = 0 → Unbuffered s va.toNat n →
      verOf s s.t.ctx s.t.pennant (va.toNat / 128) = some v → v.data.length = 128 → s.caches.logs = [] →
      Ends (.st off evict scope ord sz b xt) s (fun t => t.mem = s.mem ∧ t.peerMem = s.peerMem ∧ t.t = { s.t with spc := s.t.spc + 4 } ∧
        ∃ u, verOf t s.t.ctx s.t.pennant (va.toNat / 128) = some u ∧ ∀ i < 128, u.data[i]? =
          if va.toNat % 128 ≤ i ∧ i < va.toNat % 128 + n then
            some (BitVec.ofNat 8 ((s.t.xr xt).toNat / 256 ^ (i - va.toNat % 128))) else v.data[i]?)) ∧
    (ord = 2 → s.t.linkWait scope.toNat = true → Waits (.st off evict scope ord sz b xt) s))

/-! ## Lane loads and stores -/

/-- A lane LD writes to DST of each participating lane the bytes at the lane's address, filled to its registers; every other register, all
of memory and every unit stay: the virtual, the scratchpad and the private form. A lane whose translation meets a replayable fault parks: an
operand-log entry of its group keeps its operands under the ID of a new record that names the lane, and the path moves on within the window
of its LA; with the core's log full it waits (§4.5, §8.1, §8.2, §8.5, §14.4, §18.5). The model's choice: a storage-operand stop names the address of
the lowest failing lane and no lanes (assumption log 22), with ACCESS 0 (log 23). -/
def Obligations.LaneLoad : Prop :=
  ∀ (s : State) (w : LWord),
    let n := typeBytes w.ty.toNat
    let k := typeRegs w.ty.toNat
    let gives (val : Nat → Nat) : Prop := Ends (.ldLane w) s (fun t =>
      (∀ lane ∈ s.t.parts w, t.t.vrs lane w.dst.toNat k = fillBits w.ty.toNat (val lane) % 2 ^ (32 * k)) ∧
      (∀ lane r, r < 128 → ¬ (lane ∈ s.t.parts w ∧ w.dst.toNat ≤ r ∧ r < w.dst.toNat + k) → t.t.vr lane r = s.t.vr lane r) ∧
      s.t.moved t.t ∧ OnlyTeam s t ∧
      t.t = { s.t with v := t.t.v, lastPages := t.t.lastPages, paths := t.t.paths, arms := t.t.arms })
    Plain s → w.dst.toNat + k ≤ 128 →
      (w.fn = 0 → LanesIn s w n → gives (fun lane => leNat (memBytes s.mem (s.t.ea w lane).toNat n))) ∧
      (w.fn = 2 → s.t.spadBad w n = none → gives (fun lane => leNat (s.t.spadLane (s.t.ea w lane).toNat n))) ∧
      (w.fn = 1 → (∀ lane ∈ s.t.parts w, s.t.overPriv (ctxOf s s.t.ctx) lane (s.t.ea w lane).toNat n = none ∧
          ∀ p ∈ s.t.privVas (ctxOf s s.t.ctx) lane (s.t.ea w lane).toNat n, p.1.toNat + 4 ≤ 0x1000000000) →
        gives (fun lane => leNat ((s.t.privVas (ctxOf s s.t.ctx) lane (s.t.ea w lane).toNat n).flatMap
          (fun p => memBytes s.mem p.1.toNat p.2)))) ∧
      (∀ lane, w.fn = 2 → s.t.spadBad w n = some lane → s.t.ctx < s.ctxs.length →
        StopsTeam (.ldLane w) s 0x07 0 true s.t.cur.pc (s.t.ea w lane)) ∧
      (∀ (lane : Nat) (f : TFault), w.fn = 0 → s.t.parts w = [lane] → translate s.t.tag .load (some lane) (s.t.ea w lane) s = .ok (.error f, s) →
        f.replayable = true → s.t.ctx < s.ctxs.length → (s.t.ea w lane).toNat % 4096 + n ≤ 4096 →
        (logUsed s s.t.core < 64 → ParksLane (.ldLane w) s w f 0 { lane := lane, addr := s.t.ea w lane, data := 0 }) ∧
        (64 ≤ logUsed s s.t.core → Waits (.ldLane w) s))

/-- A lane ST, after the release its ORD asks for, which at .PEER waits for the team's link writes: no byte of memory outside the participating
lanes' own bytes changes, and each of those reads back on the core as one of the lanes that stored it wrote it, the lanes' order being free;
a private store likewise, each lane's words its own; a scratchpad store shows to the lanes at its offset and to the engine path nowhere yet.
Under a pennant memory keeps every byte: the pennant has a version of the line, made of the trunk's, and reads what was stored (§8.1, §8.2,
§8.3, §9.3, §10.3, §18.23). That the release drains the whole core's buffer is the model's choice, in assumption log 87. -/
def Obligations.LaneStore : Prop :=
  ∀ (s : State) (w : LWord),
    let n := typeBytes w.ty.toNat
    let k := typeRegs w.ty.toNat
    let u := s.ordRelease w
    let x := ctxOf s s.t.ctx
    let stored (lane i : Nat) : Byte := BitVec.ofNat 8 (s.t.vrs lane w.dst.toNat k / 256 ^ i)
    let inside (lane a : Nat) : Prop := (s.t.ea w lane).toNat ≤ a ∧ a < (s.t.ea w lane).toNat + n
    let privs (lane : Nat) : List (DWord × Nat) := s.t.privVas x lane (s.t.ea w lane).toNat n
    (s.t.ordWait w = true → w.fn ≠ 2 → Waits (.stLane w) s) ∧
    (Plain u → s.t.ordWait w = false →
      (w.fn = 0 → LanesIn s w n → Ends (.stLane w) s (fun t =>
        (∀ a, (∀ lane ∈ s.t.parts w, ¬ inside lane a) → sget 0 t.mem a = sget 0 u.mem a ∧ coreByte t s.t.core a = sget 0 u.mem a) ∧
        (∀ a, (∃ lane ∈ s.t.parts w, inside lane a) → ∃ lane ∈ s.t.parts w, inside lane a ∧
          coreByte t s.t.core a = stored lane (a - (s.t.ea w lane).toNat)) ∧
        t.peerMem = s.peerMem ∧ s.t.moved t.t ∧
        t.t = { s.t with lastPages := t.t.lastPages, paths := t.t.paths, arms := t.t.arms })) ∧
      (w.fn = 1 → x.hwm ≤ 0x10000 → (∀ lane ∈ s.t.parts w, s.t.overPriv x lane (s.t.ea w lane).toNat n = none ∧
          ∀ p ∈ privs lane, p.1.toNat + 4 ≤ 0x1000000000) →
        Ends (.stLane w) s (fun t =>
          (∀ a, (∀ lane ∈ s.t.parts w, ∀ p ∈ privs lane, ¬ (p.1.toNat ≤ a ∧ a < p.1.toNat + p.2)) → sget 0 t.mem a = sget 0 u.mem a) ∧
          (∀ lane ∈ s.t.parts w, (privs lane).flatMap (fun p => (List.range p.2).map (fun i => coreByte t s.t.core (p.1.toNat + i))) =
            (List.range n).map (stored lane)) ∧
          s.t.moved t.t ∧ t.t = { s.t with lastPages := t.t.lastPages, paths := t.t.paths, arms := t.t.arms })) ∧
      (w.fn = 2 → s.t.spadBad w n = none → Ends (.stLane w) s (fun t =>
        (∀ o, (∀ lane ∈ s.t.parts w, ¬ inside lane o) → t.t.spadByte o = s.t.spadByte o) ∧
        (∀ o, (∃ lane ∈ s.t.parts w, inside lane o) → ∃ lane ∈ s.t.parts w, inside lane o ∧
          t.t.spadByte o = stored lane (o - (s.t.ea w lane).toNat)) ∧
        t.t.spad = s.t.spad ∧ s.t.moved t.t ∧ OnlyTeam u t ∧
        t.t = { s.t with port := t.t.port, paths := t.t.paths, arms := t.t.arms }))) ∧
    (∀ lane, OnPennant s → s.caches.logs = [] → w.ord = 0 → w.fn = 0 → s.t.parts w = [lane] → LanesIn s w n → (s.t.ea w lane).toNat % n = 0 →
      let line := (s.t.ea w lane).toNat / 128
      Ends (.stLane w) s (fun t => t.mem = s.mem ∧ t.peerMem = s.peerMem ∧
        (∃ v, verOf t s.t.ctx s.t.pennant line = some v ∧
          v.data = ((verOf s s.t.ctx s.t.pennant line).map (·.data)).getD (memBytes s.mem (128 * line) 128)) ∧
        (∀ a, a / 128 = line → pennantView t a 1 =
          if (s.t.ea w lane).toNat ≤ a ∧ a < (s.t.ea w lane).toNat + n then [stored lane (a - (s.t.ea w lane).toNat)] else pennantView s a 1) ∧
        s.t.moved t.t ∧ t.t = { s.t with lastPages := t.t.lastPages, paths := t.t.paths, arms := t.t.arms }))

/-- Atomics, after the release their ORD asks for, which at .PEER waits for the team's link writes. On the trunk DST takes the old value and
memory the new one of Table 16.6, and no other byte changes, for lanes of different addresses; lanes that add to one address add up; a quantum
writes no register and waits in the combiner. Under a pennant only .SPEC runs: it returns the value the pennant reads and enters the
pennant's log, and memory and versions keep their bytes; any other stops the team. A misaligned atomic stops the team before any lane's is
performed (§9.3, §9.4, §9.5, §10.4, §16.5). The model's choice: a stop names the address of the lowest lane concerned and no lanes (assumption
log 22), and has ACCESS 2 though no access was made (log 23). -/
def Obligations.Atomics : Prop :=
  ∀ (s : State) (w : LWord) (groupB : Bool),
    let i : Instr := if groupB then .atomGroupB w else .atom w
    let n := 4 * w.n
    let u := s.ordRelease w
    let va (lane : Nat) : Nat := (s.t.ea w lane).toNat
    let op (lane : Nat) : Nat := (s.t.atomOperand w groupB lane).data
    let fn := (if groupB then 8 else 0) + w.fn.toNat
    let v (lane : Nat) : Nat := if fn = 8 then op lane / 2 ^ (8 * n) else op lane % 2 ^ (8 * n)
    let cmp (lane : Nat) : Nat := if fn = 8 then op lane % 2 ^ (8 * n) else 0
    let old (lane : Nat) : Nat := leNat (memBytes u.mem (va lane) n)
    let leaves (t : State) : Prop := s.t.moved t.t ∧
      (∀ l r, r < 128 → ¬ (l ∈ s.t.parts w ∧ w.dst.toNat ≤ r ∧ r < w.dst.toNat + w.n) → t.t.vr l r = s.t.vr l r) ∧
      t.t = { s.t with v := t.t.v, lastPages := t.t.lastPages, paths := t.t.paths, arms := t.t.arms }
    (Plain u → s.t.ordWait w = false → (∀ lane ∈ s.t.parts w, va lane % n = 0 ∧ va lane + n ≤ 0x1000000000) → w.dst.toNat + w.n ≤ 128 →
        w.n ≤ 2 →
      (w.use ≠ 4 → (∀ a ∈ s.t.parts w, ∀ b ∈ s.t.parts w, a ≠ b → va a ≠ va b) → Ends i s (fun t => leaves t ∧
        (∀ lane ∈ s.t.parts w, t.t.vrs lane w.dst.toNat w.n = old lane ∧
          memBytes t.mem (va lane) n = leBytes n (atomNew fn (8 * n) (atomSigned w.ty) (old lane) (v lane) (cmp lane))) ∧
        (∀ a, (∀ lane ∈ s.t.parts w, ¬ (va lane ≤ a ∧ a < va lane + n)) → sget 0 t.mem a = sget 0 u.mem a))) ∧
      (∀ a, w.use ≠ 4 → fn = 0 → s.t.parts w ≠ [] → (∀ lane ∈ s.t.parts w, va lane = a) → Ends i s (fun t => leaves t ∧
        memBytes t.mem a n = leBytes n ((leNat (memBytes u.mem a n) + ((s.t.parts w).map op).sum) % 2 ^ (8 * n)) ∧
        (∀ b, ¬ (a ≤ b ∧ b < a + n) → sget 0 t.mem b = sget 0 u.mem b))) ∧
      (∀ lane, s.t.parts w = [lane] → w.use = 4 → fn ≠ 8 → Ends i s (fun t =>
        (∃ q, t.caches.quanta = [q] ∧ q.core = s.t.core ∧ q.pa = va lane ∧ q.size = n ∧ q.fn = fn ∧ q.val = op lane % 2 ^ (8 * n)) ∧
        t.mem = u.mem ∧ s.t.moved t.t ∧ t.t = { s.t with lastPages := t.t.lastPages, paths := t.t.paths, arms := t.t.arms }))) ∧
    (∀ lane, OnPennant s → w.ord = 0 → w.use = 5 → s.t.parts w = [lane] → va lane % n = 0 → va lane + n ≤ 0x1000000000 →
      w.dst.toNat + w.n ≤ 128 → w.n ≤ 2 → Ends i s (fun t => leaves t ∧
        t.t.vrs lane w.dst.toNat w.n = leNat (pennantView s (va lane) n) ∧ t.mem = s.mem ∧
        t.caches.logs = s.caches.logs ++ [{ ctx := s.t.ctx, pennant := s.t.pennant, pa := va lane, size := n, fn := fn, ty := w.ty,
                                            val := v lane, cmp := cmp lane }] ∧
        ∀ c p line, (verOf t c p line).map (·.data) = (verOf s c p line).map (·.data))) ∧
    (∀ lane rest, s.t.pennant ≠ 0 → w.use ≠ 5 → s.t.parts w = lane :: rest → s.t.unaligned w n = none → s.t.ctx < s.ctxs.length →
      StopsTeam i s 0x08 2 true s.t.cur.pc (s.t.ea w lane)) ∧
    (s.t.pennant = 0 → s.t.unaligned w n = none → s.t.ordWait w = true → Waits i s) ∧
    (∀ l, s.t.unaligned w n = some l → s.t.ctx < s.ctxs.length → StopsTeam i s 0x07 2 true s.t.cur.pc (s.t.ea w l))

/-! ## The sampler path, rays and LAUNCH -/

/-- SLD reads through the core's sampler cache: a line it does not hold is filled whole from memory, one it holds gives the bytes of its
fill even where memory has changed since; only DST changes, and the sampler cache (§8.4, §18.20). -/
def Obligations.SamplerLoad : Prop :=
  ∀ (s : State) (w : LWord),
    let n := typeBytes w.ty.toNat
    let k := typeRegs w.ty.toNat
    let leaves (t : State) : Prop := t.mem = s.mem ∧ s.t.moved t.t ∧
      (∀ lane r, r < 128 → ¬ (lane ∈ s.t.parts w ∧ w.dst.toNat ≤ r ∧ r < w.dst.toNat + k) → t.t.vr lane r = s.t.vr lane r) ∧
      t.t = { s.t with v := t.t.v, lastPages := t.t.lastPages, paths := t.t.paths, arms := t.t.arms }
    Plain s → w.dst.toNat + k ≤ 128 → LanesIn s w n →
      (s.caches.samp = [] → Ends (.sld w) s (fun t => leaves t ∧ ∀ lane ∈ s.t.parts w,
        t.t.vrs lane w.dst.toNat k = fillBits w.ty.toNat (leNat (memBytes s.mem (s.t.ea w lane).toNat n)) % 2 ^ (32 * k))) ∧
      (∀ lane l, s.t.parts w = [lane] → s.caches.samp = [l] → l.core = s.t.core → l.ctx = s.t.ctx → l.pennant = 0 →
        128 * l.line ≤ (s.t.ea w lane).toNat → (s.t.ea w lane).toNat + n ≤ 128 * l.line + 128 →
        Ends (.sld w) s (fun t => leaves t ∧ t.caches.samp = [l] ∧ t.t.vrs lane w.dst.toNat k =
          fillBits w.ty.toNat (leNat ((l.data.drop ((s.t.ea w lane).toNat % 128)).take n)) % 2 ^ (32 * k)))

/-- SAMPLE: of each participating lane coordinates that are not finite give four zeros, .NEAR the texel its coordinates fall in, .LIN the four
texels about them blended along x and then along y by the fractions x − Floor(x) and y − Floor(y), each operation rounded on its own; it writes
four registers of each lane and nothing else. A misaligned descriptor, or a field of it outside Table 18.9, stops the team before any lane is
written (§18.18). The model's choice: the ACCESS 0 of that record (assumption log 23), and the texel taken where a scaled coordinate is not finite
(log 18). -/
def Obligations.ImageSample : Prop :=
  ∀ (s : State) (w : LWord),
    let at_ := s.t.snapX (w.src2.toNat % 32) + w.hi.signExtend 64
    let stops := s.t.ctx < s.ctxs.length → StopsTeam (.sample w) s 0x07 0 true s.t.cur.pc at_
    (∀ m : Image, Plain s → s.caches.samp = [] → at_.toNat % 32 = 0 → at_.toNat + 32 ≤ 0x1000000000 →
      imageOf (memBytes s.mem at_.toNat 32) = some m → m.base + m.h * m.pitch ≤ 0x1000000000 → w.dst.toNat + 4 ≤ 128 → w.fn.toNat ≤ 1 →
      let u (lane : Nat) : Word := BitVec.ofNat 32 (s.t.a w lane 2)
      let v (lane : Nat) : Word := BitVec.ofNat 32 (s.t.a w lane 2 / 2 ^ 32)
      let x (lane : Nat) : Word := fsub32 (fmul32 (u lane) (ofInt32 m.w)) 0x3f000000
      let y (lane : Nat) : Word := fsub32 (fmul32 (v lane) (ofInt32 m.h)) 0x3f000000
      let texel (i j : Int) (k : Nat) : Word := (texelChannels m.fmt (memBytes s.mem
        (m.base + wrapIndex m.wrap m.h j * m.pitch + wrapIndex m.wrap m.w i * m.texelSize) m.texelSize)).getD k 0
      let mix (f a b : Word) : Word := fadd32 (fmul32 a (fsub32 0x3f800000 f)) (fmul32 b f)
      let near (lane k : Nat) : Word := texel (floor32 (fadd32 (x lane) 0x3f000000)) (floor32 (fadd32 (y lane) 0x3f000000)) k
      let lin (lane k : Nat) : Word :=
        let i := floor32 (x lane)
        let j := floor32 (y lane)
        mix (fract32 (y lane)) (mix (fract32 (x lane)) (texel i j k) (texel (i + 1) j k))
          (mix (fract32 (x lane)) (texel i (j + 1) k) (texel (i + 1) (j + 1) k))
      Ends (.sample w) s (fun t => t.mem = s.mem ∧ s.t.moved t.t ∧
        (∀ l r, r < 128 → ¬ (l ∈ s.t.parts w ∧ w.dst.toNat ≤ r ∧ r < w.dst.toNat + 4) → t.t.vr l r = s.t.vr l r) ∧
        (∀ lane ∈ s.t.parts w, ∀ k < 4, t.t.vr lane (w.dst.toNat + k) =
          if (fin32 (u lane) && fin32 (v lane)) = false then 0 else if w.fn = 1 then lin lane k else near lane k) ∧
        t.t = { s.t with v := t.t.v, lastPages := t.t.lastPages, paths := t.t.paths, arms := t.t.arms })) ∧
    (Plain s → s.caches.samp = [] → s.t.parts w ≠ [] → at_.toNat % 32 = 0 → at_.toNat + 32 ≤ 0x1000000000 →
      imageOf (memBytes s.mem at_.toNat 32) = none → stops) ∧
    (at_.toNat % 32 ≠ 0 → s.t.parts w ≠ [] → stops)

/-- TRACE: of each participating lane a malformed header gives the abandoned result; else a structure of at most 2²⁰ nodes gives a hit of least
t among its triangles', no tied one of a lower primitive id, or a miss where no triangle is hit; it writes four registers of each lane and
nothing else; a misaligned header stops the team (§13.8, §19.7). The model's choice: the ACCESS 0 of that record (assumption log 23), and which
boxes that hold no such triangle a ray passes over (log 19). -/
def Obligations.RayTrace : Prop :=
  ∀ (s : State) (w : LWord),
    let at_ := s.t.snapX (w.src3.toNat % 32)
    let head := memBytes s.mem at_.toNat 32
    let ray (lane : Nat) : Ray := rayOf (s.t.vrs lane w.src1.toNat 4 + 2 ^ 128 * s.t.vrs lane w.src2.toNat 4)
    let gives (result : Nat → List Word → Prop) : Prop := Ends (.trace w) s (fun t =>
      (∀ lane ∈ s.t.parts w, ∃ r, result lane r ∧ ∀ i < 4, some (t.t.vr lane (w.dst.toNat + i)) = r[i]?) ∧ t.mem = s.mem ∧ s.t.moved t.t ∧
      (∀ l r, r < 128 → ¬ (l ∈ s.t.parts w ∧ w.dst.toNat ≤ r ∧ r < w.dst.toNat + 4) → t.t.vr l r = s.t.vr l r) ∧
      t.t = { s.t with v := t.t.v, lastPages := t.t.lastPages, paths := t.t.paths, arms := t.t.arms })
    (Plain s → at_.toNat % 32 = 0 → at_.toNat + 32 ≤ 0x1000000000 → w.dst.toNat + 4 ≤ 128 →
      (accelOf head = none → gives (fun _ r => r = [0x7f800000, 0, 0, 0xfffffffe])) ∧
      (∀ (g : Accel) (b : Bvh), accelOf head = some (g, b.ref) → b.At s.mem g → b.nodes ≤ 2 ^ 20 →
        let hit (lane : Nat) (r : Word) : Option Hit := hitTriangle (ray lane) (memBytes s.mem (g.tb + 48 * (r.toNat % 2 ^ 31)) 48)
        gives (fun lane r =>
          ((∀ q ∈ b.tris, hit lane q = none) ∧ r = [0x7f800000, 0, 0, 0xffffffff]) ∨
          ∃ h, (∃ q ∈ b.tris, hit lane q = some h) ∧ r = [h.t, h.u, h.v, h.id] ∧
            ∀ q ∈ b.tris, ∀ k, hit lane q = some k → flt32 k.t h.t = false ∧ (flt32 h.t k.t = false → h.id.toNat ≤ k.id.toNat)))) ∧
    (at_.toNat % 32 ≠ 0 → s.t.parts w ≠ [] → s.t.ctx < s.ctxs.length → StopsTeam (.trace w) s 0x07 0 true s.t.cur.pc at_)

/-- LAUNCH: status 3 for a misaligned record or one that is no launch. On the trunk status 0 with the record in the pending-launch store, behind
the overflow list's oldest where a squash has freed places that list has not filled yet (the model's Ctx.ovOwed, assumption log 39), 1 with
it in the context's overflow list in memory, 2 and a true predicate when both are full; the records of several lanes stand in lane order.
Under a pennant the record goes to the push buffer with status 0, and one that holds 16 gives status 2 and a true predicate and is as it was
(§10.8, §12.5, §18.4). -/
def Obligations.LaneLaunch : Prop :=
  ∀ (s : State) (w : LWord),
    let va (lane : Nat) : Nat := (s.t.ea w lane).toNat
    let rec_ (lane : Nat) : Packet := packetOf (memBytes s.mem (va lane) 64)
    let x := ctxOf s s.t.ctx
    let gives (st : Nat) (P : State → Prop) : Prop := Ends (.launch w) s (fun t =>
      (∀ lane ∈ s.t.parts w, t.t.vr lane w.dst.toNat = BitVec.ofNat 32 st) ∧
      (∀ lane < 1024, ∀ k, (t.t.pm k).getLsbD lane =
        if k = w.src3.toNat % 16 ∧ k ≠ 0 ∧ lane ∈ s.t.parts w then decide (st = 2) else (s.t.pm k).getLsbD lane) ∧
      (∀ l q, q < 128 → ¬ (l ∈ s.t.parts w ∧ q = w.dst.toNat) → t.t.vr l q = s.t.vr l q) ∧ s.t.moved t.t ∧
      t.t = { s.t with v := t.t.v, p := t.t.p, lastPages := t.t.lastPages, paths := t.t.paths, arms := t.t.arms } ∧ P t)
    (x.trctl = 0 → s.t.oplog = [] → s.caches.quanta = [] → (∀ i, (x.watch.getD i Watch.reset).ctl = 0) → x.hotctl = 0 →
      (∀ lane ∈ s.t.parts w, va lane % 64 ≠ 0) → gives 3 (fun t => t.mem = s.mem ∧ t.store = s.store)) ∧
    (Plain s → (∀ lane ∈ s.t.parts w, va lane % 64 = 0 ∧ va lane + 64 ≤ 0x1000000000) →
      ((∀ lane ∈ s.t.parts w, (rec_ lane).kind ≠ 4) → gives 3 (fun t => t.mem = s.mem ∧ t.store = s.store)) ∧
      ((∀ lane ∈ s.t.parts w, (rec_ lane).kind = 4) → x.ovOwed = 0 → storeCount s s.t.ctx + (s.t.parts w).length ≤ x.quota →
        s.store.length + (s.t.parts w).length ≤ 256 → gives 0 (fun t => t.mem = s.mem ∧
          t.store = s.store ++ (s.t.parts w).map (fun lane => { ctx := s.t.ctx, pkt := rec_ lane }))) ∧
      (∀ lane, s.t.parts w = [lane] → (rec_ lane).kind = 4 →
        (x.ovHead + x.ovOwed ≤ x.ovTail → storeCount s s.t.ctx + x.ovOwed < x.quota → s.store.length + x.ovOwed < 256 →
          (∀ i < x.ovOwed, InMemory s (overflowAt x (x.ovHead + i)) 64) → gives 0 (fun t => t.mem = s.mem ∧
            t.store = s.store ++ (List.range x.ovOwed).map (fun i =>
              { ctx := s.t.ctx, pkt := packetOf (memBytes s.mem (overflowAt x (x.ovHead + i)) 64) }) ++
                [{ ctx := s.t.ctx, pkt := rec_ lane }])) ∧
        (x.ovOwed = 0 → storeRoom s s.t.ctx = false → overflowRoom s s.t.ctx = true → InMemory s (overflowAt x x.ovTail) 64 →
          s.t.ctx < s.ctxs.length → gives 1 (fun t => t.store = s.store ∧ (ctxOf t s.t.ctx).ovTail = x.ovTail + 1 ∧
            (∀ a, ¬ (overflowAt x x.ovTail ≤ a ∧ a < overflowAt x x.ovTail + 64) → sget 0 t.mem a = sget 0 s.mem a) ∧
            memBytes t.mem (overflowAt x x.ovTail) 64 = packetBytes (rec_ lane))) ∧
        (x.ovOwed = 0 → storeRoom s s.t.ctx = false → overflowRoom s s.t.ctx = false →
          gives 2 (fun t => t.mem = s.mem ∧ t.store = s.store)))) ∧
    (∀ lane, Calm s → 1 ≤ s.t.pennant → s.t.pennant ≤ 7 → x.pens.length = 7 → s.t.ctx < s.ctxs.length → s.t.parts w = [lane] →
      va lane % 64 = 0 → va lane + 64 ≤ 0x1000000000 →
      let r := packetOf (pennantView s (va lane) 64)
      let n := x.pen s.t.pennant
      let m (t : State) : Pennant := (ctxOf t s.t.ctx).pen s.t.pennant
      (r.kind ≠ 4 → gives 3 (fun t => t.mem = s.mem ∧ t.store = s.store ∧ (m t).pushes = n.pushes)) ∧
      (r.kind = 4 → n.pushes.length + n.appending.length < 16 →
        gives 0 (fun t => t.mem = s.mem ∧ t.store = s.store ∧ (m t).pushes = n.pushes ++ [r])) ∧
      (r.kind = 4 → 16 ≤ n.pushes.length + n.appending.length →
        gives 2 (fun t => t.mem = s.mem ∧ t.store = s.store ∧ (m t).pushes = n.pushes)))

/-! ## Engine commands -/

/-- A scalar engine command that passes its checks is discarded under a false guard, queued with the open batch otherwise (held under a
pending guard), and waits at a full queue; one that fails them stops the team, whatever the guard; a cube op reads its descriptor after
some bytes of the scratchpad write port, chosen freely, have reached the engine path; QFENCE waits while a queue it selects is full (§3.2, §7.4,
§7.8, §8.7). The model's choice: CPY and QFENCE stop on a bad operand whatever the guard (assumption log 81; R146 says it of cube ops), the ACCESS 0
of those records (log 23), and the free bytes of the port (log 80). -/
def Obligations.EngineCommands : Prop :=
  ∀ (s : State) (ge : Bool) (g : BitVec 4) (a b c : BitVec 5),
    let x := s.t.xr a
    let y := s.t.xr b
    let z := s.t.xr c
    let no := ge = true ∧ s.t.guard g.toNat = .resolved false
    let held : Option Nat := if ge = true ∧ s.t.guard g.toNat ≠ .resolved true then some g.toNat else none
    let cmd (body : EngBody) : EngCmd :=
      { body := body, batch := some s.t.batch.toNat, guard := held, stage := .queued, progress := 0, panels := [], order := 0, undo := [], pc := s.t.spc, tag := 0 }
    let tile (u : State) (i : Instr) (body : EngBody) : Prop := (no → PassesS i u) ∧
      (¬ no → u.t.tileQ.length < 32 → exec i u = .next { u with t := { u.t with tileQ := u.t.tileQ ++ [cmd body], spc := u.t.spc + 4 } }) ∧
      (¬ no → 32 ≤ u.t.tileQ.length → Waits i u)
    let cube (kind : Nat) (i : Instr) : Prop :=
      let u := s.seePort
      let ds := u.t.readDesc z.toNat false
      let ok := u.t.cubeOk kind x.toNat y.toNat z.toNat 0 false (descOf ds)
      exec i s = exec i u ∧ (ok = true → tile u i (.cube {
        kind := kind, aOff := x.toNat, bOff := y.toNat, descOff := z.toNat, desc := ds, rows := BitVec.allOnes 128, rowOff := 0, lane := false })) ∧
      (ok = false → s.t.ctx < s.ctxs.length → StopsTeam i u 0x06 0 false s.t.spc z)
    cube 0 (.mma ge g a b c) ∧ cube 1 (.tri ge g a b c) ∧ cube 2 (.tlut ge g a b c) ∧
    (s.t.moveOk x y z = true → tile s (.tld ge g a b c) (.tld x.toNat y (z.extractLsb' 0 18).toNat) ∧
      tile s (.tst ge g a b c) (.tst x.toNat y (z.extractLsb' 0 18).toNat)) ∧
    (s.t.moveOk x y z = false → s.t.ctx < s.ctxs.length → StopsTeam (.tld ge g a b c) s 0x06 0 false s.t.spc x ∧
      StopsTeam (.tst ge g a b c) s 0x06 0 false s.t.spc x) ∧
    (copyOk s.t.claim x y z = true → (no → PassesS (.cpy ge g a b c) s) ∧
      (¬ no → s.t.copyQ.length < 64 → exec (.cpy ge g a b c) s = .next { s with t := { s.t with
        copyQ := s.t.copyQ ++ [cmd (.copy x y z)], spc := s.t.spc + 4 } }) ∧
      (¬ no → 64 ≤ s.t.copyQ.length → Waits (.cpy ge g a b c) s)) ∧
    (copyOk s.t.claim x y z = false → s.t.ctx < s.ctxs.length → StopsTeam (.cpy ge g a b c) s 0x07 0 false s.t.spc x) ∧
    (x = 0 ∨ 3 < x.toNat → s.t.ctx < s.ctxs.length → StopsTeam (.qfence ge g a) s 0x07 0 false s.t.spc x) ∧
    (x ≠ 0 → x.toNat ≤ 3 → (no → PassesS (.qfence ge g a) s) ∧
      (¬ no → (x.getLsbD 0 = true → s.t.tileQ.length < 32) → (x.getLsbD 1 = true → s.t.copyQ.length < 64) →
        exec (.qfence ge g a) s = .next { s with t := { s.t with
          tileQ := if x.getLsbD 0 then s.t.tileQ ++ [cmd (.join s.t.nextJoin x.toNat)] else s.t.tileQ
          copyQ := if x.getLsbD 1 then s.t.copyQ ++ [cmd (.join s.t.nextJoin x.toNat)] else s.t.copyQ
          nextJoin := s.t.nextJoin + 1, spc := s.t.spc + 4 } }) ∧
      (¬ no → (x.getLsbD 0 = true ∧ 32 ≤ s.t.tileQ.length) ∨ (x.getLsbD 1 = true ∧ 64 ≤ s.t.copyQ.length) → Waits (.qfence ge g a) s))

/-- A lane-form cube instruction queues one op for each quarter with a participant, in no batch, and a per-lane CPY one entry for each
group; then the path moves on, or holds the ops a full tile queue has no room for; a bad operand stops the team before anything is queued
(§7.4, §8.6, §16.23). The model's choice: a stop names no lanes and, of a copy, the address of the lowest failing lane (assumption log 22), and its
ACCESS is that of an access not made (log 23). -/
def Obligations.LaneEngineCommands : Prop :=
  ∀ (s : State) (w : LWord),
    let entry (body : EngBody) : EngCmd :=
      { body := body, batch := none, guard := none, stage := .queued, progress := 0, panels := [], order := 0, undo := [], pc := s.t.cur.pc, tag := 0 }
    let cube (kind : Nat) (i : Instr) : Prop :=
      let ops := s.t.quarterOps kind w
      let ok := ops.all (fun o => s.t.cubeOk kind o.aOff o.bOff o.descOff o.rowOff true (descOf o.desc))
      (∀ p ∈ s.t.paths, p.idx = s.t.curPath → p.hold = .none) → (ok = true → s.t.tileQ.length + ops.length ≤ 32 → Ends i s (fun t =>
        t.t.tileQ = s.t.tileQ ++ ops.map (fun o => entry (.cube o)) ∧ s.t.moved t.t ∧
        t = { s with t := { s.t with tileQ := t.t.tileQ, paths := t.t.paths, arms := t.t.arms } })) ∧
      (ok = true → 32 < s.t.tileQ.length + ops.length → exec i s = .next { s with t := { s.t with
        tileQ := s.t.tileQ ++ (ops.take (32 - s.t.tileQ.length)).map (fun o => entry (.cube o))
        paths := s.t.paths.map (fun p =>
          if p.idx = s.t.curPath then { p with hold := .cube (ops.drop (32 - s.t.tileQ.length)) } else p) } }) ∧
      (ok = false → s.t.ctx < s.ctxs.length → StopsTeam i s 0x06 0 true s.t.cur.pc (w.hi.zeroExtend 64))
    cube 0 (.mmaLane w) ∧ cube 1 (.triLane w) ∧ cube 2 (.tlutLane w) ∧
    (∀ kind q o, s.t.quarterOp kind w q = some o → o.kind = kind ∧ o.lane = true ∧
      ∀ i < 8, o.rows.getLsbD i = decide (8 * q + i ∈ s.t.parts w)) ∧
    (Plain s → s.t.cpyBad w = none → logUsed s s.t.core ≤ 64 →
      let ls := (s.t.parts w).map (fun lane => ({ lane := lane, addr := s.t.ea w lane, data := (s.t.vr lane w.dst.toNat).toNat } : LogLane))
      s.t.copyQ.length + (logGroups ls).length ≤ 64 → Ends (.cpyLane w) s (fun t =>
        t.t.copyQ = s.t.copyQ ++ (logGroups ls).map (fun g => { entry (.laneCopy w s.t.curPath g (inGroup g ls)) with tag := s.t.issues }) ∧
        t.t.v = s.t.v ∧ t.t.spad = s.t.spad ∧ t.t.oplog = [] ∧
        t = { s with t := { s.t with copyQ := t.t.copyQ, paths := t.t.paths, arms := t.t.arms } })) ∧
    (∀ lane, s.t.cpyBad w = some lane → s.t.ctx < s.ctxs.length →
      StopsTeam (.cpyLane w) s 0x07 (if w.fn = 0 then 4 else 5) true s.t.cur.pc (s.t.ea w lane))

/-- The array serves the next slot in turn and ends what it started, of the claim with some bytes of the write port, chosen freely, shown to the
engine path (log 80, the model's choice): an unsplit MMA or TRI element takes DotAccumulate of its old value and its terms in ascending k, a
TLUT element that of the table entry each weight code selects, for every shape; TLD puts the claim's words into the region of its tile, row by
row at its stride, TST the region's elements into the claim, and nothing else changes; a finished command leaves its queue, and a joint entry
once every selected queue has reached it (§6.7, §6.8, §7.1, §7.3, §7.4, §7.6, §7.8, §8.7, §19.5, §19.15). -/
def Obligations.ArraySteps : Prop :=
  (∀ (s u : State) (core k : Nat), (∀ t ∈ s.teams, t.core = core → t.headStarted = false) → nextServed s core = some k →
    s.focus core k = some u → ∃ n ≤ u.t.joinable, exec (.cubeOpStart core) s =
      .next { u with t := u.t.startHead n, rr := sset 0 u.rr core k }) ∧
  (∀ (s u : State) (core k : Nat) (c : EngCmd) (q : List EngCmd), s.focus core k = some u → u.t.core = core → u.t.slot = k →
    (∀ t ∈ s.teams, t.core = core → t.headStarted = true → t.slot = k) → u.t.tileQ = c :: q → c.stage = .started →
    q.head?.all (fun e => decide (e.stage ≠ .started)) = true → u.t.splitHead = none → Ends (.cubeOpEnd core) s (fun t =>
      t.t = { u.seePort.t.runBody c.body with tileQ := { c with stage := .done } :: q } ∧ t.mem = u.mem ∧ t.caches = u.caches)) ∧
  (∀ (t : Team) (op : CubeOp) (d : Desc), descOf op.desc = d → t.splitKind d = 0 → t.fits op d →
    (op.kind ≤ 1 → (op.kind = 1 → d.place ≠ 0) → RegionIs t (t.runOp op) op d (fun i j => t.dot op d i j (t.elem op d i j))) ∧
    (op.kind = 2 → RegionIs t (t.runOp op) op d (fun i j =>
      dotAccumulate (t.elem op d i j) ((List.range (8 * d.k32)).map (fun g => t.lutTerm op d i g j))))) ∧
  (∀ (t : Team) (off stride : Nat) (region : DWord),
    let g := regionOf2 region
    let at_ (r c : Nat) : Nat := off + r * stride + 4 * c
    g.row + g.rows ≤ 512 → g.col + g.cols ≤ 512 →
    (let u := t.runTld off region stride
     u = { t with acc := u.acc } ∧
      (∀ r c, r < g.rows → c < g.cols → u.tileAt g.acc (g.row + r) (g.col + c) = BitVec.ofNat 32 (leNat (sgetRange 0 t.spad (at_ r c) 4))) ∧
      ∀ a r c, a < 4 → r < 512 → c < 512 → ¬ (a = g.acc ∧ g.row ≤ r ∧ r < g.row + g.rows ∧ g.col ≤ c ∧ c < g.col + g.cols) →
        u.tileAt a r c = t.tileAt a r c) ∧
    (4 * g.cols ≤ stride →
      let u := t.runTst off region stride
      u = { t with spad := u.spad, port := u.port } ∧
      (∀ r c, r < g.rows → c < g.cols → sgetRange 0 u.spad (at_ r c) 4 = leBytes 4 (t.tileAt g.acc (g.row + r) (g.col + c)).toNat) ∧
      ∀ o, (∀ r c, r < g.rows → c < g.cols → ¬ (at_ r c ≤ o ∧ o < at_ r c + 4)) → sget 0 u.spad o = sget 0 t.spad o ∧
        u.spadByte o = t.spadByte o)) ∧
  (∀ (s u : State) (core k : Nat) (b : Bool) (c : EngCmd) (q : List EngCmd), s.focus core k = some u → u.t.alive = true →
    (if b then u.t.copyQ else u.t.tileQ) = c :: q → (∀ i m, c.body ≠ .join i m) → c.stage = .done →
    let v : Team := if b then { u.t with copyQ := q } else { u.t with tileQ := q }
    exec (.engineCommandComplete core k b) s = .next { u with t := { v with arms := v.settle.arms } }) ∧
  (∀ (s u : State) (core k i : Nat) (b : Bool) (c e : EngCmd) (q r : List EngCmd), s.focus core k = some u → u.t.alive = true →
    u.t.tileQ = c :: q → u.t.copyQ = e :: r → c.body = .join i 3 → e.body = .join i 3 → c.guard = none → e.guard = none →
    let v : Team := { u.t with tileQ := q, copyQ := r }
    exec (.engineCommandComplete core k b) s = .next { u with t := { v with arms := v.settle.arms } }) ∧
  (∀ (s u : State) (core k i : Nat) (b : Bool) (c e : EngCmd) (q r : List EngCmd), s.focus core k = some u → u.t.alive = true →
    u.t.tileQ = c :: q → u.t.copyQ = e :: r → (if b then e.body else c.body) = .join i 3 →
    atJoin i (if b then u.t.tileQ else u.t.copyQ) = false →
      exec (.engineCommandComplete core k b) s = .next { u with t := { u.t with arms := u.t.settle.arms } })

/-- A tile copy moves its bytes in chunks of 4 KB, its rows laid end to end and each at its own stride: between memory and the claim, from memory
to memory and inside the claim. The bytes of the chunk take what their sources held when the copy began, but those of a destination that is a
source byte too; no other byte of memory or of the claim changes; the last chunk leaves the command done. A pass of a per-lane copy moves each
lane's 4, 8 or 16 bytes between its memory address and its claim offset, changes no other byte and is done (§8.6, §8.7, §17.5). How overlap is
judged is the model's reading, in log 27; the claim is read and written with some bytes of the write port, chosen freely, shown to the engine
path: the model's choice, in log 80. -/
def Obligations.TileCopies : Prop :=
  (∀ (s u : State) (core k : Nat) (c : EngCmd) (q : List EngCmd) (dst src shape : DWord),
    let h := shapeOf shape
    let lo := 4096 * c.progress
    let hi := min h.total (lo + 4096)
    let v := u.seePort
    let src_ (i : Nat) : Nat := src.toNat + h.sstr * (i / h.rb) + i % h.rb
    let dst_ (i : Nat) : Nat := dst.toNat + h.dstr * (i / h.rb) + i % h.rb
    let source (i : Nat) : Byte := match c.undo.find? (fun e => e.1 == src_ i) with
      | some e => e.2.1
      | none => if h.sk then sget 0 v.t.spad (src_ i) else sget 0 u.mem (src_ i)
    let before (a : Nat) : Byte := if h.dk then sget 0 v.t.spad a else sget 0 u.mem a
    let after (t : State) (a : Nat) : Byte := if h.dk then sget 0 t.t.spad a else sget 0 t.mem a
    let reach (o : DWord) (stride : Nat) : Prop := o.toNat + stride * (h.rows - 1) + h.rb ≤ 0x1000000000
    s.focus core k = some u → u.t.alive = true → u.t.copyQ = c :: q → c.body = .copy dst src shape → c.guard = none →
    (c.stage = .queued ∨ c.stage = .started) → Flat u u.t.ctx → u.t.pennant = 0 → u.caches.wc = [] → lo < h.total →
    reach dst h.dstr → reach src h.sstr → (h.rb ≤ h.dstr ∨ h.rows = 1) → Ends (.tileCopyChunk core k) s (fun t =>
      (∀ i, lo ≤ i → i < hi → (h.dk = h.sk → ∀ j < h.total, src_ j ≠ dst_ i) → after t (dst_ i) = source i) ∧
      (∀ a, (∀ i, lo ≤ i → i < hi → a ≠ dst_ i) → (∀ e ∈ c.undo, e.2.2 = false → e.1 = a → ∀ i, lo ≤ i → i < hi → src_ i ≠ a) →
        after t a = before a) ∧
      (h.dk = true → t.mem = u.mem) ∧ (h.dk = false → t.t.spad = v.t.spad ∧ t.t.port = v.t.port) ∧
      ∃ e, t.t = { u.t with spad := t.t.spad, port := t.t.port, copyQ := e :: q } ∧
        e = { c with stage := if h.total ≤ lo + 4096 then .done else .started, progress := c.progress + 1, undo := e.undo } ∧
        (h.dk = h.sk → h.total > lo + 4096 → ∀ i, lo ≤ i → i < hi → ∃ x ∈ e.undo, x.1 = dst_ i ∧
          ((∀ y ∈ c.undo, y.1 ≠ dst_ i) → x.2.1 = before (dst_ i))))) ∧
  (∀ (s u : State) (core k p g : Nat) (c : EngCmd) (q : List EngCmd) (w : LWord) (ls : List LogLane),
    let n := typeBytes w.ty.toNat
    let v := u.seePort
    let apart (f : LogLane → Nat) : Prop := ∀ l ∈ ls, ∀ m ∈ ls, l ≠ m → f l + n ≤ f m ∨ f m + n ≤ f l
    s.focus core k = some u → u.t.alive = true → u.t.copyQ = c :: q → c.body = .laneCopy w p g ls → c.guard = none →
    (c.stage = .queued ∨ c.stage = .started) → Flat u u.t.ctx → u.t.pennant = 0 → u.caches.wc = [] → u.t.oplog.any c.passOf = false →
    (∀ l ∈ ls, l.addr.toNat + n ≤ 0x1000000000) → Ends (.tileCopyChunk core k) s (fun t =>
      t.t = { u.t with spad := t.t.spad, port := t.t.port, copyQ := { c with stage := .done } :: q } ∧
      (w.fn = 0 → t.mem = u.mem ∧
        (apart (fun l => l.data) → ∀ l ∈ ls, sgetRange 0 t.t.spad l.data n = memBytes u.mem l.addr.toNat n) ∧
        ∀ o, (∀ l ∈ ls, ¬ (l.data ≤ o ∧ o < l.data + n)) → sget 0 t.t.spad o = sget 0 v.t.spad o ∧ t.t.spadByte o = v.t.spadByte o) ∧
      (w.fn ≠ 0 → t.t.spad = v.t.spad ∧ t.t.port = v.t.port ∧
        (apart (fun l => l.addr.toNat) → ∀ l ∈ ls, memBytes t.mem l.addr.toNat n = sgetRange 0 v.t.spad l.data n) ∧
        ∀ a, (∀ l ∈ ls, ¬ (l.addr.toNat ≤ a ∧ a < l.addr.toNat + n)) → sget 0 t.mem a = sget 0 u.mem a)))

/-- A split op starts when every participant is ready: all stand ready at once, or all of them stop on a cube-operand fault, with their tiles as
they were, when their descriptors' shared fields differ; until then nothing changes; the origin then sends its panels one by one, each once
every addressee has room, and each addressee's command receives it, passing over its oldest where four stand. A part of an MN split ends by
passing over what it has received; a K split ends at every participant at once, each with the sum of its share from +0, the origin with its
own sum, of its old value, and then the others' in ascending CLIDX (§7.9). The free bytes of the write port are the model's, in assumption
log 80. -/
def Obligations.SplitOps : Prop :=
  (∀ (s u : State) (core k : Nat), s.focus core k = some u →
    let us := clusterTeams u u.t
    let same := ∀ v ∈ us, ∀ w ∈ us, ∀ a b, v.splitHead = some a → w.splitHead = some b → sharedBits a.2.1 = sharedBits b.2.1
    us.length = u.t.clusterSize → (∀ v ∈ us, v.atRendezvous = true) →
      (same → Ends (.splitRendezvous core k) s (fun t => t.mem = u.mem ∧ t.ctxs = u.ctxs ∧
        ∀ v ∈ t.teams, v.launch = u.t.launch → v.clorg = u.t.clorg → v.headReady = true)) ∧
      (¬ same → (u.teams.map (fun v => (v.core, v.slot))).Nodup → Ends (.splitRendezvous core k) s (fun t => t.mem = u.mem ∧
        (∀ v ∈ us, ∃ w ∈ t.teams, w.core = v.core ∧ w.slot = v.slot ∧ w.life = .stopped ∧ w.fCause = 0x06 ∧ w.acc = v.acc ∧
          w.tileQ = v.tileQ ∧ ∃ n, w.why = .fault n) ∧
        ∀ w ∈ t.teams, ¬ (w.launch = u.t.launch ∧ w.clorg = u.t.clorg) → w ∈ u.teams))) ∧
  (∀ (s u : State) (core k : Nat), s.focus core k = some u →
    ¬ ((clusterTeams u u.t).length = u.t.clusterSize ∧ ∀ v ∈ clusterTeams u u.t, v.atRendezvous = true) →
      exec (.splitRendezvous core k) s = .next u) ∧
  -- a panel is sent
  (∀ (s u v : State) (core k col : Nat) (p : List Nat), s.focus core k = some u → v = u.seePort → v.t.nextPanel = some (p, col) →
    let room := ∀ w ∈ clusterTeams v v.t, w.clusterCol = col → panelRoom v w = true
    let sent (w : Team) : Prop := w ∈ clusterTeams v v.t ∧ w.clusterCol = col
    (room → (u.teams.map (fun w => (w.core, w.slot))).Nodup → (∀ w ∈ clusterTeams v v.t, w.clidx = 0 → w = v.t) →
      Ends (.panelMulticastSend core k) s (fun t => t.mem = u.mem ∧ t.ctxs = u.ctxs ∧
        ∀ w ∈ v.teams, ∃ x ∈ t.teams, x.core = w.core ∧ x.slot = w.slot ∧
          (¬ sent w → x = if w = v.t then { w with tileQ := updNth w.tileQ 0 (fun c => { c with progress := c.progress + 1 }) } else w) ∧
          (∀ c q op d, sent w → w.splitHead = some (c, op, d) → w.tileQ = c :: q →
            let h := w.share d
            let took (ps : List (List Nat)) : Team := { w with tileQ := { c with panels := ps ++ [p], progress := c.progress + 1 } :: q }
            (c.panels.length < 4 → x = took c.panels) ∧
            (∀ o ps, c.panels = o :: ps → 4 ≤ c.panels.length → w.fits op d → 0 < sharePanels h → RegionIs (took ps) x op d (fun i j =>
              let n := min c.progress (sharePanels h) - c.panels.length
              if n / (h.kc / 32) = j / 32 then w.panelDot op d (32 * (n % (h.kc / 32))) o i (j % 32) (w.elem op d i j)
              else w.elem op d i j))))) ∧
    (¬ room → exec (.panelMulticastSend core k) s = .next v)) ∧
  -- an MN split ends at a participant
  (∀ (s u : State) (core k : Nat) (c : EngCmd) (q : List EngCmd) (op : CubeOp) (d : Desc), s.focus core k = some u → u.t.core = core →
    u.t.slot = k → (∀ t ∈ s.teams, t.core = core → t.headStarted = true → t.slot = k) →
    let v := u.seePort
    let h := v.t.share d
    v.t.tileQ = c :: q → v.t.splitHead = some (c, op, d) → c.stage = .started → v.t.splitKind d = 1 → v.t.fits op d →
    v.t.panelsIn = sharePanels h → v.t.clidx ≠ 0 ∨ v.t.nextPanel = none → c.panels.length ≤ 4 → c.panels.length ≤ sharePanels h →
    Ends (.cubeOpEnd core) s (fun t => t.mem = u.mem ∧
      RegionIs { v.t with tileQ := { c with stage := .done, panels := [] } :: q } t.t op d (fun i j =>
        (List.range c.panels.length).foldl (fun x m =>
          let n := sharePanels h - c.panels.length + m
          if n / (h.kc / 32) = j / 32 then v.t.panelDot op d (32 * (n % (h.kc / 32))) (c.panels.getD m []) i (j % 32) x else x)
          (v.t.elem op d i j)))) ∧
  -- a K split ends at all participants
  (∀ (s u : State) (core k : Nat) (h : Share) (member : Nat → Team) (head : Nat → EngCmd × CubeOp × Desc), s.focus core k = some u →
    u.t.core = core → u.t.slot = k → (∀ t ∈ s.teams, t.core = core → t.headStarted = true → t.slot = k) →
    let v := u.seePort
    let us := clusterTeams v v.t
    (u.teams.map (fun w => (w.core, w.slot))).Nodup → us.length = v.t.clusterSize → v.t.splitKind (head v.t.clidx).2.2 = 2 →
    (∀ i < us.length, member i ∈ us ∧ (member i).clidx = i) → (∀ w ∈ us, w.clidx < us.length ∧ w = member w.clidx ∧ w.headStarted = true) →
    32 ≤ h.kc → h.kc % 32 = 0 →
    (∀ i < us.length, (member i).splitHead = some (head i) ∧ (member i).share (head i).2.2 = h ∧ (member i).fits (head i).2.1 (head i).2.2 ∧
      (head i).2.1.kind ≤ 1 ∧ ((head i).2.1.kind = 1 → (head i).2.2.place ≠ 0) ∧ (head i).2.1.rows = BitVec.allOnes 128 ∧ (head i).2.1.rowOff = 0) →
    let part (n i j : Nat) (x : Word) : Word := (member n).dot (head n).2.1 (head n).2.2 i j x
    Ends (.cubeOpEnd core) s (fun t => t.mem = u.mem ∧ ∀ n < us.length, ∃ x ∈ t.teams, x.core = (member n).core ∧ x.slot = (member n).slot ∧
      RegionIs { member n with tileQ := { (head n).1 with stage := .done } :: (member n).tileQ.tail } x (head n).2.1 (head n).2.2 (fun i j =>
        if n = 0 then
          dotAccumulate (part 0 i j ((member 0).elem (head 0).2.1 (head 0).2.2 i j))
            ((List.range (us.length - 1)).map (fun m => v32 (part (m + 1) i j 0)))
        else part n i j 0)))

/-! ## Lane arithmetic -/

/-- The lane integer arithmetic at the width N of its TYPE, 32 or 64 bits, the bitwise and bit-field instructions, MOV, SEL, LI, LIH, CMP
and NOP: each participating lane's DST takes the result and nothing else changes; MOV.128 moves four registers and LI.F64 widens its immediate
exactly (§16.3, §16.11, §16.12, §16.21, §17.2, §18.6, §18.8,
§19.14). -/
def Obligations.LaneIntegers : Prop :=
  (∀ (s : State) (w : LWord), w.n ≤ 2 → w.ty ≠ 16 → w.dst.toNat + w.n ≤ 128 →
    let N := 32 * w.n
    let a (lane : Nat) : Nat := s.t.a w lane w.n
    let b (lane : Nat) : Nat := s.t.b w lane w.n
    let sa (lane : Nat) : Int := (BitVec.ofNat N (a lane)).toInt
    let sb (lane : Nat) : Int := (BitVec.ofNat N (b lane)).toInt
    let low (x : Int) : Nat := (x % 2 ^ N).toNat
    let sgn := w.ty = 10 ∨ w.ty = 12
    WritesV (.addLane w) s w w.n (fun l => a l + b l) ∧ WritesV (.subLane w) s w w.n (fun l => a l + (2 ^ N - b l)) ∧
    WritesV (.mulLane w) s w w.n (fun l => a l * b l) ∧ WritesV (.mad w) s w w.n (fun l => a l * s.t.b3 w l w.n + s.t.c w l w.n) ∧
    (sgn → WritesV (.mulhLane w) s w w.n (fun l => low (sa l * sb l / 2 ^ N)) ∧
      WritesV (.divLane w) s w w.n (fun l => if b l = 0 then 2 ^ N - 1 else low ((sa l).tdiv (sb l))) ∧
      WritesV (.minLane w) s w w.n (fun l => if sa l ≤ sb l then a l else b l) ∧
      WritesV (.maxLane w) s w w.n (fun l => if sa l < sb l then b l else a l) ∧
      WritesV (.sltLane w) s w 1 (fun l => if sa l < sb l then 1 else 0) ∧
      WritesV (.abs w) s w w.n (fun l => low |sa l|)) ∧
    (¬ sgn → WritesV (.mulhLane w) s w w.n (fun l => a l * b l / 2 ^ N) ∧
      WritesV (.divLane w) s w w.n (fun l => if b l = 0 then 2 ^ N - 1 else a l / b l) ∧
      WritesV (.minLane w) s w w.n (fun l => if a l ≤ b l then a l else b l) ∧
      WritesV (.maxLane w) s w w.n (fun l => if a l < b l then b l else a l) ∧
      WritesV (.sltLane w) s w 1 (fun l => if a l < b l then 1 else 0))) ∧
  (∀ (s : State) (w : LWord), w.n ≤ 2 → w.ty ≠ 16 → w.dst.toNat + w.n ≤ 128 →
    let N := 32 * w.n
    let a (lane : Nat) : Nat := s.t.a w lane w.n
    let b (lane : Nat) : Nat := s.t.b w lane w.n
    let field (c : Nat) : Nat × Nat := (c % 64, min (c / 256 % 128) N)
    WritesV (.andLane w) s w w.n (fun l => a l &&& b l) ∧ WritesV (.orLane w) s w w.n (fun l => a l ||| b l) ∧
    WritesV (.xorLane w) s w w.n (fun l => a l ^^^ b l) ∧ WritesV (.andnLane w) s w w.n (fun l => a l &&& (2 ^ N - 1 - b l)) ∧
    (∃ f, WritesV (.clzLane w) s w 1 f ∧ ∀ l, f l ≤ N ∧ a l < 2 ^ (N - f l) ∧ (f l < N → 2 ^ (N - 1 - f l) ≤ a l)) ∧
    WritesV (.popcLane w) s w 1 (fun l => (List.range N).countP (fun i => (a l).testBit i)) ∧
    (∃ f, WritesV (.brevLane w) s w w.n f ∧ ∀ l, ∀ i < N, (f l).testBit i = (a l).testBit (N - 1 - i)) ∧
    (∃ f, WritesV (.bfeLane w) s w w.n f ∧ ∀ l, ∀ i < N, (f l).testBit i = (let p := field (s.t.b w l 1)
      if w.fn = 1 then decide (p.2 ≠ 0) && (a l).testBit (min (p.1 + min i (p.2 - 1)) (N - 1))
      else decide (i < p.2) && (a l).testBit (p.1 + i))) ∧
    (∃ f, WritesV (.bfiLane w) s w w.n f ∧ ∀ l, ∀ i < N, (f l).testBit i = (let p := field (s.t.c w l 1)
      if p.1 ≤ i ∧ i < p.1 + p.2 then (s.t.b3 w l w.n).testBit (i - p.1) else (a l).testBit i)) ∧
    (w.fn.toNat ≤ 2 → 8 * 2 ^ w.fn.toNat ≤ N → WritesV (.zextLane w) s w w.n (fun l => a l % 2 ^ (8 * 2 ^ w.fn.toNat)) ∧
      ∃ f, WritesV (.sextLane w) s w w.n f ∧ ∀ l, ∀ i < N, (f l).testBit i = (a l).testBit (min i (8 * 2 ^ w.fn.toNat - 1))) ∧
    WritesV (.selLane w) s w w.n (fun l => if (s.t.pm (w.src3.toNat % 16)).getLsbD l then a l else s.t.b3 w l w.n) ∧
    WritesV (.movLane w) s w w.n a ∧
    WritesV (.liLane w) s w w.n (fun _ => if w.n = 2 then (w.hi.signExtend 64).toNat else w.hi.toNat) ∧
    (w.n = 2 → WritesV (.lihLane w) s w 2 (fun l => (s.t.vr l w.dst.toNat).toNat + 2 ^ 32 * w.hi.toNat)) ∧
    (w.fn.toNat ≤ 5 → WritesP (.cmpLane w) s w (fun l => cmpHolds w.fn N (BitVec.ofNat N (a l)) (BitVec.ofNat N (b l)))) ∧
    PassesL .nopLane s) ∧
  ∀ (s : State) (w : LWord), (w.n = 4 → w.dst.toNat + 4 ≤ 128 → WritesV (.movLane w) s w 4 (fun l => s.t.a w l 4)) ∧
    (w.ty = 16 → w.dst.toNat + 2 ≤ 128 → WritesV (.liLane w) s w 2 (fun _ => f64.round .rn (f32.value w.hi.toNat)) ∧
      WritesV (.movLane w) s w 2 (fun l => s.t.a w l 2))

/-- FMIN and FMAX return the lesser or the greater operand, −0 less than +0; the other operand if exactly one is NaN, the canonical NaN if
both are; always one of the operands exactly but for the canonical NaN (R355). -/
def Obligations.FloatMinMax : Prop :=
  (∀ (s : State) (w : LWord), w.dst.toNat + w.n ≤ 128 → ∀ wantMax : Bool,
    WritesV (if wantMax then .fmax w else .fmin w) s w w.n
      (fun l => eachElem w.ty.toNat (fun a b _ => w.fmt.minmax wantMax a b) (s.t.a w l w.n) (s.t.b w l w.n) 0)) ∧
  ∀ f ∈ [f16, bf16, f32, f64], ∀ a b : Nat, a < 2 ^ f.width → b < 2 ^ f.width →
    let nan (x : Nat) : Prop := f.value x = .nan
    let neg (x : Nat) : Bool := x.testBit (f.width - 1)
    (nan a → nan b → ∀ m, f.minmax m a b = f.nan) ∧ (nan a → ¬ nan b → ∀ m, f.minmax m a b = b) ∧
    (¬ nan a → nan b → ∀ m, f.minmax m a b = a) ∧
    (¬ nan a → ¬ nan b → (∀ m, f.minmax m a b = a ∨ f.minmax m a b = b) ∧
      (Machine.Num.lt (f.value a) (f.value b) = true → f.minmax false a b = a ∧ f.minmax true a b = b) ∧
      (Machine.Num.lt (f.value b) (f.value a) = true → f.minmax false a b = b ∧ f.minmax true a b = a) ∧
      (Machine.Num.eq (f.value a) (f.value b) = true → neg a = true → neg b = false → f.minmax false a b = a ∧ f.minmax true a b = b) ∧
      (Machine.Num.eq (f.value a) (f.value b) = true → neg a = false → neg b = true → f.minmax false a b = b ∧ f.minmax true a b = a))

/-- The floating-point lane instructions: each element's exact result rounded once under FN into DST of each participating lane, and
nothing else changes; the six approximating instructions within the bounds of Table 17.5, with its special and exact cases, those of FEXP2,
FLOG2, FSIN and FCOS against the model's reference series (log 4, a choice of the model) (§6.2, §6.3, §17.7). -/
def Obligations.LaneFloats : Prop :=
  (∀ (s : State) (w : LWord), w.dst.toNat + w.n ≤ 128 →
    let f := w.fmt
    let m := 2 ^ f.width
    let a (lane : Nat) : Nat := s.t.a w lane w.n
    let b (lane : Nat) : Nat := s.t.b w lane w.n
    let each (g : Nat → Nat → Nat → Nat) (x y z : Nat) : Nat :=
      if w.ty = 19 ∨ w.ty = 20 then g (x % m) (y % m) (z % m) + m * g (x / m % m) (y / m % m) (z / m % m) else g (x % m) (y % m) (z % m)
    let two (g : Machine.Num → Machine.Num → Machine.Num) (l : Nat) : Nat := each (fun x y _ => f.round w.mode (g (f.value x) (f.value y))) (a l) (b l) 0
    let op (g : Word → Word) (l : Nat) : Nat := approxTyped g w.ty.toNat (s.t.a w l 1)
    WritesV (.fadd w) s w w.n (two (Machine.Num.add w.mode)) ∧ WritesV (.fsub w) s w w.n (two (fun x y => Machine.Num.add w.mode x y.neg)) ∧
    WritesV (.fmul w) s w w.n (two Machine.Num.mul) ∧
    WritesV (.fma w) s w w.n (fun l => each (fun x y z => f.round w.mode (Machine.Num.add w.mode (Machine.Num.mul (f.value x) (f.value y)) (f.value z)))
      (a l) (s.t.b3 w l w.n) (s.t.c w l w.n)) ∧
    WritesV (.fdiv w) s w w.n (fun l => each (fun x y _ => f.div w.mode (f.value x) (f.value y)) (a l) (b l) 0) ∧
    WritesV (.fsqrt w) s w w.n (fun l => each (fun x _ _ => f.sqrt w.mode (f.value x)) (a l) 0 0) ∧
    WritesV (.frnd w) s w w.n (fun l => each (fun x _ _ => f.toIntegral w.mode x) (a l) 0 0) ∧
    (w.ty ≠ 10 → w.ty ≠ 12 → WritesV (.abs w) s w w.n (fun l => each (fun x _ _ =>
      if (f.value x).isNan then f.nan else x % 2 ^ (f.width - 1)) (a l) 0 0)) ∧
    WritesV (.fclass w) s w 1 (fun l => f.classify (a l % m)) ∧
    WritesP (.fcmp w) s w (fun l => fcmpHolds w.fn (f.value (a l % m)) (f.value (b l % m))) ∧
    WritesV (.frcp w) s w 1 (op frcp32) ∧ WritesV (.frsq w) s w 1 (op frsq32) ∧ WritesV (.fexp2 w) s w 1 (op fexp232) ∧
    WritesV (.flog2 w) s w 1 (op flog232) ∧ WritesV (.fsin w) s w 1 (op fsin32) ∧ WritesV (.fcos w) s w 1 (op fcos32)) ∧
  (∀ g ∈ [frcp32, frsq32, fexp232, flog232, fsin32, fcos32], ∀ x : Word, v32 x = .nan → g x = 0x7fc00000) ∧
  frcp32 0 = 0x7f800000 ∧ frcp32 0x80000000 = 0xff800000 ∧ frcp32 0x7f800000 = 0 ∧ frcp32 0xff800000 = 0x80000000 ∧
  frsq32 0 = 0x7f800000 ∧ frsq32 0x80000000 = 0xff800000 ∧ frsq32 0x7f800000 = 0 ∧ frsq32 0xff800000 = 0x7fc00000 ∧
  fexp232 0xff800000 = 0 ∧ fexp232 0x7f800000 = 0x7f800000 ∧
  flog232 0 = 0xff800000 ∧ flog232 0x80000000 = 0xff800000 ∧ flog232 0x7f800000 = 0x7f800000 ∧ flog232 0xff800000 = 0x7fc00000 ∧
  fsin32 0 = 0 ∧ fsin32 0x80000000 = 0x80000000 ∧ (∀ x ∈ [(0x7f800000 : Word), 0xff800000], fsin32 x = 0x7fc00000 ∧ fcos32 x = 0x7fc00000) ∧
  ∀ x : Word, (v32 x).isFin = true →
    let y := (v32 x).rat
    let v (g : Word → Word) : ℚ := (v32 (g x)).rat
    let turn (z : ℚ) (r : ℕ) : Prop := (r : ℚ) / 2 ^ 200 = z - 2 * ⌊z / 2⌋
    (y ≠ 0 → (2 ^ 128 ≤ |y⁻¹| → frcp32 x = if y < 0 then 0xff800000 else 0x7f800000) ∧
      (|y⁻¹| < 2 ^ 128 → (v32 (frcp32 x)).isFin = true ∧ UlpNear 1 (v frcp32) y⁻¹)) ∧
    (y < 0 → frsq32 x = 0x7fc00000 ∧ flog232 x = 0x7fc00000) ∧
    (0 < y → ∃ q : ℤ, 4 ^ (q + 23) * y ≤ 1 ∧ 2 ^ q ≤ v frsq32 ∧ (v frsq32 - 2 ^ q) ^ 2 * y ≤ 1 ∧ 1 ≤ (v frsq32 + 2 ^ q) ^ 2 * y) ∧
    (128 ≤ y → fexp232 x = 0x7f800000) ∧
    (y < 128 → fexp232 x ≠ 0x80000000 ∧ (∀ k : ℤ, y = k → -149 ≤ k → v fexp232 = 2 ^ k) ∧
      ∀ f : ℕ, (f : ℚ) / 2 ^ 200 = y - ⌊y⌋ → UlpNear 2 (v fexp232) (exp2Frac f / 2 ^ 200 * 2 ^ ⌊y⌋)) ∧
    (∀ k : ℤ, y = 2 ^ k → v flog232 = k ∧ (k = 0 → flog232 x = 0)) ∧
    (∀ (k : ℤ) (f : ℕ), y = f / 2 ^ 200 * 2 ^ k → 2 ^ 200 < f → f < 2 ^ 201 →
      let l : ℚ := k + log2Bits 100 f / 2 ^ 100
      UlpNear 2 (v flog232) l ∧ (1 / 2 ≤ y → y ≤ 2 → |v flog232 - l| ≤ 2 ^ (-22 : ℤ))) ∧
    (∀ k : ℤ, y = k / 2 → (y ≠ 0 → fsin32 x = if k % 4 = 1 then 0x3f800000 else if k % 4 = 3 then 0xbf800000 else 0) ∧
      fcos32 x = if k % 4 = 0 then 0x3f800000 else if k % 4 = 2 then 0xbf800000 else 0) ∧
    ∀ r < 2 ^ 201, r % 2 ^ 199 ≠ 0 → (turn y r → |v fsin32 - sinTurn r / 2 ^ 200| ≤ 2 ^ (-22 : ℤ) ∧ fsin32 x ≠ 0x80000000) ∧
      (turn (y + 1 / 2) r → |v fcos32 - sinTurn r / 2 ^ 200| ≤ 2 ^ (-22 : ℤ) ∧ fcos32 x ≠ 0x80000000)

/-- DOT2, CVT, BLKQ and BLKX: the products of two pairs accumulated as R128 gives, conversions between the types of Table 16.9, and the
block formats' codes and scale records; a conversion gives the exact value rounded once in the type or clamped to its range, and a block is
formed as QuantiseDXB and QuantiseOB do (R120, R124, R125, over the rationals) (§6.4, §6.5, §6.6, §16.13, §16.14, §16.24, §17.3). -/
def Obligations.LaneConversions : Prop :=
  (∀ (s : State) (w : LWord), w.dst.toNat + 2 ≤ 128 →
    let f := w.fmt
    let d := w.ty.toNat
    let c := (w.modb.extractLsb' 0 5).toNat
    let product (l k : Nat) : Machine.Num :=
      Machine.Num.mul (f.value (s.t.a w l 1 / 2 ^ (16 * k) % 2 ^ 16)) (f.value (s.t.b3 w l 1 / 2 ^ (16 * k) % 2 ^ 16))
    let element (ty l : Nat) : Nat := (rn32 (blockValue ty (s.t.a w l 1) (s.t.b3 w l 1))).toNat
    let block (l : Nat) : List Nat × Nat := quantise d w.mode ((List.range 8).map (fun k =>
      if (s.t.partMask w).getLsbD (l / 8 * 8 + k) then f32.value (s.t.a w (l / 8 * 8 + k) 1) else .fin false 0 0))
    WritesV (.dot2 w) s w 1 (fun l => (dotAccumulate (BitVec.ofNat 32 (s.t.c w l 1)) [product l 0, product l 1]).toNat) ∧
    WritesV (.blkq w) s w 2 (fun l => (block l).1.getD (l % 8) 0 + 2 ^ 32 * (block l).2) ∧
    WritesV (.blkx w) s w 1 (element d) ∧
    (21 ≤ c → WritesV (.cvt w) s w 1 (element c)) ∧
    (c < 21 → 21 ≤ d → WritesV (.cvt w) s w 2 (fun l => (block l).1.getD (l % 8) 0 + 2 ^ 32 * (block l).2)) ∧
    (c < 21 → d = 19 ∨ d = 20 → WritesV (.cvt w) s w 1 (fun l =>
      f.round w.mode (f32.value (s.t.a w l 1)) + 2 ^ 16 * f.round w.mode (f32.value (s.t.b3 w l 1)))) ∧
    (c < 21 → d < 19 → w.n ≤ 2 → WritesV (.cvt w) s w w.n (fun l =>
      fillBits d (convertTo w.mode d (typedValue c (s.t.a w l (typeRegs c))))))) ∧
  -- R120
  (∀ (mode : RMode) (v : Machine.Num) (ty : Nat),
    (5 ≤ ty → ty ≤ 12 → let r := intRange ty
      convertTo mode ty v = (match v with
        | .nan => 0
        | .inf neg => wrap (if neg then r.1 else r.2) (intWidth ty)
        | .fin _ _ _ => wrap (bounded r.1 r.2 (rnd mode v.rat)) (intWidth ty))) ∧
    (13 ≤ ty → ty ≤ 18 → let f := fmtOf ty
      match v with
      | .nan => f.value (convertTo mode ty v) = .nan
      | .inf neg => if f.sat then (f.value (convertTo mode ty v)).rat = if neg then -448 else 448 else f.value (convertTo mode ty v) = .inf neg
      | .fin neg m _ => (m = 0 → ∃ e, f.value (convertTo mode ty v) = .fin neg 0 e) ∧ (m ≠ 0 → f.Rounds mode v.rat neg (convertTo mode ty v)))) ∧
  ∀ (ty : Nat) (mode : RMode) (xs : List Machine.Num), 21 ≤ ty → ty ≤ 25 → xs.length = 8 → (∀ x ∈ xs, ∃ r < 2 ^ 32, x = f32.value r) →
    let w := blockWidth ty
    -- R124
    (ty ≤ 23 → (.nan ∈ xs → quantise ty mode xs = (xs.map (fun _ => 2 ^ (w - 2)), 0xff00)) ∧
      (.nan ∉ xs →
        let ys : List ℚ := xs.map (fun x => match x with
          | .inf neg => if neg then -f32.big else f32.big
          | v => v.rat)
        let mmax : Nat := 2 ^ (w - 2) - 1
        let mag (e : Nat) (y : ℚ) : Nat := (rnd mode (y / 2 ^ ((e : ℤ) - 127))).natAbs
        let codes (e0 e1 : Nat) : List Nat := ys.map (fun y =>
          let x := if mag e0 y ≤ mmax then 0 else 1
          let m := if mag e0 y ≤ mmax then mag e0 y else min (mag e1 y) mmax
          (if y < 0 ∧ m ≠ 0 then 2 ^ (w - 1) else 0) + x * 2 ^ (w - 2) + m)
        ((∀ y ∈ ys, y = 0) → quantise ty mode xs = (codes 0 0, 0)) ∧
        ∀ (big : ℚ) (h : ℤ), big ∈ ys.map abs → (∀ y ∈ ys, |y| ≤ big) → 2 ^ h ≤ big → big < 2 ^ (h + 1) →
          let t := (bounded 0 254 (h - ((w : ℤ) - 2) + 1 + 127)).toNat
          ∀ e1 : Nat, (t < 254 ∧ (∃ y ∈ ys, mmax < mag t y) → e1 = t + 1) → (¬ (t < 254 ∧ ∃ y ∈ ys, mmax < mag t y) → e1 = t) →
            quantise ty mode xs = (codes (e1 - (w - 2)) e1, (e1 - (w - 2)) + 256 * e1))) ∧
    -- R125
    (24 ≤ ty → (.nan ∈ xs → quantise ty mode xs = (xs.map (fun _ => 0), 0x7fc00000)) ∧
      (.nan ∉ xs →
        let lo : ℚ := (xs.map Machine.Num.rat).foldl min 0
        let hi : ℚ := (xs.map Machine.Num.rat).foldl max 0
        let qmax : ℤ := 2 ^ w - 1
        let endless : Prop := .inf false ∈ xs ∨ .inf true ∈ xs
        (¬ endless → lo = hi → quantise ty mode xs = (xs.map (fun _ => 0), 0)) ∧
        (endless ∨ lo ≠ hi → ∃ sb : Nat, (endless → sb = bf16.maxMag) ∧
          (¬ endless → ∃ raw, bf16.Rounds .rn ((hi - lo) / qmax) false raw ∧
            sb = if (bf16.value raw).isInf then bf16.maxMag else if (bf16.value raw).isZero then 1 else raw) ∧
          let scale := (bf16.value sb).rat
          let z : ℤ := if .inf true ∈ xs then qmax else bounded 0 qmax (rnd .rn (-lo / scale))
          quantise ty mode xs = (xs.map (fun x => match x with
            | .inf neg => if neg then 0 else qmax.toNat
            | v => (bounded 0 qmax (rnd mode (v.rat / scale) + z)).toNat), z.toNat + sb * 2 ^ 16))))

/-- PLOP, VOTE, SHFL, REDUCE and SCAN over the participating lanes of a group, or of the path under .T, REDUCE and SCAN taking the
identity in place of every other lane; that a NaN which a SCAN has met alone comes out canonical is the choice of the model (log 64)
(§18.13, §18.16, §18.19, §19.10). -/
def Obligations.Collectives : Prop :=
  ∀ (s : State) (w : LWord), w.n ≤ 2 → w.dst.toNat + w.n ≤ 128 →
    let bit (f : BitVec 7) (l : Nat) : Bool := (s.t.pm (f.toNat % 16)).getLsbD l
    let peers (l : Nat) : List Nat := (s.t.parts w).filter (fun k => w.modb.getLsbD 0 || decide (k / 32 = l / 32))
    let a (l : Nat) : Nat := s.t.a w l w.n
    let places (l : Nat) : List Nat := if w.modb.getLsbD 0 then List.range (laneCount s.t.gmax) else (List.range 32).map (32 * (l / 32) + ·)
    let taken (ks : List Nat) : List Nat := ks.map (fun k => if (s.t.partMask w).getLsbD k then a k else identity w.fn w.ty)
    WritesP (.plop w) s w (fun l => w.modb.getLsbD
      ((if bit w.src1 l then 4 else 0) + (if bit w.src2 l then 2 else 0) + (if bit w.src3 l then 1 else 0))) ∧
    (w.fn = 0 → WritesP (.vote w) s w (fun l => decide (∃ k ∈ peers l, bit w.src1 k = true))) ∧
    (w.fn = 1 → WritesP (.vote w) s w (fun l => decide (∀ k ∈ peers l, bit w.src1 k = true))) ∧
    (w.fn = 2 → WritesP (.vote w) s w (fun l => decide (∀ k ∈ peers l, ∀ j ∈ peers l, bit w.src1 k = bit w.src1 j))) ∧
    (w.fn = 3 → ∃ f, WritesV (.vote w) s w 1 f ∧ ∀ l < 1024, f l < 2 ^ 32 ∧ ∀ j < 32,
      (f l).testBit j = ((s.t.partMask w).getLsbD (l / 32 * 32 + j) && bit w.src1 (l / 32 * 32 + j))) ∧
    WritesV (.shfl w) s w w.n (fun l => match shflSource w.fn (l % 32) (s.t.b w l 1) with
      | some j => if (s.t.partMask w).getLsbD (l / 32 * 32 + j) then a (l / 32 * 32 + j) else a l
      | none => a l) ∧
    WritesV (.reduce w) s w w.n (fun l => combineAll w.fn w.ty (taken (places l))) ∧
    (w.fn = 0 → WritesV (.reduce w) s w w.n (fun l => ((peers l).map a).sum)) ∧
    WritesV (.scan w) s w w.n (fun l => combineAll w.fn w.ty
      (taken ((places l).filter (fun k => if w.modb.getLsbD 1 then decide (k < l) else decide (k ≤ l)))))

/-! ## Paths -/

/-- BR and BRX send the path's lanes to their destinations, splitting the path when they differ; CALL pushes the successor and RET pops
it, ending the block for the path's lanes on an empty stack; JOIN only orders; PRIO and YIELD set the path's priority; EXIT takes its
lanes out of the team but those with a parked access, for which the path stays at it, releases their order tokens and frees the lane-file
entries of a group they leave empty; no free path-table entry and a full return stack are stopping
faults, whose records carry ACCESS 0, the model's reading (log 23) (§3.3, §3.4, §16.15, §16.17, §16.19, §17.6, §18.3, §18.14, §18.17, §19.13). -/
def Obligations.LanePaths : Prop :=
  ∀ (s : State) (w : LWord),
    let p := s.t.cur
    let k (lo : Nat) : Int := (w.hi.extractLsb' lo 16).toInt
    let takes := s.t.partMask w
    let stays := p.mask &&& ~~~ takes
    let lanes := lanesIn (laneCount s.t.gmax) p.mask
    let dest (lane : Nat) : DWord :=
      if takes.getLsbD lane then laneShift s.t.blockEntry ((s.t.a w lane 1 : Nat) : Int) else laneNext p.pc
    let path (i : Instr) (f : Path → Path) : Prop := Ends i s (fun t =>
      t.t.paths = s.t.paths.map (fun q => if q.idx = s.t.curPath then f q else q) ∧
      t = { s with t := { s.t with paths := t.t.paths, arms := t.t.arms } })
    let full (i : Instr) : Prop := s.t.ctx < s.ctxs.length → StopsTeam i s 0x05 0 true p.pc 0
    let late := maskOf ((s.t.parts w).filter s.t.pending)
    let gone := takes &&& ~~~ late
    (takes = 0 → PassesL (.br w) s) ∧
    (takes ≠ 0 → stays = 0 → path (.br w) (fun q => { q with pc := laneShift p.pc (k 0) })) ∧
    (takes ≠ 0 → stays ≠ 0 → s.t.freeEntries = [] → full (.br w)) ∧
    (∀ e es, takes ≠ 0 → stays ≠ 0 → s.t.freeEntries = e :: es → s.t.Issues → Ends (.br w) s (fun t =>
      t.t.paths = s.t.paths.map (fun q => if q.idx = s.t.curPath then
          { q with pc := laneNext p.pc, mask := stays, split := some s.t.nextSplit, joined := false } else q) ++
        [{ p with idx := e, pc := laneShift p.pc (k 0), mask := takes, split := some s.t.nextSplit, yielded := false, joined := false }] ∧
      (∃ u, t.t.splits = u :: s.t.splits ∧ u.id = s.t.nextSplit ∧ u.rejoin = laneShift p.pc (k 16) ∧ u.parent = s.t.curPath ∧
        u.arms = [s.t.curPath, e] ∧ u.prio = p.prio ∧ u.outer = p.split) ∧
      t = { s with t := { s.t with
        paths := t.t.paths, splits := t.t.splits, nextSplit := s.t.nextSplit + 1, arms := t.t.arms } })) ∧
    (lanes = [] → PassesL (.brx w) s) ∧
    (∀ a, lanes ≠ [] → (∀ lane ∈ lanes, dest lane = a) → path (.brx w) (fun q => { q with pc := a })) ∧
    (∀ m a, (m, a) ∈ brxArms s.t w → ∀ lane < 1024, m.getLsbD lane = true ↔ lane ∈ lanes ∧ dest lane = a) ∧
    (∀ lane ∈ lanes, ∃ m, (m, dest lane) ∈ brxArms s.t w) ∧ ((brxArms s.t w).map (·.2.toNat)).Pairwise (· < ·) ∧
    (2 ≤ (brxArms s.t w).length → (brxArms s.t w).length ≤ s.t.freeEntries.length + 1 → s.t.Issues → Ends (.brx w) s (fun t =>
      (∀ m a, (m, a) ∈ brxArms s.t w → ∃ q ∈ t.t.paths, q.pc = a ∧ q.mask = m ∧ q.split = some s.t.nextSplit) ∧
      (∃ u, t.t.splits = u :: s.t.splits ∧ u.id = s.t.nextSplit ∧ u.rejoin = laneShift p.pc (k 16)) ∧
      t = { s with t := { s.t with
        paths := t.t.paths, splits := t.t.splits, nextSplit := s.t.nextSplit + 1, arms := t.t.arms } })) ∧
    (s.t.freeEntries.length + 1 < (brxArms s.t w).length → full (.brx w)) ∧
    (p.rstack.length < 16 → path (.call w) (fun q => { q with rstack := laneNext q.pc :: q.rstack, pc := laneShift q.pc (k 0) })) ∧
    (16 ≤ p.rstack.length → full (.call w)) ∧
    (∀ pc rest, p.rstack = pc :: rest → path .ret (fun q => { q with pc := pc, rstack := q.rstack.drop 1 })) ∧
    (p.rstack = [] → Ends .ret s (fun t => t.t.paths = s.t.paths.map (fun q => { q with mask := q.mask &&& ~~~ p.mask }) ∧
      t = { s with t := { s.t with paths := t.t.paths, arms := t.t.arms } })) ∧
    PassesL .join s ∧
    path (.prio w) (fun q => { q with prio := w.hi.extractLsb' 0 3, pc := laneNext q.pc }) ∧
    path .yield (fun q => { q with prio := 0, yielded := true, pc := laneNext q.pc }) ∧
    Ends (.exit w) s (fun t => t.t.bunting = s.t.bunting &&& ~~~ gone ∧
      t.t.paths = s.t.paths.map (fun q => { q with
        mask := q.mask &&& ~~~ gone, pc := if q.idx = s.t.curPath ∧ late = 0 then laneNext q.pc else q.pc }) ∧
      (∀ b, b ∈ t.t.bindings ↔ b ∈ s.t.bindings ∧ gone.getLsbD b.lane = false) ∧ t.mem = s.mem ∧ t.caches = s.caches ∧
      (∀ i, i ∈ t.front.orders ↔ i ∈ s.front.orders ∧ ∀ b ∈ s.t.bindings, gone.getLsbD b.lane = true → b.item ≠ i) ∧
      (∀ r, sget 0 t.t.file r = if groupWord t.t.bunting (r / 128) ≠ 0 then sget 0 s.t.file r else 0) ∧
      (∀ r, r ∈ t.t.spilled ↔ r ∈ s.t.spilled ∧ groupWord t.t.bunting (r / 128) ≠ 0) ∧
      t.t = { s.t with
        bunting := t.t.bunting, paths := t.t.paths, arms := t.t.arms, bindings := t.t.bindings, file := t.t.file, spilled := t.t.spilled })

/-! ## Barriers and merges -/

/-- ARRIVE sets the arrived flags of the path's lanes; BAR and BAR.E set them and hold the path; AWAIT and AWAIT.E pass where none is set
and hold otherwise, AWAIT.E draining to the engine path as it passes; a barrier completes when every counted lane has arrived, which
clears its flags and sends its waiting paths on; a split whose arms have all arrived becomes one path again. That what drains is the whole
write port and the core's whole buffer is the model's choice (log 87) (§3.3, §3.6, §8.8, §16.4,
§16.7, §16.9). -/
def Obligations.Barriers : Prop :=
  (∀ (s : State) (w : LWord),
    let b := (w.hi.extractLsb' 0 5).toNat
    let p := s.t.cur
    let flags (t : State) : Prop := ∀ n, t.t.flags n = if n = b then s.t.flags n ||| p.mask else s.t.flags n
    let holds (t : State) (e : Bool) : Prop :=
      t.t.paths = s.t.paths.map (fun q => if q.idx = s.t.curPath then { q with hold := .barrier b e } else q)
    let only (t : State) : Prop := t = { s with t := { s.t with barriers := t.t.barriers, paths := t.t.paths, arms := t.t.arms } }
    Ends (.arrive w) s (fun t => flags t ∧ only t ∧
      t.t.paths = s.t.paths.map (fun q => if q.idx = s.t.curPath then { q with pc := laneNext q.pc } else q)) ∧
    Ends (.bar w) s (fun t => flags t ∧ holds t false ∧ only t) ∧
    Ends (.barE w) s (fun t => flags t ∧ holds t true ∧ only t) ∧
    (s.t.flags b &&& p.mask = 0 → PassesL (.await w) s ∧ Ends (.awaitE w) s (fun t =>
      t.t.port = [] ∧ (∀ o, sget 0 t.t.spad o = s.t.spadByte o) ∧ (∀ l ∈ t.caches.wc, l.core ≠ s.t.core) ∧
      t.t = { s.t.endL with port := t.t.port, spad := t.t.spad })) ∧
    (s.t.flags b &&& p.mask ≠ 0 → Ends (.await w) s (fun t => holds t false ∧ only t ∧ t.t.barriers = s.t.barriers) ∧
      Ends (.awaitE w) s (fun t => holds t true ∧ only t ∧ t.t.barriers = s.t.barriers))) ∧
  (∀ (s u : State) (c k b : Nat), s.focus c k = some u → u.t.moves = true → u.t.paused = false →
    (u.t.flags b ≠ 0 ∧ u.t.counted &&& ~~~ u.t.flags b = 0 → Ends (.barrierComplete c k b) s (fun t =>
      (∀ n, t.t.flags n = if n = b then 0 else u.t.flags n) ∧
      t.t.paths = u.t.paths.map (fun q => if q.waitsAt b false then { q with hold := .none, pc := laneNext q.pc } else q) ∧
      t.t = { u.t with barriers := t.t.barriers, paths := t.t.paths, arms := t.t.arms, port := t.t.port, spad := t.t.spad } ∧
      (u.t.paths.any (fun q => q.waitsAt b true) = true → t.t.port = [] ∧ ∀ l ∈ t.caches.wc, l.core ≠ u.t.core))) ∧
    (¬ (u.t.flags b ≠ 0 ∧ u.t.counted &&& ~~~ u.t.flags b = 0) → exec (.barrierComplete c k b) s = .next u)) ∧
  (∀ (s u : State) (c k n : Nat) (x : Split), s.focus c k = some u → u.t.moves = true → u.t.paused = false →
    u.t.splits.find? (fun y => y.id == n) = some x → u.t.canMerge x = true → Ends (.pathMerge c k n) s (fun t =>
      (∀ q ∈ t.t.paths, q.idx = x.parent → q.mask = x.arms.foldl (fun m i => m ||| (u.t.path i).mask) 0 ∧ q.pc = x.rejoin ∧
        q.split = x.outer ∧ q.prio = x.prio) ∧
      (∀ q, q.idx ≠ x.parent → (q ∈ t.t.paths ↔ q ∈ u.t.paths ∧ q.idx ∉ x.arms)) ∧
      t.t.splits = u.t.splits.filter (fun y => y.id != x.id) ∧
      t = { u with t := { u.t with paths := t.t.paths, splits := t.t.splits, arms := t.t.arms } }))

/-! ## Futures -/

/-- FORK, COMMIT, SQUASH, RANK, WARP and FLIP give their status or do their work: FORK makes its pennants Live with their prediction
records and clears their control-block fields, keeping committed pushes that still wait, and teams that wait to FORK do so in the order in
which they came; COMMIT and SQUASH begin, dropping the other Live pennants, a COMMIT behind one under way stands at the table; in one mesh clock
a change from a lower core goes before one from a higher (that it waits for the next clock otherwise is the model's reading, log 92); RANK, an entry of the tile queue, scores every Live pennant; WARP,
an entry of the copy queue, resamples an image, pixel by pixel up to a free stopping point (log 33, a choice of the model); of these, FORK, RANK
and WARP go on where they had begun, RANK over what it took then (log 70, a choice of the model); a FLIP of the trunk is queued at its head, one
of a pennant in its buffer (§10.1, §10.5, §10.6, §10.7, §10.8, §16.22, §17.9, §17.10, §18.15, §18.21, §19.11). -/
def Obligations.Futures : Prop :=
  ∀ (s : State) (d a b : BitVec 5) (pcb : DWord),
    let c := s.t.ctx
    let x := ctxOf s c
    let m := (s.t.xr a).toNat
    let at_ := s.t.xr a
    let given (n : DWord) (t : State) : Prop := ∀ q, t.t.xr q = if q = d ∧ d ≠ 0 then n else s.t.xr q
    let left (q : List EngCmd) : List EngCmd := q.filter (fun e => decide (e.body ≠ .stall))
    let done (t : State) : Prop := t.t = { s.t with
      x := t.t.x, spc := s.t.spc + 4, wait := .none, tileQ := left s.t.tileQ, copyQ := left s.t.copyQ }
    let mine (q : List EngCmd) : Prop := ∃ e es, q = e :: es ∧ e.body = .stall
    let plainQ : Prop := left s.t.tileQ = s.t.tileQ ∧ left s.t.copyQ = s.t.copyQ
    let live := x.pensIn .live
    let behind : Prop := ∃ e es, x.forks = e :: es ∧ e ≠ s.t.ident ∧ ∃ u ∈ s.teams, u.ctx = c ∧ u.ident = e ∧ u.alive = true
    let words (o : Nat) : List Word := wordsOf (memBytes s.mem (pcb.toNat + o) 64) 16
    let score (p : Nat) : Word := defaultScore (((words 0).zip (x.pen p).pred).map (fun e => fsub32 e.1 e.2))
    let blk := warpBlock (memBytes s.mem at_.toNat 52)
    let q := if blk.q = 0 then x.committed else blk.q
    let ranks (tol : Word) (ls : List Nat) : Prop :=
      Still s c → PcbAt s c pcb → natAt (memBytes s.mem (pcb.toNat + 0x230) 8) 0 8 = 0 → ls ≠ [] → left s.t.copyQ = s.t.copyQ →
        Ends (.rank d) s (fun t => done t ∧ (∀ p ∈ ls, ((ctxOf t c).pen p).score = some (score p) ∧
            ((ctxOf t c).pen p).exceeds = exceedsTol (score p) tol) ∧
          (∃ p r, bestOf (ls.map (fun p => (p, score p))) = some (p, r) ∧
            given (BitVec.ofNat 64 (16 * p + (if exceedsTol r tol then 128 else 0))) t) ∧
          Wrote s t (ls.map (fun p => (pcb.toNat + 0x200 + 4 * p, leBytes 4 (score p).toNat))))
    let warps (r : WarpRun) (t : State) : Prop :=
      let g := r.blk
      let source (z y : Nat) : List Byte := memBytes s.mem (g.src.toNat + y * g.sp + 4 * z) 4
      let to_ (k : Nat) : Nat := g.dst.toNat + k / g.w * g.dp + 4 * (k % g.w)
      let shared (e : Nat) : Prop := ∃ y < g.h, g.src.toNat + y * g.sp ≤ e ∧ e < g.src.toNat + y * g.sp + 4 * g.w
      ∃ n, r.pos < n ∧ n ≤ g.w * g.h ∧
        (∀ k, r.pos ≤ k → k < n → ∀ i < 4, ¬ shared (to_ k + i) →
          some (sget 0 t.mem (to_ k + i)) = (warpPixel g r.mat source (k / g.w) (k % g.w))[i]?) ∧
        (∀ e, (∀ k, r.pos ≤ k → k < n → ¬ (to_ k ≤ e ∧ e < to_ k + 4)) → sget 0 t.mem e = sget 0 s.mem e) ∧
        (n = g.w * g.h → given 0 t ∧ done t ∧ (ctxOf t c).held = []) ∧
        (n < g.w * g.h → ∃ u : WarpRun, u.blk = g ∧ u.mat = r.mat ∧ u.pos = n ∧ u.begun = true ∧ mine t.t.copyQ ∧
          left t.t.copyQ = left s.t.copyQ ∧ t.t = { s.t with copyQ := t.t.copyQ, wait := .warp (.warp d a) u })
    let late : Prop := ∃ n, x.tableAt = some (meshClock s, n) ∧ s.t.core < n
    let forks : Prop := m % 2 = 0 ∧ m ≠ 0 ∧ m < 256 ∧ (s.t.xr b).toNat % 1024 = 0
    let inMemory (g : WarpBlock) : Prop := g.src.toNat + g.h * g.sp ≤ 0x1000000000 ∧ g.dst.toNat + g.h * g.dp ≤ 0x1000000000
    -- the trunk alone forks, commits, squashes, ranks and warps
    (s.t.wait = .none → s.t.pennant ≠ 0 → WritesX (.fork d a b) s d 1 ∧ WritesX (.rank d) s d 1 ∧ WritesX (.warp d a) s d 1 ∧
      WritesX (.commit d a) s d 1 ∧ WritesX (.squash d a) s d 1) ∧
    -- FORK
    (s.t.wait = .none → s.t.pennant = 0 → (m % 2 ≠ 0 ∨ m = 0 ∨ 256 ≤ m ∨ (s.t.xr b).toNat % 1024 ≠ 0) → WritesX (.fork d a b) s d 3) ∧
    (s.t.wait ≠ .none ∨ (s.t.pennant = 0 ∧ forks) → late → Waits (.fork d a b) s) ∧
    (s.t.wait = .none → s.t.pennant = 0 → forks → ¬ late →
      (behind ∨ x.pensIn .committing ≠ [] ∨ x.pensIn .dropping ≠ [] → c < s.ctxs.length → Ends (.fork d a b) s (fun t =>
        let new : Prop := s.t.ident ∉ x.forks
        (ctxOf t c).forks = x.forks ++ (if new then [s.t.ident] else []) ∧
        (ctxOf t c).tableAt = (if new then some (meshClock s, s.t.core) else x.tableAt) ∧
        t = { s with ctxs := s.ctxs.set c { x with forks := (ctxOf t c).forks, tableAt := (ctxOf t c).tableAt } })) ∧
      (x.forks = [] → x.pensIn .committing = [] → x.pensIn .dropping = [] → live ≠ [] → WritesX (.fork d a b) s d 2)) ∧
    ((s.t.wait = .none → (x.forks = [] ∨ x.forks.head? = some s.t.ident) ∧ x.pensIn .committing = [] ∧ x.pensIn .dropping = [] ∧ live = []) →
      plainQ →
      (s.t.wait = .none ∨ s.t.wait = .fork (.fork d a b)) → s.t.pennant = 0 → forks → s.t.xr b = pcb → ¬ late → Still s c → x.held = [] → c < s.ctxs.length → x.pens.length = 7 → pcb.toNat + 1024 ≤ 0x1000000000 →
        Ends (.fork d a b) s (fun t => given 0 t ∧ done t ∧
          (∀ p, 1 ≤ p → p ≤ 7 → (ctxOf t c).pen p = if bit m p then
            { Pennant.reset with st := .live, pred := words (0x40 * p), appending := (x.pen p).appending } else x.pen p) ∧
          (ctxOf t c).pcb = some pcb ∧ (ctxOf t c).forkMask = m ∧ (ctxOf t c).committed = 0 ∧ s.t.ident ∉ (ctxOf t c).forks ∧
          Wrote s t ((pcb.toNat + 0x22c, leBytes 4 0) :: (maskPens m).map (fun p => (pcb.toNat + 0x200 + 4 * p, leBytes 4 0)) ++
            (maskPens m).map (fun p => (pcb.toNat + 0x220 + p, [1]))))) ∧
    (s.t.wait = .forked (.fork d a b) → plainQ → ¬ late → Still s c → PcbAt s c pcb → Ends (.fork d a b) s (fun t => given 0 t ∧ done t ∧
      (∀ p, 1 ≤ p → p ≤ 7 → (ctxOf t c).pen p = if bit m p then { x.pen p with st := .live } else x.pen p) ∧ s.t.ident ∉ (ctxOf t c).forks ∧
      Wrote s t ((maskPens m).map (fun p => (pcb.toNat + 0x220 + p, [1]))))) ∧
    -- COMMIT and SQUASH
    (s.t.wait = .none → s.t.pennant = 0 → (m < 1 ∨ 7 < m) → WritesX (.commit d a) s d 3 ∧ WritesX (.squash d a) s d 3) ∧
    (s.t.wait ≠ .none → Waits (.commit d a) s ∧ Waits (.squash d a) s) ∧
    (s.t.wait = .none → s.t.pennant = 0 → 1 ≤ m → m ≤ 7 → late → Waits (.commit d a) s ∧ Waits (.squash d a) s) ∧
    (s.t.wait = .none → s.t.pennant = 0 → 1 ≤ m → m ≤ 7 → ¬ late →
      ((x.pen m).st ≠ .live → WritesX (.squash d a) s d 2 ∧
        (x.commit = none → x.pensIn .committing = [] → WritesX (.commit d a) s d 2)) ∧
      (x.commit ≠ none ∨ x.pensIn .committing ≠ [] → exec (.commit d a) s = .next { s with
        ctxs := updNth s.ctxs c (fun x => { x with tableAt := some (meshClock s, s.t.core) }), t := { s.t with wait := .behind d m } }) ∧
      ((x.pen m).st = .live → Still s c → PcbAt s c pcb →
        Ends (.squash d a) s (fun t => t.t = { s.t with wait := .squash d m } ∧ Wrote s t [(pcb.toNat + 0x220 + m, [3])] ∧
          ∀ p, 1 ≤ p → p ≤ 7 → ((ctxOf t c).pen p).st = if p = m then .dropping else (x.pen p).st) ∧
        (x.commit = none → x.pensIn .committing = [] → Ends (.commit d a) s (fun t => t.t = { s.t with wait := .commit d m } ∧
          (∃ run, (ctxOf t c).commit = some run ∧ run.pennant = m ∧ run.queue = none ∧ run.switched = false) ∧
          Wrote s t ((pcb.toNat + 0x220 + m, [2]) :: (live.filter (fun p => p != m)).map (fun p => (pcb.toNat + 0x220 + p, [3]))) ∧
          ∀ p, 1 ≤ p → p ≤ 7 → ((ctxOf t c).pen p).st =
            if p = m then .committing else if (x.pen p).st = .live then .dropping else (x.pen p).st)))) ∧
    -- RANK, under the default score
    (s.t.pennant = 0 → (s.t.wait = .none →
      (x.pcb = none → WritesX (.rank d) s d 4) ∧ (x.pcb = some pcb → live = [] → WritesX (.rank d) s d 2) ∧
      (x.pcb = some pcb → live ≠ [] → 32 ≤ s.t.tileQ.length → Waits (.rank d) s) ∧
      (x.pcb = some pcb → live ≠ [] → s.t.tileQ ≠ [] → s.t.tileQ.length < 32 → left s.t.tileQ = s.t.tileQ → Ends (.rank d) s (fun t =>
        ∃ e : EngCmd, e.body = .stall ∧ t = { s with t := { s.t with tileQ := s.t.tileQ ++ [e], wait := .queued (.rank d) } })) ∧
      (s.t.tileQ = [] → ranks x.warptol live)) ∧
      (s.t.wait = .queued (.rank d) → x.pcb = some pcb → (¬ mine s.t.tileQ → Waits (.rank d) s) ∧
        (mine s.t.tileQ → ranks x.warptol live)) ∧
      (∀ i tol ls, s.t.wait = .rank i tol ls → mine s.t.tileQ → ranks tol (ls.filter (fun p => decide ((x.pen p).st = .live))))) ∧
    -- WARP
    (s.t.wait = .none → s.t.pennant = 0 → m % 128 ≠ 0 → WritesX (.warp d a) s d 3) ∧
    (s.t.wait = .none → s.t.pennant = 0 → m % 128 = 0 → (x.pcb = none → WritesX (.warp d a) s d 2) ∧
      (x.pcb = some pcb → 64 ≤ s.t.copyQ.length → Waits (.warp d a) s) ∧
      (s.t.copyQ.length < 64 → plainQ → Still s c → PcbAt s c pcb → m + 52 ≤ 0x1000000000 →
        (blk.sizesOk = false ∨ 7 < blk.q ∨ q = 0 → WritesX (.warp d a) s d 3) ∧
        (blk.sizesOk = true → blk.q ≤ 7 → q ≠ 0 → bit x.forkMask q = false → WritesX (.warp d a) s d 2) ∧
        (blk.sizesOk = true → blk.q ≤ 7 → q ≠ 0 → bit x.forkMask q = true →
          let run : WarpRun := { blk := blk, mat := warpMatrix (x.pen q).pred (words 0), pos := 0, begun := false, snap := [] }
          (s.t.copyQ ≠ [] → Ends (.warp d a) s (fun t => t.mem = s.mem ∧ ∃ e : EngCmd, e.body = .stall ∧
            t.t = { s.t with copyQ := s.t.copyQ ++ [e], wait := .warp (.warp d a) run })) ∧
          (s.t.copyQ = [] → inMemory blk → Ends (.warp d a) s (warps run))))) ∧
    (∀ i r, s.t.wait = .warp i r → ¬ mine s.t.copyQ → Waits (.warp d a) s) ∧
    (∀ i r, s.t.wait = .warp i r → mine s.t.copyQ → left s.t.tileQ = s.t.tileQ → r.begun = true → s.t.pennant = 0 → Still s c → r.blk.sizesOk = true → inMemory r.blk → r.snap = [] →
      r.pos < r.blk.w * r.blk.h →
      (∀ y < r.blk.h, ∀ z < r.blk.h, r.blk.src.toNat + y * r.blk.sp + 4 * r.blk.w ≤ r.blk.dst.toNat + z * r.blk.dp ∨
        r.blk.dst.toNat + z * r.blk.dp + 4 * r.blk.w ≤ r.blk.src.toNat + y * r.blk.sp) → Ends (.warp d a) s (warps r)) ∧
    -- FLIP
    (3 < m ∨ (s.t.xr b).toNat % 256 ≠ 0 → WritesX (.flip d a b) s d 3) ∧
    (m ≤ 3 → (s.t.xr b).toNat % 256 = 0 →
      let f : Flip := { head := m, surface := s.t.xr b, ctx := c }
      let done (t : State) : Prop := t.t = { s.t with x := t.t.x, spc := s.t.spc + 4 }
      (s.t.pennant = 0 → (headOf s m).room = false → Waits (.flip d a b) s) ∧
      (s.t.pennant = 0 → (headOf s m).room = true → (headOf s m).enabled = true → m < s.heads.length →
        Ends (.flip d a b) s (fun t => given 0 t ∧ done t ∧ (headOf t m).queue = (headOf s m).queue ++ [f] ∧
          ∀ h, h ≠ m → headOf t h = headOf s h)) ∧
      (s.t.pennant ≠ 0 → 4 ≤ (x.pen s.t.pennant).flips.length → WritesX (.flip d a b) s d 4) ∧
      (s.t.pennant ≠ 0 → s.t.pennant ≤ 7 → (x.pen s.t.pennant).flips.length < 4 → c < s.ctxs.length → x.pens.length = 7 →
        Ends (.flip d a b) s (fun t => given 0 t ∧ done t ∧ t.heads = s.heads ∧
          ((ctxOf t c).pen s.t.pennant).flips = (x.pen s.t.pennant).flips ++ [f])))

/-! ## Futures' own steps, and teams that move, retire and go on -/

/-- The switch of a COMMIT makes the pennant's version the trunk's line, empties every sampler cache and writes the control block; once
that is written the pennant is Free and the COMMIT gives its status; a dropped pennant becomes Free once its byte is written, and a SQUASH that
waits for it gives 0, a COMMIT that waits behind one 2; committed pushes enter the store as it has room (§10.2, §10.6, §10.7, §10.8). -/
def Obligations.FutureSteps : Prop :=
  ∀ (s : State) (c p : Nat) (b : DWord),
    let x := ctxOf s c
    (∀ (run : CommitRun) (v : Ver), 1 ≤ p → p ≤ 7 → Still s c → PcbAt s c b → x.commit = some run → run.pennant = p → run.switched = false →
      pcbParked s c = false → s.caches.vers = [v] → v.ctx = c → v.pennant = p → v.data.length = 128 → s.caches.logs = [] →
      (x.pen p).pushes = [] → (x.pen p).appending = [] → Ends (.commitSwitch c) s (fun t =>
        ((ctxOf t c).pen p).st = (x.pen p).st ∧ (ctxOf t c).committed = p ∧ (ctxOf t c).commit = some { run with switched := true } ∧
        t.caches.vers = [] ∧ t.caches.samp = [] ∧ (∀ u ∈ t.teams, ¬ (u.ctx = c ∧ u.pennant = p)) ∧
        Wrote s t [(128 * v.line, v.data), (b.toNat + 0x22c, leBytes 4 p), (b.toNat + 0x220 + p, [0])])) ∧
    (∀ (run : CommitRun), c < s.ctxs.length → x.commit = some run → run.switched = true → pcbParked s c = false → run.queue = none →
      run.stat = 0 → x.commitQ = [] → run.pennant = p → 1 ≤ p → p ≤ 7 → x.pens.length = 7 →
      Ends (.commitSwitch c) s (fun t => (ctxOf t c).commit = none ∧ (ctxOf t c).late = [] ∧ t.mem = s.mem ∧
        (∀ k, 1 ≤ k → k ≤ 7 → ((ctxOf t c).pen k).st = if k = p then .free else (x.pen k).st) ∧
        t.agenda = s.agenda ++ x.late.map (fun id => Instr.freplyReplay c id) ∧
        (∀ d n, s.t.ctx = c → s.t.wait = .commit d n → (∀ q, t.t.xr q = if q = d ∧ d ≠ 0 then 0 else s.t.xr q) ∧
          t.t = { s.t with x := t.t.x, wait := .none, spc := s.t.spc + 4 }) ∧
        (∀ d n, s.t.ctx = c → s.t.wait = .behind d n → n = p ∨ (x.pen n).st ≠ .live →
          (∀ q, t.t.xr q = if q = d ∧ d ≠ 0 then 2 else s.t.xr q) ∧ t.t = { s.t with x := t.t.x, wait := .none, spc := s.t.spc + 4 }) ∧
        (∀ d n, s.t.ctx = c → s.t.wait = .behind d n → n ≠ p → 1 ≤ n → n ≤ 7 → (x.pen n).st = .live → t.t = { s.t with wait := .none }))) ∧
    (x.commit = none ∨ pcbParked s c = true → exec (.commitSwitch c) s = .next s) ∧
    ((x.pen p).st ≠ .dropping → exec (.dropComplete c p) s = .next s) ∧
    (pcbParked s c = true → exec (.dropComplete c p) s = .next s) ∧
    (1 ≤ p → p ≤ 7 → Still s c → PcbAt s c b → (x.pen p).st = .dropping → (x.pen p).auto = false → pcbParked s c = false →
      parkedAgain s (.dropComplete c p) = false → Ends (.dropComplete c p) s (fun t => ((ctxOf t c).pen p).st = .free ∧
        Wrote s t (if (x.pen p).freed then [] else [(b.toNat + 0x220 + p, [0])]) ∧
        ∀ d, s.t.ctx = c → s.t.wait = .squash d p → (∀ q, t.t.xr q = if q = d ∧ d ≠ 0 then 0 else s.t.xr q) ∧
          t.t = { s.t with x := t.t.x, wait := .none, spc := s.t.spc + 4 })) ∧
    ((x.pen p).appending = [] → exec (.pushAppend c p) s = .next s) ∧
    (x.ovOwed = 0 → storeRoom s c = false → overflowRoom s c = false → exec (.pushAppend c p) s = .next s) ∧
    (∀ r, 1 ≤ p → p ≤ 7 → c < s.ctxs.length → x.pens.length = 7 → (x.pen p).appending = [r] → storeRoom s c = true → x.ovOwed = 0 →
      Ends (.pushAppend c p) s (fun t => t.store = s.store ++ [{ ctx := c, pkt := r }] ∧ ((ctxOf t c).pen p).appending = [] ∧
        t = { s with store := t.store, ctxs := t.ctxs }))

/-- MIGRATE waits while the team stands inside an instruction, or behind a placement or a move from a higher core on its target in the same mesh
clock, gives its status, or leaves for the lowest free slot of its target (the model's choice, log 69), whose lent scratchpad units it takes
back, Stopped in transit until it arrives, when status 0 is written and the tiles and scratchpad hold zeros; a Retiring team retires once its
work is done, its cell finished, its core's whole buffer drained (the model's choice, log 87); a path keeps the windows of the instructions
that are under way alone (§2.7, §2.8, §4.5, §18.9). -/
def Obligations.TeamMoves : Prop :=
  (∀ (s : State) (d a : BitVec 5),
    let c := (s.t.xr a).toNat
    let single := s.t.clrows * s.t.clcols ≤ 1
    let there := c ≤ 143 ∧ partitionOf c = partitionOf s.t.core
    let still := s.t.oplog = [] ∧ (∀ p ∈ s.t.paths, p.inside = false) ∧ queueHeld s.t.tileQ = true ∧ queueHeld s.t.copyQ = true
    let empty := s.t.tileQ = [] ∧ s.t.copyQ = []
    let fits := agedOn s c = false ∧ unitsClaimed s c + claimUnits s.t.claim ≤ 128 ∧ elementsHeld s c + s.t.elements ≤ 16384
    let late := ∃ n, (c, meshClock s, n) ∈ s.taken ∧ s.t.core < n
    (¬ single → WritesX (.migrate d a) s d 4) ∧
    (single → ¬ there → WritesX (.migrate d a) s d 2) ∧
    (single → c = s.t.core → c ≤ 143 → WritesX (.migrate d a) s d 0) ∧
    (single → there → c ≠ s.t.core → ¬ still → Waits (.migrate d a) s) ∧
    (single → there → c ≠ s.t.core → still → ¬ empty → WritesX (.migrate d a) s d 3) ∧
    (single → there → c ≠ s.t.core → still → empty → late → Waits (.migrate d a) s) ∧
    (single → there → c ≠ s.t.core → still → empty → ¬ late → (freeSlots s c = [] ∨ ¬ fits) → WritesX (.migrate d a) s d 1) ∧
    (∀ k ks, single → there → c ≠ s.t.core → still → empty → ¬ late → fits → freeSlots s c = k :: ks →
      let r := ((s.release 4).reclaim s.t.ctx c (claimUnits s.t.claim)).takeSlot c s.t.core
      exec (.migrate d a) s = .next { r with t := { s.t with
        core := c, slot := k, before := s.t.life, life := .stopped, why := .transit, wait := .migrate d c, acc := [], spad := [], port := [] } } ∧
      sget 0 r.caches.lent c + unitsClaimed s c + claimUnits s.t.claim ≤ 128)) ∧
  (∀ (s u : State) (c k n : Nat) (d : BitVec 5), s.focus c k = some u → u.t.why = .transit → u.t.wait = .migrate d n →
    fileUsed u c ≤ 6144 → Ends (.migrateArrival c k) s (fun t => (∀ q, t.t.xr q = if q = d ∧ d ≠ 0 then 0 else u.t.xr q) ∧
      t = { u with t := { u.t with
        x := t.t.x, spc := u.t.spc + 4, wait := .none, life := u.t.before, why := .none, lastPages := [], acc := [], spad := [] } })) ∧
  (∀ (s u : State) (c k : Nat), s.focus c k = some u → u.t.moves = true → u.t.life = .retiring → u.t.idleLanes = true →
    (u.t.retirable = false → exec (.teamRetire c k) s = .next { u with t := u.t.dropHeld }) ∧
    (u.t.retirable = true → Ends (.teamRetire c k) s (fun t => t.t = u.t.cutDown ∧ t.t.life = .retired ∧ t.t.claim = 0 ∧
      t.t.bindings = [] ∧ (∀ l ∈ t.caches.wc, l.core ≠ u.t.core) ∧ t.others = u.others ∧
      (∀ i l, u.t.cell = some i → launchOf u u.t.launch = some l → ∃ l', launchOf t u.t.launch = some l' ∧ l'.finished = i :: l.finished)))) ∧
  (∀ (s u : State) (c k n : Nat), s.focus c k = some u → Ends (.longLatencyComplete c k n) s (fun t =>
    t.t.paths = u.t.paths.map (fun q =>
      if q.idx = n then { q with windows := (q.windows.filter (fun x => u.t.underWay x.1)).eraseDups } else q) ∧
    t = { u with t := { u.t with paths := t.t.paths, arms := t.t.arms } }))

/-! ## Coverage -/

/-- TFETCH hands out the launch's next index or all ones; in a coverage launch it traps in a handler, waits as LSYNC does, finishes the team's
last cell and sets the new one's coverage, which R238 gives; at a wave start the controller's update of R246 comes first, with its state fields,
then the newest map latched in another mesh clock; AUDIT reads the controller's registers; LATCH hands a map to the running launches of the block. The record of a TFETCH
in a handler carries ACCESS 0, the model's reading (log 23) (§11.3, §11.5, §11.6, §11.7, §12.4, §16.6, §18.4, §19.3). -/
def Obligations.Coverage : Prop :=
  ∀ (s : State) (d a : BitVec 5),
    let ones : DWord := BitVec.allOnes 64
    let idx (i nx ny : Nat) : DWord := BitVec.ofNat 64 (i / (nx * ny) * 2 ^ 40 + i / nx % ny * 2 ^ 20 + i % nx)
    let given (n : DWord) (t : State) : Prop := ∀ q, t.t.xr q = if q = d ∧ d ≠ 0 then n else s.t.xr q
    (launchOf s s.t.launch = none → WritesX (.tfetch d) s d ones) ∧
    (∀ l, launchOf s s.t.launch = some l → l.cov = none →
      (l.ext.1 * l.ext.2.1 * l.ext.2.2 ≤ l.next → WritesX (.tfetch d) s d ones) ∧
      (l.next < l.ext.1 * l.ext.2.1 * l.ext.2.2 → Ends (.tfetch d) s (fun t => given (idx l.next l.ext.1 l.ext.2.1) t ∧
        t = { s with t := { s.t with x := t.t.x, spc := s.t.spc + 4 }
                     launches := s.launches.map (fun k => if k.id = l.id then { k with next := k.next + 1 } else k) }))) ∧
    (∀ l b, launchOf s s.t.launch = some l → l.cov = some b →
      let nx := ceilDiv b.w 16
      let ny := ceilDiv b.h 16
      let wave := l.next % 256 = 0 ∧ 0 < l.next
      let ended := s.t.idleLanes = true ∧ ∀ e ∈ s.t.tileQ, e.batch.isSome = true
      let region (k : Launch) : Nat :=
        let px := min (16 * (l.next % nx) + 8) (b.w - 1)
        let py := min (16 * (l.next / nx) + 8) (b.h - 1)
        let m := (k.mapBytes.getD (8 * (8 * py / b.h) + 8 * px / b.w) 0).toNat
        if k.mapBytes = [] ∨ m = 0 then 256 else m
      let covered (k : Launch) : Nat := max (min (ceilDiv ((rndEven32 k.facc).toNat * region k) 256) s.gov.gcap) 1
      let audits (k : Launch) : Nat := if b.aud = false ∨ covered k = 256 then 0 else (255 - covered k) / 64 + 1
      let hands (t : State) (k : Launch) : Prop := launchOf t l.id = some k ∧ k.next = l.next + 1 ∧
        sget (0, 0) k.covers l.next = (covered k, audits k) ∧ k.finished = s.t.cell.toList ++ l.finished ∧ given (idx l.next nx ny) t ∧
        (t.t.cover.extractLsb' 24 8).toNat = covered k % 256 ∧ (t.t.cover.extractLsb' 9 3).toNat = audits k % 8 ∧
        t.t.cover &&& ~~~(0xff000e00 : DWord) = s.t.cover &&& ~~~(0xff000e00 : DWord) ∧
        t.t = { s.t with x := t.t.x, spc := s.t.spc + 4, cell := some l.next, cover := t.t.cover }
      (s.t.inh = true → TrapsOrStops (.tfetch d) s 0x01 false s.t.spc) ∧
      (s.t.inh = false → ¬ ended → Waits (.tfetch d) s) ∧
      (s.t.inh = false → ended → nx * ny ≤ l.next → Ends (.tfetch d) s (fun t => given ones t ∧ t.t.cell = none ∧
        ∀ i, s.t.cell = some i → ∃ k, launchOf t l.id = some k ∧ k.finished = i :: l.finished)) ∧
      (s.t.inh = false → ended → l.next < nx * ny → ¬ wave → Ends (.tfetch d) s (fun t => ∃ k, hands t k ∧ k.facc = l.facc ∧
        k.mapBytes = l.mapBytes ∧ k.errN = l.errN ∧ k.updates = l.updates)) ∧
      (s.t.inh = false → ended → l.next < nx * ny → wave → Still s s.t.ctx → l.cblk.toNat + 128 ≤ 0x1000000000 →
        let due := (l.latched.filter (fun e => e.1 != meshClock s)).getLast?
        Ends (.tfetch d) s (fun t => ∃ k, hands t k ∧ k.mapBytes = (due.map (fun e => e.2.2)).getD l.mapBytes ∧
          k.latched = l.latched.filter (fun e => e.1 == meshClock s) ∧
          (¬ (b.aud = true ∧ l.errN ≠ 0) → k.facc = l.facc ∧ k.eprev = l.eprev ∧ k.errS = l.errS ∧ k.errN = l.errN ∧
            k.updates = l.updates ∧ Wrote s t []) ∧
          (b.aud = true → l.errN ≠ 0 →
            let e := fsub32 (fdiv32 l.errS (ofInt32 l.errN.toNat)) b.tgt
            let step0 := fmul32 b.kp (fsub32 e l.eprev)
            let step := if (s.gov.gcap : ℤ) < rndEven32 l.facc ∧ flt32 0 e = true then step0 else fadd32 step0 (fmul32 b.ki e)
            let f := fadd32 l.facc step
            k.facc = (if isNan32 step then l.facc else if flt32 f b.fmin then b.fmin else if flt32 b.fmax f then b.fmax else f) ∧
            k.eprev = e ∧ k.errS = 0 ∧ k.errN = 0 ∧ k.updates = l.updates + 1 ∧
            Wrote s t ([(0x40, k.facc), (0x44, e), (0x48, 0), (0x4c, 0), (0x50, k.updates), (0x54, l.unrec)].map
              (fun w : Nat × Word => (l.cblk.toNat + w.1, leBytes 4 w.2.toNat))))))) ∧
    (∀ l, launchOf s s.t.launch = some l →
      let n := (s.t.xr a).toNat
      let gives (v : DWord) : Prop := WritesX (.audit d a) s d v
      (n = 5 → gives (BitVec.ofNat 64 s.gov.gcap)) ∧ (6 ≤ n → gives ones) ∧
      (l.cov = none → (n = 0 → gives 256) ∧ (1 ≤ n → n ≤ 4 → gives 0)) ∧
      (l.cov ≠ none → (n = 0 → gives (BitVec.ofNat 64 (rndEven32 l.facc).toNat)) ∧ (n = 1 → gives (l.facc.zeroExtend 64)) ∧
        (n = 2 → gives (l.errS.zeroExtend 64)) ∧ (n = 3 → gives (l.errN.zeroExtend 64)) ∧ (n = 4 → gives (l.updates.zeroExtend 64)))) ∧
    (s.t.pennant ≠ 0 → WritesX (.latch d a) s d 1) ∧
    (s.t.pennant = 0 → (s.t.xr a).toNat % 128 ≠ 0 → WritesX (.latch d a) s d 3) ∧
    (let at_ := s.t.xr a
     let map := leNat (memBytes s.mem (at_.toNat + 0x30) 8)
     s.t.pennant = 0 → at_.toNat % 128 = 0 → Still s s.t.ctx → at_.toNat + 128 ≤ 0x1000000000 → map + 64 ≤ 0x1000000000 →
      Ends (.latch d a) s (fun t => given 0 t ∧ t.t = { s.t with x := t.t.x, spc := s.t.spc + 4 } ∧ t.mem = s.mem ∧
        t.launches = s.launches.map (fun l => if l.ctx = s.t.ctx ∧ l.cblk = at_ ∧ l.cov.isSome = true ∧ l.st = .running then
          { l with latched := (l.latched.filter (fun e => e.1 != meshClock s)).getLast?.toList ++
              (match l.latched.find? (fun e => e.1 == meshClock s && decide (s.t.core < e.2.1)) with
                | some e => [e]
                | none => [(meshClock s, s.t.core, if map = 0 then [] else memBytes s.mem map 64)]) } else l)))

/-! ## The rendering front end -/

/-- EMIT.PUT holds its path until its payload is in the core's ring, EMIT.TAKE takes the oldest matching payload or writes all ones,
EMIT.PRIM hands a checked block, as read at issue, or the draw's end mark on, its path holding it while the attribute store lacks room,
EMIT.PIX deals a lane its oldest item, ATTR gives R274's interpolated word or +0, OSBEGIN grants a pixel's token in sequence order and OSEND
returns it; a draw that is over is rasterised into the item of every pixel its triangles cover inside their target and no other, at each pixel in
ascending sequence number, its end mark last; a full buffer is flushed before the next triangle is binned; a token held past the limit is lost.
The model's choice: the barycentrics as exact ratios rounded once (log 41), what fills a buffer and its bytes (log 88), when a draw's items are
made before its end mark (log 73),
OSEND's release empties the core's whole buffer (log 87), ACCESS 0 in the record of a bad storage operand (log 23) (§13.2, §13.3, §13.4, §13.5,
§13.6, §17.4, §18.11). -/
def Obligations.FrontEnd : Prop :=
  (∀ (s : State) (w : LWord),
    let free := ∀ p ∈ s.t.paths, p.idx = s.t.curPath → p.hold = .none
    let x := ctxOf s s.t.ctx
    let hands (u : State) (data : List Byte) (thr : Word) (t : State) : Prop :=
      (primT data = 0 → ∃ e : BinTri, t.front.bins = s.front.bins ++ [e] ∧ e.endMark = true ∧ e.core = s.t.core ∧ e.slot = s.t.slot ∧
        e.launch = s.t.launch ∧ e.clorg = s.t.clorg ∧ e.clidx = s.t.clidx) ∧
      (primT data ≠ 0 → ∃ b : PrimBlock, b.data = data ∧ b.core = s.t.core ∧ b.thr = thr ∧
        b.launch = s.t.launch ∧ b.clorg = s.t.clorg ∧ b.clidx = s.t.clidx ∧ b.ctx = s.t.ctx ∧ b.pennant = s.t.pennant ∧
        t.front.bins = capture (Config.binRoom x.binsize) s.front.bins (primTris b s.t.slot) ∧
        (primTris b s.t.slot ≠ [] → b ∈ t.front.prims) ∧ ((∀ y ∈ primTris b s.t.slot, y.fixed = true) ∨ x.binsize = 0 → t.mem = s.mem)) ∧
      (primT data = 0 → t.mem = s.mem) ∧ (s.caches.wc = [] → ∀ a, ¬ (x.binbase.toNat ≤ a ∧ a < x.binbase.toNat + x.binsize) →
        sget 0 t.mem a = sget 0 s.mem a) ∧
      t.front.ring = s.front.ring ∧ t.front.pixels = s.front.pixels ∧ t.front.raster = s.front.raster ∧ t.t.arms = u.t.endL.arms ∧
      t.t.paths = s.t.paths.map (fun q => if q.idx = s.t.curPath then { q with hold := .none, pc := laneNext q.pc } else q) ∧
      t.t = { u.t with paths := t.t.paths, arms := t.t.arms }
    let room (data : List Byte) : Prop := primsUsed s.freePrims s.t.core + data.length ≤ 262144
    (s.t.parts w = [] → PassesL (.emitPut w) s ∧ PassesL (.emitTake w) s ∧ (free → PassesL (.emitPrim w) s) ∧ PassesL (.emitPix w) s ∧
      PassesL (.osbegin w) s ∧ PassesL (.osend w) s) ∧
    (∀ data thr, s.t.cur.hold = .prim data thr → s.t.Issues →
      (room data → Ends (.emitPrim w) s (hands s data thr)) ∧
      (¬ room data → exec (.emitPrim w) s = .next { s.freePrims with t := { s.t with
        paths := s.t.paths.map (fun q => if q.idx = s.t.curPath then { q with hold := .prim data thr } else q) } })) ∧
    (∀ lane rest, s.t.parts w = lane :: rest →
      let off := s.t.a w lane 1
      let n := s.t.b w lane 1
      let stops (i : Instr) : Prop := s.t.ctx < s.ctxs.length → StopsTeam i s 0x07 0 true s.t.cur.pc (BitVec.ofNat 64 off)
      let mine (r : Payload) : Prop := r.core = s.t.core ∧ r.ctx = s.t.ctx ∧ r.pennant = s.t.pennant
      let takes (t : State) (len : Nat) (data : List Byte) (ring : List Payload) : Prop :=
        (∀ l ∈ s.t.parts w, t.t.vr l w.dst.toNat = BitVec.ofNat 32 len) ∧
        (∀ l r, r < 128 → ¬ (l ∈ s.t.parts w ∧ r = w.dst.toNat) → t.t.vr l r = s.t.vr l r) ∧ t.t.port = [] ∧
        (∀ o, sget 0 t.t.spad o = if off ≤ o ∧ o < off + data.length then data.getD (o - off) 0 else s.t.spadByte o) ∧ s.t.moved t.t ∧
        t = { s with front := { s.front with ring := ring }, t := { s.t with
          v := t.t.v, port := [], spad := t.t.spad, paths := t.t.paths, arms := t.t.arms } }
      (off % 16 ≠ 0 ∨ 16384 < n ∨ s.t.claim < off + n → stops (.emitPut w)) ∧
      (off % 16 = 0 → n ≤ 16384 → off + n ≤ s.t.claim → Ends (.emitPut w) s (fun t => t.t.port = [] ∧
        (∀ o, sget 0 t.t.spad o = s.t.spadByte o) ∧
        t.t.paths = s.t.paths.map (fun q => if q.idx = s.t.curPath then { q with hold := .put off n } else q) ∧
        t = { s with t := { s.t with port := [], spad := t.t.spad, paths := t.t.paths } })) ∧
      (off % 16 ≠ 0 ∨ s.t.claim < off + 16384 → stops (.emitTake w)) ∧
      (off % 16 = 0 → off + 16384 ≤ s.t.claim →
        ((∀ r ∈ s.front.ring, ¬ mine r) → Ends (.emitTake w) s (fun t => takes t 0xffffffff [] s.front.ring)) ∧
        (∀ l r m, s.front.ring = l ++ r :: m → (∀ k ∈ l, ¬ mine k) → mine r →
          Ends (.emitTake w) s (fun t => takes t r.data.length r.data (l ++ m)))) ∧
      (let head := s.t.spadLane off 16
       let data := s.t.spadLane off (primSize head)
       let thr := (ctxOf s s.t.ctx).rastthr
       free →
         (s.t.port = [] → (s.t.claim < off + 16 ∨ primHeadOk head = false ∨ s.t.claim < off + primSize head ∨ primIndexOk data = false) →
            stops (.emitPrim w)) ∧
         (off + 16 ≤ s.t.claim → primHeadOk head = true → off + primSize head ≤ s.t.claim → primIndexOk data = true →
            let u := s.upd Team.drainPort
            u.t.port = [] ∧ (∀ o, sget 0 u.t.spad o = s.t.spadByte o) ∧ (room data → Ends (.emitPrim w) s (hands u data thr)) ∧
            (¬ room data → exec (.emitPrim w) s = .next { s.freePrims with t := { u.t with
              paths := s.t.paths.map (fun q => if q.idx = s.t.curPath then { q with hold := .prim data thr } else q) } })))) ∧
    (∀ lane, s.t.parts w = [lane] → w.dst.toNat + 2 ≤ 128 →
      let mine (i : Nat × PixItem) : Prop := i.1 = s.t.core ∧ i.2.ctx = s.t.ctx ∧ i.2.pennant = s.t.pennant
      let deals (u v : Word) (left : List (Nat × PixItem)) (bs : List Binding) : Prop := Ends (.emitPix w) s (fun t =>
        t.t.vr lane w.dst.toNat = u ∧ t.t.vr lane (w.dst.toNat + 1) = v ∧
        (∀ l r, r < 128 → ¬ (l = lane ∧ w.dst.toNat ≤ r ∧ r < w.dst.toNat + 2) → t.t.vr l r = s.t.vr l r) ∧
        t.front.pixels = left ∧ t.t.bindings = s.t.bindings.filter (fun b => b.lane != lane) ++ bs ∧ t.mem = s.mem ∧ s.t.moved t.t)
      lane < 1024 → (∀ b ∈ s.t.bindings, b.lane < 1024) → ((∀ i ∈ s.front.pixels, ¬ mine i) → deals 0xffffffff 0 s.front.pixels []) ∧
        (∀ l i m, s.front.pixels = l ++ i :: m → (∀ k ∈ l, ¬ mine k) → mine i →
          (i.2.endMark = true → deals 0xfffffffe 0 (l ++ m) []) ∧
          (i.2.endMark = false → deals (BitVec.ofNat 32 (i.2.y * 65536 + i.2.x)) i.2.seq (l ++ m)
            [{ lane := lane, item := i.2, token := false, lost := false, since := 0 }]))) ∧
    WritesV (.attr w) s w 1 (fun lane => (attrLane s w.fn.toNat (w.hi.toNat % 16) lane).toNat) ∧
    (∀ lane m a, (∀ b ∈ s.t.bindings, b.lane ≠ lane) → attrLane s m a lane = 0) ∧
    (∀ (lane m a : Nat) (b : Binding) (p : PrimBlock), s.t.bindings.find? (fun b => b.lane == lane) = some b →
      s.front.prims.find? (fun p => p.id == b.item.prim) = some p →
      (primNA p.data ≤ a → attrLane s m a lane = 0) ∧
      ∀ v0 v1 v2 : Vertex, a < primNA p.data → primTri p.data b.item.tri = some (v0, v1, v2) →
        let n (k : Nat) : Nat := (p.data.getD (16 + 16 * primV p.data + 4 * primV p.data * primNA p.data + 3 * b.item.tri + k) 0).toNat
        let word (k : Nat) : Word := wordAt p.data (16 + 16 * primV p.data + 4 * (n k * primNA p.data + a))
        let q (k : Nat) : Word := wordAt p.data (16 + 16 * n k + 12)
        let area : ℤ := (v1.x - v0.x) * (v2.y - v0.y) - (v2.x - v0.x) * (v1.y - v0.y)
        let far : List (Vertex × Vertex) := [(v1, v2), (v2, v0), (v0, v1)]
        let at_ (k : Nat) : Word := let e := far.getD k (v0, v0)
          ratio32 ((e.2.x - e.1.x) * (256 * b.item.y + 128 - e.1.y) - (e.2.y - e.1.y) * (256 * b.item.x + 128 - e.1.x)) area
        let dx (k : Nat) : Word := let e := far.getD k (v0, v0)
          ratio32 (256 * (e.1.y - e.2.y)) area
        let dy (k : Nat) : Word := let e := far.getD k (v0, v0)
          ratio32 (256 * (e.2.x - e.1.x)) area
        let sum (f : Nat → Word) : Word := fadd32 (fadd32 (f 0) (f 1)) (f 2)
        let P (c : Nat → Word) : Word := sum (fun k => fmul32 (fmul32 (c k) (word k)) (q k))
        let Q (c : Nat → Word) : Word := sum (fun k => fmul32 (c k) (q k))
        let grad (c : Nat → Word) : Word := fdiv32 (fsub32 (fmul32 (P c) (Q at_)) (fmul32 (P at_) (Q c))) (fmul32 (Q at_) (Q at_))
        attrLane s 0 a lane = fdiv32 (P at_) (Q at_) ∧ attrLane s 1 a lane = grad dx ∧ attrLane s 2 a lane = grad dy) ∧
    (∀ lane, s.t.parts w = [lane] → lane < 1024 →
      let at_ := s.t.bindings.find? (fun b => b.lane == lane)
      let gets (t : State) (v : Bool) : Prop := ∀ l < 1024, ∀ k, (t.t.pm k).getLsbD l =
        if k = w.dst.toNat % 16 ∧ k ≠ 0 ∧ l = lane then v else (s.t.pm k).getLsbD l
      (at_ = none → Ends (.osbegin w) s (fun t => gets t false ∧ t.t.bindings = s.t.bindings) ∧ PassesL (.osend w) s) ∧
      (∀ b, at_ = some b →
        let has := b.token = true ∧ b.lost = false
        let first := tokenHeld s b.item = false ∧ ∀ i ∈ s.front.orders, samePixel i b.item = true → seqBefore i.seq b.item.seq = false
        (has ∨ first → Ends (.osbegin w) s (fun t => gets t true ∧ t.mem = s.mem ∧ t.front = s.front ∧
          ∃ c, t.t.bindings.find? (fun b => b.lane == lane) = some c ∧ c.item = b.item ∧ c.token = true ∧ c.lost = false)) ∧
        (¬ (has ∨ first) → Ends (.osbegin w) s (fun t => gets t false ∧ t.t.bindings = s.t.bindings ∧ t.front = s.front)) ∧
        (has → Ends (.osend w) s (fun t => t.front.orders = s.front.orders.filter (fun i => i != b.item) ∧
          (∀ l ∈ t.caches.wc, l.core ≠ s.t.core) ∧ s.t.moved t.t ∧
          t.t.bindings = s.t.bindings.map (fun c => if c.lane = lane then { c with token := false } else c))) ∧
        (¬ has → PassesL (.osend w) s)))) ∧
  (∀ (s u : State) (c k n off len : Nat), s.focus c k = some u → (u.t.path n).hold = .put off len → u.t.alive = true →
    u.t.paused = false → u.t.debug = false →
    (4 ≤ (u.front.ring.filter (fun r => r.core == c)).length → exec (.payloadPutCopy c k n) s = .next u) ∧
    ((u.front.ring.filter (fun r => r.core == c)).length < 4 → Ends (.payloadPutCopy c k n) s (fun t =>
      t.front = { u.front with ring := u.front.ring ++
        [{ core := c, ctx := u.t.ctx, pennant := u.t.pennant, data := sgetRange 0 u.t.spad off len }] } ∧
      t.t.paths = u.t.paths.map (fun q => if q.idx = n then { q with hold := .none, pc := laneNext q.pc } else q) ∧
      t = { u with front := t.front, t := { u.t with curPath := n, paths := t.t.paths, arms := t.t.arms } }))) ∧
  -- rasterising
  (∀ (s : State) (c k : Nat) (x : BinTri), x ∈ s.front.bins → x.core = c → x.slot = k → (∀ i ∈ s.front.raster, i.1 ≠ c) →
    (∀ y ∈ s.front.bins, y.core = c → y.slot = k → y.team = x.team) →
    let mine := s.front.bins.filter (fun y => y.team == x.team)
    let all (u : State) : List (Nat × PixItem) := u.front.pixels ++ u.front.raster
    let makes (ts gone : List BinTri) (ends : List (Nat × PixItem)) : Prop := Ends (.rasteriseBins c k) s (fun t =>
      t.front.bins = s.front.bins.filter (fun y => !gone.contains y) ∧ t.t = s.t ∧ t.mem = s.mem ∧
      (∀ e, e ∈ all t ↔ e ∈ all s ∨ e ∈ ends ∨
        ∃ y ∈ ts, ∃ b v, s.front.prims.find? (fun p => p.id == y.prim) = some b ∧ primTri b.data y.tri = some v ∧ ItemOf y b v e) ∧
      ((∀ e ∈ all s, e.2.draw ≠ x.team) → (∀ m : Word, (∀ y ∈ ts, (y.seq - m).toNat < 2 ^ 31) →
        (all t).Pairwise (fun e f => e.2.draw = x.team → f.2.draw = x.team →
          e.2.endMark = false ∧ (f.2.endMark = false → f.2.x = e.2.x → f.2.y = e.2.y → seqBefore f.2.seq e.2.seq = false)))))
    (∀ (ts rest : List BinTri) (m : BinTri), mine = ts ++ m :: rest → (∀ y ∈ ts, y.endMark = false) → m.endMark = true →
      let e : PixItem := { ctx := m.ctx, pennant := m.pennant, endMark := true, x := 0, y := 0, seq := 0, prim := m.prim, tri := 0, draw := x.team }
      makes ts (ts ++ [m]) [(m.core, e)] ∧
      (ts = [] → m.core = c → (∀ i ∈ s.front.raster, i.2.draw ≠ x.team) → (s.front.pixels.filter (fun i => i.1 == c)).length < 1024 →
        Ends (.rasteriseBins c k) s (fun t => t.front.pixels = s.front.pixels ++ [(c, e)] ∧ t.front.orders = s.front.orders))) ∧
    ((∀ y ∈ mine, y.endMark = false) →
      (storePressed s c = false → exec (.rasteriseBins c k) s = .next s) ∧
      (storePressed s c = true → mine = [x] →
        (x.fixed = true ∨ x.flush ≠ 0 → makes [x] [x] []) ∧
        (x.fixed = false → x.flush = 0 → exec (.rasteriseBins c k) s = .next s)))) ∧
  (∀ (s u : State) (c k lane : Nat) (b : Binding), s.focus c k = some u → u.t.bindings.find? (fun b => b.lane == lane) = some b →
    let limit := (ctxOf u u.t.ctx).oslimit.toNat * 1024
    let past := limit ≠ 0 ∧ u.t.debug = false ∧ b.token = true ∧ b.lost = false ∧ limit ≤ u.time - b.since
    (¬ past → exec (.osTimeLimit c k lane) s = .next u) ∧
    (past → Ends (.osTimeLimit c k lane) s (fun t => t.front = { u.front with orders := u.front.orders.filter (fun i => i != b.item) } ∧
      t = { u with front := t.front, ctxs := t.ctxs, t := { u.t with
        bindings := u.t.bindings.map (fun d => if d.lane = lane then { d with lost := true } else d) } })))

/-! ## Packets of the command queues -/

/-- FLIP, COMMIT, LATCH, LAUNCH, CAPSTART and NOP packets act, write their status and complete; COPY, FENCE, WAIT and CAPSTOP act and are
then handed off, which writes the other copy of the control block with its CRC. It says when each completes: flipPacket, commitPacket,
latchPacket, launchPacket, copyPacket, fencePacket, waitPacket, capstartPacket, capstopPacket, nopPacket, each under premises on the state
and the packet alone (§12.2, §12.3, §15.3, §20.1). -/
def Obligations.Packets : Prop :=
  ∀ (s : State) (q : Nat) (p : Packet),
    let k := queueOf s q
    let c := k.ctx
    let x := ctxOf s c
    let at_ := k.qhdr.toNat + (if k.curB then 0x40 else 0x80)
    let desc := memBytes s.mem p.d1.toNat 64
    let map := leNat (memBytes s.mem (p.d1.toNat + 0x30) 8)
    let handed (f : DWord) : List (Nat × List Byte) :=
      let body := leBytes 4 ((k.head + 1) % (2 * 2 ^ k.log2)) ++ leBytes 4 (k.handed + 1).toNat ++ leBytes 8 f.toNat ++ List.replicate 40 0
      let seq := leBytes 4 (k.seqA + 1).toNat
      [(at_, body), (at_ + 0x38, seq ++ leBytes 4 (crc32 (body ++ seq)))]
    let off (f : DWord) (t : State) : Prop := queueOf t q = { k with
      head := (k.head + 1) % (2 * 2 ^ k.log2), handed := k.handed + 1, fenceVal := f, seqA := k.seqA + 1, curB := !k.curB }
    let gives (i : Instr) (v : Nat) (P : State → Prop) : Prop := Ends i s (fun t =>
      Wrote s t (if p.d7 = 0 then [] else [(p.d7.toNat, leBytes 8 v)]) ∧
      queueOf t q = { k with outstanding := k.outstanding - 1 } ∧ t.t = s.t ∧ P t)
    let n := bits p.d0.toNat 16 8
    let free := x.commit.isNone && (x.pensIn .committing).isEmpty
    q < 32 → s.queues.length = 32 → Still s c → c < s.ctxs.length → InMemory s k.qhdr.toNat 0xc0 → p.d7.toNat + 8 ≤ 0x1000000000 →
      ((headOf s n).room = true → (headOf s n).enabled = true → n < s.heads.length → gives (.flipPacket q p) 0 (fun t =>
        (headOf t n).queue = (headOf s n).queue ++ [{ head := n, surface := p.d1, ctx := c }])) ∧
      (n < 1 ∨ 7 < n → gives (.commitPacket q p) 3 (fun t => t.ctxs = s.ctxs)) ∧
      (1 ≤ n → n ≤ 7 → free = false → exec (.commitPacket q p) s =
        .next { s with ctxs := updNth s.ctxs c (fun x => { x with commitQ := x.commitQ ++ [(q, lastPacket k, p)] }) }) ∧
      (1 ≤ n → n ≤ 7 → free = true → (x.pen n).st ≠ .live → gives (.commitPacket q p) 2 (fun t => t.ctxs = s.ctxs)) ∧
      (∀ b, 1 ≤ n → n ≤ 7 → free = true → (x.pen n).st = .live → PcbAt s c b → Ends (.commitPacket q p) s (fun t =>
        (ctxOf t c).commit = some { pennant := n, queue := some q, pc := lastPacket k, stat := p.d7, switched := false } ∧
        (∀ m, 1 ≤ m → m ≤ 7 → ((ctxOf t c).pen m).st =
          if m = n then .committing else if (x.pen m).st = .live then .dropping else (x.pen m).st) ∧
        Wrote s t ((b.toNat + 0x220 + n, [2]) :: ((x.pensIn .live).filter (fun m => m != n)).map (fun m => (b.toNat + 0x220 + m, [3]))))) ∧
      (p.d1.toNat % 128 ≠ 0 → gives (.latchPacket q p) 3 (fun t => t.launches = s.launches)) ∧
      (p.d1.toNat % 128 = 0 → p.d1.toNat + 128 ≤ 0x1000000000 → map + 64 ≤ 0x1000000000 → gives (.latchPacket q p) 0 (fun t =>
        t.launches = s.launches.map (fun l => if l.ctx = c ∧ l.cblk = p.d1 ∧ l.cov.isSome = true ∧ l.st = .running then
          { l with latched := (l.latched.filter (fun e => e.1 != meshClock s)).getLast?.toList ++
              (match l.latched.find? (fun e => e.1 == meshClock s && decide (144 < e.2.1)) with
                | some e => [e]
                | none => [(meshClock s, 144, if map = 0 then [] else memBytes s.mem map 64)]) } else l))) ∧
      (p.d1.toNat + 64 ≤ 0x1000000000 →
        let l := { launchFrom s.nextLaunch c (some q) (lastPacket k) s.time p desc with mclk0 := s.mclk }
        (∀ v, rejects x p desc l = some v → gives (.launchPacket q p) v (fun t => t.launches = s.launches)) ∧
        (rejects x p desc l = none → exec (.launchPacket q p) s =
          .next { s with launches := s.launches ++ [l], nextLaunch := s.nextLaunch + 1 }) ∧
        (31 < natAt desc 8 1 → rejects x p desc l = some 1) ∧
        (natAt desc 8 1 ≤ 31 → natAt desc 9 1 % 2 = 1 ∨ natAt desc 9 1 < 2 ∨ 128 < natAt desc 9 1 → rejects x p desc l = some 2)) ∧
      (let h := shapeOf p.d3
       h.dk = false → h.sk = false → h.rows = 1 → 0 < h.rb → p.d1.toNat + h.rb ≤ 0x1000000000 → p.d2.toNat + h.rb ≤ 0x1000000000 →
        (p.d1.toNat + h.rb ≤ p.d2.toNat ∨ p.d2.toNat + h.rb ≤ p.d1.toNat) → Ends (.copyPacket q p) s (fun t =>
          off k.fenceVal t ∧ t.t = s.t ∧ Wrote s t ((p.d1.toNat, memBytes s.mem p.d2.toNat h.rb) :: handed k.fenceVal))) ∧
      (k.outstanding ≠ 0 → exec (.fencePacket q p) s = .next s) ∧
      (k.outstanding = 0 → p.d1.toNat + 8 ≤ 0x1000000000 → Ends (.fencePacket q p) s (fun t => off p.d2 t ∧ t.t = s.t ∧
        Wrote s t ((p.d1.toNat, leBytes 8 p.d2.toNat) :: handed p.d2) ∧
        t.win.intstat = s.win.intstat ||| (if p.d0.getLsbD 16 then 0x10 else 0))) ∧
      (p.d1.toNat + 8 ≤ 0x1000000000 → let v := leNat (memBytes s.mem p.d1.toNat 8)
        (v < p.d2.toNat → exec (.waitPacket q p) s = .next s) ∧
        (p.d2.toNat ≤ v → Ends (.waitPacket q p) s (fun t => off k.fenceVal t ∧ t.t = s.t ∧ Wrote s t (handed k.fenceVal)))) ∧
      Ends (.capstartPacket q p) s (fun t =>
        ctxOf t c = { x with counters := List.replicate 16 0, capOn := true, capT0 := s.time } ∧
        t = { s with ctxs := t.ctxs, queues := updNth s.queues q (fun k => { k with outstanding := k.outstanding - 1 }) }) ∧
      (p.d1.toNat + 128 ≤ 0x1000000000 → x.counters.length = 16 →
        let cs := if x.capOn then updNth x.counters 0 (fun _ => BitVec.ofNat 64 (s.time - x.capT0)) else x.counters
        Ends (.capstopPacket q p) s (fun t => off k.fenceVal t ∧ (ctxOf t c).capOn = false ∧ (ctxOf t c).counters = cs ∧
          t.win.intstat = s.win.intstat ||| 0x200 ∧
          Wrote s t ((p.d1.toNat, cs.flatMap (fun v => leBytes 8 v.toNat)) :: handed k.fenceVal))) ∧
      exec (.nopPacket q p) s = .next { s with queues := updNth s.queues q (fun k => { k with outstanding := k.outstanding - 1 }) }

/-! ## The command core's own steps, and launches -/

/-- A doorbell or a poll samples tails; enabling reads and checks the header and takes the valid copy, or sets Error; a step hands off the
packets at the heads that are of the highest rank, in ascending queue number, or, for ones that wait, sets them going, a store record counting
as a LAUNCH and going last, the overflow list filling its place; the watchdog takes the current copy again. It says when each completes:
qdbDoorbell, queuePoll, queueDisable, queueEnable, commandCoreSampleTail, commandCoreWatchdog, commandCoreStep (§12.1, §12.2). -/
def Obligations.QueueSteps : Prop :=
  ∀ (s : State) (q : Nat),
    let k := queueOf s q
    let wake : List Instr := if s.gov.idle ≠ 0 ∨ s.gov.gated ≠ [] then [.idleExit] else []
    let only (t : State) (j : Queue) : Prop := t = { s with queues := updNth s.queues q (fun _ => j) }
    let errs (i : Instr) (j : Queue) (cause : Nat) : Prop := Ends i s (fun t => t.win.intstat = s.win.intstat ||| 8 ∧ t.mem = s.mem ∧
      queueOf t q = { j with state := 2, cause := cause, errcnt := j.errcnt + 1 })
    let h := memBytes s.mem k.qhdr.toNat 24
    let a := memBytes s.mem (k.qhdr.toNat + 0x40) 64
    let b := memBytes s.mem (k.qhdr.toNat + 0x80) 64
    let takes (j : Queue) (c : List Byte) (isB : Bool) : Queue := { j with
      state := 1, head := natAt c 0 4, tail := natAt c 0 4, handed := wordAt c 4, fenceVal := dwordAt c 8, seqA := wordAt c 0x38, curB := isB }
    let tail := leNat (memBytes s.mem k.qhdr.toNat 4)
    let watched := (List.range 32).filter (fun i => (queueOf s i).en && (queueOf s i).headerOk)
    let off (k : Queue) : Queue := { k with
      head := (k.head + 1) % (2 * 2 ^ k.log2), handed := k.handed + 1, seqA := k.seqA + 1, curB := !k.curB, outstanding := k.outstanding + 1 }
    let holds (i : Nat) : Prop :=
      let k := queueOf s i
      let p := packetOf (memBytes s.mem (packetAt k k.head) 64)
      k.head % (2 * 2 ^ k.log2) ≠ k.tail % (2 * 2 ^ k.log2) ∧ laneBusy s i = false ∧ InMemory s (packetAt k k.head) 64 ∧
        InMemory s k.qhdr.toNat 0xc0 ∧ packetBad p = false ∧ packetPresent s i p = true
    let fits := tail < 2 * 2 ^ k.log2 ∧ (tail + 2 * 2 ^ k.log2 - k.head % (2 * 2 ^ k.log2)) % (2 * 2 ^ k.log2) ≤ 2 ^ k.log2
    exec (.qdbDoorbell q) s = .next { s with agenda := s.agenda ++ wake ++ [.commandCoreSampleTail q] } ∧
    exec .queuePoll s = .next { s with
      agenda := s.agenda ++ ((List.range 32).filter (fun i => decide ((queueOf s i).state = 1) && (queueOf s i).en)).map .commandCoreSampleTail } ∧
    exec (.queueDisable q) s = .next { s with queues := updNth s.queues q (fun k => { k with
      en := false, state := if laneBusy s q then k.state else 0 }) } ∧
    (q < s.queues.length → s.caches.wc = [] → InMemory s k.qhdr.toNat 0xc0 →
      let j : Queue := { k with en := true, ring := dwordAt h 8, log2 := natAt h 0x10 1 }
      let bad := natAt h 0x10 1 < 4 ∨ 16 < natAt h 0x10 1 ∨ (dwordAt h 8).toNat % 64 ≠ 0
      (k.state = 1 → exec (.queueEnable q) s = .next { s with queues := updNth s.queues q (fun k => { k with en := true }) }) ∧
      (k.state ≠ 1 → bad → errs (.queueEnable q) j 4) ∧
      (k.state ≠ 1 → ¬ bad → copyValid a = false → copyValid b = false → errs (.queueEnable q) j 2) ∧
      (k.state ≠ 1 → ¬ bad → copyValid a = true → copyValid b = false → Ends (.queueEnable q) s (fun t => only t (takes j a false))) ∧
      (k.state ≠ 1 → ¬ bad → copyValid a = false → copyValid b = true → Ends (.queueEnable q) s (fun t => only t (takes j b true))) ∧
      (k.state ≠ 1 → ¬ bad → copyValid a = true → copyValid b = true → wordAt a 0x38 + 1 = wordAt b 0x38 →
        Ends (.queueEnable q) s (fun t => only t (takes j b true))) ∧
      (k.state ≠ 1 → exec (.commandCoreSampleTail q) s = .next s) ∧
      (k.state = 1 → fits → exec (.commandCoreSampleTail q) s =
        .next { s with queues := updNth s.queues q (fun k => { k with tail := tail }) }) ∧
      (k.state = 1 → ¬ fits → errs (.commandCoreSampleTail q) k 1) ∧
      (watched = [q] → copyValid a = true → copyValid b = false → Ends .commandCoreWatchdog s (fun t => only t (takes k a false))) ∧
      (watched = [q] → copyValid a = false → copyValid b = true → Ends .commandCoreWatchdog s (fun t => only t (takes k b true))) ∧
      (watched = [q] → copyValid a = true → copyValid b = true →
        (wordAt a 0x38 + 1 = wordAt b 0x38 → Ends .commandCoreWatchdog s (fun t => only t (takes k b true))) ∧
        (wordAt b 0x38 + 1 = wordAt a 0x38 → Ends .commandCoreWatchdog s (fun t => only t (takes k a false)))) ∧
      (watched = [q] → copyValid a = false → copyValid b = false → errs .commandCoreWatchdog k 2) ∧
      (watched = [] → exec .commandCoreWatchdog s = .next s) ∧
      (activeQueues s = [q] → storeContexts s = [] → k.head % (2 * 2 ^ k.log2) = k.tail % (2 * 2 ^ k.log2) →
        exec .commandCoreStep s = .next s) ∧
      (activeQueues s = [q] → storeContexts s = [] → k.head % (2 * 2 ^ k.log2) ≠ k.tail % (2 * 2 ^ k.log2) → laneBusy s q = false →
        InMemory s (packetAt k k.head) 64 →
        let p := packetOf (memBytes s.mem (packetAt k k.head) 64)
        let later := p.kind = 5 ∨ p.kind = 6 ∨ p.kind = 7 ∨ p.kind = 9
        (packetBad p = true → errs .commandCoreStep k 3) ∧
        (packetBad p = false → packetPresent s q p = false → exec .commandCoreStep s = .next s) ∧
        (packetBad p = false → packetPresent s q p = true → later →
          exec .commandCoreStep s = .next { s with agenda := s.agenda ++ [packetEvent q p] }) ∧
        (packetBad p = false → packetPresent s q p = true → ¬ later → Ends .commandCoreStep s (fun t =>
          t.agenda = s.agenda ++ [packetEvent q p] ∧ t.t = s.t ∧ queueOf t q = off k))) ∧
      -- two queues
      (∀ r, q < r → r < s.queues.length → activeQueues s = [q, r] → storeContexts s = [] → holds q → holds r →
        let p := packetOf (memBytes s.mem (packetAt k k.head) 64)
        let p' := packetOf (memBytes s.mem (packetAt (queueOf s r) (queueOf s r).head) 64)
        (p.kind < p'.kind → Ends .commandCoreStep s (fun t => t.agenda = s.agenda ++ [packetEvent q p] ∧ queueOf t r = queueOf s r)) ∧
        (p'.kind < p.kind → Ends .commandCoreStep s (fun t => t.agenda = s.agenda ++ [packetEvent r p'] ∧ queueOf t q = k)) ∧
        (p.kind = p'.kind → p.kind ∈ [2, 3, 8, 10] → Ends .commandCoreStep s (fun t =>
          t.agenda = s.agenda ++ [packetEvent q p, packetEvent r p'] ∧ queueOf t q = off k ∧ queueOf t r = off (queueOf s r)))) ∧
      -- the pending-launch store
      (∀ c rec_, storeContexts s = [c] → s.store.find? (fun r => r.ctx == c) = some rec_ → (ctxOf s c).ovOwed = 0 → c < s.ctxs.length →
        let x := ctxOf s c
        let due := Instr.launchPacket (32 + c) rec_.pkt
        (activeQueues s = [] → 64 ≤ arbiterUsed s → exec .commandCoreStep s = .next s) ∧
        (activeQueues s = [] → arbiterUsed s < 64 → x.ovTail ≤ x.ovHead → exec .commandCoreStep s = .next { s with
          store := s.store.erase rec_, agenda := s.agenda ++ [due] }) ∧
        (activeQueues s = [] → arbiterUsed s < 64 → x.ovTail = x.ovHead + 1 → storeCount s c = x.quota → s.store.length ≤ 256 →
          InMemory s (overflowAt x x.ovHead) 64 → Ends .commandCoreStep s (fun t => t.agenda = s.agenda ++ [due] ∧ t.mem = s.mem ∧
            t.store = s.store.erase rec_ ++ [{ ctx := c, pkt := packetOf (memBytes s.mem (overflowAt x x.ovHead) 64) }] ∧
            (ctxOf t c).ovHead = x.ovHead + 1)) ∧
        (activeQueues s = [q] → holds q → arbiterUsed s < 63 → x.ovTail ≤ x.ovHead →
          let p := packetOf (memBytes s.mem (packetAt k k.head) 64)
          (p.kind < 4 → Ends .commandCoreStep s (fun t => t.agenda = s.agenda ++ [packetEvent q p] ∧ t.store = s.store)) ∧
          (p.kind = 4 → Ends .commandCoreStep s (fun t => t.agenda = s.agenda ++ [packetEvent q p, due] ∧ t.store = s.store.erase rec_)) ∧
          (4 < p.kind → exec .commandCoreStep s = .next { s with store := s.store.erase rec_, agenda := s.agenda ++ [due] }))))

/-- A held launch whose cores can take its teams is placed, its teams Running at their entries with x1 = ARGS, or leaves with a status;
one held long enough is aged or loses its hold; unclaimed scratchpad is lent; a launch whose teams are gone writes its state fields, after a last
update of the controller where Fondant has finished every cell (for a cut launch the model's reading, log 39), and its status; Fondant does
nothing in a fully covered cell, writes zeros to a point with no source and passes over one whose access was refused. It says when each completes: launchPlacement,
scratchLend, launchAged, holdTimeout, launchComplete, fondantReconstructCell (§8.3, §11.3, §11.4, §11.5, §12.3, §20.1). -/
def Obligations.LaunchSteps : Prop :=
  ∀ (s : State) (n : Nat) (l : Launch), launchOf s n = some l →
    let x := ctxOf s l.ctx
    let ready := l.st = .held ∧ orderedBehind s l = false ∧ stillHeld s l = false ∧ parkedAgain s (.launchPlacement n) = false ∧
      l.cores.all (coreTakes s l) = true ∧ ∀ k ∈ s.launches, k.id < n → placeable s k = false
    let status (t : State) (fields : List (Nat × List Byte)) (v : Nat) : Prop :=
      Wrote s t (fields ++ if l.stat = 0 then [] else [(l.stat.toNat, leBytes 8 v)]) ∧ (∀ k ∈ t.launches, k.id ≠ n) ∧
        ∀ q, l.queue = some q → queueOf t q = { queueOf s q with outstanding := (queueOf s q).outstanding - 1 }
    let queued := ∀ q, l.queue = some q → q < s.queues.length
    (¬ ready → exec (.launchPlacement n) s = .next s) ∧
    (ready → x.mayRun l.pennant = false → Still s l.ctx → l.stat.toNat + 8 ≤ 0x1000000000 → queued →
      Ends (.launchPlacement n) s (fun t => status t [] 5)) ∧
    (∀ c k ks, ready → x.mayRun l.pennant = true → l.pattern = 0 → l.cores = [c] → freeSlots (s.forLaunch l) c = k :: ks →
      Ends (.launchPlacement n) s (fun t => t.t = s.t ∧ t.mem = s.mem ∧ launchOf t n = some { l with st := .running } ∧
        ∃ u ∈ t.others, u.core = c ∧ u.slot = k ∧ u.ctx = l.ctx ∧ u.pennant = l.pennant ∧ u.launch = n ∧ u.life = .running ∧
          u.spc = l.entry ∧ u.xr 1 = l.args ∧ (∀ r, r ≠ 1 → u.xr r = 0) ∧ u.gmax = l.gmax ∧ u.bunting = fullMask (laneCount l.gmax) ∧
          u.claim = l.claim ∧ u.priv = l.priv)) ∧
    (ready → x.mayRun l.pennant = true → l.pattern ≠ 0 → Still s l.ctx → l.cblk.toNat + 128 ≤ 0x1000000000 →
      let bs := memBytes s.mem l.cblk.toNat 128
      (covOk bs = false → l.stat.toNat + 8 ≤ 0x1000000000 → queued → Ends (.launchPlacement n) s (fun t => status t [] 6)) ∧
      (covOk bs = true → dwordAt bs 0x30 = 0 → Ends (.launchPlacement n) s (fun t => t.mem = s.mem ∧
        ∃ k, launchOf t n = some k ∧ k.st = .running ∧ k.cov = some (covBlock bs)))) ∧
    (∀ c < 144, exec (.scratchLend c) s =
      .next { s with caches := { s.caches with lent := sset 0 s.caches.lent c (128 - unitsClaimed s c) } }) ∧
    exec (.launchAged n) s = .next { s with launches := s.launches.map (fun k =>
      if k.id = n then (if k.st = .held ∧ meshPassed s k.mclk0 4096 = true then { k with aged := true } else k) else k) } ∧
    exec (.holdTimeout n) s = .next { s with launches := s.launches.map (fun k =>
      if k.id = n then (if k.st = .held ∧ 320000 ≤ s.time - k.since then { k with holdClass := none } else k) else k) } ∧
    (launchOver s l = false → exec (.launchComplete n) s = .next s) ∧
    (launchOver s l = true → parkedWrites s l.ctx (l.cblk + 0x40) 0x18 = false → Still s l.ctx → l.stat.toNat + 8 ≤ 0x1000000000 → queued →
      (l.cov = none → Ends (.launchComplete n) s (fun t => status t [] l.status)) ∧
      (∀ b, l.cov = some b → l.done.length < b.cellsX * b.cellsY → l.cblk.toNat + 128 ≤ 0x1000000000 → Ends (.launchComplete n) s (fun t =>
        status t (l.stateFields.map (fun w => (w.1.toNat, w.2))) l.status)) ∧
      (∀ b, l.cov = some b → b.cellsX * b.cellsY ≤ l.done.length → l.cblk.toNat + 128 ≤ 0x1000000000 → Ends (.launchComplete n) s (fun t =>
        status t ((l.control b s.gov.gcap).stateFields.map (fun w => (w.1.toNat, w.2))) l.status))) ∧
    (∀ b cell, l.cov = some b →
      (fondantReady s l b cell = false → exec (.fondantReconstructCell n cell) s = .next s) ∧
      (fondantReady s l b cell = true → parkedAgain s (.fondantReconstructCell n cell) = false →
        (256 ≤ (sget (0, 0) l.covers cell).1 → l.pattern < 6 → exec (.fondantReconstructCell n cell) s = .next { s with
          launches := s.launches.map (fun k => if k.id = n then { k with done := cell :: k.done } else k) }) ∧
        (b.w = 1 → b.h = 1 → cell = 0 → l.lost.contains (0, 0) = true → exec (.fondantReconstructCell n 0) s = .next { s with
          launches := s.launches.map (fun k => if k.id = n then { k with done := 0 :: k.done } else k) }) ∧
        (Still s l.ctx → l.pennant = 0 → b.w = 1 → b.h = 1 → cell = 0 → l.lost.contains (0, 0) = false → b.base.toNat + 8 ≤ 0x1000000000 →
          (sget (0, 0) l.covers 0).1 ≤ l.rankAt 0 0 → (sget (0, 0) l.covers 0).2 = 0 → Ends (.fondantReconstructCell n 0) s (fun t =>
            Wrote s t [(b.base.toNat, List.replicate (elemSize b.elem) 0)] ∧
            ∃ k, launchOf t n = some k ∧ k.unrec = l.unrec + 1 ∧ k.done = 0 :: l.done))))

/-! ## The driver's replies -/

/-- REPLAY runs a fixed unit's event again, performs a parked write, performs a parked load of a resident team, and is logged for a saved
one, in the save area if it was evicted, whose bytes are free (log 45, a choice of the model); REPLAY_ALL covers every entry of the context; FAIL stops the entry's team with cause 0x0c or drops the access; KILL cuts the team. It
says when each completes: freplyReplay, freplyReplayAll, freplyFail, freplyKill (§14.4, §14.6). -/
def Obligations.Replies : Prop :=
  ∀ (s : State) (c id : Nat),
    let mine (f : FixedPark) : Prop := f.ctx = c ∧ f.id = id
    let saved (f : Team → Bool) (r : Reply) : State :=
      { s with shadows := s.shadows.map (fun h => if h.teams.any f then { h with replies := h.replies ++ [r] } else h) }
    let entry (e : OpEntry) : Prop := e.record = true ∧ e.id = id ∧ s.t.oplog = [e] ∧ s.t.ctx = c ∧ s.t.alive = true
    let named (t : Team) : Bool := t.named c id
    let unevicted := s.shadows.length = 4 ∧ ∀ h ∈ s.shadows, h.area = none
    (∀ f i, fixedOf s c id = some f → f.work = .again i → exec (.freplyReplay c id) s = .next { s with
      fixed := s.fixed.filter (fun g => !(g.ctx == c && g.id == id)), agenda := s.agenda ++ [i] }) ∧
    (∀ f pc queue va bs, fixedOf s c id = some f → f.work = .writes pc queue [(va, bs)] → Still s c →
      va.toNat + bs.length ≤ 0x1000000000 → f.pennant = 0 → bs.length ≤ 4096 → (∀ q, queue = some q → q < s.queues.length) →
      Ends (.freplyReplay c id) s (fun t => Wrote s t [(va.toNat, bs)] ∧ (∀ g, g ∈ t.fixed ↔ g ∈ s.fixed ∧ ¬ mine g) ∧
        ∀ q, queue = some q → queueOf t q = { queueOf s q with outstanding := (queueOf s q).outstanding - 1 })) ∧
    (∀ e off evict scope ord sz b xt, fixedOf s c id = none → entry e → e.scalar = true → e.instr = some (.ld off evict scope ord sz b xt) →
      let va := (e.lanes.headD { lane := 0, addr := 0, data := 0 }).addr
      Flat s c → s.t.pennant = 0 → va.toNat + 2 ^ sz.toNat ≤ 0x1000000000 → Unbuffered s va.toNat (2 ^ sz.toNat) →
      Ends (.freplyReplay c id) s (fun t => t.t.oplog = [] ∧ t.mem = s.mem ∧ t.t.spc = s.t.spc ∧
        t.t.sPark = (if s.t.sPark.map (fun p => p.1) = some id then none else s.t.sPark) ∧
        ∀ q, t.t.xr q = if q = xt ∧ xt ≠ 0 then BitVec.ofNat 64 (leNat (memBytes s.mem va.toNat (2 ^ sz.toNat))) else s.t.xr q)) ∧
    (fixedOf s c id = none → ownerOf s c id = none → unevicted →
      exec (.freplyReplay c id) s = .next (saved (fun t => t.ctx == c && t.ownsEntry id) (.replay c id)) ∧
      exec (.freplyFail c id) s = .next (saved (fun t => t.ctx == c && t.ownsEntry id) (.fail c id))) ∧
    (∀ k pa n, fixedOf s c id = none → ownerOf s c id = none → s.shadows.length = 4 → k < 4 → (shadowOf s k).area = some (pa, n) →
      (∀ j < 4, (shadowOf s j).teams.any (fun t => t.ctx == c && t.ownsEntry id) = decide (j = k)) → s.caches.wc = [] →
      Ends (.freplyReplay c id) s (fun t => (shadowOf t k).replies = (shadowOf s k).replies ++ [.replay c id] ∧ t.t = s.t ∧
        (∃ m, (shadowOf t k).area = some (pa, m) ∧ memBytes t.mem pa areaSize = areaBytes m) ∧
        ∀ a, a < pa ∨ pa + areaSize ≤ a → sget 0 t.mem a = sget 0 s.mem a)) ∧
    (unevicted → exec (.freplyReplayAll c) s = .next { s with
      shadows := s.shadows.map (fun h => { h with
        replies := h.replies ++ (((h.teams.filter (fun t => t.ctx == c)).flatMap Team.entryIds).eraseDups).map (.replay c) })
      agenda := s.agenda ++ (((s.fixed.filter (fun f => f.ctx == c)).map (fun f => f.id) ++
        (s.teams.filter (fun t => t.ctx == c)).flatMap Team.entryIds).eraseDups).map (fun i => Instr.freplyReplay c i) }) ∧
    (∀ f q p, fixedOf s c id = some f → f.work = .again (.waitPacket q p) → q < s.queues.length →
      (Ends (.freplyFail c id) s (fun t => (queueOf t q).state = 2 ∧ (queueOf t q).cause = 5 ∧ ∀ g, g ∈ t.fixed ↔ g ∈ s.fixed ∧ ¬ mine g)) ∧
      (Ends (.freplyKill c id) s (fun t => (queueOf t q).state = 2 ∧ (queueOf t q).cause = 5 ∧ ∀ g, g ∈ t.fixed ↔ g ∈ s.fixed ∧ ¬ mine g))) ∧
    (∀ e, fixedOf s c id = none → entry e → c < s.ctxs.length → Ends (.freplyFail c id) s (fun t => t.t.life = .stopped ∧ t.t.oplog = [] ∧
      t.mem = s.mem ∧ t.t.x = s.t.x ∧ t.t.v = s.t.v ∧
      ∃ r, (ctxOf t c).faultQ = (ctxOf s c).faultQ ++ [r] ∧ (r.info.extractLsb' 56 7).toNat = 0x0c ∧
        (r.info.extractLsb' 49 3).toNat = e.access % 8 ∧ r.pc = e.pc ∧ r.addr = e.va ∧
        t.t.why = .fault r.id ∧ ∀ n, s.t.why = .fault n → r.id = n)) ∧
    (fixedOf s c id = none → s.t.life ≠ .retired → named s.t = true → s.t.headStarted = false → s.t.headReady = false →
      Ends (.freplyKill c id) s (fun t => t.t = s.t.cutDown ∧ t.t.life = .retired ∧ t.mem = s.mem ∧
        ∀ l, launchOf s s.t.launch = some l → ∃ k, launchOf t s.t.launch = some k ∧ k.cut = true ∧ (l.status = 0 → k.status = 9))) ∧
    (fixedOf s c id = none → s.teams.any named = false → unevicted → exec (.freplyKill c id) s = .next (saved named (.kill c id)))

/-! ## Contexts -/

/-- A virtual address is translated by its lane's last-page register, else by the lowest range entry that covers it, else by the page TLB, else by
a walk, which sets A, and D for a write, and enters the leaf in the TLB; each check of R281, R282, R284 and R291 fails with its fault, and then
nothing changes but that a cached entry no longer valid in memory leaves the TLB when its D is to be set. A context load clears LOADED; when it completes, a valid record's values apply and an invalid one leaves LOADED 0; an invalidation
drops the context's translations in its range from every TLB and sets BUSY, which ends once its stores are drained; a waiting fault record
goes to its free slot. It says when each completes: contextLoad, contextLoadComplete, invalidateAll, invalidateRange,
invalidationComplete, faultRecordWrite. The level a walk fault reports is the model's reading (log 15) (§14.1, §14.2, §14.3, §14.4, §22.3). -/
def Obligations.Contexts : Prop :=
  (∀ (s : State) (a : Acc) (k : AKind) (lane : Option Nat) (va : DWord),
    let fails (f : TFault) : Prop := translate a k lane va s = .ok (.error f, s)
    let plain (c : Nat) : TFault := { cause := c, addr := va, walk := false, level := 0, va := va }
    let gives (pa : Nat) (P : State → Prop) : Prop := ∃ t, translate a k lane va s = .ok (.ok pa, t) ∧
      t = { s with mem := t.mem, caches := t.caches, t := { s.t with lastPages := t.t.lastPages } } ∧ P t
    let same (t : State) : Prop := t.mem = s.mem ∧ t.caches = s.caches
    let right (e : DWord) : Bool := match k with
      | .load | .engRead | .fixRead => e.getLsbD 2
      | .store | .engWrite | .fixWrite => e.getLsbD 3
      | .atomic => e.getLsbD 2 && e.getLsbD 3
      | .fetch => e.getLsbD 4
    let writes : Bool := match k with
      | .store | .atomic | .engWrite | .fixWrite => true
      | _ => false
    let mt (e : DWord) : Nat := (e.extractLsb' 10 2).toNat
    let check (e : DWord) : Option Nat :=
      if e.getLsbD 53 then some 0x22 else if right e = false then some 0x21
      else if mt e = 2 ∧ k ≠ .engRead ∧ k ≠ .engWrite then some 0x0a
      else if writes = true ∧ a.pennant ≠ 0 ∧ (e.getLsbD 5 = false ∨ mt e = 2) then some 0x08 else none
    let x := ctxOf s a.ctx
    let covers (r : RangeEnt) : Prop := r.perm.getLsbD 0 = true ∧ r.vbase.toNat ≤ va.toNat ∧ va.toNat < r.vlim.toNat
    let page (i : Nat) : LastPage := sget LastPage.none s.t.lastPages i
    s.win.memCode ≠ 0 → s.caches.wc = [] → (canonical va = false → fails (plain 0x0b)) ∧
      (canonical va = true →
        -- the last-page register
        (∀ i, lane = some i → (page i).bits.getLsbD 0 = true → (page i).vpn = va.toNat % 2 ^ 57 / 4096 → check (page i).bits = none →
          (writes = true → (page i).bits.getLsbD 7 = true) → gives (4096 * (page i).ppn + va.toNat % 4096) (fun t => t = s)) ∧
        ((∀ i, lane = some i → (page i).bits.getLsbD 0 = false) →
          -- range entries
          (∀ (r : RangeEnt) (l m : List RangeEnt), x.ranges = l ++ r :: m → (∀ q ∈ l, ¬ covers q) → covers r →
            let e := r.perm &&& 0xfff
            let pa := (r.pbase.toNat + (va.toNat - r.vbase.toNat)) % 2 ^ 48
            (mt e = 3 → fails (plain 0x25)) ∧ (∀ c, mt e ≠ 3 → check e = some c → fails (plain c)) ∧
            (mt e ≠ 3 → check e = none → InMemory s pa 1 → gives pa same)) ∧
          ((∀ r ∈ x.ranges, ¬ covers r) →
            -- the page TLB
            (∀ y : TlbEnt, (y.entry.extractLsb' 8 2) = 0 → y.lvl ≤ 2 →
              s.caches.tlb.filter (fun z => z.core == a.core && z.ctx == a.ctx && z.vpn / z.run == vpnAt z.lvl va / z.run) = [y] →
              let size := 2 ^ (12 + 9 * y.lvl)
              let pa := entryPa y.entry + va.toNat % size
              let dirty := writes = true ∧ y.entry.getLsbD 7 = false
              (∀ c, ¬ dirty → check y.entry = some c → fails (plain c)) ∧
              (¬ dirty → check y.entry = none → entryPa y.entry % size = 0 → InMemory s pa 1 → gives pa (fun t => t.mem = s.mem)) ∧
              (dirty → check y.entry = none → entryPa y.entry % size = 0 → InMemory s pa 1 → InMemory s y.at_ 8 →
                (entryOf s.mem y.at_).getLsbD 0 = true → gives pa (fun t => Wrote s t [(y.at_, leBytes 8 (entryOf s.mem y.at_ ||| 0x80).toNat)])) ∧
              (∀ p, dirty → (entryOf s.mem y.at_).getLsbD 0 = false → Leads s.mem va 4 x.root.toNat y.lvl p → entryPlace va y.lvl p = y.at_ →
                InMemory s y.at_ 8 → translate a k lane va s = .ok (.error (plain 0x20), { s with caches := { s.caches with
                  tlb := s.caches.tlb.filter (fun z => !(z.ctx == a.ctx && z.at_ == y.at_)) } }))) ∧
            -- a walk
            ((∀ z ∈ s.caches.tlb, ¬ (z.core = a.core ∧ z.ctx = a.ctx)) → ∀ lvl p, Leads s.mem va 4 x.root.toNat lvl p →
              let at_ := entryPlace va lvl p
              let e := entryOf s.mem at_
              let nr := (e.extractLsb' 51 2).toNat
              let cont := (e.extractLsb' 8 2).toNat
              let size := 2 ^ (12 + 9 * lvl)
              let noLeaf := 3 ≤ lvl ∨ nr ≠ 0 ∨ cont = 3 ∨ (cont = 1 ∧ lvl ≠ 0) ∨ (cont = 0 ∧ entryPa e % size ≠ 0)
              let sound := e.extractLsb' 54 10 = 0 ∧ mt e ≠ 3
              (e.getLsbD 0 = false → fails (plain 0x20)) ∧
              (e.getLsbD 0 = true → ¬ sound ∨ (e.getLsbD 1 = true ∧ noLeaf) ∨ (e.getLsbD 1 = false ∧ (lvl = 0 ∨ 2 ≤ nr)) → fails (plain 0x25)) ∧
              (e.getLsbD 0 = true → sound → e.getLsbD 1 = false → lvl ≠ 0 → nr < 2 → nr = 1 ∨ e.getLsbD 53 = true ∨ mt e = 2 →
                fails { cause := 0x23, addr := BitVec.ofNat 64 (entryPa e), walk := true, level := lvl - 1, va := va }) ∧
              (e.getLsbD 0 = true → sound → e.getLsbD 1 = true → ¬ noLeaf → cont = 0 →
                (∀ c, check e = some c → fails (plain c)) ∧
                (check e = none → InMemory s (entryPa e + va.toNat % size) 1 → gives (entryPa e + va.toNat % size) (fun t =>
                  let now := e ||| 0x40 ||| (if writes then 0x80 else 0)
                  Wrote s t [(at_, leBytes 8 now.toNat)] ∧
                    ∃ z ∈ t.caches.tlb, z.core = a.core ∧ z.ctx = a.ctx ∧ z.lvl = lvl ∧ z.at_ = at_ ∧ z.entry = now)))))))) ∧
  ∀ (s : State) (c : Nat),
    let x := ctxOf s c
    let wake : List Instr := if s.gov.idle ≠ 0 ∨ s.gov.gated ≠ [] then [.idleExit] else []
    let rec_ := memBytes s.mem x.ctxrec.toNat 256
    let drops (i : Instr) (lo n : Nat) (p m : Nat) : Prop := Ends i s (fun t =>
      (∀ e, e ∈ t.caches.tlb ↔ e ∈ s.caches.tlb ∧ ¬ (e.ctx = c ∧
        overlaps (e.vpn / e.run * e.run * 2 ^ (12 + 9 * e.lvl)) (e.run * 2 ^ (12 + 9 * e.lvl)) lo n = true)) ∧
      t.win = { s.win with invCtx := some (c, p, m) } ∧ (∀ u ∈ t.teams, u.ctx = c → u.lastPages = []) ∧ t.mem = s.mem ∧
      t.ctxs = s.ctxs ∧ t.t = { s.t with lastPages := t.t.lastPages })
    let at_ := x.frbase.toNat + 64 * (x.faultN % 2 ^ x.frlog2)
    exec (.contextLoad c) s = .next { s with
      agenda := s.agenda ++ wake, ctxs := updNth s.ctxs c (fun x => { x with loaded := false, loading := true }) } ∧
    (x.loading = false → exec (.contextLoadComplete c) s = .next s) ∧
    (x.loading = true → c < s.ctxs.length → s.caches.wc = [] → InMemory s x.ctxrec.toNat 256 →
      (recordOk x.ctxrec rec_ = true → Ends (.contextLoadComplete c) s (fun t => t.mem = s.mem ∧
        (∀ u ∈ t.teams, u.ctx = c → u.lastPages = []) ∧ (let y := ctxOf t c
          y.loaded = true ∧ y.loading = false ∧ y.root = dwordAt rec_ 0 ∧ y.tvec = dwordAt rec_ 0x10 ∧ y.frbase = dwordAt rec_ 0x18 ∧
          y.oslimit = wordAt rec_ 0x20 ∧ y.quota = natAt rec_ 0x24 2 ∧ y.ovbase = dwordAt rec_ 0x28 ∧ y.pens = x.pens ∧
          y.ranges = (List.range 4).map (recordRange rec_)) ∧ ∀ d, d ≠ c → ctxOf t d = ctxOf s d)) ∧
      (recordOk x.ctxrec rec_ = false → Ends (.contextLoadComplete c) s (fun t => t.mem = s.mem ∧
        (∀ u ∈ t.teams, u.ctx = c → u.lastPages = []) ∧ t.ctxs = updNth s.ctxs c (fun x => { x with loading := false })))) ∧
    Ends (.invalidateAll c) s (fun t => (∀ e, e ∈ t.caches.tlb ↔ e ∈ s.caches.tlb ∧ e.ctx ≠ c) ∧
      t.win = { s.win with invCtx := some (c, 0, 2 ^ 45) } ∧ (∀ u ∈ t.teams, u.ctx = c → u.lastPages = []) ∧ t.mem = s.mem) ∧
    (∀ (vpn : BitVec 45) (k : BitVec 6), 12 ≤ k.toNat → k.toNat ≤ 34 →
      let lo := vpn.toNat * 4096 / 2 ^ k.toNat * 2 ^ k.toNat
      drops (.invalidateRange c vpn k) lo (2 ^ k.toNat) (lo / 4096) (2 ^ k.toNat / 4096)) ∧
    (∀ (vpn : BitVec 45) (k : BitVec 6), k.toNat < 12 ∨ 34 < k.toNat → exec (.invalidateRange c vpn k) s = exec (.invalidateAll c) s) ∧
    (s.win.invCtx = none → exec .invalidationComplete s = .next s) ∧
    (∀ p m, s.win.invCtx = some (c, p, m) → Ends .invalidationComplete s (fun t => t.win = { s.win with invCtx := none } ∧
      (∀ l ∈ t.caches.wc, l ∈ s.caches.wc ∧ l.ctx ≠ c ∧ ∀ b ∈ l.bytes, b.ctx ≠ c) ∧
      (∀ q, q ∈ t.caches.quanta ↔ q ∈ s.caches.quanta ∧ q.ctx ≠ c) ∧ t.t = s.t)) ∧
    (x.faultQ = [] → exec (.faultRecordWrite c) s = .next s) ∧
    (∀ r rs, x.faultQ = r :: rs → c < s.ctxs.length → s.caches.wc = [] → InMemory s at_ 64 →
      ((sget 0 s.mem (at_ + 0x1f)).getLsbD 7 = true → exec (.faultRecordWrite c) s = .next s) ∧
      ((sget 0 s.mem (at_ + 0x1f)).getLsbD 7 = false → Ends (.faultRecordWrite c) s (fun t => (ctxOf t c).faultQ = rs ∧
        (ctxOf t c).faultN = x.faultN + 1 ∧ Wrote s t [(at_, leBytes 8 r.time ++ leBytes 8 r.addr.toNat ++ leBytes 8 r.pc.toNat ++ leBytes 8 r.info.toNat ++
            leBytes 4 r.lanes.toNat ++ leBytes 4 r.id ++ List.replicate 24 0)] ∧
          (x.lastIrq = 0 → t.win.intstat = s.win.intstat ||| 4))))

/-! ## Pre-emption -/

/-- A save takes a partition's teams and front-end items into its slot, an ICFLUSH that has discarded nothing among what is issued again, and
the transfer's end sets PSTAT 2; a restore reserves their slots and its end brings them back, the reply log first; an evict fills the save area
and ends in PSTAT 3; each raises its interrupt; RESUME lets a debug-stopped team go on, a saved one where none on the cores has its number. A
restore waits for a launch that had aged before it and stands on one of its cores. The area's bytes, which the spec does not lay out, are
the model's free bytes, and a restore from an area that still holds them brings the slot back (log 45); the order of queued operations and of
aged launches is the model's reading (log 46), which team a RESUME reaches too (log 60) (§14.6, §15.2). -/
def Obligations.Preemption : Prop :=
  ∀ (s : State) (k : Nat), k ≤ 3 → s.shadows.length = 4 →
    let h := shadowOf s k
    let wake : List Instr := if s.gov.idle ≠ 0 ∨ s.gov.gated ≠ [] then [.idleExit] else []
    let wakes (i : Instr) : Prop := exec i s = .next { s with agenda := s.agenda ++ wake }
    let ended (t : State) (pstat : Nat) : Prop := (shadowOf t k).pstat = pstat ∧ (shadowOf t k).pending = 0 ∧
      t.win.intstat = s.win.intstat ||| 0x40 ∧ t.t = { s.t with lastPages := t.t.lastPages }
    let area := (s.win.psave.getD k 0).toNat / 2 ^ 21 * 2 ^ 21
    (h.pstat ≠ 0 → wakes (.preemptSave k)) ∧
    (h.pstat = 0 → h.pending = 0 → s.t.life ≠ .retired → partitionOf s.t.core = k →
      (s.t.wait = .none ∨ ∃ sc lo n, s.t.wait = .icflush sc lo n) → s.t.headStarted = false →
      s.t.headReady = false → (∀ i, s.t.why = .fault i → s.t.life = .stopped) → s.others = [] → Ends (.preemptSave k) s (fun t => t.teams = [] ∧ t.order = s.order ++ [(k, 1)] ∧
        t.reserved = s.reserved ++ [(s.t.core, s.t.slot, s.t.claim)] ∧ (shadowOf t k).pstat = 1 ∧ (shadowOf t k).pending = 1 ∧
        (∀ i, i ∈ t.front.pixels ↔ i ∈ s.front.pixels ∧ partitionOf i.1 ≠ k) ∧
        (shadowOf t k).pixels = s.front.pixels.filter (fun i => partitionOf i.1 == k) ∧
        ∃ u, (shadowOf t k).teams = [u] ∧ u.core = s.t.core ∧ u.slot = s.t.slot ∧ u.x = s.t.x ∧ u.v = s.t.v ∧ u.p = s.t.p ∧
          u.spc = s.t.spc ∧ u.oplog = s.t.oplog ∧ u.spad = s.t.spad ∧ u.acc = s.t.acc ∧ u.wait = .none ∧ u.life = .stopped)) ∧
    (h.pending ≠ 1 → exec (.saveComplete k) s = .next s) ∧
    (h.pending = 1 → s.order = [(k, 1)] → Ends (.saveComplete k) s (fun t => ended t 2 ∧ t.order = [] ∧ (shadowOf t k).teams = h.teams ∧ t.mem = s.mem ∧ t.t = s.t ∧
      ∀ r, r ∈ t.reserved ↔ r ∈ s.reserved ∧ partitionOf r.1 ≠ k)) ∧
    (h.pstat ≠ 2 → h.pstat ≠ 3 → wakes (.preemptRestore k)) ∧
    ((h.pstat = 2 ∨ h.pstat = 3) → h.pending = 0 → Ends (.preemptRestore k) s (fun t => (shadowOf t k).pstat = 1 ∧ (shadowOf t k).pending = 2 ∧
      (shadowOf t k).behind = (s.launches.filter (fun l => decide (l.st = .held) && l.aged)).map (fun l => l.id) ∧ (shadowOf t k).teams = h.teams ∧ t.reserved = s.reserved ++ h.teams.map (fun u => (u.core, u.slot, u.claim)) ∧
      t.order = s.order ++ [(k, 2)] ∧ t.t = s.t ∧ t.mem = s.mem)) ∧
    (h.pending ≠ 2 → exec (.restoreComplete k) s = .next s) ∧
    (∀ l ∈ s.launches, l.st = .held → l.id ∈ h.behind → (∃ u ∈ h.teams, u.core ∈ l.cores) → exec (.restoreComplete k) s = .next s) ∧
    (∀ u, h.pending = 2 → s.order = [(k, 2)] → canRestore s k = true → h.teams = [u] →
      (∀ a n, h.area = some (a, n) → s.caches.wc = [] ∧ memBytes s.mem a (2 ^ 26) = areaBytes n) → u.why = .saved → u.life = .stopped → u.before ≠ .retired →
      fileUsed s u.core + u.file.length ≤ 6144 → Ends (.restoreComplete k) s (fun t => ended t 0 ∧ t.order = [] ∧ (shadowOf t k).teams = [] ∧
        t.mem = s.mem ∧ (∀ w ∈ t.teams, w.ctx = u.ctx → w.lastPages = []) ∧ (∀ l ∈ t.caches.samp, partitionOf l.core = k → 144 ≤ l.core) ∧
        t.agenda = h.replies.map Reply.event ++ s.agenda ∧ t.front.pixels = h.pixels ++ s.front.pixels ∧
        ∃ w ∈ t.others, w.core = u.core ∧ w.slot = u.slot ∧ w.x = u.x ∧ w.v = u.v ∧ w.p = u.p ∧ w.spc = u.spc ∧ w.oplog = u.oplog ∧
          w.life = u.before ∧ w.why = .none)) ∧
    (h.pstat ≠ 2 → wakes (.preemptEvict k)) ∧
    (h.pstat = 2 → h.pending = 0 → Ends (.preemptEvict k) s (fun t => (shadowOf t k).pstat = 1 ∧ (shadowOf t k).pending = 3 ∧
      (shadowOf t k).teams = h.teams ∧ t.t = s.t ∧ t.mem = s.mem)) ∧
    (h.pending ≠ 3 → exec (.evictComplete k) s = .next s) ∧
    (h.pending = 3 → s.caches.wc = [] → Ends (.evictComplete k) s (fun t => ended t 3 ∧ (shadowOf t k).teams = h.teams ∧
      (shadowOf t k).replies = h.replies ∧ t.t = s.t ∧ (∀ a, a < area ∨ area + 2 ^ 26 ≤ a → sget 0 t.mem a = sget 0 s.mem a) ∧
      (InMemory s area (2 ^ 26) → (shadowOf t k).area = some (area, s.free) ∧ memBytes t.mem area (2 ^ 26) = areaBytes s.free))) ∧
    (∀ i : BitVec 64, let stopped (u : Team) : Prop := u.debug = true ∧ u.life ≠ .retired ∧ u.srTeamid = i
      ((∃ u ∈ s.teams, stopped u) ∨ (∀ g ∈ s.shadows, g.area = none) → Ends (.resume i) s (fun t => t.mem = s.mem ∧ t.caches = s.caches)) ∧
      Ends (.resume i) s (fun t => (s.t.srTeamid ≠ i → t.t = s.t) ∧
        (stopped s.t → t.t.debug = false ∧ t.t.x = s.t.x ∧ t.t.v = s.t.v ∧ t.t.spc = s.t.spc ∧ t.shadows = s.shadows ∧
          t.t.paths = s.t.paths.map (fun p => if p.hold = .debug false then { p with hold := .debug true } else p)) ∧
        ((∀ u ∈ s.teams, ¬ stopped u) → ∀ g ∈ h.teams, stopped g → ∃ u ∈ (shadowOf t k).teams, u.debug = false ∧ u.core = g.core ∧
          u.slot = g.slot ∧ u.x = g.x ∧ u.v = g.v ∧ u.spc = g.spc ∧
          u.paths = g.paths.map (fun p => if p.hold = .debug false then { p with hold := .debug true } else p))))

/-! ## Registers, heads, power -/

/-- What a write of a window register does, and a head's blanks and flips; the governor lowers coverage before frequency when a limit is
exceeded and raises frequency before coverage once it has been met; idle states, the idle exit and a device reset. CLASSTAB's bits of no field
are kept as written (log 89); the platform's limits of power and operating point are the model's, 420 W and point 7 until firmware sets others
(log 47) (§1.3, §11.7, §12.3, §15.1, §15.6, §15.7). -/
def Obligations.DriverRegisters : Prop :=
  ∀ (s : State) (v : BitVec 64) (h : Nat),
    let n := v.toNat
    let win (off : Nat) (w : Window) : Prop := exec (.registerWrite off v) s = .next { s with win := w }
    let due (off : Nat) (is : List Instr) : Prop := exec (.registerWrite off v) s = .next { s with agenda := s.agenda ++ is }
    let same (i : Instr) : Prop := exec i s = .next s
    let gov (i : Instr) (g : Gov) : Prop := exec i s = .next { s with gov := g }
    let d := headOf s h
    let vper := bits n 4 18
    let quiet := s.teams = [] ∧ ∀ q ∈ s.queues, q.outstanding = 0 ∧ (q.en = true → q.pending = 0)
    let wake : List Instr := if s.gov.idle ≠ 0 ∨ s.gov.gated ≠ [] then [.idleExit] else []
    -- the register window
    (∀ off < 0x400, same (.registerWrite off v)) ∧
    win 0x880 { s.win with intstat := s.win.intstat &&& ~~~ v } ∧ win 0x888 { s.win with inten := v &&& 0xfffc } ∧
    win 0x908 { s.win with lattol := v.setWidth 32 } ∧ win 0x910 { s.win with classtab := v } ∧
    (let g := bits n 16 9
     let tl := bits n 9 7
     let pl := bits n 0 9
     let legal := 1 ≤ g ∧ g ≤ 256 ∧ 60 ≤ tl ∧ tl ≤ 110 ∧ 150 ≤ pl ∧ pl ≤ 420
     (legal → win 0x900 { s.win with gfloor := g, tlimit := tl, plimit := min pl s.win.platMax }) ∧ (¬ legal → same (.registerWrite 0x900 v))) ∧
    (∀ i < 16, exec (.registerWrite (0x400 + 16 * i) v) s = .next { s with ctxs := updNth s.ctxs i (fun x => { x with ctxrec := v }) } ∧
      (v.getLsbD 0 = true → exec (.registerWrite (0x408 + 16 * i) v) s = .next { s with
        agenda := s.agenda ++ wake, ctxs := updNth s.ctxs i (fun x => { x with loaded := false, loading := true }) }) ∧
      exec (.registerWrite (0xc08 + 16 * i) v) s = .next { s with ctxs := updNth s.ctxs i (fun x => { x with trbase := v }) }) ∧
    (∀ q < 32, exec (.registerWrite (0x1000 + 32 * q) v) s = .next { s with queues := updNth s.queues q (fun k => { k with qhdr := v }) } ∧
      due (0x1010 + 32 * q) [.qdbDoorbell q] ∧
      (v.getLsbD 0 = true → q < s.queues.length → Ends (.registerWrite (0x1008 + 32 * q) v) s (fun t => t.agenda = s.agenda ++ [.queueEnable q] ∧
        (queueOf t q).ctx = if enabling s q then (queueOf s q).ctx else bits n 20 4)) ∧
      (v.getLsbD 0 = false → enabling s q = true → due (0x1008 + 32 * q) [.queueDisable q])) ∧
    (∀ i < 4, due (0x2000 + 64 * i) [.hcfgWrite i v]) ∧ due 0x3400 [.resume v] ∧
    (v.getLsbD 0 = true → v.getLsbD 1 = true → due 0x800 [.invalidateAll (bits n 2 4)]) ∧ (v.getLsbD 0 = false → same (.registerWrite 0x800 v)) ∧
    due 0x840 (match bits n 4 2 with
      | 0 => [.idleExit]
      | 1 => [.preemptSave (bits n 6 2)]
      | 2 => [.preemptRestore (bits n 6 2)]
      | _ => [.preemptEvict (bits n 6 2)]) ∧
    due 0x870 [match bits n 36 2 with
      | 0 => .freplyReplay (bits n 32 4) (bits n 0 32)
      | 1 => .freplyFail (bits n 32 4) (bits n 0 32)
      | 2 => .freplyReplayAll (bits n 32 4)
      | _ => .freplyKill (bits n 32 4) (bits n 0 32)] ∧
    -- heads
    (h < s.heads.length → Ends (.hcfgWrite h v) s (fun t => (headOf t h).hcfg = v &&& ~~~ 0xe ∧ (∀ i, i ≠ h → headOf t i = headOf s i) ∧
      t = { s with heads := t.heads } ∧
      (v.getLsbD 0 = true → vper ≠ 0 → (headOf t h).blankAt = s.time + 256 * vper ∧ (headOf t h).queue = d.queue) ∧
      (v.getLsbD 0 = false ∨ vper = 0 → (headOf t h).queue = [] ∧ (headOf t h).outside = []))) ∧
    (d.enabled = false ∨ s.time < d.blankAt → same (.verticalBlank h)) ∧
    (h < 4 → h < s.heads.length → d.enabled = true → d.blankAt ≤ s.time →
      let shown := if d.queue = [] then d.shown else d.queue.head?
      let vbl (t : State) : Prop := t.win.intstat.getLsbD (12 + h) = true
      Ends (.verticalBlank h) s (fun t => vbl t ∧ t.t = s.t ∧ ∃ bs, headOf t h =
        { d with blankAt := d.blankAt + d.period, queue := d.queue.drop 1, shown := shown, frame := bs }) ∧
      (shown = none → Ends (.verticalBlank h) s (fun t => (headOf t h).frame = d.frame ∧ t.mem = s.mem)) ∧
      (∀ f, shown = some f → Still s f.ctx →
        let pitch := 256 * bits d.hcfg.toNat 22 16
        let row := 4 * (bits d.hcfg.toNat 51 13 + 1)
        let rows := bits d.hcfg.toNat 38 13 + 1
        f.surface.toNat + rows * pitch + row ≤ 0x1000000000 → Ends (.verticalBlank h) s (fun t => t.mem = s.mem ∧
          (headOf t h).frame = (List.range rows).flatMap (fun y => memBytes s.mem (f.surface.toNat + y * pitch) row)))) ∧
    (∀ f fs, h < s.heads.length → d.outside = f :: fs → Ends (.flipEnterQueue h) s (fun t => t.t = s.t ∧
      headOf t h = if d.queue.length < 16 then { d with queue := d.queue ++ [f], outside := fs } else d)) ∧
    -- the governor
    Ends .governorTick s (fun t => t.t = s.t ∧ t.mem = s.mem ∧ ∃ power temp : Nat,
      let high := min s.win.plimit s.win.platMax < power ∨ s.win.tlimit < temp
      let cov := (s.launches.any (fun l => decide (l.st = .running) && l.cov.isSome)) = true
      let moved (gcap point cap : Nat) : Prop := t.gov.gcap = gcap ∧ t.gov.point = point ∧ t.gov.cap = cap
      let low := max 1 (s.gov.point - 1)
      t.gov.power = power ∧ t.gov.temp = temp ∧ (t.gov.exceeded = true ↔ high) ∧
      (high → t.gov.recovering = false ∧ t.win.intstat = (if s.gov.exceeded then s.win.intstat else s.win.intstat ||| 0x400)) ∧
      (¬ high → t.gov.recovering = s.gov.recovering ∧ t.gov.metAt = (if s.gov.exceeded then s.time else s.gov.metAt)) ∧
      (high → cov ∧ s.win.gfloor < s.gov.gcap → moved (max (s.gov.gcap - 16) s.win.gfloor) s.gov.point s.gov.cap) ∧
      (high → ¬ (cov ∧ s.win.gfloor < s.gov.gcap) → moved s.gov.gcap low low) ∧
      (¬ high → s.gov.recovering = false → moved s.gov.gcap s.gov.point s.gov.cap) ∧
      (¬ high → s.gov.recovering = true → s.gov.cap < s.win.platTop → moved s.gov.gcap (s.gov.point + 1) (s.gov.cap + 1)) ∧
      (¬ high → s.gov.recovering = true → s.win.platTop ≤ s.gov.cap → moved (min 256 (s.gov.gcap + 16)) s.gov.point s.gov.cap)) ∧
    (s.gov.exceeded = false → s.gov.metAt + 3200000 ≤ s.time → gov .governorRecoveryTimer { s.gov with recovering := true }) ∧
    (s.gov.exceeded = true ∨ s.time < s.gov.metAt + 3200000 → same .governorRecoveryTimer) ∧
    (∀ th, Ends (.limitExceeded th) s (fun t => t.gov.exceeded = true ∧ t.gov.recovering = false ∧ (th = true → t.gov.thermal = true) ∧
      t.gov.gcap = s.gov.gcap ∧ t.gov.point = s.gov.point ∧ t.gov.cap = s.gov.cap ∧ t.t = s.t ∧ t.mem = s.mem ∧
      t.win.intstat = (if s.gov.exceeded then s.win.intstat else s.win.intstat ||| 0x400))) ∧
    (∀ p, let may := p ≤ s.gov.point ∨ (s.gov.recovering = true ∧ p ≤ s.gov.cap ∧ p ≤ s.win.platTop)
      (1 ≤ p → p ≤ 7 → may → gov (.operatingPointReached p) { s.gov with point := p }) ∧ (¬ may → same (.operatingPointReached p))) ∧
    (∀ c < 144, c ∉ s.gov.gated → sget 0 s.gov.issuedAt c + 1000 ≤ s.time → gov (.lightIdleEntry c) { s.gov with gated := s.gov.gated ++ [c] }) ∧
    (∀ sleep : Bool, quiet → (if sleep then 300 ≤ s.win.lattol.toNat else 20 ≤ s.win.lattol.toNat ∧ s.win.lattol.toNat < 300) →
      gov (.idleStateEntry sleep) { s.gov with idle := if sleep then 3 else 2 }) ∧
    (∀ sleep : Bool, ¬ quiet → same (.idleStateEntry sleep)) ∧
    gov .idleExit { s.gov with idle := 0, gated := [] } ∧ same .coreMappingChange ∧
    Ends .deviceReset s (fun t => t.mem = s.mem ∧ t.time = s.time ∧ t.ctxs = State.reset.ctxs ∧ t.queues = State.reset.queues ∧
      t.t = State.reset.t ∧ t.others = [] ∧ t.launches = [] ∧ t.gov = State.reset.gov ∧
      t.win.intstat = (if s.win.sparesNext = [] then 0 else 0x800) ∧ t.win.gfloor = 64 ∧
      ∀ i < 5, sget 0 t.win.spares i = sget 0 s.win.spares i + sget 0 s.win.sparesNext i)

/-! ## Buffers, errors, the outside -/

/-- Buffered stores and pending operands reach memory in their time, but for an operand that met a damaged block, which is not performed; a
sampler line is read again, the oldest persistent request gets its block's tokens and sets its signature bit; an uncorrectable error leaves zeros and STICKY, a control-state error cuts the team; spares come in while a partition, which
one is the model's free choice (log 48), is free, else at the next reset; trace records, the link, an acknowledgement of link writes, which for
a saved team waits in its slot's reply log, and accesses from outside (§8.3, §8.4, §9.5, §9.6, §15.2, §15.4, §15.5, §15.7). -/
def Obligations.UnitSteps : Prop :=
  ∀ (s : State) (c i : Nat),
    let same (i : Instr) : Prop := exec i s = .next s
    let line := (s.caches.wc.filter (fun l => l.core == c))[i]?
    let quantum := (s.caches.quanta.filter (fun q => q.core == c))[i]?
    let lands (j : Instr) (x : WcLine) : Prop := Ends j s (fun t => t.t = s.t ∧
      (∀ l, l ∈ t.caches.wc ↔ l ∈ s.caches.wc ∧ ¬ (l.line = x.line ∧ l.pennant = x.pennant ∧ (x.pennant = 0 ∨ l.ctx = x.ctx))) ∧
      (x.pennant = 0 → (∀ l ∈ s.caches.wc, l.pennant = 0 → l.line = x.line → l = x) → (x.bytes.map (fun b => b.off)).Nodup →
        (∀ b ∈ x.bytes, sget 0 t.mem (128 * x.line + b.off) = b.val) ∧
        ∀ a, (∀ b ∈ x.bytes, a ≠ 128 * x.line + b.off) → sget 0 t.mem a = sget 0 s.mem a) ∧ (x.pennant ≠ 0 → t.mem = s.mem))
    (line = none → same (.wcBufferDrain c i) ∧ same (.wcBufferTimeout c i)) ∧
    (∀ x, line = some x → lands (.wcBufferDrain c i) x ∧
      (256 * 8 ≤ s.clk - x.since → lands (.wcBufferTimeout c i) x) ∧ (s.clk - x.since < 256 * 8 → same (.wcBufferTimeout c i))) ∧
    (∀ x, quantum = some x → (s.time < x.since + 64 → same (.quantumTimeout c i)) ∧
      (x.since + 64 ≤ s.time → s.caches.quanta = [x] → (∃ y ∈ x.shares, (x.pa / 64, x.core, y.slot) ∈ s.caches.spoilt) →
        Ends (.quantumTimeout c i) s (fun t => t.caches.quanta = [] ∧ t.t = s.t ∧ t.mem = s.mem)) ∧
      (x.since + 64 ≤ s.time → s.caches.quanta = [x] → s.caches.wc = [] → s.caches.spoilt = [] → x.shares ≠ [] → Ends (.quantumTimeout c i) s (fun t => t.caches.quanta = [] ∧ t.t = s.t ∧
        Wrote s t [(x.pa, leBytes x.size (atomNew x.fn (8 * x.size) (atomSigned x.ty) (leNat (memBytes s.mem x.pa x.size)) x.val 0))]))) ∧
    (∀ ctx p l, let held := s.caches.samp.any (fun k => k.core == c && k.ctx == ctx && k.pennant == p && k.line == l)
      (held = false → same (.samplerLineFill c ctx p l)) ∧
      (held = true → p = 0 → InMemory s (128 * l) 128 → Unbuffered s (128 * l) 128 → Ends (.samplerLineFill c ctx p l) s (fun t => t.t = s.t ∧ t.mem = s.mem ∧
        ∀ k ∈ t.caches.samp, k.core = c → k.ctx = ctx → k.pennant = p → k.line = l → k.data = memBytes s.mem (128 * l) 128))) ∧
    (∀ b w, c ≤ 144 → (s.caches.persist.any (fun r => r.block == b && r.holder == c)) = false →
      (∀ k ∈ s.caches.tokens, k.block = b → k.holder = c → w = true ∧ k.count ≠ 256) → exec (.persistentRequest c b w) s =
      .next { s with caches := { s.caches with persist := s.caches.persist ++ [{ block := b, holder := c, write := w, active := false, at_ := s.time }] } }) ∧
    (∀ b r, r ∈ s.caches.persist → r.block = b →
      (∀ x ∈ s.caches.persist, x.block = b → x = r ∨ r.at_ < x.at_ ∨ (r.at_ = x.at_ ∧ r.holder < x.holder)) →
      Ends (.persistentActivation b) s (fun t => t.caches.persist = s.caches.persist.erase r ∧
      (∀ l ∈ t.caches.l1, l.block = b ∨ l.block + 1 = b → l.core = r.holder) ∧ (∀ k ∈ t.caches.tokens, k.block = b → k.holder = r.holder) ∧
      (∃ k ∈ t.caches.tokens, k.block = b ∧ k.holder = r.holder ∧ 1 ≤ k.count ∧ (r.write = true → k.count = 256)) ∧
      (∀ k, k.block ≠ b → k.block ≠ b + 1 → k.block + 1 ≠ b → (∀ l ∈ s.caches.l1, l.core ≠ r.holder → k.block = l.block ∨ k.block = l.block + 1 →
        bucket l.block ≠ bucket b ∧ bucket (l.block + 1) ≠ bucket b) → (k ∈ t.caches.tokens ↔ k ∈ s.caches.tokens)) ∧
      (r.holder < 144 → sget false t.caches.rdSig (2048 * r.holder + bucket b) = true ∧
        (r.write = true → sget false t.caches.wrSig (2048 * r.holder + bucket b) = true)) ∧ t.mem = s.mem ∧ t.t = s.t)) ∧
    -- errors
    (∀ (u : State) (k pa : Nat), s.focus c k = some u → Ends (.uncorrectableError (.block pa c k)) s (fun t =>
      (∀ a, sget 0 t.mem a = if pa / 64 * 64 ≤ a ∧ a < pa / 64 * 64 + 64 then 0 else sget 0 u.mem a) ∧ t.t.sticky = true ∧
      (∀ l, l ∈ t.caches.samp ↔ ∃ k ∈ u.caches.samp, if k.core = c ∧ k.line = pa / 128
        then l = { k with data := overlay (128 * k.line) k.data (pa / 64 * 64) (List.replicate 64 0) } else l = k) ∧
      t.win.errAddr = BitVec.ofNat 64 pa ∧ t.win.intstat = u.win.intstat ||| 0x80 ∧ t.t.x = u.t.x ∧ t.t.v = u.t.v)) ∧
    (∀ (u : State) (k pa : Nat), s.focus c k = some u → Ends (.uncorrectableError (.atomic pa c k)) s (fun t => t.t.sticky = true ∧
      t.caches.spoilt = u.caches.spoilt ++ [(pa / 64, c, k)] ∧
      ∀ a, sget 0 t.mem a = if pa / 64 * 64 ≤ a ∧ a < pa / 64 * 64 + 64 then 0 else sget 0 u.mem a)) ∧
    (∀ pa ctx : Nat, Ends (.uncorrectableError (.fetch pa c ctx)) s (fun t => t.t = s.t ∧ t.win.intstat = s.win.intstat ||| 0x80 ∧
      ∀ a, sget 0 t.mem a = if pa / 64 * 64 ≤ a ∧ a < pa / 64 * 64 + 64 then 0 else sget 0 s.mem a)) ∧
    (∀ (u : State) (k lane r : Nat), s.focus c k = some u → lane < 1024 → r < 128 → Ends (.uncorrectableError (.laneReg c k lane r)) s (fun t =>
      t.mem = u.mem ∧ t.t.sticky = true ∧ ∀ l q, q < 128 → t.t.vr l q = if l = lane ∧ q = r then 0 else u.t.vr l q)) ∧
    (∀ (p n : Nat) (v : Ver), verOf s c p (n / 2) = some v → Ends (.uncorrectableError (.version c p n)) s (fun t => t.mem = s.mem ∧ t.t = s.t ∧
      t.caches.vers = s.caches.vers.map (fun w => if w.ctx = c ∧ w.pennant = p ∧ w.line = n / 2
        then { w with data := overlay (128 * (n / 2)) v.data (64 * n) (List.replicate 64 0) } else w))) ∧
    exec (.correctableError c) s = .next { s with ctxs := updNth s.ctxs c (fun x =>
      if x.capOn then { x with counters := updNth x.counters 13 (fun v => v + 1) } else x) } ∧
    (∀ k, inSlot c k s.t = true → s.t.why ≠ .saved → s.t.headStarted = false → s.t.headReady = false → Ends (.controlStateError c k) s (fun t =>
      t.t = s.t.cutDown ∧ t.mem = s.mem ∧
      ∀ l, launchOf s s.t.launch = some l → ∃ m, launchOf t s.t.launch = some m ∧ m.cut = true ∧ (l.status = 0 → m.status = 9))) ∧
    (∀ f : Bool, Ends (.spareBringIn i f) s (fun t => t.t = s.t ∧ ∃ k < 4,
      let room := f = true ∧ sget 0 s.win.spares i + sget 0 s.win.sparesNext i < spareLimit i
      let now := room ∧ i < 3 ∧ (∀ u ∈ s.teams, partitionOf u.core ≠ k) ∧ (∀ r ∈ s.reserved, partitionOf r.1 ≠ k) ∧
        (shadowOf s k).pending ≠ 1 ∧ (shadowOf s k).pending ≠ 2
      (t.win.intstat = if room ∧ ¬ now then s.win.intstat else s.win.intstat ||| 0x800) ∧
      (∀ k, sget 0 t.win.spares k = sget 0 s.win.spares k + if now ∧ k = i then 1 else 0) ∧
      ∀ k, sget 0 t.win.sparesNext k = sget 0 s.win.sparesNext k + if room ∧ ¬ now ∧ k = i then 1 else 0)) ∧
    -- traces
    (let x := ctxOf s c
     let at_ := x.trbase.toNat + 64 * (x.trN % 2 ^ bits x.trctl.toNat 13 5)
     (bits x.trctl.toNat 5 5 = 0 → same (.traceSample c)) ∧
     (bits x.trctl.toNat 5 5 ≠ 0 → s.teams.filter (fun t => t.ctx == c && decide (t.life = .running)) = [s.t] → c < s.ctxs.length →
      s.caches.wc = [] → InMemory s at_ 64 → Ends (.traceSample c) s (fun t => (ctxOf t c).trN = x.trN + 1 ∧ t.t = s.t ∧
        ((sget 0 s.mem (at_ + 0x10)).getLsbD 0 = true → t.mem = s.mem ∧ t.win.intstat = s.win.intstat ||| 0x100) ∧
        ((sget 0 s.mem (at_ + 0x10)).getLsbD 0 = false → memBytes t.mem at_ 8 = leBytes 8 s.time ∧
          ∀ a, ¬ (at_ ≤ a ∧ a < at_ + 64) → sget 0 t.mem a = sget 0 s.mem a)))) ∧
    -- the link and the outside
    exec .kwenenLinkDown s = .next { s with linkUp := false } ∧ exec .kwenenLinkUp s = .next { s with linkUp := true } ∧
    (∀ k, let owed (h : Shadow) : Prop := (∃ u ∈ h.teams, u.core = c ∧ u.slot = k ∧ u.linkOut ≠ 0) ∧ .ack c k ∉ h.replies
      (inSlot c k s.t = true → (∀ h ∈ s.shadows, ¬ owed h) →
        Ends (.peerWriteAcknowledge c k) s (fun t => t.t = { s.t with linkOut := 0 } ∧ t.mem = s.mem)) ∧
      ∀ n < 4, s.shadows.length = 4 → owed (shadowOf s n) →
        Ends (.peerWriteAcknowledge c k) s (fun t => t.t = s.t ∧ (shadowOf t n).replies = (shadowOf s n).replies ++ [.ack c k])) ∧
    (∀ (a n : Nat) (bs : List Byte), s.caches.wc = [] → s.win.memCode ≠ 0 → a + bs.length ≤ 0x1000000000 → a + n ≤ 0x1000000000 →
      let writes (j : Instr) : Prop := Ends j s (fun t => Wrote s t [(a, bs)] ∧ t.t = s.t ∧ t.caches.vers = s.caches.vers)
      let reads (j : Instr) : Prop := Ends j s (fun t => t.mem = s.mem ∧ t.t = s.t)
      writes (.peerLinkRequest a (some bs) n) ∧ writes (.pcieEndpointDma a (some bs) n) ∧ writes (.coherenceAgentRequest a (some bs) n) ∧
      reads (.peerLinkRequest a none n) ∧ reads (.pcieEndpointDma a none n) ∧ reads (.coherenceAgentRequest a none n)) ∧
    (∀ (a n : Nat) (bs : List Byte), regionOf s.win.memCode a ≠ .gddr → regionOf s.win.memCode a ≠ .absent →
      same (.peerLinkRequest a (some bs) n) ∧ same (.pcieEndpointDma a (some bs) n) ∧ same (.coherenceAgentRequest a (some bs) n)) ∧
    (∀ (a n : Nat) (bs : List Byte), regionOf s.win.memCode a = .absent → let drops (j : Instr) : Prop := Ends j s (fun t => t.mem = s.mem ∧
        t.t = s.t ∧ t.win.intstat = s.win.intstat ||| 0x80 ∧ t.win.errAddr = BitVec.ofNat 64 a)
      drops (.peerLinkRequest a (some bs) n) ∧ drops (.pcieEndpointDma a (some bs) n) ∧ drops (.coherenceAgentRequest a (some bs) n))
end

