-- ==== Sys2Proof/Laws/Sparse.lean ====
section
/-! SUPPORT. Laws of the sparse maps: reading after writing, and every write keeps the canonical form. -/

namespace Sys2Proof.Machine

variable {α : Type} [DecidableEq α]

/-- A map canonical from `lo` on is canonical from any lower key on. -/
theorem swfFrom_mono {d : α} {m : SMap α} {lo hi : Nat} (h : swfFrom d hi m = true) (hl : lo ≤ hi) : swfFrom d lo m = true := by
  cases m with
  | nil => rfl
  | cons e m =>
    obtain ⟨j, v⟩ := e
    simp only [swfFrom, Bool.and_eq_true, decide_eq_true_eq] at h ⊢
    exact ⟨⟨by omega, h.1.2⟩, h.2⟩

theorem swfFrom_sdel {d : α} {m : SMap α} {lo k : Nat} (h : swfFrom d lo m = true) : swfFrom d lo (sdel m k) = true := by
  induction m generalizing lo with
  | nil => exact h
  | cons e m ih =>
    obtain ⟨j, w⟩ := e
    simp only [swfFrom, Bool.and_eq_true, decide_eq_true_eq] at h
    by_cases hj : j = k
    · simpa [sdel, hj] using swfFrom_mono (ih h.2) (by omega)
    · have h1 := ih h.2
      simp only [sdel] at h1 ⊢
      simp [hj, swfFrom, h1, h.1]

theorem swfFrom_sput {d : α} {m : SMap α} {lo k : Nat} {v : α} (h : swfFrom d lo m = true) (hk : lo ≤ k) (hv : v ≠ d)
    (hn : ∀ e ∈ m, e.1 ≠ k) : swfFrom d lo (sput m k v) = true := by
  induction m generalizing lo with
  | nil => simp [sput, swfFrom, hk, hv]
  | cons e m ih =>
    obtain ⟨j, w⟩ := e
    simp only [swfFrom, Bool.and_eq_true, decide_eq_true_eq] at h
    unfold sput
    split
    · simp only [swfFrom, Bool.and_eq_true, decide_eq_true_eq]
      exact ⟨⟨hk, hv⟩, ⟨by omega, h.1.2⟩, h.2⟩
    · have hjk : j ≠ k := hn (j, w) List.mem_cons_self
      simp only [swfFrom, Bool.and_eq_true, decide_eq_true_eq]
      exact ⟨h.1, ih h.2 (by omega) (fun e he => hn e (List.mem_cons_of_mem _ he))⟩

/-- Writing keeps the canonical form. -/
theorem swfFrom_sset {d : α} {m : SMap α} {lo k : Nat} {v : α} (h : swfFrom d lo m = true) (hk : lo ≤ k) :
    swfFrom d lo (sset d m k v) = true := by
  unfold sset
  split
  · exact swfFrom_sdel h
  · exact swfFrom_sput (swfFrom_sdel h) hk ‹_› (fun e he => by simpa [sdel] using (List.mem_filter.1 he).2)

/-- Writing keeps the canonical form of a whole map. -/
theorem swf_sset {d : α} {m : SMap α} {k : Nat} {v : α} (h : swf d m = true) : swf d (sset d m k v) = true :=
  swfFrom_sset h (Nat.zero_le k)

/-- Writing a list of values keeps the canonical form. -/
theorem swf_ssetRange {d : α} {m : SMap α} {k : Nat} {vs : List α} (h : swf d m = true) : swf d (ssetRange d m k vs) = true := by
  induction vs generalizing m k with
  | nil => exact h
  | cons v vs ih => exact ih (swf_sset h)

/-- The empty map is canonical. -/
@[simp] theorem swf_nil {d : α} : swf d ([] : SMap α) = true := rfl

omit [DecidableEq α] in
theorem sget_sdel (d : α) (m : SMap α) (k i : Nat) : sget d (sdel m k) i = if i = k then d else sget d m i := by
  induction m with
  | nil => simp [sdel, sget]
  | cons e m ih =>
    obtain ⟨j, w⟩ := e
    unfold sdel at ih ⊢
    by_cases hj : j = k
    · subst hj
      simp only [List.filter_cons, bne_self_eq_false, Bool.false_eq_true, if_false, ih, sget]
      split <;> simp_all
    · simp only [List.filter_cons, bne_iff_ne, ne_eq, hj, not_false_eq_true, if_true, sget, ih]
      split <;> simp_all

omit [DecidableEq α] in
theorem sget_sput (d : α) (m : SMap α) (k i : Nat) (v : α) (h : i = k → ∀ e ∈ m, e.1 ≠ k) :
    sget d (sput m k v) i = if i = k then v else sget d m i := by
  induction m with
  | nil => simp [sput, sget]
  | cons e m ih =>
    obtain ⟨j, w⟩ := e
    unfold sput
    split
    · simp [sget]
    · simp only [sget]
      by_cases hij : i = j
      · subst hij
        have hne : i ≠ k := fun hik => h hik (i, w) List.mem_cons_self hik
        simp [hne]
      · simp only [hij, if_false]
        exact ih (fun hik e he => h hik e (List.mem_cons_of_mem _ he))

/-- Reading after writing. -/
theorem sget_sset (d : α) (m : SMap α) (k i : Nat) (v : α) : sget d (sset d m k v) i = if i = k then v else sget d m i := by
  unfold sset
  split
  · rename_i h; rw [sget_sdel, h]
  · rw [sget_sput _ _ _ _ _ (fun _ e he => by simpa [sdel] using (List.mem_filter.1 he).2), sget_sdel]
    split <;> simp_all

/-- What was written is read. -/
theorem sget_sset_self (d : α) (m : SMap α) (k : Nat) (v : α) : sget d (sset d m k v) k = v := by simp [sget_sset]

/-- Every other key reads as before. -/
theorem sget_sset_ne {d : α} {m : SMap α} {k i : Nat} {v : α} (hi : i ≠ k) : sget d (sset d m k v) i = sget d m i := by
  simp [sget_sset, hi]

/-- Outside the written keys a range write changes nothing. -/
theorem sget_ssetRange_out {d : α} {m : SMap α} {k i : Nat} {vs : List α} (hi : i < k ∨ k + vs.length ≤ i) :
    sget d (ssetRange d m k vs) i = sget d m i := by
  induction vs generalizing m k with
  | nil => rfl
  | cons v vs ih =>
    simp only [List.length_cons] at hi
    unfold ssetRange
    rw [ih (by omega), sget_sset_ne (by omega)]

/-- Inside the written keys a range write gives the values written. -/
theorem sget_ssetRange_in {d : α} {m : SMap α} {k i : Nat} {vs : List α} (hi : i < vs.length) :
    sget d (ssetRange d m k vs) (k + i) = vs[i] := by
  induction vs generalizing m k i with
  | nil => simp at hi
  | cons v vs ih =>
    unfold ssetRange
    cases i with
    | zero => rw [sget_ssetRange_out (by omega), Nat.add_zero, sget_sset_self]; rfl
    | succ i =>
      have := ih (m := sset d m k v) (k := k + 1) (i := i) (by simpa using hi)
      rw [show k + (i + 1) = k + 1 + i by omega, this]
      rfl

/-! ## Memory -/

/-- Writing bytes keeps the canonical form of a memory. -/
theorem memSet_wf {m : Mem} {pa : Nat} {bs : List Byte} (h : Memory.wf m = true) : Memory.wf (memSet m pa bs) = true := swf_ssetRange h

/-- Bytes outside a write read as before. -/
theorem memSet_out {m : Mem} {pa a : Nat} {bs : List Byte} (ha : a < pa ∨ pa + bs.length ≤ a) :
    sget 0 (memSet m pa bs) a = sget 0 m a := sget_ssetRange_out ha

/-- Bytes written are read back. -/
theorem memBytes_memSet {m : Mem} {pa : Nat} {bs : List Byte} : memBytes (memSet m pa bs) pa bs.length = bs := by
  apply List.ext_getElem
  · simp [memBytes, sgetRange]
  · intro i h1 h2
    simp only [memBytes, sgetRange, List.getElem_map, List.getElem_range]
    exact sget_ssetRange_in h2

/-- The bytes of a number, and their number. -/
@[simp] theorem leBytes_length (n v : Nat) : (leBytes n v).length = n := by
  induction n generalizing v with
  | zero => rfl
  | succ n ih => simp [leBytes, ih]

/-- Reading the bytes of a number gives the number. -/
theorem leNat_leBytes (n v : Nat) : leNat (leBytes n v) = v % 256 ^ n := by
  induction n generalizing v with
  | zero => simp [leBytes, leNat, Nat.mod_one]
  | succ n ih =>
    simp only [leBytes, leNat, ih, BitVec.toNat_ofNat]
    rw [show (256 : Nat) ^ (n + 1) = 256 * 256 ^ n from by rw [Nat.pow_succ, Nat.mul_comm], Nat.mod_mul]

end Sys2Proof.Machine
end

