-- ==== Sys2Proof/Laws/State.lean ====
section
/-! SUPPORT. One lemma per field per update of the state and of a team, and frames of the shared register writes. -/

namespace Sys2Proof.Machine

/-! ## State.upd -/

@[simp] theorem State.upd_others (s : State) (f : Team → Team) : (s.upd f).others = s.others := rfl
@[simp] theorem State.upd_turn (s : State) (f : Team → Team) : (s.upd f).turn = s.turn := rfl
@[simp] theorem State.upd_agenda (s : State) (f : Team → Team) : (s.upd f).agenda = s.agenda := rfl
@[simp] theorem State.upd_free (s : State) (f : Team → Team) : (s.upd f).free = s.free := rfl
@[simp] theorem State.upd_time (s : State) (f : Team → Team) : (s.upd f).time = s.time := rfl
@[simp] theorem State.upd_clk (s : State) (f : Team → Team) : (s.upd f).clk = s.clk := rfl
@[simp] theorem State.upd_mclk (s : State) (f : Team → Team) : (s.upd f).mclk = s.mclk := rfl
@[simp] theorem State.upd_mem (s : State) (f : Team → Team) : (s.upd f).mem = s.mem := rfl
@[simp] theorem State.upd_peerMem (s : State) (f : Team → Team) : (s.upd f).peerMem = s.peerMem := rfl
@[simp] theorem State.upd_linkUp (s : State) (f : Team → Team) : (s.upd f).linkUp = s.linkUp := rfl
@[simp] theorem State.upd_caches (s : State) (f : Team → Team) : (s.upd f).caches = s.caches := rfl
@[simp] theorem State.upd_front (s : State) (f : Team → Team) : (s.upd f).front = s.front := rfl
@[simp] theorem State.upd_ctxs (s : State) (f : Team → Team) : (s.upd f).ctxs = s.ctxs := rfl
@[simp] theorem State.upd_queues (s : State) (f : Team → Team) : (s.upd f).queues = s.queues := rfl
@[simp] theorem State.upd_heads (s : State) (f : Team → Team) : (s.upd f).heads = s.heads := rfl
@[simp] theorem State.upd_shadows (s : State) (f : Team → Team) : (s.upd f).shadows = s.shadows := rfl
@[simp] theorem State.upd_order (s : State) (f : Team → Team) : (s.upd f).order = s.order := rfl
@[simp] theorem State.upd_store (s : State) (f : Team → Team) : (s.upd f).store = s.store := rfl
@[simp] theorem State.upd_launches (s : State) (f : Team → Team) : (s.upd f).launches = s.launches := rfl
@[simp] theorem State.upd_nextLaunch (s : State) (f : Team → Team) : (s.upd f).nextLaunch = s.nextLaunch := rfl
@[simp] theorem State.upd_reserved (s : State) (f : Team → Team) : (s.upd f).reserved = s.reserved := rfl
@[simp] theorem State.upd_taken (s : State) (f : Team → Team) : (s.upd f).taken = s.taken := rfl
@[simp] theorem State.upd_fixed (s : State) (f : Team → Team) : (s.upd f).fixed = s.fixed := rfl
@[simp] theorem State.upd_rr (s : State) (f : Team → Team) : (s.upd f).rr = s.rr := rfl
@[simp] theorem State.upd_win (s : State) (f : Team → Team) : (s.upd f).win = s.win := rfl
@[simp] theorem State.upd_gov (s : State) (f : Team → Team) : (s.upd f).gov = s.gov := rfl
@[simp] theorem State.upd_t (s : State) (f : Team → Team) : (s.upd f).t = f s.t := rfl
@[simp] theorem State.upd_upd (s : State) (f g : Team → Team) : (s.upd f).upd g = s.upd (fun t => g (f t)) := rfl

/-! ## State.updCtx -/

@[simp] theorem State.updCtx_t (s : State) (c : Nat) (f : Ctx → Ctx) : (s.updCtx c f).t = s.t := rfl
@[simp] theorem State.updCtx_others (s : State) (c : Nat) (f : Ctx → Ctx) : (s.updCtx c f).others = s.others := rfl
@[simp] theorem State.updCtx_turn (s : State) (c : Nat) (f : Ctx → Ctx) : (s.updCtx c f).turn = s.turn := rfl
@[simp] theorem State.updCtx_agenda (s : State) (c : Nat) (f : Ctx → Ctx) : (s.updCtx c f).agenda = s.agenda := rfl
@[simp] theorem State.updCtx_free (s : State) (c : Nat) (f : Ctx → Ctx) : (s.updCtx c f).free = s.free := rfl
@[simp] theorem State.updCtx_time (s : State) (c : Nat) (f : Ctx → Ctx) : (s.updCtx c f).time = s.time := rfl
@[simp] theorem State.updCtx_clk (s : State) (c : Nat) (f : Ctx → Ctx) : (s.updCtx c f).clk = s.clk := rfl
@[simp] theorem State.updCtx_mclk (s : State) (c : Nat) (f : Ctx → Ctx) : (s.updCtx c f).mclk = s.mclk := rfl
@[simp] theorem State.updCtx_mem (s : State) (c : Nat) (f : Ctx → Ctx) : (s.updCtx c f).mem = s.mem := rfl
@[simp] theorem State.updCtx_peerMem (s : State) (c : Nat) (f : Ctx → Ctx) : (s.updCtx c f).peerMem = s.peerMem := rfl
@[simp] theorem State.updCtx_linkUp (s : State) (c : Nat) (f : Ctx → Ctx) : (s.updCtx c f).linkUp = s.linkUp := rfl
@[simp] theorem State.updCtx_caches (s : State) (c : Nat) (f : Ctx → Ctx) : (s.updCtx c f).caches = s.caches := rfl
@[simp] theorem State.updCtx_front (s : State) (c : Nat) (f : Ctx → Ctx) : (s.updCtx c f).front = s.front := rfl
@[simp] theorem State.updCtx_queues (s : State) (c : Nat) (f : Ctx → Ctx) : (s.updCtx c f).queues = s.queues := rfl
@[simp] theorem State.updCtx_heads (s : State) (c : Nat) (f : Ctx → Ctx) : (s.updCtx c f).heads = s.heads := rfl
@[simp] theorem State.updCtx_shadows (s : State) (c : Nat) (f : Ctx → Ctx) : (s.updCtx c f).shadows = s.shadows := rfl
@[simp] theorem State.updCtx_order (s : State) (c : Nat) (f : Ctx → Ctx) : (s.updCtx c f).order = s.order := rfl
@[simp] theorem State.updCtx_store (s : State) (c : Nat) (f : Ctx → Ctx) : (s.updCtx c f).store = s.store := rfl
@[simp] theorem State.updCtx_launches (s : State) (c : Nat) (f : Ctx → Ctx) : (s.updCtx c f).launches = s.launches := rfl
@[simp] theorem State.updCtx_nextLaunch (s : State) (c : Nat) (f : Ctx → Ctx) : (s.updCtx c f).nextLaunch = s.nextLaunch := rfl
@[simp] theorem State.updCtx_reserved (s : State) (c : Nat) (f : Ctx → Ctx) : (s.updCtx c f).reserved = s.reserved := rfl
@[simp] theorem State.updCtx_taken (s : State) (c : Nat) (f : Ctx → Ctx) : (s.updCtx c f).taken = s.taken := rfl
@[simp] theorem State.updCtx_fixed (s : State) (c : Nat) (f : Ctx → Ctx) : (s.updCtx c f).fixed = s.fixed := rfl
@[simp] theorem State.updCtx_rr (s : State) (c : Nat) (f : Ctx → Ctx) : (s.updCtx c f).rr = s.rr := rfl
@[simp] theorem State.updCtx_win (s : State) (c : Nat) (f : Ctx → Ctx) : (s.updCtx c f).win = s.win := rfl
@[simp] theorem State.updCtx_gov (s : State) (c : Nat) (f : Ctx → Ctx) : (s.updCtx c f).gov = s.gov := rfl
@[simp] theorem State.updCtx_ctxs (s : State) (c : Nat) (f : Ctx → Ctx) : (s.updCtx c f).ctxs = updNth s.ctxs c f := rfl

/-! ## Team.nextS -/

@[simp] theorem Team.nextS_life (t : Team) : (t.nextS).life = t.life := rfl
@[simp] theorem Team.nextS_before (t : Team) : (t.nextS).before = t.before := rfl
@[simp] theorem Team.nextS_why (t : Team) : (t.nextS).why = t.why := rfl
@[simp] theorem Team.nextS_ctx (t : Team) : (t.nextS).ctx = t.ctx := rfl
@[simp] theorem Team.nextS_core (t : Team) : (t.nextS).core = t.core := rfl
@[simp] theorem Team.nextS_slot (t : Team) : (t.nextS).slot = t.slot := rfl
@[simp] theorem Team.nextS_clorg (t : Team) : (t.nextS).clorg = t.clorg := rfl
@[simp] theorem Team.nextS_clrows (t : Team) : (t.nextS).clrows = t.clrows := rfl
@[simp] theorem Team.nextS_clcols (t : Team) : (t.nextS).clcols = t.clcols := rfl
@[simp] theorem Team.nextS_clidx (t : Team) : (t.nextS).clidx = t.clidx := rfl
@[simp] theorem Team.nextS_gmax (t : Team) : (t.nextS).gmax = t.gmax := rfl
@[simp] theorem Team.nextS_win (t : Team) : (t.nextS).win = t.win := rfl
@[simp] theorem Team.nextS_launch (t : Team) : (t.nextS).launch = t.launch := rfl
@[simp] theorem Team.nextS_pennant (t : Team) : (t.nextS).pennant = t.pennant := rfl
@[simp] theorem Team.nextS_nregs (t : Team) : (t.nextS).nregs = t.nregs := rfl
@[simp] theorem Team.nextS_priv (t : Team) : (t.nextS).priv = t.priv := rfl
@[simp] theorem Team.nextS_claim (t : Team) : (t.nextS).claim = t.claim := rfl
@[simp] theorem Team.nextS_x (t : Team) : (t.nextS).x = t.x := rfl
@[simp] theorem Team.nextS_v (t : Team) : (t.nextS).v = t.v := rfl
@[simp] theorem Team.nextS_file (t : Team) : (t.nextS).file = t.file := rfl
@[simp] theorem Team.nextS_spilled (t : Team) : (t.nextS).spilled = t.spilled := rfl
@[simp] theorem Team.nextS_p (t : Team) : (t.nextS).p = t.p := rfl
@[simp] theorem Team.nextS_bunting (t : Team) : (t.nextS).bunting = t.bunting := rfl
@[simp] theorem Team.nextS_bsum (t : Team) : (t.nextS).bsum = t.bsum := rfl
@[simp] theorem Team.nextS_guards (t : Team) : (t.nextS).guards = t.guards := rfl
@[simp] theorem Team.nextS_paths (t : Team) : (t.nextS).paths = t.paths := rfl
@[simp] theorem Team.nextS_splits (t : Team) : (t.nextS).splits = t.splits := rfl
@[simp] theorem Team.nextS_nextSplit (t : Team) : (t.nextS).nextSplit = t.nextSplit := rfl
@[simp] theorem Team.nextS_arms (t : Team) : (t.nextS).arms = t.arms := rfl
@[simp] theorem Team.nextS_curPath (t : Team) : (t.nextS).curPath = t.curPath := rfl
@[simp] theorem Team.nextS_issues (t : Team) : (t.nextS).issues = t.issues := rfl
@[simp] theorem Team.nextS_running (t : Team) : (t.nextS).running = t.running := rfl
@[simp] theorem Team.nextS_waiting (t : Team) : (t.nextS).waiting = t.waiting := rfl
@[simp] theorem Team.nextS_blockNo (t : Team) : (t.nextS).blockNo = t.blockNo := rfl
@[simp] theorem Team.nextS_barriers (t : Team) : (t.nextS).barriers = t.barriers := rfl
@[simp] theorem Team.nextS_cover (t : Team) : (t.nextS).cover = t.cover := rfl
@[simp] theorem Team.nextS_fCause (t : Team) : (t.nextS).fCause = t.fCause := rfl
@[simp] theorem Team.nextS_fEpc (t : Team) : (t.nextS).fEpc = t.fEpc := rfl
@[simp] theorem Team.nextS_inh (t : Team) : (t.nextS).inh = t.inh := rfl
@[simp] theorem Team.nextS_fLane (t : Team) : (t.nextS).fLane = t.fLane := rfl
@[simp] theorem Team.nextS_resume (t : Team) : (t.nextS).resume = t.resume := rfl
@[simp] theorem Team.nextS_trapPath (t : Team) : (t.nextS).trapPath = t.trapPath := rfl
@[simp] theorem Team.nextS_errPend (t : Team) : (t.nextS).errPend = t.errPend := rfl
@[simp] theorem Team.nextS_sticky (t : Team) : (t.nextS).sticky = t.sticky := rfl
@[simp] theorem Team.nextS_trapEn (t : Team) : (t.nextS).trapEn = t.trapEn := rfl
@[simp] theorem Team.nextS_paused (t : Team) : (t.nextS).paused = t.paused := rfl
@[simp] theorem Team.nextS_wait (t : Team) : (t.nextS).wait = t.wait := rfl
@[simp] theorem Team.nextS_batch (t : Team) : (t.nextS).batch = t.batch := rfl
@[simp] theorem Team.nextS_tileQ (t : Team) : (t.nextS).tileQ = t.tileQ := rfl
@[simp] theorem Team.nextS_copyQ (t : Team) : (t.nextS).copyQ = t.copyQ := rfl
@[simp] theorem Team.nextS_nextJoin (t : Team) : (t.nextS).nextJoin = t.nextJoin := rfl
@[simp] theorem Team.nextS_shapes (t : Team) : (t.nextS).shapes = t.shapes := rfl
@[simp] theorem Team.nextS_acc (t : Team) : (t.nextS).acc = t.acc := rfl
@[simp] theorem Team.nextS_spad (t : Team) : (t.nextS).spad = t.spad := rfl
@[simp] theorem Team.nextS_port (t : Team) : (t.nextS).port = t.port := rfl
@[simp] theorem Team.nextS_oplog (t : Team) : (t.nextS).oplog = t.oplog := rfl
@[simp] theorem Team.nextS_sPark (t : Team) : (t.nextS).sPark = t.sPark := rfl
@[simp] theorem Team.nextS_sFetch (t : Team) : (t.nextS).sFetch = t.sFetch := rfl
@[simp] theorem Team.nextS_lastPages (t : Team) : (t.nextS).lastPages = t.lastPages := rfl
@[simp] theorem Team.nextS_bindings (t : Team) : (t.nextS).bindings = t.bindings := rfl
@[simp] theorem Team.nextS_linkOut (t : Team) : (t.nextS).linkOut = t.linkOut := rfl
@[simp] theorem Team.nextS_cell (t : Team) : (t.nextS).cell = t.cell := rfl
@[simp] theorem Team.nextS_debug (t : Team) : (t.nextS).debug = t.debug := rfl
@[simp] theorem Team.nextS_spc (t : Team) : t.nextS.spc = t.spc + 4 := rfl

/-! ## Team.setV -/

@[simp] theorem Team.setV_life (t : Team) (lane r : Nat) (w : Word) : (t.setV lane r w).life = t.life := rfl
@[simp] theorem Team.setV_before (t : Team) (lane r : Nat) (w : Word) : (t.setV lane r w).before = t.before := rfl
@[simp] theorem Team.setV_why (t : Team) (lane r : Nat) (w : Word) : (t.setV lane r w).why = t.why := rfl
@[simp] theorem Team.setV_ctx (t : Team) (lane r : Nat) (w : Word) : (t.setV lane r w).ctx = t.ctx := rfl
@[simp] theorem Team.setV_core (t : Team) (lane r : Nat) (w : Word) : (t.setV lane r w).core = t.core := rfl
@[simp] theorem Team.setV_slot (t : Team) (lane r : Nat) (w : Word) : (t.setV lane r w).slot = t.slot := rfl
@[simp] theorem Team.setV_clorg (t : Team) (lane r : Nat) (w : Word) : (t.setV lane r w).clorg = t.clorg := rfl
@[simp] theorem Team.setV_clrows (t : Team) (lane r : Nat) (w : Word) : (t.setV lane r w).clrows = t.clrows := rfl
@[simp] theorem Team.setV_clcols (t : Team) (lane r : Nat) (w : Word) : (t.setV lane r w).clcols = t.clcols := rfl
@[simp] theorem Team.setV_clidx (t : Team) (lane r : Nat) (w : Word) : (t.setV lane r w).clidx = t.clidx := rfl
@[simp] theorem Team.setV_gmax (t : Team) (lane r : Nat) (w : Word) : (t.setV lane r w).gmax = t.gmax := rfl
@[simp] theorem Team.setV_win (t : Team) (lane r : Nat) (w : Word) : (t.setV lane r w).win = t.win := rfl
@[simp] theorem Team.setV_launch (t : Team) (lane r : Nat) (w : Word) : (t.setV lane r w).launch = t.launch := rfl
@[simp] theorem Team.setV_pennant (t : Team) (lane r : Nat) (w : Word) : (t.setV lane r w).pennant = t.pennant := rfl
@[simp] theorem Team.setV_nregs (t : Team) (lane r : Nat) (w : Word) : (t.setV lane r w).nregs = t.nregs := rfl
@[simp] theorem Team.setV_priv (t : Team) (lane r : Nat) (w : Word) : (t.setV lane r w).priv = t.priv := rfl
@[simp] theorem Team.setV_claim (t : Team) (lane r : Nat) (w : Word) : (t.setV lane r w).claim = t.claim := rfl
@[simp] theorem Team.setV_spc (t : Team) (lane r : Nat) (w : Word) : (t.setV lane r w).spc = t.spc := rfl
@[simp] theorem Team.setV_x (t : Team) (lane r : Nat) (w : Word) : (t.setV lane r w).x = t.x := rfl
@[simp] theorem Team.setV_file (t : Team) (lane r : Nat) (w : Word) : (t.setV lane r w).file = t.file := rfl
@[simp] theorem Team.setV_spilled (t : Team) (lane r : Nat) (w : Word) : (t.setV lane r w).spilled = t.spilled := rfl
@[simp] theorem Team.setV_p (t : Team) (lane r : Nat) (w : Word) : (t.setV lane r w).p = t.p := rfl
@[simp] theorem Team.setV_bunting (t : Team) (lane r : Nat) (w : Word) : (t.setV lane r w).bunting = t.bunting := rfl
@[simp] theorem Team.setV_bsum (t : Team) (lane r : Nat) (w : Word) : (t.setV lane r w).bsum = t.bsum := rfl
@[simp] theorem Team.setV_guards (t : Team) (lane r : Nat) (w : Word) : (t.setV lane r w).guards = t.guards := rfl
@[simp] theorem Team.setV_paths (t : Team) (lane r : Nat) (w : Word) : (t.setV lane r w).paths = t.paths := rfl
@[simp] theorem Team.setV_splits (t : Team) (lane r : Nat) (w : Word) : (t.setV lane r w).splits = t.splits := rfl
@[simp] theorem Team.setV_nextSplit (t : Team) (lane r : Nat) (w : Word) : (t.setV lane r w).nextSplit = t.nextSplit := rfl
@[simp] theorem Team.setV_arms (t : Team) (lane r : Nat) (w : Word) : (t.setV lane r w).arms = t.arms := rfl
@[simp] theorem Team.setV_curPath (t : Team) (lane r : Nat) (w : Word) : (t.setV lane r w).curPath = t.curPath := rfl
@[simp] theorem Team.setV_issues (t : Team) (lane r : Nat) (w : Word) : (t.setV lane r w).issues = t.issues := rfl
@[simp] theorem Team.setV_running (t : Team) (lane r : Nat) (w : Word) : (t.setV lane r w).running = t.running := rfl
@[simp] theorem Team.setV_waiting (t : Team) (lane r : Nat) (w : Word) : (t.setV lane r w).waiting = t.waiting := rfl
@[simp] theorem Team.setV_blockNo (t : Team) (lane r : Nat) (w : Word) : (t.setV lane r w).blockNo = t.blockNo := rfl
@[simp] theorem Team.setV_barriers (t : Team) (lane r : Nat) (w : Word) : (t.setV lane r w).barriers = t.barriers := rfl
@[simp] theorem Team.setV_cover (t : Team) (lane r : Nat) (w : Word) : (t.setV lane r w).cover = t.cover := rfl
@[simp] theorem Team.setV_fCause (t : Team) (lane r : Nat) (w : Word) : (t.setV lane r w).fCause = t.fCause := rfl
@[simp] theorem Team.setV_fEpc (t : Team) (lane r : Nat) (w : Word) : (t.setV lane r w).fEpc = t.fEpc := rfl
@[simp] theorem Team.setV_inh (t : Team) (lane r : Nat) (w : Word) : (t.setV lane r w).inh = t.inh := rfl
@[simp] theorem Team.setV_fLane (t : Team) (lane r : Nat) (w : Word) : (t.setV lane r w).fLane = t.fLane := rfl
@[simp] theorem Team.setV_resume (t : Team) (lane r : Nat) (w : Word) : (t.setV lane r w).resume = t.resume := rfl
@[simp] theorem Team.setV_trapPath (t : Team) (lane r : Nat) (w : Word) : (t.setV lane r w).trapPath = t.trapPath := rfl
@[simp] theorem Team.setV_errPend (t : Team) (lane r : Nat) (w : Word) : (t.setV lane r w).errPend = t.errPend := rfl
@[simp] theorem Team.setV_sticky (t : Team) (lane r : Nat) (w : Word) : (t.setV lane r w).sticky = t.sticky := rfl
@[simp] theorem Team.setV_trapEn (t : Team) (lane r : Nat) (w : Word) : (t.setV lane r w).trapEn = t.trapEn := rfl
@[simp] theorem Team.setV_paused (t : Team) (lane r : Nat) (w : Word) : (t.setV lane r w).paused = t.paused := rfl
@[simp] theorem Team.setV_wait (t : Team) (lane r : Nat) (w : Word) : (t.setV lane r w).wait = t.wait := rfl
@[simp] theorem Team.setV_batch (t : Team) (lane r : Nat) (w : Word) : (t.setV lane r w).batch = t.batch := rfl
@[simp] theorem Team.setV_tileQ (t : Team) (lane r : Nat) (w : Word) : (t.setV lane r w).tileQ = t.tileQ := rfl
@[simp] theorem Team.setV_copyQ (t : Team) (lane r : Nat) (w : Word) : (t.setV lane r w).copyQ = t.copyQ := rfl
@[simp] theorem Team.setV_nextJoin (t : Team) (lane r : Nat) (w : Word) : (t.setV lane r w).nextJoin = t.nextJoin := rfl
@[simp] theorem Team.setV_shapes (t : Team) (lane r : Nat) (w : Word) : (t.setV lane r w).shapes = t.shapes := rfl
@[simp] theorem Team.setV_acc (t : Team) (lane r : Nat) (w : Word) : (t.setV lane r w).acc = t.acc := rfl
@[simp] theorem Team.setV_spad (t : Team) (lane r : Nat) (w : Word) : (t.setV lane r w).spad = t.spad := rfl
@[simp] theorem Team.setV_port (t : Team) (lane r : Nat) (w : Word) : (t.setV lane r w).port = t.port := rfl
@[simp] theorem Team.setV_oplog (t : Team) (lane r : Nat) (w : Word) : (t.setV lane r w).oplog = t.oplog := rfl
@[simp] theorem Team.setV_sPark (t : Team) (lane r : Nat) (w : Word) : (t.setV lane r w).sPark = t.sPark := rfl
@[simp] theorem Team.setV_sFetch (t : Team) (lane r : Nat) (w : Word) : (t.setV lane r w).sFetch = t.sFetch := rfl
@[simp] theorem Team.setV_lastPages (t : Team) (lane r : Nat) (w : Word) : (t.setV lane r w).lastPages = t.lastPages := rfl
@[simp] theorem Team.setV_bindings (t : Team) (lane r : Nat) (w : Word) : (t.setV lane r w).bindings = t.bindings := rfl
@[simp] theorem Team.setV_linkOut (t : Team) (lane r : Nat) (w : Word) : (t.setV lane r w).linkOut = t.linkOut := rfl
@[simp] theorem Team.setV_cell (t : Team) (lane r : Nat) (w : Word) : (t.setV lane r w).cell = t.cell := rfl
@[simp] theorem Team.setV_debug (t : Team) (lane r : Nat) (w : Word) : (t.setV lane r w).debug = t.debug := rfl

/-! ## Team.updPath -/

@[simp] theorem Team.updPath_life (t : Team) (i : Nat) (f : Path → Path) : (t.updPath i f).life = t.life := rfl
@[simp] theorem Team.updPath_before (t : Team) (i : Nat) (f : Path → Path) : (t.updPath i f).before = t.before := rfl
@[simp] theorem Team.updPath_why (t : Team) (i : Nat) (f : Path → Path) : (t.updPath i f).why = t.why := rfl
@[simp] theorem Team.updPath_ctx (t : Team) (i : Nat) (f : Path → Path) : (t.updPath i f).ctx = t.ctx := rfl
@[simp] theorem Team.updPath_core (t : Team) (i : Nat) (f : Path → Path) : (t.updPath i f).core = t.core := rfl
@[simp] theorem Team.updPath_slot (t : Team) (i : Nat) (f : Path → Path) : (t.updPath i f).slot = t.slot := rfl
@[simp] theorem Team.updPath_clorg (t : Team) (i : Nat) (f : Path → Path) : (t.updPath i f).clorg = t.clorg := rfl
@[simp] theorem Team.updPath_clrows (t : Team) (i : Nat) (f : Path → Path) : (t.updPath i f).clrows = t.clrows := rfl
@[simp] theorem Team.updPath_clcols (t : Team) (i : Nat) (f : Path → Path) : (t.updPath i f).clcols = t.clcols := rfl
@[simp] theorem Team.updPath_clidx (t : Team) (i : Nat) (f : Path → Path) : (t.updPath i f).clidx = t.clidx := rfl
@[simp] theorem Team.updPath_gmax (t : Team) (i : Nat) (f : Path → Path) : (t.updPath i f).gmax = t.gmax := rfl
@[simp] theorem Team.updPath_win (t : Team) (i : Nat) (f : Path → Path) : (t.updPath i f).win = t.win := rfl
@[simp] theorem Team.updPath_launch (t : Team) (i : Nat) (f : Path → Path) : (t.updPath i f).launch = t.launch := rfl
@[simp] theorem Team.updPath_pennant (t : Team) (i : Nat) (f : Path → Path) : (t.updPath i f).pennant = t.pennant := rfl
@[simp] theorem Team.updPath_nregs (t : Team) (i : Nat) (f : Path → Path) : (t.updPath i f).nregs = t.nregs := rfl
@[simp] theorem Team.updPath_priv (t : Team) (i : Nat) (f : Path → Path) : (t.updPath i f).priv = t.priv := rfl
@[simp] theorem Team.updPath_claim (t : Team) (i : Nat) (f : Path → Path) : (t.updPath i f).claim = t.claim := rfl
@[simp] theorem Team.updPath_spc (t : Team) (i : Nat) (f : Path → Path) : (t.updPath i f).spc = t.spc := rfl
@[simp] theorem Team.updPath_x (t : Team) (i : Nat) (f : Path → Path) : (t.updPath i f).x = t.x := rfl
@[simp] theorem Team.updPath_v (t : Team) (i : Nat) (f : Path → Path) : (t.updPath i f).v = t.v := rfl
@[simp] theorem Team.updPath_file (t : Team) (i : Nat) (f : Path → Path) : (t.updPath i f).file = t.file := rfl
@[simp] theorem Team.updPath_spilled (t : Team) (i : Nat) (f : Path → Path) : (t.updPath i f).spilled = t.spilled := rfl
@[simp] theorem Team.updPath_p (t : Team) (i : Nat) (f : Path → Path) : (t.updPath i f).p = t.p := rfl
@[simp] theorem Team.updPath_bunting (t : Team) (i : Nat) (f : Path → Path) : (t.updPath i f).bunting = t.bunting := rfl
@[simp] theorem Team.updPath_bsum (t : Team) (i : Nat) (f : Path → Path) : (t.updPath i f).bsum = t.bsum := rfl
@[simp] theorem Team.updPath_guards (t : Team) (i : Nat) (f : Path → Path) : (t.updPath i f).guards = t.guards := rfl
@[simp] theorem Team.updPath_splits (t : Team) (i : Nat) (f : Path → Path) : (t.updPath i f).splits = t.splits := rfl
@[simp] theorem Team.updPath_nextSplit (t : Team) (i : Nat) (f : Path → Path) : (t.updPath i f).nextSplit = t.nextSplit := rfl
@[simp] theorem Team.updPath_arms (t : Team) (i : Nat) (f : Path → Path) : (t.updPath i f).arms = t.arms := rfl
@[simp] theorem Team.updPath_curPath (t : Team) (i : Nat) (f : Path → Path) : (t.updPath i f).curPath = t.curPath := rfl
@[simp] theorem Team.updPath_issues (t : Team) (i : Nat) (f : Path → Path) : (t.updPath i f).issues = t.issues := rfl
@[simp] theorem Team.updPath_running (t : Team) (i : Nat) (f : Path → Path) : (t.updPath i f).running = t.running := rfl
@[simp] theorem Team.updPath_waiting (t : Team) (i : Nat) (f : Path → Path) : (t.updPath i f).waiting = t.waiting := rfl
@[simp] theorem Team.updPath_blockNo (t : Team) (i : Nat) (f : Path → Path) : (t.updPath i f).blockNo = t.blockNo := rfl
@[simp] theorem Team.updPath_barriers (t : Team) (i : Nat) (f : Path → Path) : (t.updPath i f).barriers = t.barriers := rfl
@[simp] theorem Team.updPath_cover (t : Team) (i : Nat) (f : Path → Path) : (t.updPath i f).cover = t.cover := rfl
@[simp] theorem Team.updPath_fCause (t : Team) (i : Nat) (f : Path → Path) : (t.updPath i f).fCause = t.fCause := rfl
@[simp] theorem Team.updPath_fEpc (t : Team) (i : Nat) (f : Path → Path) : (t.updPath i f).fEpc = t.fEpc := rfl
@[simp] theorem Team.updPath_inh (t : Team) (i : Nat) (f : Path → Path) : (t.updPath i f).inh = t.inh := rfl
@[simp] theorem Team.updPath_fLane (t : Team) (i : Nat) (f : Path → Path) : (t.updPath i f).fLane = t.fLane := rfl
@[simp] theorem Team.updPath_resume (t : Team) (i : Nat) (f : Path → Path) : (t.updPath i f).resume = t.resume := rfl
@[simp] theorem Team.updPath_trapPath (t : Team) (i : Nat) (f : Path → Path) : (t.updPath i f).trapPath = t.trapPath := rfl
@[simp] theorem Team.updPath_errPend (t : Team) (i : Nat) (f : Path → Path) : (t.updPath i f).errPend = t.errPend := rfl
@[simp] theorem Team.updPath_sticky (t : Team) (i : Nat) (f : Path → Path) : (t.updPath i f).sticky = t.sticky := rfl
@[simp] theorem Team.updPath_trapEn (t : Team) (i : Nat) (f : Path → Path) : (t.updPath i f).trapEn = t.trapEn := rfl
@[simp] theorem Team.updPath_paused (t : Team) (i : Nat) (f : Path → Path) : (t.updPath i f).paused = t.paused := rfl
@[simp] theorem Team.updPath_wait (t : Team) (i : Nat) (f : Path → Path) : (t.updPath i f).wait = t.wait := rfl
@[simp] theorem Team.updPath_batch (t : Team) (i : Nat) (f : Path → Path) : (t.updPath i f).batch = t.batch := rfl
@[simp] theorem Team.updPath_tileQ (t : Team) (i : Nat) (f : Path → Path) : (t.updPath i f).tileQ = t.tileQ := rfl
@[simp] theorem Team.updPath_copyQ (t : Team) (i : Nat) (f : Path → Path) : (t.updPath i f).copyQ = t.copyQ := rfl
@[simp] theorem Team.updPath_nextJoin (t : Team) (i : Nat) (f : Path → Path) : (t.updPath i f).nextJoin = t.nextJoin := rfl
@[simp] theorem Team.updPath_shapes (t : Team) (i : Nat) (f : Path → Path) : (t.updPath i f).shapes = t.shapes := rfl
@[simp] theorem Team.updPath_acc (t : Team) (i : Nat) (f : Path → Path) : (t.updPath i f).acc = t.acc := rfl
@[simp] theorem Team.updPath_spad (t : Team) (i : Nat) (f : Path → Path) : (t.updPath i f).spad = t.spad := rfl
@[simp] theorem Team.updPath_port (t : Team) (i : Nat) (f : Path → Path) : (t.updPath i f).port = t.port := rfl
@[simp] theorem Team.updPath_oplog (t : Team) (i : Nat) (f : Path → Path) : (t.updPath i f).oplog = t.oplog := rfl
@[simp] theorem Team.updPath_sPark (t : Team) (i : Nat) (f : Path → Path) : (t.updPath i f).sPark = t.sPark := rfl
@[simp] theorem Team.updPath_sFetch (t : Team) (i : Nat) (f : Path → Path) : (t.updPath i f).sFetch = t.sFetch := rfl
@[simp] theorem Team.updPath_lastPages (t : Team) (i : Nat) (f : Path → Path) : (t.updPath i f).lastPages = t.lastPages := rfl
@[simp] theorem Team.updPath_bindings (t : Team) (i : Nat) (f : Path → Path) : (t.updPath i f).bindings = t.bindings := rfl
@[simp] theorem Team.updPath_linkOut (t : Team) (i : Nat) (f : Path → Path) : (t.updPath i f).linkOut = t.linkOut := rfl
@[simp] theorem Team.updPath_cell (t : Team) (i : Nat) (f : Path → Path) : (t.updPath i f).cell = t.cell := rfl
@[simp] theorem Team.updPath_debug (t : Team) (i : Nat) (f : Path → Path) : (t.updPath i f).debug = t.debug := rfl

/-! ## Team.updCur -/

@[simp] theorem Team.updCur_life (t : Team) (f : Path → Path) : (t.updCur f).life = t.life := rfl
@[simp] theorem Team.updCur_before (t : Team) (f : Path → Path) : (t.updCur f).before = t.before := rfl
@[simp] theorem Team.updCur_why (t : Team) (f : Path → Path) : (t.updCur f).why = t.why := rfl
@[simp] theorem Team.updCur_ctx (t : Team) (f : Path → Path) : (t.updCur f).ctx = t.ctx := rfl
@[simp] theorem Team.updCur_core (t : Team) (f : Path → Path) : (t.updCur f).core = t.core := rfl
@[simp] theorem Team.updCur_slot (t : Team) (f : Path → Path) : (t.updCur f).slot = t.slot := rfl
@[simp] theorem Team.updCur_clorg (t : Team) (f : Path → Path) : (t.updCur f).clorg = t.clorg := rfl
@[simp] theorem Team.updCur_clrows (t : Team) (f : Path → Path) : (t.updCur f).clrows = t.clrows := rfl
@[simp] theorem Team.updCur_clcols (t : Team) (f : Path → Path) : (t.updCur f).clcols = t.clcols := rfl
@[simp] theorem Team.updCur_clidx (t : Team) (f : Path → Path) : (t.updCur f).clidx = t.clidx := rfl
@[simp] theorem Team.updCur_gmax (t : Team) (f : Path → Path) : (t.updCur f).gmax = t.gmax := rfl
@[simp] theorem Team.updCur_win (t : Team) (f : Path → Path) : (t.updCur f).win = t.win := rfl
@[simp] theorem Team.updCur_launch (t : Team) (f : Path → Path) : (t.updCur f).launch = t.launch := rfl
@[simp] theorem Team.updCur_pennant (t : Team) (f : Path → Path) : (t.updCur f).pennant = t.pennant := rfl
@[simp] theorem Team.updCur_nregs (t : Team) (f : Path → Path) : (t.updCur f).nregs = t.nregs := rfl
@[simp] theorem Team.updCur_priv (t : Team) (f : Path → Path) : (t.updCur f).priv = t.priv := rfl
@[simp] theorem Team.updCur_claim (t : Team) (f : Path → Path) : (t.updCur f).claim = t.claim := rfl
@[simp] theorem Team.updCur_spc (t : Team) (f : Path → Path) : (t.updCur f).spc = t.spc := rfl
@[simp] theorem Team.updCur_x (t : Team) (f : Path → Path) : (t.updCur f).x = t.x := rfl
@[simp] theorem Team.updCur_v (t : Team) (f : Path → Path) : (t.updCur f).v = t.v := rfl
@[simp] theorem Team.updCur_file (t : Team) (f : Path → Path) : (t.updCur f).file = t.file := rfl
@[simp] theorem Team.updCur_spilled (t : Team) (f : Path → Path) : (t.updCur f).spilled = t.spilled := rfl
@[simp] theorem Team.updCur_p (t : Team) (f : Path → Path) : (t.updCur f).p = t.p := rfl
@[simp] theorem Team.updCur_bunting (t : Team) (f : Path → Path) : (t.updCur f).bunting = t.bunting := rfl
@[simp] theorem Team.updCur_bsum (t : Team) (f : Path → Path) : (t.updCur f).bsum = t.bsum := rfl
@[simp] theorem Team.updCur_guards (t : Team) (f : Path → Path) : (t.updCur f).guards = t.guards := rfl
@[simp] theorem Team.updCur_splits (t : Team) (f : Path → Path) : (t.updCur f).splits = t.splits := rfl
@[simp] theorem Team.updCur_nextSplit (t : Team) (f : Path → Path) : (t.updCur f).nextSplit = t.nextSplit := rfl
@[simp] theorem Team.updCur_arms (t : Team) (f : Path → Path) : (t.updCur f).arms = t.arms := rfl
@[simp] theorem Team.updCur_curPath (t : Team) (f : Path → Path) : (t.updCur f).curPath = t.curPath := rfl
@[simp] theorem Team.updCur_issues (t : Team) (f : Path → Path) : (t.updCur f).issues = t.issues := rfl
@[simp] theorem Team.updCur_running (t : Team) (f : Path → Path) : (t.updCur f).running = t.running := rfl
@[simp] theorem Team.updCur_waiting (t : Team) (f : Path → Path) : (t.updCur f).waiting = t.waiting := rfl
@[simp] theorem Team.updCur_blockNo (t : Team) (f : Path → Path) : (t.updCur f).blockNo = t.blockNo := rfl
@[simp] theorem Team.updCur_barriers (t : Team) (f : Path → Path) : (t.updCur f).barriers = t.barriers := rfl
@[simp] theorem Team.updCur_cover (t : Team) (f : Path → Path) : (t.updCur f).cover = t.cover := rfl
@[simp] theorem Team.updCur_fCause (t : Team) (f : Path → Path) : (t.updCur f).fCause = t.fCause := rfl
@[simp] theorem Team.updCur_fEpc (t : Team) (f : Path → Path) : (t.updCur f).fEpc = t.fEpc := rfl
@[simp] theorem Team.updCur_inh (t : Team) (f : Path → Path) : (t.updCur f).inh = t.inh := rfl
@[simp] theorem Team.updCur_fLane (t : Team) (f : Path → Path) : (t.updCur f).fLane = t.fLane := rfl
@[simp] theorem Team.updCur_resume (t : Team) (f : Path → Path) : (t.updCur f).resume = t.resume := rfl
@[simp] theorem Team.updCur_trapPath (t : Team) (f : Path → Path) : (t.updCur f).trapPath = t.trapPath := rfl
@[simp] theorem Team.updCur_errPend (t : Team) (f : Path → Path) : (t.updCur f).errPend = t.errPend := rfl
@[simp] theorem Team.updCur_sticky (t : Team) (f : Path → Path) : (t.updCur f).sticky = t.sticky := rfl
@[simp] theorem Team.updCur_trapEn (t : Team) (f : Path → Path) : (t.updCur f).trapEn = t.trapEn := rfl
@[simp] theorem Team.updCur_paused (t : Team) (f : Path → Path) : (t.updCur f).paused = t.paused := rfl
@[simp] theorem Team.updCur_wait (t : Team) (f : Path → Path) : (t.updCur f).wait = t.wait := rfl
@[simp] theorem Team.updCur_batch (t : Team) (f : Path → Path) : (t.updCur f).batch = t.batch := rfl
@[simp] theorem Team.updCur_tileQ (t : Team) (f : Path → Path) : (t.updCur f).tileQ = t.tileQ := rfl
@[simp] theorem Team.updCur_copyQ (t : Team) (f : Path → Path) : (t.updCur f).copyQ = t.copyQ := rfl
@[simp] theorem Team.updCur_nextJoin (t : Team) (f : Path → Path) : (t.updCur f).nextJoin = t.nextJoin := rfl
@[simp] theorem Team.updCur_shapes (t : Team) (f : Path → Path) : (t.updCur f).shapes = t.shapes := rfl
@[simp] theorem Team.updCur_acc (t : Team) (f : Path → Path) : (t.updCur f).acc = t.acc := rfl
@[simp] theorem Team.updCur_spad (t : Team) (f : Path → Path) : (t.updCur f).spad = t.spad := rfl
@[simp] theorem Team.updCur_port (t : Team) (f : Path → Path) : (t.updCur f).port = t.port := rfl
@[simp] theorem Team.updCur_oplog (t : Team) (f : Path → Path) : (t.updCur f).oplog = t.oplog := rfl
@[simp] theorem Team.updCur_sPark (t : Team) (f : Path → Path) : (t.updCur f).sPark = t.sPark := rfl
@[simp] theorem Team.updCur_sFetch (t : Team) (f : Path → Path) : (t.updCur f).sFetch = t.sFetch := rfl
@[simp] theorem Team.updCur_lastPages (t : Team) (f : Path → Path) : (t.updCur f).lastPages = t.lastPages := rfl
@[simp] theorem Team.updCur_bindings (t : Team) (f : Path → Path) : (t.updCur f).bindings = t.bindings := rfl
@[simp] theorem Team.updCur_linkOut (t : Team) (f : Path → Path) : (t.updCur f).linkOut = t.linkOut := rfl
@[simp] theorem Team.updCur_cell (t : Team) (f : Path → Path) : (t.updCur f).cell = t.cell := rfl
@[simp] theorem Team.updCur_debug (t : Team) (f : Path → Path) : (t.updCur f).debug = t.debug := rfl

/-! ## Frames of register writes -/

/-- A write of an x register changes x alone. -/
theorem Team.setX_frame (t : Team) (r : BitVec 5) (v : DWord) : t.setX r v = { t with x := (t.setX r v).x } := by
  unfold Team.setX; split <;> rfl

/-- A scalar result changes x and the scalar PC alone. -/
theorem Team.resultX_frame (t : Team) (r : BitVec 5) (v : DWord) :
    t.resultX r v = { t with x := (t.setX r v).x, spc := t.spc + 4 } := by
  unfold Team.resultX; rw [Team.setX_frame]; rfl

/-- A scalar result moves the PC past its word. -/
@[simp] theorem Team.resultX_spc (t : Team) (r : BitVec 5) (v : DWord) : (t.resultX r v).spc = t.spc + 4 := by
  rw [Team.resultX_frame]

/-- Writing several lane registers changes v alone. -/
theorem Team.setVs_frame (t : Team) (lane r n v : Nat) : t.setVs lane r n v = { t with v := (t.setVs lane r n v).v } := by
  induction n generalizing t r v with
  | zero => rfl
  | succ n ih => unfold Team.setVs; rw [ih]; rfl

/-- A predicate write changes p alone. -/
theorem Team.setPm_frame (t : Team) (k : Nat) (m : Mask) : t.setPm k m = { t with p := (t.setPm k m).p } := by
  unfold Team.setPm; split <;> rfl

/-- Lane writes over a list of lanes change v alone. -/
theorem Team.foldV_frame (ls : List Nat) (r n : Nat) (f : Nat → Nat) (t : Team) :
    ls.foldl (fun u lane => u.setVs lane r n (f lane)) t =
      { t with v := (ls.foldl (fun u lane => u.setVs lane r n (f lane)) t).v } := by
  induction ls generalizing t with
  | nil => rfl
  | cons l ls ih => rw [List.foldl_cons, ih, Team.setVs_frame]

/-- A lane result changes v alone. -/
theorem Team.mapV_frame (t : Team) (w : LWord) (n : Nat) (f : Nat → Nat) : t.mapV w n f = { t with v := (t.mapV w n f).v } :=
  Team.foldV_frame _ _ _ _ _

/-- A predicate result changes p alone. -/
theorem Team.mapP_frame (t : Team) (w : LWord) (k : Nat) (f : Nat → Bool) : t.mapP w k f = { t with p := (t.mapP w k f).p } :=
  Team.setPm_frame _ _ _

/-- Settling changes the arms alone. -/
theorem Team.settle_frame (t : Team) : t.settle = { t with arms := t.settle.arms } := rfl

/-! ## Reading what was written -/

/-- x0 reads zero. -/
@[simp] theorem Team.xr_zero (t : Team) : t.xr 0 = 0 := rfl

/-- A write to x0 is discarded. -/
@[simp] theorem Team.setX_zero (t : Team) (v : DWord) : t.setX 0 v = t := rfl

/-- p0 reads true in every lane. -/
@[simp] theorem Team.pm_zero (t : Team) : t.pm 0 = BitVec.allOnes 1024 := rfl

/-- A write to p0 is discarded. -/
@[simp] theorem Team.setPm_zero (t : Team) (m : Mask) : t.setPm 0 m = t := rfl

/-- An x register written reads as written, but x0. -/
theorem Team.xr_setX (t : Team) (r q : BitVec 5) (v : DWord) :
    (t.setX r v).xr q = if q = r ∧ r ≠ 0 then v else t.xr q := by
  by_cases hr : r = 0
  · subst hr; rw [Team.setX_zero, if_neg (fun h => h.2 rfl)]
  · have hx : (t.setX r v).x = sset 0 t.x r.toNat v := by unfold Team.setX; rw [if_neg hr]
    unfold Team.xr
    rw [hx]
    by_cases hq : q = 0
    · rw [if_pos hq, if_pos hq, if_neg]
      rintro ⟨rfl, h2⟩; exact h2 hq
    · rw [if_neg hq, if_neg hq]
      by_cases hqr : q = r
      · subst hqr; rw [if_pos ⟨rfl, hr⟩]; exact sget_sset_self _ _ _ _
      · rw [if_neg (fun h => hqr h.1)]
        exact sget_sset_ne (fun h => hqr (BitVec.eq_of_toNat_eq h))

/-- A lane register written reads as written; every other reads as before. -/
theorem Team.vr_setV (t : Team) (lane r lane' r' : Nat) (w : Word) (hr : r < 128) (hr' : r' < 128) :
    (t.setV lane r w).vr lane' r' = if lane' = lane ∧ r' = r then w else t.vr lane' r' := by
  by_cases he : lane' = lane ∧ r' = r
  · obtain ⟨rfl, rfl⟩ := he; rw [if_pos ⟨rfl, rfl⟩]; exact sget_sset_self _ _ _ _
  · rw [if_neg he]; exact sget_sset_ne (fun hh => he ⟨by omega, by omega⟩)

/-- Register writes keep their maps canonical. -/
theorem Team.setX_wf (t : Team) (r : BitVec 5) (v : DWord) (h : swf 0 t.x = true) : swf 0 (t.setX r v).x = true := by
  unfold Team.setX; split
  · exact h
  · exact swf_sset h

theorem Team.setV_wf (t : Team) (lane r : Nat) (w : Word) (h : swf 0 t.v = true) : swf 0 (t.setV lane r w).v = true := swf_sset h

theorem Team.setPm_wf (t : Team) (k : Nat) (m : Mask) (h : swf 0 t.p = true) : swf 0 (t.setPm k m).p = true := by
  unfold Team.setPm; split
  · exact h
  · exact swf_sset h

theorem Team.setVs_wf (t : Team) (lane r n v : Nat) (h : swf 0 t.v = true) : swf 0 (t.setVs lane r n v).v = true := by
  induction n generalizing t r v with
  | zero => exact h
  | succ n ih => exact ih _ _ _ (swf_sset h)

end Sys2Proof.Machine
end

