-- ==== Sys2Proof/Laws/Keeps.lean ====
section
/-! SUPPORT. Computations that keep a property of the state, and that every shared memory operation keeps the memories canonical. -/

namespace Sys2Proof.Machine

/-! ## Computations that keep a property -/

/-- Wherever the computation ends, `P` holds if it held at its start. -/
def Keeps {α : Type} (P : State → Prop) (m : Act α) : Prop := ∀ s a s', P s → m s = .ok (a, s') → P s'

theorem keeps_pure {α : Type} {P : State → Prop} (a : α) : Keeps P (pure a : Act α) := by
  intro s b s' h e; cases e; exact h

theorem keeps_bind {α β : Type} {P : State → Prop} {m : Act α} {f : α → Act β} (hm : Keeps P m) (hf : ∀ a, Keeps P (f a)) :
    Keeps P (m >>= f) := by
  intro s b s' h e
  simp only [bind, StateT.bind, Except.bind] at e
  cases hms : m s with
  | error x => rw [hms] at e; cases e
  | ok r => rw [hms] at e; exact hf r.1 r.2 b s' (hm s r.1 r.2 h hms) e

theorem keeps_get {P : State → Prop} : Keeps P (get : Act State) := by
  intro s b s' h e; cases e; exact h

theorem keeps_set {P : State → Prop} {t : State} (h : P t) : Keeps P (set t : Act PUnit) := by
  intro s b s' _ e; cases e; exact h

theorem keeps_change {P : State → Prop} {f : State → State} (h : ∀ s, P s → P (f s)) : Keeps P (change f) := by
  intro s b s' hs e; cases e; exact h s hs

theorem keeps_halt {α : Type} {P : State → Prop} (x : Stop) : Keeps P (halt x : Act α) := by
  intro s b s' _ e; cases e

/-- The state at hand may be used, and what follows started from it. -/
theorem keeps_get_bind {β : Type} {P : State → Prop} {f : State → Act β}
    (h : ∀ s a s', P s → f s s = .ok (a, s') → P s') : Keeps P (get >>= f) := by
  intro s b s' hs e
  exact h s b s' hs e

/-- A computation run as a step ends in a next state only where it ends without a stop. -/
theorem runAct_next {m : Act Unit} {s t : State} : runAct m s = .next t ↔ m s = .ok ((), t) := by
  unfold runAct
  cases h : m s with
  | error e => cases e <;> simp
  | ok r => cases r; simp

/-- A computation that keeps `P`, run as a step. -/
theorem keeps_runAct {P : State → Prop} {m : Act Unit} {s t : State} (hm : Keeps P m) (hs : P s) (h : runAct m s = .next t) : P t :=
  hm s () t hs (runAct_next.1 h)

/-! ## The memories -/

/-- A state with the same memories. -/
theorem MemWf_of_eq {s t : State} (h : s.MemWf) (h1 : t.mem = s.mem) (h2 : t.peerMem = s.peerMem) : t.MemWf := by
  unfold State.MemWf; rw [h1, h2]; exact h

/-- Writing bytes of memory. -/
theorem MemWf_set {s : State} (h : s.MemWf) (pa : Nat) (bs : List Byte) : ({ s with mem := memSet s.mem pa bs } : State).MemWf :=
  ⟨memSet_wf h.1, h.2⟩

@[simp] theorem bump_mem (s : State) (c k n : Nat) : (s.bump c k n).mem = s.mem := rfl
@[simp] theorem bump_peerMem (s : State) (c k n : Nat) : (s.bump c k n).peerMem = s.peerMem := rfl

@[simp] theorem interrupt_mem (s : State) (b : Nat) : (s.interrupt b).mem = s.mem := by unfold State.interrupt; split <;> rfl
@[simp] theorem interrupt_peerMem (s : State) (b : Nat) : (s.interrupt b).peerMem = s.peerMem := by unfold State.interrupt; split <;> rfl

@[simp] theorem dropData_mem (s : State) (c pa src : Nat) (t : Bool) : (s.dropData c pa src t).mem = s.mem := by
  simp [State.dropData]
@[simp] theorem dropData_peerMem (s : State) (c pa src : Nat) (t : Bool) : (s.dropData c pa src t).peerMem = s.peerMem := by
  simp [State.dropData]

/-! ## Folds -/

/-- A fold of state changes that each keep `P`. -/
theorem foldl_keeps {σ α : Type} {P : σ → Prop} {f : σ → α → σ} (hf : ∀ s a, P s → P (f s a)) (l : List α) (s : σ) (h : P s) :
    P (l.foldl f s) := by
  induction l generalizing s with
  | nil => exact h
  | cons a l ih => exact ih _ (hf s a h)

/-! ## Lines, buffers and quanta -/

theorem MemWf_recall {s : State} (h : s.MemWf) (pa n : Nat) : (s.recall pa n).MemWf := MemWf_of_eq h rfl rfl

theorem MemWf_fitHomes {s : State} (h : s.MemWf) (line n : Nat) : (State.fitHomes line n s).MemWf := by
  induction n generalizing s with
  | zero => exact h
  | succ n ih =>
    unfold State.fitHomes
    simp only
    split
    · exact h
    · split
      · exact h
      · split
        · exact h
        · exact ih (MemWf_of_eq h rfl rfl)

theorem MemWf_touchHome {s : State} (h : s.MemWf) (a : Acc) (p : BitVec 3) (line : Nat) : (s.touchHome a p line).MemWf := by
  unfold State.touchHome
  split
  · refine MemWf_fitHomes ?_ _ _
    exact MemWf_of_eq h rfl rfl
  · exact MemWf_of_eq h rfl rfl

theorem MemWf_giveUp {s : State} (h : s.MemWf) (f : Nat → Nat → Nat → Bool) : (s.giveUp f).MemWf := MemWf_of_eq h rfl rfl

theorem MemWf_conflict {s : State} (h : s.MemWf) (core : Nat) (qs : List Nat) (w : Bool) : (s.conflict core qs w).MemWf := MemWf_of_eq h rfl rfl

theorem MemWf_sign {s : State} (h : s.MemWf) (core : Nat) (qs : List Nat) (w : Bool) : (s.sign core qs w).MemWf := by
  unfold State.sign
  split
  · exact h
  · exact MemWf_of_eq h rfl rfl

theorem MemWf_persistFor {s : State} (h : s.MemWf) (holder w b : Nat) : (s.persistFor holder w b).MemWf := MemWf_of_eq h rfl rfl

theorem MemWf_atHome {s : State} (h : s.MemWf) (a : Acc) (p : BitVec 3) (w : Bool) (line : Nat) : (s.atHome a p w line).MemWf := by
  unfold State.atHome
  refine MemWf_touchHome ?_ _ _ _
  split <;> exact MemWf_of_eq h rfl rfl

theorem MemWf_missed {s : State} (h : s.MemWf) (a : Acc) (p : BitVec 3) (line : Nat) : (s.missed a p line).MemWf := by
  unfold State.missed
  split
  · exact h
  · exact MemWf_touchHome (MemWf_of_eq (t := s.bump a.ctx 11 1) h rfl rfl) a p line

theorem MemWf_bring {s : State} (h : s.MemWf) (a : Acc) (p : BitVec 3) (w : Bool) (line : Nat) : (s.bring a p w line).MemWf := by
  unfold State.bring
  refine MemWf_sign ?_ _ _ _
  exact MemWf_of_eq h rfl rfl

theorem MemWf_collect {s : State} (h : s.MemWf) (a : Acc) (p : BitVec 3) (w : Bool) (line : Nat) : (s.collect a p w line).MemWf := by
  unfold State.collect
  split
  · exact MemWf_atHome h _ _ _ _
  · exact MemWf_bring (MemWf_persistFor (MemWf_persistFor (MemWf_missed h a p line) _ _ _) _ _ _) a p w line

theorem MemWf_setVer {s : State} (h : s.MemWf) (c p line : Nat) (d : List Byte) : (s.setVer c p line d).MemWf := MemWf_of_eq h rfl rfl

theorem MemWf_foldLogs {s : State} (h : s.MemWf) (c p line : Nat) (rs : List (Nat × Nat)) : (s.foldLogs c p line rs).MemWf := by
  unfold State.foldLogs
  split <;> exact MemWf_of_eq h rfl rfl

theorem MemWf_landLine {s : State} (h : s.MemWf) (l : WcLine) : (s.landLine l).MemWf := by
  unfold State.landLine
  have hc := MemWf_collect h { core := l.core, slot := 0, ctx := l.ctx, pennant := l.pennant, team := false } l.prio true l.line
  simp only
  split
  · exact ⟨foldr_wf hc.1 _, hc.2⟩
  · have hf := MemWf_foldLogs hc l.ctx l.pennant l.line (l.cells.map (fun b => (b.1, 1)))
    split
    · exact MemWf_setVer hf _ _ _ _
    · exact hf
where
  foldr_wf {m : Mem} (hm : Memory.wf m = true) (bs : List (Nat × Byte)) : Memory.wf (bs.foldr (fun b m => sset 0 m b.1 b.2) m) = true := by
    induction bs with
    | nil => exact hm
    | cons b bs ih => exact swf_sset ih

theorem MemWf_drainWc {s : State} (h : s.MemWf) (f : WcLine → Bool) : (s.drainWc f).MemWf := by
  unfold State.drainWc
  exact MemWf_of_eq (foldl_keeps (P := State.MemWf) (fun s l hs => MemWf_landLine hs l) _ s h) rfl rfl

theorem MemWf_performQuantum {s : State} (h : s.MemWf) (q : Quantum) : (s.performQuantum q).MemWf := by
  unfold State.performQuantum
  exact MemWf_set (MemWf_touchHome (MemWf_recall (MemWf_drainWc h _) _ _) _ _ _) _ _

theorem MemWf_landQuantum {s : State} (h : s.MemWf) (q : Quantum) : (s.landQuantum q).MemWf := by
  unfold State.landQuantum
  split
  · exact MemWf_performQuantum h q
  · exact MemWf_of_eq h rfl rfl

theorem MemWf_drainQuanta {s : State} (h : s.MemWf) (f : Quantum → Bool) : (s.drainQuanta f).MemWf := by
  unfold State.drainQuanta
  exact MemWf_of_eq (foldl_keeps (P := State.MemWf) (fun s q hs => MemWf_landQuantum hs q) _ s h) rfl rfl

theorem MemWf_releaseCore {s : State} (h : s.MemWf) (core scope : Nat) : (s.releaseCore core scope).MemWf := by
  unfold State.releaseCore
  simp only
  split
  · exact MemWf_drainQuanta (MemWf_drainWc h _) _
  · exact MemWf_drainWc h _

theorem MemWf_release {s : State} (h : s.MemWf) (scope : Nat) : (s.release scope).MemWf := by
  unfold State.release
  split
  · exact h
  · exact MemWf_releaseCore h _ _

theorem MemWf_wcPut {s : State} (h : s.MemWf) (a : Acc) (p : BitVec 3) (line : Nat) (cells : List (Nat × Byte)) :
    (s.wcPut a p line cells).MemWf := by
  unfold State.wcPut
  simp only
  split
  · exact MemWf_of_eq h rfl rfl
  · have h1 : (match s.caches.wc.filter (fun (l : WcLine) => l.core == a.core) with
      | o :: _ => if 4 ≤ (s.caches.wc.filter (fun (l : WcLine) => l.core == a.core)).length then s.drainWc (fun l => l == o) else s
      | [] => s).MemWf := by
      split
      · split
        · exact MemWf_drainWc h _
        · exact h
      · exact h
    exact MemWf_of_eq h1 rfl rfl

/-! ## Physical accesses -/

theorem keeps_physRead (a : Acc) (pa n : Nat) : Keeps State.MemWf (physRead a pa n) := by
  refine keeps_get_bind (fun s r s' hs e => ?_)
  cases hr : regionOf s.win.memCode pa <;> simp only [hr] at e
  case gddr => cases e; exact MemWf_drainWc hs _
  case absent => cases e; exact MemWf_of_eq hs (by simp) (by simp)
  case window => cases e; exact hs
  all_goals cases e

theorem keeps_physWrite (a : Acc) (pa : Nat) (bs : List Byte) : Keeps State.MemWf (physWrite a pa bs) := by
  refine keeps_get_bind (fun s r s' hs e => ?_)
  cases hr : regionOf s.win.memCode pa <;> simp only [hr] at e
  case gddr => cases e; exact MemWf_set (MemWf_recall (MemWf_drainWc hs _) _ _) _ _
  case absent => cases e; exact MemWf_of_eq hs (by simp) (by simp)
  case window => cases e; exact MemWf_of_eq hs rfl rfl
  all_goals cases e

theorem keeps_peerRead (pa n : Nat) : Keeps State.MemWf (peerRead pa n) := keeps_bind keeps_get (fun _ => keeps_pure _)

theorem keeps_peerWrite (a : Acc) (pa : Nat) (bs : List Byte) : Keeps State.MemWf (peerWrite a pa bs) := by
  refine keeps_change (fun s hs => ?_)
  split
  · exact ⟨hs.1, memSet_wf hs.2⟩
  · exact MemWf_of_eq hs (by simp) (by simp)

/-! ## Cutting and dropping -/

theorem MemWf_unbind {s : State} (h : s.MemWf) (b : Binding) : (s.unbind b).MemWf := by
  unfold State.unbind
  split
  · exact MemWf_of_eq h rfl rfl
  · exact MemWf_of_eq h rfl rfl

theorem MemWf_cut {s : State} (h : s.MemWf) (f : Team → Bool) (n : Nat) : (s.cut f n).MemWf := by
  unfold State.cut
  refine MemWf_of_eq (foldl_keeps (P := State.MemWf) (fun s t hs => ?_) _ s h) rfl rfl
  unfold State.cutSide
  exact MemWf_of_eq (foldl_keeps (P := State.MemWf) (fun s b hs => MemWf_unbind hs b) _ s hs) rfl rfl

theorem MemWf_dropPennant {s : State} (h : s.MemWf) (c p : Nat) (a : Bool) : (s.dropPennant c p a).MemWf := by
  unfold State.dropPennant
  exact MemWf_of_eq (MemWf_cut h _ 8) rfl rfl

theorem MemWf_autoSquash {s : State} (h : s.MemWf) (c own line n : Nat) : (State.autoSquash c own line n s).MemWf := by
  induction n generalizing s with
  | zero => exact h
  | succ n ih =>
    unfold State.autoSquash
    split
    · exact h
    · split
      · exact h
      · rename_i b _
        exact ih (MemWf_of_eq (MemWf_dropPennant h c b true) (by simp) (by simp))

/-! ## Accesses -/

theorem MemWf_callIn {s : State} (h : s.MemWf) (a : Acc) (w : Bool) (line : Nat) : (s.callIn a w line).MemWf := MemWf_drainWc h _

theorem MemWf_callTrunk {s : State} (h : s.MemWf) (a : Acc) (line : Nat) : (s.callTrunk a line).MemWf := by
  unfold State.callTrunk
  split
  · exact MemWf_drainWc h _
  · exact h

theorem MemWf_touchLine {s : State} (h : s.MemWf) (a : Acc) (p : BitVec 3) (w : Bool) (line : Nat) : (s.touchLine a p w line).MemWf :=
  MemWf_collect (MemWf_callTrunk (MemWf_callIn h a w line) a line) a p w line

theorem MemWf_touch {s : State} (h : s.MemWf) (a : Acc) (p : BitVec 3) (w : Bool) (pa n : Nat) : (s.touch a p w pa n).MemWf := by
  unfold State.touch
  split
  · exact foldl_keeps (P := State.MemWf) (fun _ l hs => MemWf_touchLine hs a p w l) _ s h
  · exact h

theorem MemWf_ensureVer {s : State} (h : s.MemWf) (a : Acc) (p : BitVec 3) (line : Nat) : (s.ensureVer a p line).MemWf := by
  unfold State.ensureVer
  split
  · exact h
  · simp only
    split
    · exact MemWf_autoSquash h _ _ _ _
    · refine MemWf_fitHomes ?_ _ _
      exact MemWf_of_eq (MemWf_drainWc (MemWf_autoSquash h a.ctx a.pennant line 8) _) rfl rfl

theorem MemWf_openLine {s : State} (h : s.MemWf) (a : Acc) (p : BitVec 3) (line pa n : Nat) : (s.openLine a p line pa n).MemWf := by
  unfold State.openLine
  split
  · exact h
  · unfold State.foldLogs
    simp only
    split
    · exact MemWf_of_eq (MemWf_ensureVer h a p line) rfl rfl
    · exact MemWf_ensureVer h a p line

theorem MemWf_putLine {s : State} (h : s.MemWf) (a : Acc) (p : BitVec 3) (line pa : Nat) (bs : List Byte) : (s.putLine a p line pa bs).MemWf := by
  unfold State.putLine
  split
  · exact MemWf_set h _ _
  · simp only
    split
    · exact MemWf_setVer (MemWf_openLine h _ _ _ _ _) _ _ _ _
    · exact MemWf_openLine h _ _ _ _ _

theorem keeps_viewRead (a : Acc) (pa n : Nat) : Keeps State.MemWf (viewRead a pa n) := by
  refine keeps_get_bind (fun s r s' hs e => ?_)
  cases hr : regionOf s.win.memCode pa <;> simp only [hr] at e
  case gddr => cases e; exact hs
  case peer => exact keeps_peerRead pa n s r s' hs e
  all_goals exact keeps_physRead a pa n s r s' hs e

theorem keeps_viewWrite (a : Acc) (p : BitVec 3) (pa : Nat) (bs : List Byte) : Keeps State.MemWf (viewWrite a p pa bs) := by
  refine keeps_get_bind (fun s r s' hs e => ?_)
  cases hr : regionOf s.win.memCode pa <;> simp only [hr] at e
  case gddr =>
    cases e
    exact foldl_keeps (P := State.MemWf) (fun _ p hp => MemWf_putLine hp _ _ _ _ _) _ _ (MemWf_drainWc hs _)
  case peer => exact keeps_peerWrite a pa bs s r s' hs e
  all_goals exact keeps_physWrite a pa bs s r s' hs e

theorem keeps_bufferWrite (p : BitVec 3) (a : Acc) (pa : Nat) (bs : List Byte) : Keeps State.MemWf (bufferWrite p a pa bs) := by
  refine keeps_get_bind (fun s r s' hs e => ?_)
  cases hr : regionOf s.win.memCode pa <;> simp only [hr] at e
  case gddr =>
    cases e
    refine foldl_keeps (P := State.MemWf) (fun s p hp => ?_) _ _ hs
    split
    · exact MemWf_openLine hp _ _ _ _ _
    · exact MemWf_wcPut (MemWf_openLine hp _ _ _ _ _) _ _ _ _
  all_goals exact keeps_physWrite a pa bs s r s' hs e

theorem keeps_readRuns (a : Acc) (p : BitVec 3) (rs : List (Nat × Nat)) : Keeps State.MemWf (readRuns a p rs) := by
  induction rs with
  | nil => exact keeps_pure _
  | cons r rs ih =>
    exact keeps_bind (keeps_change (fun s h => MemWf_touch h _ _ _ _ _)) (fun _ => keeps_bind (keeps_viewRead _ _ _)
      (fun _ => keeps_bind ih (fun _ => keeps_pure _)))

theorem keeps_writeRuns (a : Acc) (p : BitVec 3) (rs : List (Nat × Nat)) (bs : List Byte) : Keeps State.MemWf (writeRuns a p rs bs) := by
  induction rs generalizing bs with
  | nil => exact keeps_pure _
  | cons r rs ih =>
    exact keeps_bind (keeps_change (fun s h => MemWf_touch h _ _ _ _ _)) (fun _ => keeps_bind (keeps_viewWrite _ _ _ _) (fun _ => ih _))

theorem keeps_bufferRuns (a : Acc) (p : BitVec 3) (rs : List (Nat × Nat)) (bs : List Byte) : Keeps State.MemWf (bufferRuns a p rs bs) := by
  induction rs generalizing bs with
  | nil => exact keeps_pure _
  | cons r rs ih => exact keeps_bind (keeps_bufferWrite _ _ _ _) (fun _ => ih _)

theorem keeps_orEntry (a : Acc) (addr : Nat) (m : DWord) : Keeps State.MemWf (orEntry a addr m) :=
  keeps_bind (keeps_physRead _ _ _) (fun _ => keeps_physWrite _ _ _)

theorem MemWf_refill {s : State} (h : s.MemWf) (lane : Option Nat) (va : DWord) (pa : Nat) (e : DWord) : (s.refill lane va pa e).MemWf := by
  unfold State.refill; split <;> exact h

theorem keeps_mapped (e : DWord) (pa : Nat) : Keeps State.MemWf (mapped e pa) := by
  refine keeps_bind keeps_get (fun s => ?_)
  split
  · exact keeps_halt _
  · exact keeps_pure _

theorem keeps_useLeaf (a : Acc) (k : AKind) (lane : Option Nat) (va : DWord) (l : Leaf) (c : Bool) :
    Keeps State.MemWf (useLeaf a k lane va l c) := by
  unfold useLeaf
  split
  · exact keeps_pure _
  · exact keeps_pure _
  · have hend (e : DWord) (pa : Nat) : Keeps State.MemWf (change (fun s => s.refill lane va pa e) >>= fun _ => mapped e pa) :=
      keeps_bind (keeps_change (fun s h => MemWf_refill h _ _ _ _)) (fun _ => keeps_mapped _ _)
    have htlb (f : State → State) (hf : ∀ s, (f s).mem = s.mem ∧ (f s).peerMem = s.peerMem) (e : DWord) (pa : Nat) :
        Keeps State.MemWf (change f >>= fun _ => (change (fun s => s.refill lane va pa e) >>= fun _ => mapped e pa)) :=
      keeps_bind (keeps_change (fun s h => MemWf_of_eq h (hf s).1 (hf s).2)) (fun _ => hend _ _)
    cases c <;> cases hk : (k.writes && !l.entry.getLsbD 7) <;> simp only [Bool.not_true, Bool.not_false, if_true,
      Bool.false_eq_true, if_false]
    · refine keeps_bind (keeps_orEntry _ _ _) (fun _ => htlb _ ?_ _ _)
      exact fun _ => ⟨rfl, rfl⟩
    · refine keeps_bind (keeps_orEntry _ _ _) (fun _ => htlb _ ?_ _ _)
      exact fun _ => ⟨rfl, rfl⟩
    · refine htlb _ ?_ _ _
      exact fun _ => ⟨rfl, rfl⟩
    · refine keeps_bind (keeps_orEntry _ _ _) (fun _ => htlb _ ?_ _ _)
      exact fun _ => ⟨rfl, rfl⟩

theorem keeps_walkFrom (a : Acc) (c : Nat) (va : DWord) (lvl node : Nat) : Keeps State.MemWf (walkFrom a c va lvl node) := by
  induction lvl generalizing node with
  | zero =>
    unfold walkFrom
    refine keeps_bind keeps_get (fun s => keeps_bind (keeps_physRead _ _ _) (fun bs => ?_))
    simp only
    split
    · exact keeps_pure _
    · split <;> exact keeps_pure _
    · exact keeps_pure _
  | succ l ih =>
    unfold walkFrom
    refine keeps_bind keeps_get (fun s => keeps_bind (keeps_physRead _ _ _) (fun bs => ?_))
    simp only
    split
    · exact keeps_pure _
    · split <;> exact keeps_pure _
    · exact ih _

theorem keeps_walkFor (a : Acc) (k : AKind) (lane : Option Nat) (va : DWord) : Keeps State.MemWf (walkFor a k lane va) := by
  unfold walkFor
  refine keeps_bind keeps_get (fun s => keeps_bind (keeps_walkFrom _ _ _ _ _) (fun r => ?_))
  split
  · exact keeps_pure _
  · exact keeps_useLeaf _ _ _ _ _ _

theorem keeps_useRange (a : Acc) (k : AKind) (lane : Option Nat) (va : DWord) (r : RangeEnt) : Keeps State.MemWf (useRange a k lane va r) := by
  unfold useRange
  extract_lets perm
  split
  · exact keeps_pure _
  · exact keeps_bind (keeps_change (fun s h => MemWf_refill h _ _ _ _)) (fun _ => keeps_mapped _ _)

theorem keeps_staleLeaf (a : Acc) (k : AKind) (e : TlbEnt) : Keeps State.MemWf (staleLeaf a k e) := by
  unfold staleLeaf
  split
  · exact keeps_bind (keeps_physRead _ _ _) (fun _ => keeps_pure _)
  · exact keeps_pure _

theorem keeps_useCached (a : Acc) (k : AKind) (lane : Option Nat) (va : DWord) (e : TlbEnt) :
    Keeps State.MemWf (useCached a k lane va e) := by
  unfold useCached
  refine keeps_bind (keeps_staleLeaf _ _ _) (fun r => ?_)
  split
  · exact keeps_bind (keeps_change (fun s h => MemWf_of_eq h rfl rfl)) (fun _ => keeps_walkFor _ _ _ _)
  · exact keeps_useLeaf _ _ _ _ _ _

theorem keeps_translate (a : Acc) (k : AKind) (lane : Option Nat) (va : DWord) : Keeps State.MemWf (translate a k lane va) := by
  unfold translate
  refine keeps_bind keeps_get (fun s => ?_)
  split
  · exact keeps_pure _
  · split
    · exact keeps_pure _
    · split
      · exact keeps_useRange _ _ _ _ _
      · split
        · split
          · exact keeps_useCached _ _ _ _ _
          · exact keeps_walkFor _ _ _ _
        · exact keeps_useCached _ _ _ _ _

theorem keeps_translatePieces (a : Acc) (k : AKind) (lane : Option Nat) (ps : List (DWord × Nat)) :
    Keeps State.MemWf (translatePieces a k lane ps) := by
  induction ps with
  | nil => exact keeps_pure _
  | cons p ps ih =>
    unfold translatePieces
    refine keeps_bind (keeps_translate _ _ _ _) (fun r => ?_)
    split
    · exact keeps_pure _
    · refine keeps_bind ih (fun r => ?_)
      split <;> exact keeps_pure _

/-- A read of virtual memory keeps the memories canonical. -/
theorem keeps_vread (a : Acc) (k : AKind) (lane : Option Nat) (p : BitVec 3) (va : DWord) (n : Nat) :
    Keeps State.MemWf (vread a k lane p va n) := by
  unfold vread translateAll
  refine keeps_bind (keeps_translatePieces _ _ _ _) (fun r => ?_)
  split
  · exact keeps_pure _
  · exact keeps_bind (keeps_readRuns _ _ _) (fun _ => keeps_pure _)

/-- A write of virtual memory past the buffer keeps them canonical. -/
theorem keeps_vwrite (a : Acc) (k : AKind) (p : BitVec 3) (va : DWord) (bs : List Byte) : Keeps State.MemWf (vwrite a k p va bs) := by
  unfold vwrite translateAll
  refine keeps_bind (keeps_translatePieces _ _ _ _) (fun r => ?_)
  split
  · exact keeps_pure _
  · exact keeps_bind (keeps_writeRuns _ _ _ _) (fun _ => keeps_pure _)

/-- A lane's store keeps them canonical. -/
theorem keeps_vstore (a : Acc) (lane : Nat) (p : BitVec 3) (va : DWord) (bs : List Byte) : Keeps State.MemWf (vstore a lane p va bs) := by
  unfold vstore translateAll
  refine keeps_bind (keeps_translatePieces _ _ _ _) (fun r => ?_)
  split
  · exact keeps_pure _
  · exact keeps_bind (keeps_bufferRuns _ _ _ _) (fun _ => keeps_pure _)

end Sys2Proof.Machine
end

