-- ==== Sys2Proof/Laws/Results.lean ====
section
/-! SUPPORT. What the shared register results leave: a scalar result, a lane result, a predicate result, and the path's move. -/

namespace Sys2Proof.Machine

/-! ## Scalar registers -/

/-- `setX` writes x alone. -/
theorem Team.setX_eq (t : Team) (d : BitVec 5) (v : DWord) : t.setX d v = { t with x := (t.setX d v).x } := by
  unfold Team.setX
  split <;> rfl

/-- What a scalar result leaves. -/
theorem writesX_of_scalarResult {i : Instr} {s : State} {d : BitVec 5} {f : Team → DWord} (h : exec i s = scalarResult d f s) :
    WritesX i s d (f s.t) := by
  refine ⟨{ s with t := s.t.resultX d (f s.t) }, h, fun q => Team.xr_setX s.t d q (f s.t), ?_⟩
  obtain ⟨y, hy⟩ : ∃ y, s.t.setX d (f s.t) = { s.t with x := y } := ⟨_, s.t.setX_eq d (f s.t)⟩
  unfold Team.resultX
  rw [hy]
  rfl

/-! ## Lane registers -/

theorem Team.vr_setV_key (t : Team) (lane r l q : Nat) (w : Word) :
    (t.setV lane r w).vr l q = if 128 * l + q = 128 * lane + r then w else t.vr l q := by
  unfold Team.setV Team.vr
  exact sget_sset _ _ _ _ _

theorem Team.setVs_eq (t : Team) (lane : Nat) : ∀ (n r v : Nat), t.setVs lane r n v = { t with v := (t.setVs lane r n v).v }
  | 0, _, _ => rfl
  | n + 1, r, v => by
    unfold Team.setVs
    rw [Team.setVs_eq (t.setV lane r (BitVec.ofNat 32 v)) lane n (r + 1) (v / 2 ^ 32)]
    rfl

/-- Registers below, above, or of another lane are not written. -/
theorem Team.vr_setVs_out (lane l q : Nat) : ∀ (n r v : Nat) (t : Team), r + n ≤ 128 → q < 128 → ¬ (l = lane ∧ r ≤ q ∧ q < r + n) →
    (t.setVs lane r n v).vr l q = t.vr l q
  | 0, _, _, _, _, _, _ => rfl
  | n + 1, r, v, t, hr, hq, h => by
    unfold Team.setVs
    rw [Team.vr_setVs_out lane l q n (r + 1) (v / 2 ^ 32) _ (by omega) hq (by omega), Team.vr_setV_key]
    split
    · omega
    · rfl

theorem Team.vr_setVs_in (lane q : Nat) : ∀ (n r v : Nat) (t : Team), r + n ≤ 128 → r ≤ q → q < r + n →
    (t.setVs lane r n v).vr lane q = BitVec.ofNat 32 (v / 2 ^ (32 * (q - r)))
  | 0, _, _, _, _, _, _ => by omega
  | n + 1, r, v, t, hr, h1, h2 => by
    unfold Team.setVs
    by_cases e : q = r
    · subst e
      rw [Team.vr_setVs_out lane lane q n (q + 1) (v / 2 ^ 32) _ (by omega) (by omega) (by omega), Team.vr_setV_key]
      simp
    · rw [Team.vr_setVs_in lane q n (r + 1) (v / 2 ^ 32) _ (by omega) (by omega) (by omega), Nat.div_div_eq_div_mul, ← pow_add]
      congr 3
      omega

theorem Team.vrs_congr {t u : Team} {lane : Nat} : ∀ (n r : Nat), (∀ q, r ≤ q → q < r + n → t.vr lane q = u.vr lane q) →
    t.vrs lane r n = u.vrs lane r n
  | 0, _, _ => rfl
  | n + 1, r, h => by
    unfold Team.vrs
    rw [h r (by omega) (by omega), Team.vrs_congr n (r + 1) (fun q h1 h2 => h q (by omega) (by omega))]

/-- Registers that hold the words of a number read as that number. -/
theorem Team.vrs_words {t : Team} {lane : Nat} : ∀ (n r v : Nat),
    (∀ q, r ≤ q → q < r + n → t.vr lane q = BitVec.ofNat 32 (v / 2 ^ (32 * (q - r)))) → t.vrs lane r n = v % 2 ^ (32 * n)
  | 0, _, v, _ => by simp [Team.vrs, Nat.mod_one]
  | n + 1, r, v, h => by
    unfold Team.vrs
    rw [h r (by omega) (by omega), Team.vrs_words n (r + 1) (v / 2 ^ 32) (fun q h1 h2 => by
      rw [h q (by omega) (by omega), Nat.div_div_eq_div_mul, ← pow_add]
      congr 3
      omega)]
    simp only [Nat.sub_self, Nat.mul_zero, pow_zero, Nat.div_one, BitVec.toNat_ofNat]
    rw [show 32 * (n + 1) = 32 + 32 * n by ring, pow_add, Nat.mod_mul]

theorem Team.foldl_setVs_eq (dst n : Nat) (f : Nat → Nat) : ∀ (ls : List Nat) (t : Team),
    ls.foldl (fun u lane => u.setVs lane dst n (f lane)) t =
      { t with v := (ls.foldl (fun u lane => u.setVs lane dst n (f lane)) t).v }
  | [], _ => rfl
  | l :: ls, t => by
    simp only [List.foldl_cons]
    rw [Team.foldl_setVs_eq dst n f ls (t.setVs l dst n (f l))]
    rw [Team.setVs_eq t l n dst (f l)]

theorem Team.foldl_setVs_vr (dst n : Nat) (f : Nat → Nat) (hd : dst + n ≤ 128) (l q : Nat) (hq : q < 128) :
    ∀ (ls : List Nat) (t : Team),
    (ls.foldl (fun u lane => u.setVs lane dst n (f lane)) t).vr l q =
      if l ∈ ls ∧ dst ≤ q ∧ q < dst + n then BitVec.ofNat 32 (f l / 2 ^ (32 * (q - dst))) else t.vr l q
  | [], _ => by simp
  | k :: ls, t => by
    simp only [List.foldl_cons]
    rw [Team.foldl_setVs_vr dst n f hd l q hq ls]
    by_cases hin : dst ≤ q ∧ q < dst + n
    · by_cases h1 : l ∈ ls
      · simp [h1, hin]
      · by_cases h2 : l = k
        · subst h2
          simp [h1, hin, Team.vr_setVs_in l q n dst (f l) t hd hin.1 hin.2]
        · rw [if_neg (by tauto), if_neg (by simp [h1, h2]), Team.vr_setVs_out k l q n dst (f k) t hd hq (by tauto)]
    · rw [if_neg (by tauto), if_neg (by tauto), Team.vr_setVs_out k l q n dst (f k) t hd hq (by tauto)]

/-- `mapV` writes v alone. -/
theorem Team.mapV_eq (t : Team) (w : LWord) (n : Nat) (f : Nat → Nat) : t.mapV w n f = { t with v := (t.mapV w n f).v } :=
  Team.foldl_setVs_eq _ _ _ _ _

/-- One register of one lane after `mapV`. -/
theorem Team.mapV_vr (t : Team) (w : LWord) (n : Nat) (f : Nat → Nat) (hd : w.dst.toNat + n ≤ 128) (l q : Nat) (hq : q < 128) :
    (t.mapV w n f).vr l q = if l ∈ t.parts w ∧ w.dst.toNat ≤ q ∧ q < w.dst.toNat + n then
      BitVec.ofNat 32 (f l / 2 ^ (32 * (q - w.dst.toNat))) else t.vr l q :=
  Team.foldl_setVs_vr _ _ _ hd l q hq _ _

/-! ## Arms settle by the paths alone -/

/-- What decides how arms settle: paths, splits, barriers, parked accesses and lane copies. -/
structure Team.SettlesAs (t u : Team) : Prop where
  paths : t.paths = u.paths
  splits : t.splits = u.splits
  barriers : t.barriers = u.barriers
  oplog : t.oplog = u.oplog
  copyQ : t.copyQ = u.copyQ

theorem Team.settleArm_congr {t u : Team} (h : t.SettlesAs u) : ∀ (k n : Nat) (a : Arm), t.settleArm k n a = u.settleArm k n a := by
  have e1 : ∀ i, t.path i = u.path i := fun i => by unfold Team.path; rw [h.paths]
  have e2 : ∀ p, t.splitOf p = u.splitOf p := fun p => by unfold Team.splitOf; rw [h.splits]
  have e3 : ∀ p, t.arrived p = u.arrived p := fun p => by unfold Team.arrived; rw [e2]
  have e4 : ∀ p, t.quiet p = u.quiet p := fun p => by
    unfold Team.quiet Team.lanesQuiet Team.underWay; rw [h.oplog, h.copyQ]
  have e5 : ∀ p q, t.sameRejoin p q = u.sameRejoin p q := fun p q => by unfold Team.sameRejoin; rw [e2, e2]
  have e6 : ∀ x i, t.awaited x i = u.awaited x i := fun x i => by unfold Team.awaited; simp only [e1, h.barriers]
  have e7 : ∀ x, t.complete x = u.complete x := fun x => by unfold Team.complete; simp only [e1, e3, h.splits]
  have e8 : ∀ k a, t.idlePop k a = u.idlePop k a := fun k a => by
    unfold Team.idlePop Team.merging; rw [show t.awaited a.held = u.awaited a.held from funext (e6 _)]; simp only [e7, h.splits]
  intro k n
  induction n with
  | zero => intro a; rfl
  | succ n ih =>
    intro a
    unfold Team.settleArm
    simp only [e1, e3, e4, e5, e8, ih, show ∀ x, t.awaited x = u.awaited x from fun x => funext (e6 x)]

theorem Team.endL_arms_congr {t u : Team} (h : t.SettlesAs u) (ha : t.arms = u.arms) (hc : t.curPath = u.curPath) :
    t.endL.arms = u.endL.arms := by
  have hn : t.nextL.SettlesAs u.nextL := by
    refine ⟨?_, h.splits, h.barriers, h.oplog, h.copyQ⟩
    show List.map _ t.paths = List.map _ u.paths
    rw [h.paths, hc]
  show t.arms.mapIdx (fun k a => t.nextL.settleArm k 140 a) = u.arms.mapIdx (fun k a => u.nextL.settleArm k 140 a)
  rw [ha]
  exact congrArg (fun f => u.arms.mapIdx f) (funext (fun k => funext (fun a => Team.settleArm_congr hn k 140 a)))

/-- What a lane result leaves. -/
theorem writesV_of_laneResult {i : Instr} {s : State} {w : LWord} {n : Nat} {f : Team → Nat → Nat} (hd : w.dst.toNat + n ≤ 128)
    (h : exec i s = laneResult w n f s) : WritesV i s w n (f s.t) := by
  have hv : ∀ l q, q < 128 → ((s.t.mapV w n (f s.t)).endL).vr l q = if l ∈ s.t.parts w ∧ w.dst.toNat ≤ q ∧ q < w.dst.toNat + n then
      BitVec.ofNat 32 (f s.t l / 2 ^ (32 * (q - w.dst.toNat))) else s.t.vr l q := Team.mapV_vr s.t w n (f s.t) hd
  refine ⟨{ s with t := (s.t.mapV w n (f s.t)).endL }, h, ?_, ?_, ⟨?_, ?_⟩, ?_⟩
  · intro lane hl
    refine Team.vrs_words n _ _ (fun q h1 h2 => ?_)
    show ((s.t.mapV w n (f s.t)).endL).vr lane q = _
    rw [hv lane q (by omega), if_pos ⟨hl, h1, h2⟩]
  · intro lane r hr hn
    show ((s.t.mapV w n (f s.t)).endL).vr lane r = _
    rw [hv lane r hr, if_neg hn]
  · show ((s.t.mapV w n (f s.t)).endL).paths = _
    rw [Team.mapV_eq]
    rfl
  · refine Team.endL_arms_congr ⟨?_, ?_, ?_, ?_, ?_⟩ ?_ ?_ <;> rw [Team.mapV_eq]
  · obtain ⟨y, hy⟩ : ∃ y, s.t.mapV w n (f s.t) = { s.t with v := y } := ⟨_, s.t.mapV_eq w n (f s.t)⟩
    rw [hy]
    rfl

/-! ## Predicates -/

theorem laneBit_getLsbD (i j : Nat) (hi : i < 1024) : (laneBit j).getLsbD i = decide (i = j) := by
  unfold laneBit
  rw [BitVec.getLsbD_ofNat, Nat.testBit_two_pow]
  simp [hi, eq_comm]

theorem foldl_or_getLsbD (i : Nat) (hi : i < 1024) : ∀ (ls : List Nat) (m : Mask),
    (ls.foldl (fun m i => m ||| laneBit i) m).getLsbD i = (m.getLsbD i || decide (i ∈ ls))
  | [], m => by simp
  | l :: ls, m => by
    simp only [List.foldl_cons]
    rw [foldl_or_getLsbD i hi ls, BitVec.getLsbD_or, laneBit_getLsbD i l hi]
    by_cases h : i = l <;> simp [h]

theorem maskOf_getLsbD (ls : List Nat) (i : Nat) (hi : i < 1024) : (maskOf ls).getLsbD i = decide (i ∈ ls) := by
  unfold maskOf
  rw [foldl_or_getLsbD i hi]
  simp

theorem fullMask_getLsbD (n i : Nat) (hi : i < 1024) : (fullMask n).getLsbD i = decide (i < n) := by
  unfold fullMask
  rw [BitVec.getLsbD_ofNat, Nat.testBit_two_pow_sub_one]
  simp [hi]

/-- Which lanes take part. -/
theorem Team.mem_parts (t : Team) (w : LWord) (l : Nat) : l ∈ t.parts w ↔ l < laneCount t.gmax ∧ (t.partMask w).getLsbD l = true := by
  unfold Team.parts lanesIn
  simp

theorem Team.setPm_eq (t : Team) (k : Nat) (m : Mask) : t.setPm k m = { t with p := (t.setPm k m).p } := by
  unfold Team.setPm
  split <;> rfl

theorem Team.pm_setPm (t : Team) (k j : Nat) (m : Mask) : (t.setPm k m).pm j = if j = k ∧ k ≠ 0 then m else t.pm j := by
  unfold Team.setPm Team.pm
  by_cases hk : k = 0
  · simp [hk]
  · by_cases hj : j = 0
    · subst hj
      simp [hk]
      intro h
      exact absurd h.symm hk
    · by_cases e : j = k
      · subst e
        simp [hj, sget_sset_self]
      · simp [hk, hj, e, sget_sset_ne e]

theorem Team.mapP_eq (t : Team) (w : LWord) (k : Nat) (f : Nat → Bool) : t.mapP w k f = { t with p := (t.mapP w k f).p } :=
  Team.setPm_eq _ _ _

/-- One predicate bit after `mapP`. -/
theorem Team.mapP_pm (t : Team) (w : LWord) (k : Nat) (f : Nat → Bool) (l : Nat) (hl : l < 1024) (j : Nat) :
    ((t.mapP w k f).pm j).getLsbD l = if j = k ∧ j ≠ 0 ∧ l ∈ t.parts w then f l else (t.pm j).getLsbD l := by
  unfold Team.mapP
  simp only [Team.pm_setPm]
  by_cases hj : j = k ∧ k ≠ 0
  · obtain ⟨rfl, hk⟩ := hj
    simp only [hk, ne_eq, not_false_eq_true, and_self, if_true, true_and, BitVec.getLsbD_or, BitVec.getLsbD_and, BitVec.getLsbD_not,
      maskOf_getLsbD _ l hl, fullMask_getLsbD _ l hl, List.mem_filter, Team.mem_parts, hl, decide_true, Bool.true_and]
    cases (t.partMask w).getLsbD l <;> cases hc : decide (l < laneCount t.gmax) <;> simp_all
  · rw [if_neg hj, if_neg (by rintro ⟨rfl, h, _⟩; exact hj ⟨rfl, h⟩)]

/-- What a predicate result leaves. -/
theorem writesP_of_lanePred {i : Instr} {s : State} {w : LWord} {f : Team → Nat → Bool} (h : exec i s = lanePred w f s) :
    WritesP i s w (f s.t) := by
  refine ⟨{ s with t := (s.t.mapP w (w.dst.toNat % 16) (f s.t)).endL }, h, ?_, ⟨?_, ?_⟩, ?_⟩
  · intro lane hl k
    exact Team.mapP_pm s.t w _ (f s.t) lane hl k
  · show ((s.t.mapP w _ (f s.t)).endL).paths = _
    rw [Team.mapP_eq]
    rfl
  · refine Team.endL_arms_congr ⟨?_, ?_, ?_, ?_, ?_⟩ ?_ ?_ <;> rw [Team.mapP_eq]
  · obtain ⟨y, hy⟩ : ∃ y, s.t.mapP w (w.dst.toNat % 16) (f s.t) = { s.t with p := y } := ⟨_, s.t.mapP_eq w _ (f s.t)⟩
    rw [hy]
    rfl

end Sys2Proof.Machine
end

