-- ==== Sys2Proof/Tests/Slice0.lean ====
section
/-! SUPPORT. Tests: ill-formed terms refused, words written out from the spec's encodings, single steps with results worked out from the
spec, and for each statement a state that meets its hypotheses. -/

open Sys2Proof Sys2Proof.Machine

namespace Sys2Proof.Tests

set_option Elab.async false

/-! ## Well-formedness: one ill-formed term for each check -/

theorem test_wf_scalar_fields :
    (Instr.cmp 6 1 2 3).wf 128 = false ∧ (Instr.sext 3 1 2).wf 128 = false ∧ (Instr.zext 3 1 2).wf 128 = false ∧
    (Instr.b 7 1 0).wf 128 = false ∧ (Instr.b 0 1 0).wf 128 = false ∧ (Instr.ld 0 0 7 0 0 1 2).wf 128 = false ∧
    (Instr.ld 0 0 0 2 0 1 2).wf 128 = false ∧ (Instr.st 0 0 7 0 0 1 2).wf 128 = false ∧ (Instr.st 0 0 0 1 0 1 2).wf 128 = false ∧
    (Instr.srrd 0x00c 1).wf 128 = false ∧ (Instr.srwr 0x00c 1).wf 128 = false ∧ (Instr.fence 0 1).wf 128 = false ∧
    (Instr.fence 1 7).wf 128 = false ∧ (Instr.icflush 1 1 2).wf 128 = false ∧ (Instr.icflush 6 1 2).wf 128 = false := by decide

theorem test_wf_engine_fields :
    (Instr.cpy false 1 1 2 3).wf 128 = false ∧ (Instr.tld false 1 1 2 3).wf 128 = false ∧ (Instr.tst false 1 1 2 3).wf 128 = false ∧
    (Instr.mma false 1 1 2 3).wf 128 = false ∧ (Instr.tri false 1 1 2 3).wf 128 = false ∧ (Instr.tlut false 1 1 2 3).wf 128 = false ∧
    (Instr.qfence false 1 1).wf 128 = false ∧ (Instr.mma true 1 1 2 3).wf 128 = true := by decide

/-- The packet of eight zero dwords but for its first. -/
def packet (d0 : DWord) : Packet := { d0 := d0, d1 := 0, d2 := 0, d3 := 0, d4 := 0, d5 := 0, d6 := 0, d7 := 0 }

theorem test_wf_packets :
    (Instr.flipPacket 0 (packet 2)).wf 128 = false ∧ (Instr.commitPacket 0 (packet 1)).wf 128 = false ∧
    (Instr.latchPacket 0 (packet 1)).wf 128 = false ∧ (Instr.launchPacket 0 (packet 1)).wf 128 = false ∧
    (Instr.copyPacket 0 (packet 1)).wf 128 = false ∧ (Instr.fencePacket 0 (packet 1)).wf 128 = false ∧
    (Instr.waitPacket 0 (packet 1)).wf 128 = false ∧ (Instr.capstartPacket 0 (packet 1)).wf 128 = false ∧
    (Instr.capstopPacket 0 (packet 1)).wf 128 = false ∧ (Instr.nopPacket 0 (packet 1)).wf 128 = false ∧
    (Instr.nopPacket 0 (packet 10)).wf 128 = true := by decide

/-- A step of the chain of R112 fails: FN, MODB, TYPE, the X and I bits, a register outside the kernel, the memory fields, LA, PRED. -/
theorem test_wf_lane_fields :
    let z := LWord.zero
    (Instr.barE { z with i := true }).wf 128 = false ∧ (Instr.bar { z with i := true, fn := 1 }).wf 128 = false ∧
    (Instr.emitTake z).wf 128 = false ∧ (Instr.addLane { z with ty := 2, fn := 1 }).wf 128 = false ∧
    (Instr.addLane { z with ty := 2, hi := 0x80 }).wf 128 = false ∧ (Instr.addLane { z with ty := 26 }).wf 128 = false ∧
    (Instr.addLane { z with ty := 2, x3 := true }).wf 128 = false ∧ (Instr.addLane { z with ty := 2, dst := 8 }).wf 8 = false ∧
    (Instr.addLane { z with ty := 2, scope := 1 }).wf 128 = false ∧ (Instr.addLane { z with ty := 2, la := 1 }).wf 128 = false ∧
    (Instr.nopLane).wf 128 = true ∧ (Instr.prio { z with i := true, pred := 1 }).wf 128 = false ∧
    (Instr.addLane { z with ty := 2, dst := 7 }).wf 8 = true := by decide

/-! ## Decoding: words written out from the encodings of §4.2 to §4.4 and chapter 5 -/

theorem test_decode_arithmetic :
    decodeTableWord 32 0x000e6281 = some (.add 5 6 7) ∧ decodeTableWord 32 0xfff06282 = some (.addImm 5 6 0xfff) ∧
    decodeTableWord 32 0x020e6281 = some (.sub 5 6 7) ∧ decodeTableWord 32 0x040e6281 = some (.mul 5 6 7) ∧
    decodeTableWord 32 0x064e6281 = some (.mulh true 5 6 7) ∧ decodeTableWord 32 0x080e6281 = some (.div false 5 6 7) ∧
    decodeTableWord 32 0x0a0e6281 = some (.rem false 5 6 7) ∧ decodeTableWord 32 0x0c0e6281 = some (.min false 5 6 7) ∧
    decodeTableWord 32 0x0e4e6281 = some (.max true 5 6 7) ∧ decodeTableWord 32 0x00386282 = some (.shlImm 5 6 3) ∧
    decodeTableWord 32 0x1a0e6281 = some (.shr 5 6 7) ∧ decodeTableWord 32 0x1c0e6281 = some (.sra 5 6 7) ∧
    decodeTableWord 32 0x00ae6282 = some (.sltImm 5 6 0xa) ∧ decodeTableWord 32 0x210e6281 = some (.cmp 4 5 6 7) := by decide

theorem test_decode_logic :
    decodeTableWord 32 0x0ff26282 = some (.andImm 5 6 0x0ff) ∧ decodeTableWord 32 0x0ff46282 = some (.orImm 5 6 0x0ff) ∧
    decodeTableWord 32 0xfff66282 = some (.xorImm 5 6 0xfff) ∧ decodeTableWord 32 0x140e6281 = some (.xor 5 6 7) ∧
    decodeTableWord 32 0x160e6281 = some (.andn 5 6 7) ∧ decodeTableWord 32 0x220e6281 = some (.sel 5 6 7) ∧
    decodeTableWord 32 0x24006281 = some (.mov 5 6) ∧ decodeTableWord 32 0x26006281 = some (.clz 5 6) ∧
    decodeTableWord 32 0x28006281 = some (.popc 5 6) ∧ decodeTableWord 32 0x2a006281 = some (.brev 5 6) ∧
    decodeTableWord 32 0x2c406281 = some (.sext 1 5 6) ∧ decodeTableWord 32 0x2e406281 = some (.zext 1 5 6) ∧
    decodeTableWord 32 0x304e6281 = some (.bfe true 5 6 7) ∧ decodeTableWord 32 0x320e6281 = some (.bfi 5 6 7) ∧
    decodeTableWord 32 0x000fe283 = some (.li 5 0xfe) ∧ decodeTableWord 32 0x00000284 = some (.lih 5 0) := by decide

theorem test_decode_control :
    decodeTableWord 32 0x00010005 = some (.j 0x10) ∧ decodeTableWord 32 0x00010086 = some (.jal 1 0x10) ∧
    decodeTableWord 32 0x00001007 = some (.jr 0 1 0) ∧ decodeTableWord 32 0x00805087 = some (.jr 1 5 8) ∧
    decodeTableWord 32 0x00402908 = some (.b 2 5 8) ∧ decodeTableWord 32 0xffe80008 = some (.b 0 0 0x1ffd) ∧
    decodeTableWord 32 0x0000300e = some (.lrun 3) ∧ decodeTableWord 32 0x0080000d = some .lsync ∧
    decodeTableWord 32 0x00c0000d = some .trap ∧ decodeTableWord 32 0x0100000d = some .eret ∧
    decodeTableWord 32 0x0040000d = some .halt ∧ decodeTableWord 32 0x0140028d = some (.time 5) ∧
    decodeTableWord 32 0x0040028b = some (.srrd 1 5) ∧ decodeTableWord 32 0x0200600c = some (.srwr 8 6) := by decide

theorem test_decode_memory_and_engines :
    decodeTableWord 32 0x03861289 = some (.ld 0 3 4 0 3 1 5) ∧ decodeTableWord 32 0x1384128a = some (.st 2 3 4 0 2 1 5) ∧
    decodeTableWord 32 0x190c500d = some (.icflush 4 5 6) ∧ decodeTableWord 32 0x1700000d = some (.fence 3 4) ∧
    decodeTableWord 32 0x01cc5910 = some (.cpy true 2 5 6 7) ∧ decodeTableWord 32 0x2800628d = some (.tcfg 5 6) ∧
    decodeTableWord 32 0x2000018d = some (.gresP 3) ∧ decodeTableWord 32 0x2040918d = some (.gres 3 9) ∧
    decodeTableWord 32 0x2080510d = some (.gresAny 2 5) ∧ decodeTableWord 32 0x20c0510d = some (.gresAll 2 5) ∧
    decodeTableWord 32 0x2100010d = some (.gwait 2) ∧ decodeTableWord 32 0x2400028d = some (.bclose 5) ∧
    decodeTableWord 32 0x2440600d = some (.bwait 6) := by decide

theorem test_decode_futures :
    decodeTableWord 32 0x300e628d = some (.fork 5 6 7) ∧ decodeTableWord 32 0x3040b50d = some (.commit 10 11) ∧
    decodeTableWord 32 0x3146220d = some (.flip 4 2 3) ∧ decodeTableWord 32 0x2c80628d = some (.latch 5 6) ∧
    decodeTableWord 32 0x2cc0628d = some (.audit 5 6) := by decide

/-- Words that are no instruction: the fate the spec gives each (R102, R108, R111). -/
theorem test_decode_fates :
    decodeScalar 0 = .error .illegal ∧ decodeScalar 0x0001000d = .error .illegal ∧ decodeScalar 0x1000000d = .error .illegal ∧
    decodeTableWord 32 0 = none := by decide

/-- The 96 bits of three words, the first at the lowest address. -/
def lane3 (a b c : Nat) : Nat := a + b * 2 ^ 32 + c * 2 ^ 64

theorem test_decode_lane_arithmetic :
    let z := LWord.zero
    decodeTableWord 96 (lane3 0x01020001 0x01000020 1) = some (.addLane { z with dst := 4, src1 := 4, ty := 2, i := true, hi := 1 }) ∧
    decodeTableWord 96 (lane3 0x0102000c 0x01000020 0xffffffff) =
      some (.xorLane { z with dst := 4, src1 := 4, ty := 2, i := true, hi := 0xffffffff }) ∧
    decodeTableWord 96 (lane3 0xc1420006 0xa0 0) = some (.divLane { z with dst := 4, src1 := 5, src2 := 6, ty := 10 }) ∧
    decodeTableWord 96 (lane3 0x0002001a 0x010000f0 0x3f800000) = some (.liLane { z with dst := 4, ty := 15, i := true, hi := 0x3f800000 }) ∧
    decodeTableWord 96 (lane3 0x0002001b 0x01000030 1) = some (.lihLane { z with dst := 4, ty := 3, i := true, hi := 1 }) ∧
    decodeTableWord 96 (lane3 0x0101881c 0x41000020 0) =
      some (.cmpLane { z with pred := 2, dst := 3, src1 := 4, ty := 2, i := true, fn := 2 }) := by decide

theorem test_decode_lane_control :
    let z := LWord.zero
    decodeTableWord 96 (lane3 0x1c0 0 0) = some .nopLane ∧ decodeTableWord 96 0x104 = some .join ∧
    decodeTableWord 96 (lane3 0x110 0x21000000 3) = some (.barE { z with i := true, fn := 1, hi := 3 }) ∧
    decodeTableWord 96 (lane3 0x000101c1 0 0x100) = some (.srrdLane { z with dst := 2, hi := 0x100 }) ∧
    decodeTableWord 96 (lane3 0x604001c2 0 0x100) = some (.srwrLane { z with src1 := 1, src2 := 3, hi := 0x100 }) ∧
    decodeTableWord 96 (lane3 0x000201c3 0x30 0) = some (.timeLane { z with dst := 4, ty := 3 }) := by decide

theorem test_decode_lane_memory :
    let z := LWord.zero
    let m : LWord := { z with dst := 4, src1 := 3, src2 := 5, ty := 2, scope := 4, evict := 3, i := true, x2 := true }
    decodeTableWord 96 (lane3 0xa0c20140 0x050e0020 0) = some (.ldLane m) ∧
    decodeTableWord 96 (lane3 0xa0c20141 0x050e0020 0) = some (.stLane m) ∧
    decodeTableWord 96 (lane3 0x00830140 0x45008020 0x100) =
      some (.ldLane { z with dst := 6, src1 := 2, ty := 2, scope := 1, i := true, x2 := true, fn := 2, hi := 0x100 }) ∧
    decodeTableWord 96 (lane3 0x145 0x00026000 0) = some (.fenceLane { z with ord := 3, scope := 4 }) := by decide

theorem test_decode_lane_fates :
    decodeLane 128 0x3ff = .error .illegal ∧ decodeLane 128 0x00000000050f8020a0c20140 = .error .reserved ∧
    decodeLane 128 0x000000001d0e0020a0c20140 = .error .illegal := by decide

/-- Encoding gives those words back. -/
theorem test_encode :
    encodeScalar (.add 5 6 7) = some 0x000e6281 ∧ encodeScalar (.b 0 0 0x1ffd) = some 0xffe80008 ∧
    encodeScalar (.ld 0 3 4 0 3 1 5) = some 0x03861289 ∧
    encodeLane (.addLane { LWord.zero with dst := 4, src1 := 4, ty := 2, i := true, hi := 1 }) =
      some (BitVec.ofNat 96 (lane3 0x01020001 0x01000020 1)) := by decide

/-! ## States to step from -/

/-- A part with 64 GB whose context 0 maps addresses flat, with a trap handler and a pennant control block; a team stands on core 0. -/
def part : State :=
  { State.reset with
    win := { State.reset.win with memCode := 1 }
    ctxs := updNth State.reset.ctxs 0 (fun x => { placeCtx x with tvec := 0x8000, pcb := some 0x20000 })
    t := placeTeam }

/-- That part with its team's scalar registers set. -/
def withX (xs : List (Nat × DWord)) : State := part.upd (fun t => { t with x := xs })

/-- That part with a running lane block, whose one path holds the lanes of `m`, and those lanes' registers; x7 holds 0x40000. -/
def withLanes (m : Mask) (v : List (Nat × Word)) : State :=
  part.upd (fun t => { t with bunting := m, v := v }.beginBlock { no := 1, entry := 0x10000, snap := [(7, 0x40000)] } [])

/-- What `f` reads after `i`, where it ends in a next state. -/
def after {α : Type} (i : Instr) (s : State) (f : State → α) : Option α :=
  match exec i s with
  | .next t => some (f t)
  | _ => none

/-- xd after `i` with x6 and x7 given. -/
def x5 (i : Instr) (a b : DWord) : Option DWord := after i (withX [(6, a), (7, b)]) (fun t => t.t.xr 5)

/-! ## Single steps of the scalar stream -/

theorem test_add_wraps : x5 (.add 5 6 7) 0xffffffffffffffff 2 = some 1 := by decide +kernel
theorem test_sub_wraps : x5 (.sub 5 6 7) 1 2 = some 0xffffffffffffffff := by decide +kernel
theorem test_add_immediate_is_signed : x5 (.addImm 5 6 0xfff) 1 0 = some 0 := by decide +kernel
theorem test_mulh : x5 (.mulh true 5 6 7) 0xffffffffffffffff 0xffffffffffffffff = some 0xfffffffffffffffe ∧
    x5 (.mulh false 5 6 7) 0xffffffffffffffff 0xffffffffffffffff = some 0 := by decide +kernel
theorem test_div_truncates : x5 (.div false 5 6 7) (-7) 2 = some (-3) ∧ x5 (.rem false 5 6 7) (-7) 2 = some (-1) := by decide +kernel
/-- R350, R378: division by zero and the one overflow. -/
theorem test_div_corners : x5 (.div false 5 6 7) 9 0 = some (-1) ∧ x5 (.rem true 5 6 7) 9 0 = some 9 ∧
    x5 (.div false 5 6 7) 0x8000000000000000 (-1) = some 0x8000000000000000 ∧
    x5 (.rem false 5 6 7) 0x8000000000000000 (-1) = some 0 := by decide +kernel
theorem test_min_max : x5 (.min false 5 6 7) (-1) 1 = some (-1) ∧ x5 (.max true 5 6 7) (-1) 1 = some (-1) := by decide +kernel
theorem test_slt : x5 (.slt false 5 6 7) (-1) 1 = some 1 ∧ x5 (.slt true 5 6 7) (-1) 1 = some 0 := by decide +kernel
/-- R379: a count of the width or more. -/
theorem test_shift_past_the_width : x5 (.shl 5 6 7) 1 64 = some 0 ∧ x5 (.shr 5 6 7) (-1) 64 = some 0 ∧
    x5 (.sra 5 6 7) (-2) 0x100000000 = some (-1) := by decide +kernel
theorem test_andn : x5 (.andn 5 6 7) 0b1100 0b1010 = some 0b0100 := by decide +kernel
theorem test_cmp : x5 (.cmp 2 5 6 7) (-1) 0 = some 1 ∧ x5 (.cmp 4 5 6 7) (-1) 0 = some 0 := by decide +kernel
/-- R378: SEL's condition is the old xd. -/
theorem test_sel : after (.sel 5 6 7) (withX [(5, 1), (6, 10), (7, 20)]) (fun t => t.t.xr 5) = some 10 ∧
    x5 (.sel 5 6 7) 10 20 = some 20 := by decide +kernel
/-- §16.2 and §16.20: BREV and CLZ of 1. -/
theorem test_brev_clz : x5 (.brev 5 6) 1 0 = some 0x8000000000000000 ∧ x5 (.clz 5 6) 1 0 = some 63 ∧ x5 (.clz 5 6) 0 0 = some 64 := by
  decide +kernel
theorem test_popc : x5 (.popc 5 6) 0xf00f 0 = some 8 := by decide +kernel
/-- §16.11's example. -/
theorem test_bfe : x5 (.bfe true 5 6 7) 0xf5a0 0x0804 = some 0x5a ∧ x5 (.bfe true 5 6 7) 0xf5a0 0x0808 = some 0xfffffffffffffff5 := by
  decide +kernel
theorem test_bfi : after (.bfi 5 6 7) (withX [(5, 0xffff), (6, 0xab), (7, 0x0804)]) (fun t => t.t.xr 5) = some 0xfabf := by decide +kernel
/-- §19.14's example, and its signed counterpart. -/
theorem test_extend : x5 (.zext 1 5 6) 0xffffffffffff8001 0 = some 0x8001 ∧ x5 (.sext 0 5 6) 0x80 0 = some (-128) := by decide +kernel
/-- §18.6: LI, then two LIH. -/
theorem test_li_lih : x5 (.li 5 0xfe) 0 0 = some 0xfe ∧
    after (.lih 5 0) (withX [(5, 0xfe00000)]) (fun t => t.t.xr 5) = some 0x0000fe0000000000 := by decide +kernel
/-- R73: x0 discards the write, and the stream moves on. -/
theorem test_x0 : after (.add 0 6 7) (withX [(6, 1)]) (fun t => (t.t.xr 0, t.t.spc)) = some (0, 0x10004) := by decide +kernel
/-- R371: JR reads xs1 before it writes xd. -/
theorem test_jr : after (.jr 1 1 8) (withX [(1, 0x100)]) (fun t => (t.t.xr 1, t.t.spc)) = some (0x10004, 0x108) := by decide +kernel
theorem test_j_back : after (.j 0xfffff) part (fun t => t.t.spc) = some 0xfffc := by decide +kernel
theorem test_b : after (.b 3 5 8) (withX [(5, -1)]) (fun t => t.t.spc) = some 0x10020 ∧
    after (.b 4 5 8) (withX [(5, -1)]) (fun t => t.t.spc) = some 0x10004 := by decide +kernel
theorem test_halt : after .halt part (fun t => t.t.life) = some .retiring := by decide +kernel
/-- R81: OFF5 counts access sizes, and the value is zero-extended. -/
theorem test_ld : after (.ld 1 0 0 0 1 1 5) { withX [(1, 0x30000)] with mem := [(0x30002, 0x78), (0x30003, 0x96)] }
    (fun t => t.t.xr 5) = some 0x9678 := by decide +kernel
theorem test_st : after (.st 1 0 0 0 1 1 5) (withX [(1, 0x30000), (5, 0x12349678)]) (fun t => t.mem) =
    some [(0x30002, 0x78), (0x30003, 0x96)] := by decide +kernel
/-- R297: TRAP saves its own address, raises INH and goes to TVEC; ERET goes on at EPC + 4. -/
theorem test_trap : after .trap part (fun t => (t.t.fCause, t.t.fEpc, t.t.inh, t.t.spc)) = some (3, 0x10000, true, 0x8000) := by decide +kernel
theorem test_eret : after .eret (part.upd (fun t => { t with inh := true, fEpc := 0x10000, resume := 0x10004, spc := 0x8000 }))
    (fun t => (t.t.inh, t.t.spc)) = some (false, 0x10004) := by decide +kernel
/-- R87, R89: the MEM field of sr.devid; sr.errtrap's STICKY clears where 1 is written. -/
theorem test_srrd : after (.srrd 0 5) part (fun t => t.t.xr 5) = some 0x98400b190100 := by decide +kernel
theorem test_srwr : after (.srwr 8 6) ((withX [(6, 3)]).upd (fun t => { t with sticky := true })) (fun t => (t.t.sticky, t.t.trapEn)) =
    some (false, true) := by decide +kernel
theorem test_gres : after (.gres 3 6) (withX [(6, 0)]) (fun t => t.t.guard 3) = some (.resolved false) := by decide +kernel
/-- R155: batch numbers wrap past 0. -/
theorem test_bclose_wraps : after (.bclose 5) (part.upd (fun t => { t with batch := 0xffffffff })) (fun t => (t.t.xr 5, t.t.batch)) =
    some (0xffffffff, 1) := by decide +kernel
/-- R150: tile 0 of 64 rows and 64 columns is legal; a shape with a reserved bit is not. -/
theorem test_tcfg : after (.tcfg 5 6) (withX [(6, 0x1020)]) (fun t => (t.t.xr 5, sget (0, 0) t.t.shapes 0)) = some (0, (64, 64)) ∧
    x5 (.tcfg 5 6) 0x1021 0 = some 2 := by decide +kernel
/-- R58, R180: a copy of one row of 256 bytes is queued in batch 1; under a false guard it is discarded. -/
theorem test_cpy : after (.cpy false 0 5 6 7) ((withX [(5, 0x50000), (6, 0x60000), (7, 0x0000100000000000)]))
    (fun t => t.t.copyQ.map (·.batch)) = some [some 1] := by decide +kernel
/-- R219, R227, R48, R249, R261: statuses. -/
theorem test_statuses : x5 (.fork 5 6 7) 0 0x400 = some 3 ∧ x5 (.commit 5 6) 8 0 = some 3 ∧ x5 (.migrate 5 6) 144 0 = some 2 ∧
    x5 (.audit 5 6) 6 0 = some 0xffffffffffffffff ∧ x5 (.tfetch 5) 0 0 = some 0xffffffffffffffff ∧
    x5 (.flip 5 6 7) 4 0x100 = some 3 := by decide +kernel

/-! ## Single steps of the lane stream -/

/-- The lane instruction under .32 with DST 8, SRC1 2, SRC2 3. -/
def w32 : LWord := { LWord.zero with dst := 8, src1 := 2, src2 := 3, ty := 2 }

/-- v8 of lane 0 after `i` with v2, v3 and v4 of that lane given. -/
def v8 (i : Instr) (a b c : Word) : Option Word := after i (withLanes 1 [(2, a), (3, b), (4, c)]) (fun t => t.t.vr 0 8)

/-- A lane whose predicate is false keeps its register, and its flag is read with PN (R29, R77). -/
theorem test_lane_predicate :
    let s := (withLanes 7 [(2, 5), (130, 6), (136, 9), (258, 7)]).upd (fun t => { t with p := [(1, 5)] })
    after (.movLane { w32 with src2 := 0, pred := 1 }) s (fun t => (t.t.vr 0 8, t.t.vr 1 8, t.t.vr 2 8)) = some (5, 9, 7) ∧
    after (.movLane { w32 with src2 := 0, pred := 1, pn := true }) s (fun t => (t.t.vr 0 8, t.t.vr 1 8, t.t.vr 2 8)) = some (0, 6, 0) := by
  decide +kernel
theorem test_lane_add_wraps : v8 (.addLane w32) 0xffffffff 2 0 = some 1 := by decide +kernel
theorem test_lane_mad : v8 (.mad { w32 with hi := 4 }) 3 5 7 = some 22 := by decide +kernel
theorem test_lane_div : v8 (.divLane { w32 with ty := 10 }) 0xfffffff9 2 0 = some 0xfffffffd ∧
    v8 (.divLane { w32 with ty := 9 }) 7 0 0 = some 0xffffffff := by decide +kernel
theorem test_lane_shift : v8 (.shlLane w32) 1 32 0 = some 0 ∧ v8 (.sraLane w32) 0x80000000 99 0 = some 0xffffffff := by decide +kernel
theorem test_lane_abs : v8 (.abs { w32 with src2 := 0, ty := 10 }) 0x80000000 0 0 = some 0x80000000 := by decide +kernel
theorem test_lane_slt : v8 (.sltLane { w32 with ty := 9 }) 0xffffffff 0 0 = some 0 := by decide +kernel
theorem test_lane_lih : after (.lihLane { LWord.zero with dst := 4, ty := 3, i := true, hi := 1 }) (withLanes 1 [(4, 7)])
    (fun t => (t.t.vr 0 4, t.t.vr 0 5)) = some (7, 1) := by decide +kernel
theorem test_lane_cmp : after (.cmpLane { w32 with dst := 3, ty := 10, fn := 2 }) (withLanes 3 [(2, 0xffffffff)]) (fun t => t.t.pm 3) =
    some 1 := by decide +kernel
/-- §17.7's worked example: one rounding against two. -/
theorem test_fma : v8 (.fma { w32 with ty := 15, hi := 4 }) 0x3f800800 0x3f800800 0xbf801000 = some 0x33800000 ∧
    v8 (.fmul { w32 with ty := 15 }) 0x3f800800 0x3f800800 0 = some 0x3f801000 := by decide +kernel
theorem test_fadd_zero : v8 (.fadd { w32 with ty := 15 }) 0x3f801000 0xbf801000 0 = some 0 ∧
    v8 (.fadd { w32 with ty := 15, fn := 2 }) 0x3f801000 0xbf801000 0 = some 0x80000000 := by decide +kernel
theorem test_fdiv : v8 (.fdiv { w32 with ty := 15 }) 0x3f800000 0x40400000 0 = some 0x3eaaaaab ∧
    v8 (.fdiv { w32 with ty := 15 }) 0xbf800000 0 0 = some 0xff800000 := by decide +kernel
theorem test_fsqrt : v8 (.fsqrt { w32 with src2 := 0, ty := 15 }) 0x40000000 0 0 = some 0x3fb504f3 := by decide +kernel
theorem test_fmin : v8 (.fmin { w32 with ty := 15 }) 0x80000000 0 0 = some 0x80000000 ∧
    v8 (.fmax { w32 with ty := 15 }) 0x7fc00000 0x3f800000 0 = some 0x3f800000 := by decide +kernel
/-- R356's examples: 2.5 under .RN and .RNA, −0.3 under .RP. -/
theorem test_frnd : v8 (.frnd { w32 with src2 := 0, ty := 15 }) 0x40200000 0 0 = some 0x40000000 ∧
    v8 (.frnd { w32 with src2 := 0, ty := 15, fn := 4 }) 0x40200000 0 0 = some 0x40400000 ∧
    v8 (.frnd { w32 with src2 := 0, ty := 15, fn := 3 }) 0xbe99999a 0 0 = some 0x80000000 := by decide +kernel
/-- §16.24's worked example: to e4m3. -/
theorem test_cvt_e4m3 :
    let w : LWord := { w32 with src2 := 0, ty := 17, hi := 0x780 }
    v8 (.cvt w) 0x3eaaaaab 0 0 = some 0x2b ∧ v8 (.cvt { w with fn := 1 }) 0x3eaaaaab 0 0 = some 0x2a ∧
    v8 (.cvt w) 0x43fa0000 0 0 = some 0x7e ∧ v8 (.cvt w) 0xff800000 0 0 = some 0xfe ∧ v8 (.cvt w) 0x7fc00000 0 0 = some 0x7f := by
  decide +kernel
/-- §6.6's dxb8 block, as BLKQ writes it (§16.13), and two of its elements back (§16.14). -/
theorem test_blkq : after (.blkq { w32 with src2 := 0, ty := 23 })
    (withLanes 0xff [(2, 0x41200000), (130, 0x3e99999a), (258, 0xc0200000), (514, 0x3d400000), (642, 0x40f80000), (770, 0xbe000000),
      (898, 0x3f800000)])
    (fun t => ((List.range 8).map (fun l => t.t.vr l 8), t.t.vr 5 9)) =
    some ([0x68, 0x41, 0xca, 0x00, 0x0c, 0x5f, 0xa0, 0x44], 0x7d77) := by decide +kernel
theorem test_blkx : v8 (.blkx { w32 with ty := 23 }) 0x41 0x7d77 0 = some 0x3e800000 ∧
    v8 (.blkx { w32 with ty := 23 }) 0x68 0x7d77 0 = some 0x41200000 := by decide +kernel
/-- §6.6's ob4 block: code 15, and the scale record with Z = 1. -/
theorem test_blkq_ob4 : after (.blkq { w32 with src2 := 0, ty := 24 })
    (withLanes 0xff [(2, 0xbf000000), (258, 0x3f99999a), (386, 0x40e00000), (514, 0x40533333), (642, 0xbe800000), (770, 0x40000000),
      (898, 0x40c33333)])
    (fun t => ((List.range 8).map (fun l => t.t.vr l 8), t.t.vr 5 9)) = some ([0, 1, 3, 15, 8, 1, 5, 13], 0x3f000001) := by decide +kernel
/-- §6.8's worked example: eight ones beside 2^24, and a term truncated to 0. -/
theorem test_dot_accumulate : dotAccumulate 0x4b800000 (List.replicate 8 (f32.value 0x3f800000)) = 0x4b800004 ∧
    dotAccumulate 0xbf800000 [f32.value 0x3f800000, f32.value 0x2b800000] = 0 := by decide +kernel
/-- §6.9's worked example: stage one rounds b·c to 12 bits. -/
theorem test_tri_term : dotAccumulate 0 [triTerm (.fin false 3 0) (f16.value 0x3c01) (f16.value 0x3c01)] = 0x40406000 := by decide +kernel
/-- §19.10's example of VOTE.BAL. -/
theorem test_vote_bal :
    let s := (withLanes (BitVec.ofNat 1024 (2 ^ 64 - 1)) []).upd (fun t =>
      { t with gmax := 1, p := [(1, BitVec.ofNat 1024 (2 ^ 3 + 2 ^ 9 + 2 ^ 40)), (4, BitVec.ofNat 1024 (2 ^ 64 - 2 ^ 32 + 0xff))] })
    after (.vote { LWord.zero with dst := 6, src1 := 1, fn := 3, pred := 4 }) s (fun t => (t.t.vr 7 6, t.t.vr 32 6, t.t.vr 9 6)) =
      some (8, 0x100, 0) := by decide +kernel
/-- §18.16's worked example: exclusive and inclusive scans. -/
theorem test_scan :
    let s := (withLanes 0xffffffff [(1, 10), (129, 20), (257, 30), (385, 40), (513, 50), (641, 60)]).upd (fun t => { t with p := [(1, 0x3f)] })
    let w : LWord := { LWord.zero with dst := 2, src1 := 1, ty := 2, pred := 1 }
    after (.scan { w with hi := 0x100 }) s (fun t => (List.range 7).map (fun l => t.t.vr l 2)) = some [0, 10, 30, 60, 100, 150, 0] ∧
    after (.scan w) s (fun t => (List.range 6).map (fun l => t.t.vr l 2)) = some [10, 30, 60, 100, 150, 210] := by decide +kernel
theorem test_reduce_fadd : after (.reduce { LWord.zero with dst := 8, src1 := 2, ty := 15, fn := 6 })
    (withLanes 3 [(2, 0x3f800000), (130, 0x40000000)]) (fun t => (t.t.vr 0 8, t.t.vr 1 8)) = some (0x40400000, 0x40400000) := by decide +kernel
/-- PLOP with a majority table (§18.13). -/
theorem test_plop : after (.plop { LWord.zero with dst := 4, src1 := 1, src2 := 2, hi := 3 + 2 ^ 7 * 0xe8 })
    ((withLanes 0xff []).upd (fun t => { t with p := [(1, 0b11110000), (2, 0b11001100), (3, 0b10101010)] })) (fun t => t.t.pm 4) =
    some 0b11101000 := by decide +kernel
theorem test_br_splits : after (.br { LWord.zero with pred := 1, i := true, hi := 0x00040003 })
    ((withLanes 3 []).upd (fun t => { t with p := [(1, 2)] })) (fun t => t.t.paths.map (fun p => (p.mask, p.pc))) =
    some [(1, 0x1000c), (2, 0x10024)] := by decide +kernel
/-- R71: from a line's tenth instruction the successor stands in the next line. -/
theorem test_lane_next : laneNext 0x4006c = 0x40080 ∧ laneNext 0x40080 = 0x4008c := by decide +kernel
theorem test_ret_pops : after .ret ((withLanes 1 []).upd (fun t => { t with paths := t.paths.map (fun p => { p with rstack := [0x10024] }) }))
    (fun t => t.t.paths.map (fun p => (p.pc, p.rstack))) = some [(0x10024, [])] := by decide +kernel
theorem test_exit : after (.exit { LWord.zero with pred := 1 }) ((withLanes 3 []).upd (fun t => { t with p := [(1, 2)] }))
    (fun t => (t.t.bunting, t.t.paths.map (·.mask))) = some (1, [1]) := by decide +kernel
theorem test_lane_ld : after (.ldLane { LWord.zero with dst := 4, src1 := 3, src2 := 7, ty := 18, i := true, x2 := true })
    { withLanes 1 [(3, 4)] with mem := [(0x40004, 0x78)] } (fun t => t.t.vr 0 4) = some 0x78 := by decide +kernel
/-- R170: a lane's store waits in the core's buffer, where the core reads it. -/
theorem test_lane_st : after (.stLane { LWord.zero with dst := 4, src1 := 3, src2 := 7, ty := 2, i := true, x2 := true })
    (withLanes 1 [(3, 4), (4, 0x11223344)]) (fun t => (t.mem, coreByte t 0 0x40005)) = some ([], 0x33) := by decide +kernel
/-- R166: a scratchpad store waits in the write port. -/
theorem test_lane_st_spad : after (.stLane { LWord.zero with dst := 4, src1 := 3, ty := 2, scope := 1, i := true, x2 := true, fn := 2 })
    ((withLanes 1 [(3, 4), (4, 0x11223344)]).upd (fun t => { t with claim := 4096 }))
    (fun t => (sget 0 t.t.spad 5, t.t.spadByte 5)) = some (0, 0x33) := by decide +kernel
theorem test_atom_add : after (.atom { LWord.zero with dst := 4, src1 := 3, src2 := 7, ty := 2, scope := 4, i := true, x2 := true })
    { withLanes 1 [(4, 5)] with mem := [(0x40000, 3)] } (fun t => (t.t.vr 0 4, t.mem)) = some (3, [(0x40000, 8)]) := by decide +kernel
/-- §16.5: of two compare-and-swaps in one pass, one sees 0 and the other what it wrote. -/
theorem test_atom_cas : after (.atomGroupB { LWord.zero with dst := 8, src1 := 3, src2 := 7, ty := 2, scope := 4, i := true, x2 := true })
    (withLanes 1 [(8, 0), (9, 5)]) (fun t => (t.t.vr 0 8, t.mem)) = some (0, [(0x40000, 5)]) := by decide +kernel
theorem test_lane_srrd : after (.srrdLane { LWord.zero with dst := 2, hi := 0x100 }) (withLanes 8 []) (fun t => t.t.vr 3 2) = some 3 := by
  decide +kernel
theorem test_bar_holds : after (.bar { LWord.zero with i := true, hi := 3 }) (withLanes 3 []) (fun t => (t.t.flags 3, t.t.paths.map (·.hold))) =
    some (3, [.barrier 3 false]) := by decide +kernel
/-- R86: no lane form of a wrong number, so a step that issues one takes the illegal-instruction trap. -/
theorem test_trap_lane : after .trapLane (withLanes 1 []) (fun t => (t.t.fCause, t.t.fLane, t.t.spc, t.t.resume)) =
    some (3, true, 0x8000, 0x10000) := by decide +kernel

/-! ## Units -/

/-- R319: a blank presents the oldest flip. -/
theorem test_blank : after (.verticalBlank 1)
    { part with time := 9, heads := updNth part.heads 1 (fun d => { d with hcfg := 0x11, queue := [{ head := 1, surface := 0x100, ctx := 0 }] }) }
    (fun t => ((headOf t 1).shown.map (·.surface), (headOf t 1).queue.length)) = some (some 0x100, 0) := by decide +kernel
/-- R250: coverage falls before frequency, to the floor; then frequency falls. -/
theorem test_governor :
    let g := { part.gov with exceeded := true, gcap := 70 }
    ((governed g 64 7 true).gcap, (governed g 64 7 true).point) = (64, 7) ∧ (governed { g with gcap := 64 } 64 7 true).point = 6 ∧
    (governed { g with exceeded := false, point := 6, cap := 6 } 64 7 true).point = 7 ∧
    (governed { g with exceeded := false, point := 6, cap := 6 } 64 6 true).gcap = 86 := by decide +kernel
/-- R253: the CRC of the check string of the polynomial's catalogues. -/
theorem test_crc : crc32 [0x31, 0x32, 0x33, 0x34, 0x35, 0x36, 0x37, 0x38, 0x39] = 0xcbf43926 := by decide +kernel

/-! ## For each statement: states that meet its hypotheses

Each theorem here instantiates the hypotheses of the statement it is named after, clause by clause; a clause without hypotheses has none.
The last address of the range entry, the last register, and empty and full queues stand for the ends of the ranges. -/

/-- The instruction ends in a next state. -/
def goesOn (o : Host.Outcome State Fault Refusal) : Bool :=
  match o with
  | .next _ => true
  | _ => false

/-- What `p` says of a fetch that gives bytes. -/
def fetches (m : Except Stop (Except TFault (List Byte) × State)) (p : List Byte → State → Bool) : Bool :=
  match m with
  | .ok (.ok bs, v) => p bs v
  | _ => false


theorem witness_ScalarDecodeOfEncode :
    encodeScalar (.add 31 6 7) = some 0x000e6f81 ∧ (Instr.add 31 6 7).wf 128 = true ∧ encodeScalar .halt = some 0x0040000d := by decide

theorem witness_LaneDecodeOfEncode :
    let i : Instr := .addLane { LWord.zero with dst := 127, ty := 2 }
    (encodeLane i).isSome = true ∧ i.wf 128 = true ∧ (encodeLane (.bar { LWord.zero with i := true, hi := 31 })).isSome = true := by decide

theorem witness_EncodeOfDecode :
    decodeScalar 0x000e6281 = .ok (.add 5 6 7) ∧ decodeLane 128 0x104 = .ok .join := by decide

theorem witness_StepRunsScalarWord :
    (let s := part.placeWord 32 0x000e6281
     s.agenda = [] ∧ s.turn = some (.scalar 0 0) ∧ s.focus 0 0 = some s ∧ scalarLive s = true ∧
     (s.t.errPend && s.t.sPark.isNone) = false ∧ scalarAligned s.t.spc = true ∧
     s.t.wait = .none ∧ fetches (fetchCode s.t.tag false s.t.spc 4 s) (fun bs v =>
      decide (decodeScalar (wordOf 32 bs) = .ok (.add 5 6 7)) && !scalarWaits v (.add 5 6 7)) = true) ∧
    (let s := part.placeWord 32 0
     s.agenda = [] ∧ s.turn = some (.scalar 0 0) ∧ s.focus 0 0 = some s ∧ scalarLive s = true ∧
     (s.t.errPend && s.t.sPark.isNone) = false ∧ scalarAligned s.t.spc = true ∧
     s.t.wait = .none ∧ fetches (fetchCode s.t.tag false s.t.spc 4 s) (fun bs v =>
      decide (decodeScalar (wordOf 32 bs) = .error .illegal) && !scalarWaits v (.illegalInstructionIssue false)) = true) ∧
    (let s := { part.upd (fun t => { t with wait := .rank (.rank 5) 0 [1] }) with turn := some (.scalar 0 0) }
     s.agenda = [] ∧ s.turn = some (.scalar 0 0) ∧ s.focus 0 0 = some s ∧ scalarLive s = true ∧ s.t.wait.again = some (.rank 5) ∧
     scalarWaits s (.rank 5) = false) := by
  decide +kernel

theorem witness_StepRunsLaneWord :
    (let s := part.placeWord 96 0x104
     let u := s.upd (fun t => { t with curPath := 0 })
     s.agenda = [] ∧ s.turn = some (.lane 0 0 0) ∧ s.focus 0 0 = some s ∧ pathLive u = true ∧ u.t.cur.yielded = false ∧
     laneAligned u.t.cur.pc = true ∧ fetches (fetchCode u.t.tag true u.t.cur.pc 12 u) (fun bs v =>
      decide (decodeLane u.t.nregs (wordOf 96 bs) = .ok .join) && !laneWaits v .join && (match useRegs .join v with
        | .ok _ => true
        | _ => false)) = true) ∧
    (let s := part.placeWord 96 0x3ff
     let u := s.upd (fun t => { t with curPath := 0 })
     s.agenda = [] ∧ s.turn = some (.lane 0 0 0) ∧ s.focus 0 0 = some s ∧ pathLive u = true ∧ u.t.cur.yielded = false ∧
     laneAligned u.t.cur.pc = true ∧ fetches (fetchCode u.t.tag true u.t.cur.pc 12 u) (fun bs v =>
      decide (decodeLane u.t.nregs (wordOf 96 bs) = .error .illegal) && !laneWaits v (.illegalInstructionIssue false)) = true) := by
  decide +kernel

theorem witness_StepRunsAgenda : { part with agenda := [.verticalBlank 0, .queuePoll] }.agenda = .verticalBlank 0 :: [.queuePoll] := rfl

/-- Context 0 reaches the part's memory under its own addresses. -/
theorem flat_part : Flat part 0 := by unfold Flat; decide +kernel

theorem witness_FetchTakesMemory :
    Flat part 0 ∧ part.t.tag.pennant = 0 ∧ part.t.tag.ctx = 0 ∧ part.caches.icache = [] ∧
    (0xffffffff0 : DWord).toNat + 16 ≤ 0x1000000000 ∧ scalarAligned 0xffffffff0 = true ∧ laneAligned 0xfffffff8c = true ∧
    (0xfffffff8c : DWord).toNat + 16 ≤ 0x1000000000 := by
  unfold Flat
  decide +kernel

theorem witness_StepKeepsMemoryForm :
    let s := (withX [(1, 0x30000), (5, 7)]).placeWord 32 0x1384128a
    (Memory.wf s.mem = true ∧ Memory.wf s.peerMem = true) ∧ goesOn (step s) = true := by decide +kernel

theorem witness_StepKeepsGovernorLimits :
    let s := { part with agenda := [.governorTick], gov := { part.gov with exceeded := true, point := 1 } }
    (1 ≤ s.gov.gcap ∧ s.gov.gcap ≤ 256 ∧ 1 ≤ s.gov.point ∧ s.gov.point ≤ 7 ∧ 1 ≤ s.win.gfloor) ∧ goesOn (step s) = true := by decide +kernel

theorem witness_ScalarDivide :
    (withX [(6, 5)]).t.xr 7 = 0 ∧ (withX [(7, 5)]).t.xr 7 ≠ 0 ∧
    ((withX [(6, 0x8000000000000000), (7, -1)]).t.xr 6).toInt = -2 ^ 63 ∧ ((withX [(6, 0x8000000000000000), (7, -1)]).t.xr 7).toInt = -1 ∧
    (withX [(6, 0x8000000000000000), (7, 1)]).t.xr 7 ≠ 0 ∧ ((withX [(6, 0x8000000000000000), (7, 1)]).t.xr 7).toInt ≠ -1 := by decide +kernel

theorem witness_Shifts :
    let w (d : BitVec 7) (ty : BitVec 5) : LWord := { LWord.zero with dst := d, ty := ty }
    (w 127 2).dst.toNat + (w 127 2).n ≤ 128 ∧ (w 126 3).dst.toNat + (w 126 3).n ≤ 128 ∧ (w 126 3).n = 2 := by decide

theorem witness_ScalarBits : (0 : BitVec 3).toNat ≤ 2 ∧ (2 : BitVec 3).toNat ≤ 2 := by decide

theorem witness_ScalarJumps :
    let x := (withX [(5, -1)]).t.xr 5
    ((1 : BitVec 4) = 1 ∧ (False ↔ x = 0)) ∧ (True ↔ x ≠ 0) ∧ (True ↔ x.toInt < 0) ∧ (False ↔ 0 ≤ x.toInt) ∧ (False ↔ 0 < x.toInt) ∧
      (True ↔ x.toInt ≤ 0) ∧ part.t.paused = false ∧ (part.upd (fun t => { t with paused := true })).t.paused = true := by decide +kernel

/-- A live block 1, and guard slots resolved, bound and pending. -/
def guarded : State :=
  (withLanes 1 []).upd (fun t =>
    { t with blockNo := 1, guards := [(1, .pending (some { block := 1, pred := 2, all := false })), (2, .pending none)] })

theorem witness_GuardSlots :
    (guarded.t.blockNo ≠ 0 ∧ guarded.t.blockLive guarded.t.blockNo = true) ∧ ¬ (part.t.blockNo ≠ 0 ∧ part.t.blockLive part.t.blockNo = true) ∧
    guarded.t.guard 0 = .resolved true ∧ guarded.t.guard 1 = .pending (some { block := 1, pred := 2, all := false }) ∧
    guarded.t.guard 2 = .pending none ∧ guarded.t.ctx < guarded.ctxs.length := by decide +kernel

/-- A command that waits in batch `b` under guard `g`. -/
def queued (b g : Option Nat) : EngCmd :=
  { body := .copy 0x1000 0x30000 0x0000100000000000, batch := b, guard := g, stage := .queued, progress := 0, panels := [], order := 0, undo := [], pc := 0, tag := 0 }

theorem witness_Batches :
    let counts (n last : BitVec 32) (c : EngCmd) : Prop := ∃ b, c.batch = some b ∧
      ((n ≠ 0 ∧ 2 ^ 31 ≤ (last - n).toNat) ∨ ((if n = 0 then last else n) - BitVec.ofNat 32 b).toNat < 2 ^ 31)
    ¬ counts 1 2 (queued (some 2) none) ∧ counts 2 2 (queued (some 2) none) ∧ counts 0 2 (queued (some 1) none) ∧
    counts 3 2 (queued (some 3) none) ∧ guarded.t.heldUnbound (queued (some 1) none) = false ∧
    guarded.t.heldUnbound (queued (some 1) (some 2)) = true := by
  refine ⟨?_, ⟨2, rfl, ?_⟩, ⟨1, rfl, ?_⟩, ⟨3, rfl, ?_⟩, ?_, ?_⟩
  · rintro ⟨b, h1, h2⟩
    cases h1
    revert h2
    decide
  all_goals decide +kernel

theorem witness_TileShapes :
    let s (l : List EngCmd) := guarded.upd (fun t => { t with running := none, tileQ := l })
    guarded.t.idleLanes = false ∧ (s []).t.idleLanes = true ∧ (s [queued none none]).t.tileQ ≠ [] ∧
    (s []).t.heldUnbound (queued none none) = false ∧ (s []).t.heldUnbound (queued none (some 2)) = true ∧
    (let rows (v : DWord) (k : Nat) : Nat := 8 * (v.extractLsb' (16 * k + 9) 7).toNat
     let cols (v : DWord) (k : Nat) : Nat := 32 * (v.extractLsb' (16 * k + 4) 5).toNat
     let legal (v : DWord) : Prop := ∀ k < 4, (v.extractLsb' (16 * k) 4) = 0 ∧ rows v k ≤ 512 ∧ cols v k ≤ 512 ∧ (rows v k = 0 ↔ cols v k = 0)
     ¬ legal 0x1000 ∧ (legal 0x8100 ∧ 16384 - elementsElsewhere (s []) < rows 0x8100 0 * cols 0x8100 0) ∧
     (legal 0x2040 ∧ rows 0x2040 0 * cols 0x2040 0 ≤ 16384 - elementsElsewhere (s []))) := by decide +kernel

theorem witness_ScalarSystemRegisters :
    (0x00b : BitVec 10).toNat ≤ 0x00b ∧ (0x00b : BitVec 10) ≠ 0x008 ∧ (0x00b : BitVec 10) ≠ 0x009 ∧ (0x00b : BitVec 10) ≠ 0x00a ∧
    (ctxOf part 0).warpBy = none ∧ (ctxOf part 0).rastBy = none ∧
    (let s := { part with ctxs := updNth part.ctxs 0 (fun x => { x with warpBy := some (0, 1, 0), rastBy := some (0, 0, 1) }) }
     (ctxOf s 0).warpBy = some (s.time, 1, 0) ∧ s.t.core < 1 ∧ (ctxOf s 0).rastBy = some (s.time, 0, 1) ∧ 0 = s.t.core ∧ s.t.slot < 1) := by
  decide +kernel

theorem witness_LaneId :
    { LWord.zero with hi := 0x100 }.srNum = 0x100 ∧ 31 ∈ (withLanes 0xffffffff []).t.parts LWord.zero := by decide +kernel

theorem witness_LaneSystemRegisters :
    { LWord.zero with src1 := 1, hi := 0x100 }.srNum = 0x101 ∧ { LWord.zero with dst := 126 }.dst.toNat < 127 ∧
    (withLanes 1 []).t.parts { LWord.zero with pred := 1 } = [] ∧ (withLanes 6 []).t.parts LWord.zero = [1, 2] := by decide +kernel

theorem witness_Traps :
    (ctxOf part part.t.ctx).trctl.getLsbD 11 = false ∧ part.t.wait = .none ∧ part.turn = none ∧
    (part.placeWord 96 0).turn = some (.lane 0 0 0) ∧ canonical 0x10000 = true ∧ part.t.inh = false ∧
    (let s := part.upd (fun t => { t with inh := true })
     s.t.inh = true ∧ s.t.fLane = false ∧ (s.upd (fun t => { t with fLane := true })).t.fLane = true) ∧
    ((ctxOf part part.t.ctx).tvec ≠ 0 ∧ part.t.life ≠ .retiring) ∧ (ctxOf State.reset 0).tvec = 0 ∧
    after .trap part id = some (part.upd (fun t => { t with
      fCause := 3, fEpc := 0x10000, inh := true, paused := true, spc := 0x8000, resume := 0x10004 })) ∧
    (let u (h : Bool) := { part.upd (fun t => { t with errPend := true, inh := h }) with turn := some (.scalar 0 0) }
     ∀ h, (u h).agenda = [] ∧ (u h).turn = some (.scalar 0 0) ∧ (u h).focus 0 0 = some (u h) ∧ scalarLive (u h) = true ∧
      (u h).t.errPend = true ∧ (u h).t.sPark = none ∧ (u h).t.wait = .none ∧ (ctxOf (u h) 0).tvec ≠ 0 ∧ (u h).t.inh = h) := by decide +kernel

/-- A lane access through x7 + v3, to v4. -/
def acc32 : LWord := { LWord.zero with dst := 4, src1 := 3, src2 := 7, ty := 2, i := true, x2 := true }

/-- A lane that accesses 0x40004, with breakpoints on and watchpoint 4 on loads, stores and atomics of the byte after its bytes' last but one. -/
def watched : State :=
  { withLanes 1 [(3, 4)] with ctxs := updNth part.ctxs 0 (fun x =>
      { x with trctl := 0x2800, trbase := 0x50000, watch := updNth x.watch 3 (fun _ => { addr := 0x40007, ctl := 0x700 }) }) }

theorem witness_Traps_debug :
    Rings watched ∧ (ctxOf watched watched.t.ctx).trctl.getLsbD 11 = true ∧ watched.t.cur.hold ≠ .debug true ∧
    (let p := (ctxOf watched 0).watch.getD (4 - 1) Watch.reset
     typeBytes acc32.ty.toNat = 4 ∧ acc32.fn = 0 ∧ acc32.ord = 0 ∧ 4 * acc32.n = 4 ∧ watched.t.pennant = 0 ∧ watched.t.parts acc32 = [0] ∧
     (watched.t.ea acc32 0).toNat % 4 = 0 ∧ p.ctl.getLsbD 8 = true ∧ p.ctl.getLsbD 9 = true ∧ p.ctl.getLsbD 10 = true ∧
     p.addr.toNat < (watched.t.ea acc32 0).toNat + 4 ∧ (watched.t.ea acc32 0).toNat < p.addr.toNat + 2 ^ (p.ctl.extractLsb' 0 5).toNat) := by
  unfold Rings
  decide +kernel

theorem witness_LaneBlocks :
    let b : Block := { no := 1, entry := 0x10000, snap := [] }
    let s (l : List Block) := part.upd (fun t => { t with waiting := l })
    part.t.inh = false ∧ (s [b, b]).t.waiting.length < 3 ∧ 3 ≤ (s [b, b, b]).t.waiting.length ∧ part.t.running = none ∧ part.t.waiting = [] ∧
    (∀ c ∈ part.t.tileQ, c.batch ≠ none) ∧ (withLanes 1 []).t.running ≠ none ∧ ((s [b]).focus 0 0 = some (s [b]) ∧ (s [b]).t.moves = true ∧ (s [b]).t.paused = false ∧
      (s [b]).t.running = none ∧ (s [b]).t.waiting = b :: []) ∧
    (let u := (withLanes 1 []).upd (fun t => { t with paths := t.paths.map (fun p => { p with mask := 0 }) })
     u.focus 0 0 = some u ∧ u.t.moves = true ∧ u.t.paused = false ∧ u.t.blockOver = true) := by decide +kernel

/-- One buffered line of core 0 and one pending operand. -/
def buffered : State :=
  { part with caches := { part.caches with
      wc := [{ core := 0, ctx := 0, pennant := 0, line := 0x400, bytes := [{ off := 127, val := 5, slot := 0, ctx := 0 }], prio := 0, since := 0 }]
      quanta := [{ core := 0, ctx := 0, fn := 0, ty := 2, pa := 0x10000, size := 4
                   shares := [{ slot := 0, lane := 0, val := 1 }], prio := 0, since := 0 }] } }

theorem witness_ReleaseDrains :
    let l : WcLine := { core := 0, ctx := 0, pennant := 0, line := 0x400, bytes := [{ off := 127, val := 5, slot := 0, ctx := 0 }], prio := 0, since := 0 }
    let s := { buffered with caches := { buffered.caches with quanta := [] } }
    s.caches.wc = [l] ∧ l.core = s.t.core ∧ l.pennant = 0 ∧ (l.bytes.map (·.off)).Nodup ∧ s.caches.quanta = [] ∧
    (∀ q ∈ buffered.caches.quanta, q.core = buffered.t.core → ¬ (q.pa ≤ 0x10004 ∧ 0x10004 < q.pa + q.size)) ∧ (0x10004 ≠ 128 * l.line + 127) ∧
    -- another core buffers the core's line, and a line under its pending operand
    (let k (n : Nat) : WcLine := { l with core := 1, line := n }
     let u := { buffered with caches := { buffered.caches with wc := buffered.caches.wc ++ [k 0x400, k 0x200] } }
     u.caches.spoilt = [] ∧ k 0x400 ∈ u.caches.wc ∧ (k 0x400).core ≠ u.t.core ∧
     (∃ j ∈ u.caches.wc, j.core = u.t.core ∧ j.line = (k 0x400).line ∧ j.pennant = (k 0x400).pennant) ∧
     (∃ q ∈ u.caches.quanta, q.core = u.t.core ∧ 128 * (k 0x200).line < q.pa + q.size ∧ q.pa < 128 * (k 0x200).line + 128)) ∧
    -- the line holds a byte of this team's
    (s.caches.wc = [l] ∧ l.core = s.t.core ∧ ∃ b ∈ l.bytes, b.slot = s.t.slot) := by
  decide +kernel

theorem witness_Fences :
    let s := part.upd (fun t => { t with linkOut := 1 })
    let f : LWord := { LWord.zero with ord := 2, scope := 6 }
    { LWord.zero with ord := 1 }.ord = 1 ∧ s.t.linkOut ≠ 0 ∧ f.ord ≠ 1 ∧ f.scope = 6 ∧ ¬ ((6 : BitVec 3) = 6 ∧ part.t.linkOut ≠ 0) ∧
    ¬ ((5 : BitVec 3) = 6 ∧ s.t.linkOut ≠ 0) ∧ part.t.wait = .none ∧
    (let u := part.upd (fun t => { t with wait := .icflush 4 0x10000 0x100000000 })
     u.t.wait ≠ .none ∧ u.focus 0 0 = some u ∧ u.t.wait = .icflush 4 0x10000 0x100000000 ∧ u.t.alive = true) := by decide +kernel

/-- States `Calm`, `Plain` and `OnPennant` speak of, by what can be read off them. -/
theorem calm_of {s : State}
    (h : (s.win.memCode ≠ 0 ∧ (ctxOf s s.t.ctx).hotctl = 0 ∧ (ctxOf s s.t.ctx).ranges.head? = some flatRange) ∧
      s.t.oplog = [] ∧ s.t.lastPages = [] ∧ s.caches.wc = [] ∧ s.caches.quanta = [] ∧ s.caches.spoilt = [] ∧ (ctxOf s s.t.ctx).trctl = 0 ∧
      ∀ w ∈ (ctxOf s s.t.ctx).watch, w.ctl = 0) : Calm s := by
  obtain ⟨h1, h3, h4, h5, h6, h7, h8, h9⟩ := h
  refine ⟨h1, h3, h4, h5, h6, h7, h8, fun i => ?_⟩
  by_cases hi : i < (ctxOf s s.t.ctx).watch.length
  · rw [List.getD_eq_getElem _ _ hi]
    exact h9 _ (List.getElem_mem hi)
  · rw [List.getD_eq_default _ _ (by omega)]
    rfl

theorem plain_of {s : State}
    (h : ((s.win.memCode ≠ 0 ∧ (ctxOf s s.t.ctx).hotctl = 0 ∧ (ctxOf s s.t.ctx).ranges.head? = some flatRange) ∧
      s.t.oplog = [] ∧ s.t.lastPages = [] ∧ s.caches.wc = [] ∧ s.caches.quanta = [] ∧ s.caches.spoilt = [] ∧ (ctxOf s s.t.ctx).trctl = 0 ∧
      ∀ w ∈ (ctxOf s s.t.ctx).watch, w.ctl = 0) ∧ s.t.pennant = 0) : Plain s := ⟨calm_of h.1, h.2⟩

theorem pennant_of {s : State}
    (h : ((s.win.memCode ≠ 0 ∧ (ctxOf s s.t.ctx).hotctl = 0 ∧ (ctxOf s s.t.ctx).ranges.head? = some flatRange) ∧
      s.t.oplog = [] ∧ s.t.lastPages = [] ∧ s.caches.wc = [] ∧ s.caches.quanta = [] ∧ s.caches.spoilt = [] ∧ (ctxOf s s.t.ctx).trctl = 0 ∧
      ∀ w ∈ (ctxOf s s.t.ctx).watch, w.ctl = 0) ∧ s.t.pennant ≠ 0 ∧ pennantGone s s.t.ctx s.t.pennant = false ∧ (wayLines s).length < 12 ∧
      ∀ v ∈ s.caches.vers, v.data.length = 128) : OnPennant s := ⟨calm_of h.1, h.2⟩

/-- Bytes placed in memory. -/
def State.put (s : State) (ws : List (Nat × List Byte)) : State := { s with mem := ws.foldl (fun m w => memSet m w.1 w.2) s.mem }

/-- A pennant's version of line 0x600, under which the team runs. -/
def versioned : State :=
  { (withX [(1, 0x30078)]).upd (fun t => { t with pennant := 1 }) with
    caches := { part.caches with vers := [{ ctx := 0, pennant := 1, line := 0x600, data := List.replicate 128 7, prio := 3 }] } }

theorem witness_ScalarMemory :
    (let s := withX [(1, 0xffffffff0)]
     let va := s.t.xr 1 + BitVec.ofNat 64 (1 * 8)
     Flat s s.t.ctx ∧ s.t.pennant = 0 ∧ va.toNat + 8 ≤ 0x1000000000 ∧ Unbuffered s va.toNat 8 ∧ s.caches.wc = [] ∧ s.caches.quanta = [] ∧
     s.t.linkWait 0 = false ∧ s.t.scalarEa 1 1 3 = va) ∧
    (canonical ((withX [(1, 0x100000000000000)]).t.xr 1) = false) ∧ 0 < part.ctxs.length ∧
    (let va := versioned.t.scalarEa 1 0 3
     Flat versioned versioned.t.ctx ∧ versioned.t.pennant ≠ 0 ∧ va.toNat + 8 ≤ 0x1000000000 ∧ va.toNat % 8 = 0 ∧ Unbuffered versioned va.toNat 8 ∧
     verOf versioned 0 1 (va.toNat / 128) = some { ctx := 0, pennant := 1, line := 0x600, data := List.replicate 128 7, prio := 3 } ∧
     (List.replicate 128 (7 : Byte)).length = 128 ∧ versioned.caches.logs = []) ∧
    (part.upd (fun t => { t with linkOut := 1 })).t.linkWait 6 = true := by
  unfold Flat Unbuffered
  decide +kernel

/-- A team whose x1 names the first address no range entry maps; its operand log holds `n` entries. -/
def unmapped (n : Nat) : State :=
  let e : OpEntry :=
    { id := 1, record := false, instr := none, tag := 0, access := 0, scalar := true, pc := 0, path := 0, group := 0, lanes := [], va := 0 }
  (withX [(1, 0x1000000000)]).upd (fun t => { t with oplog := List.replicate n e })

/-- The walk from the zeros at address 0 finds no entry. -/
def absent : TFault := { cause := 0x20, addr := 0x1000000000, va := 0x1000000000, walk := false, level := 0 }

theorem witness_ScalarMemory_park :
    (∀ n ∈ [63, 64], ∀ k ∈ [AKind.load, .store],
      Machine.translate (unmapped n).t.tag k none 0x1000000000 (unmapped n) = .ok (.error absent, unmapped n)) ∧
    absent.replayable = true ∧ (unmapped 63).t.xr 1 + BitVec.ofNat 64 (0 * 8) = 0x1000000000 ∧ 0x1000000000 % 4096 + 8 ≤ 4096 ∧
    logUsed (unmapped 63) 0 = 63 ∧ logUsed (unmapped 64) 0 = 64 ∧ (unmapped 63).t.ctx < (unmapped 63).ctxs.length := by
  decide +kernel

/-- The same to the scratchpad, through v3 alone. -/
def spad32 : LWord := { acc32 with src2 := 0, scope := 1, fn := 2 }

/-- The same to the private array, through v3 alone. -/
def priv32 : LWord := { acc32 with src2 := 0, fn := 1 }

/-- Two lanes with a claim of 4 KB and private windows below the high-water mark. -/
def spaces : State :=
  ({ (withLanes 3 [(3, 4092), (131, 8)]).upd (fun t => { t with claim := 4096, priv := 2048 }) with
    ctxs := updNth part.ctxs 0 (fun x => { x with hwm := 2048, pbase := 0x60000, wstride := 1 }) })

theorem plain_spaces : Plain spaces := plain_of (by decide +kernel)

theorem witness_LaneLoad :
    Plain spaces ∧ acc32.dst.toNat + typeRegs acc32.ty.toNat ≤ 128 ∧ LanesIn spaces acc32 4 ∧ spaces.t.spadBad spad32 4 = none ∧
    (∀ lane ∈ spaces.t.parts priv32, spaces.t.overPriv (ctxOf spaces spaces.t.ctx) lane (spaces.t.ea priv32 lane).toNat 4 = none ∧
      ∀ p ∈ spaces.t.privVas (ctxOf spaces spaces.t.ctx) lane (spaces.t.ea priv32 lane).toNat 4, p.1.toNat + 4 ≤ 0x1000000000) ∧
    (spaces.upd (fun t => { t with claim := 4095 })).t.spadBad spad32 4 = some 0 ∧ spaces.t.ctx < spaces.ctxs.length := by
  refine ⟨plain_spaces, ?_⟩
  unfold LanesIn
  decide +kernel

/-- A lane of core 0 that accesses the first address no range entry maps; another team of the core has `n` entries in the operand log. -/
def unmappedLane (n : Nat) : State :=
  { withLanes 1 [(3, 4)] with
    t := { (withLanes 1 [(3, 4)]).t with running := some { no := 1, entry := 0x10000, snap := [(7, 0xffffffffc)] } }
    others := [{ (unmapped n).t with slot := 1 }] }

theorem witness_LaneLoad_park :
    Plain (unmappedLane 63) ∧ Plain (unmappedLane 64) ∧ acc32.fn = 0 ∧ (unmappedLane 63).t.parts acc32 = [0] ∧
    (∀ n ∈ [63, 64], Machine.translate (unmappedLane n).t.tag .load (some 0) 0x1000000000 (unmappedLane n) = .ok (.error absent, unmappedLane n)) ∧
    (unmappedLane 63).t.ea acc32 0 = 0x1000000000 ∧ absent.replayable = true ∧ logUsed (unmappedLane 63) 0 = 63 ∧
    logUsed (unmappedLane 64) 0 = 64 := by
  refine ⟨plain_of (by decide +kernel), plain_of (by decide +kernel), rfl, by decide +kernel, ?_⟩
  decide +kernel

theorem witness_LaneStore :
    Plain spaces ∧ acc32.ord = 0 ∧ LanesIn spaces acc32 4 ∧ (withLanes 1 []).t.parts acc32 = [0] ∧ spaces.t.spadBad spad32 4 = none ∧
    (∀ lane ∈ spaces.t.parts priv32, spaces.t.overPriv (ctxOf spaces spaces.t.ctx) lane (spaces.t.ea priv32 lane).toNat 4 = none ∧
      ∀ p ∈ spaces.t.privVas (ctxOf spaces spaces.t.ctx) lane (spaces.t.ea priv32 lane).toNat 4, p.1.toNat + 4 ≤ 0x1000000000) := by
  refine ⟨plain_spaces, ?_⟩
  unfold LanesIn
  decide +kernel

/-- The state left by the release of a store at core scope: the buffered line has drained. -/
def released : State := { spaces with caches := buffered.caches }.ordRelease { acc32 with ord := 2, scope := 2 }

/-- A lane of pennant `p`, which is Live and has versions `vs`. -/
def pennoned (p : Nat) (vs : List Ver) : State :=
  { (withLanes 1 [(3, 124), (4, 5)]).upd (fun t => { t with pennant := p }) with
    ctxs := updNth part.ctxs 0 (fun x => { x with pens := x.pens.map (fun n => { n with st := .live }) })
    caches := { part.caches with vers := vs } }

/-- A version of the line that lane accesses. -/
def ver0 : Ver := { ctx := 0, pennant := 7, line := 0x800, data := List.replicate 128 7, prio := 3 }

theorem witness_LaneStore_release :
    Plain released ∧ spaces.t.ordWait { acc32 with ord := 2, scope := 2 } = false ∧
    (spaces.upd (fun t => { t with linkOut := 1 })).t.ordWait { acc32 with ord := 2, scope := 6 } = true ∧ acc32.fn ≠ 2 ∧
    (ctxOf spaces 0).hwm ≤ 0x10000 := by
  refine ⟨plain_of (by decide +kernel), ?_⟩
  decide +kernel

theorem witness_LaneStore_pennant :
    (OnPennant (pennoned 7 []) ∧ OnPennant (pennoned 7 [ver0])) ∧ (pennoned 7 [ver0]).caches.logs = [] ∧ acc32.ord = 0 ∧ acc32.fn = 0 ∧
    (pennoned 7 []).t.parts acc32 = [0] ∧ LanesIn (pennoned 7 []) acc32 4 ∧ ((pennoned 7 []).t.ea acc32 0).toNat % 4 = 0 ∧
    ((pennoned 7 []).t.ea acc32 0).toNat / 128 = ver0.line := by
  refine ⟨⟨pennant_of (by decide +kernel), pennant_of (by decide +kernel)⟩, ?_⟩
  unfold LanesIn
  decide +kernel

theorem witness_Atomics :
    (let s := withLanes 3 [(131, 4)]
     let u : LWord := { acc32 with use := 4, dst := 0 }
     Plain s ∧ s.t.ordWait acc32 = false ∧ s.ordRelease acc32 = s ∧ s.t.parts acc32 = [0, 1] ∧ (∀ lane ∈ s.t.parts acc32, (s.t.ea acc32 lane).toNat % 4 = 0 ∧
      (s.t.ea acc32 lane).toNat + 4 ≤ 0x1000000000) ∧ acc32.dst.toNat + acc32.n ≤ 128 ∧ acc32.n ≤ 2 ∧ acc32.use ≠ 4 ∧
     (s.t.ea acc32 0).toNat ≠ (s.t.ea acc32 1).toNat ∧ acc32.fn = 0 ∧ (u.use = 4 ∧ 8 + { u with fn := 2 }.fn.toNat ≠ 8 ∧ u.fn.toNat ≠ 8)) ∧
    (let s := withLanes 3 []
     (∀ lane ∈ s.t.parts acc32, (s.t.ea acc32 lane).toNat = 0x40000) ∧ s.t.parts acc32 ≠ []) ∧ (withLanes 1 []).t.parts acc32 = [0] ∧
    (let s := withLanes 3 [(131, 2)]
     s.t.unaligned acc32 4 = some 1 ∧ s.t.ctx < s.ctxs.length) ∧
    (let s := (withLanes 1 []).upd (fun t => { t with linkOut := 1 })
     let w : LWord := { acc32 with ord := 3, scope := 6 }
     s.t.pennant = 0 ∧ s.t.unaligned w 4 = none ∧ s.t.ordWait w = true) := by
  refine ⟨⟨plain_of (by decide +kernel), ?_⟩, ?_⟩ <;> decide +kernel

theorem witness_Atomics_pennant :
    let s := pennoned 7 [ver0]
    let w : LWord := { acc32 with use := 5 }
    OnPennant s ∧ w.ord = 0 ∧ w.use = 5 ∧ s.t.parts w = [0] ∧ (s.t.ea w 0).toNat % 4 = 0 ∧ (s.t.ea w 0).toNat + 4 ≤ 0x1000000000 ∧
    w.dst.toNat + w.n ≤ 128 ∧ w.n ≤ 2 ∧ (s.t.pennant ≠ 0 ∧ acc32.use ≠ 5 ∧ s.t.parts acc32 = [0] ∧ s.t.unaligned acc32 4 = none ∧
      s.t.ctx < s.ctxs.length) := by
  refine ⟨pennant_of (by decide +kernel), ?_⟩
  decide +kernel

theorem witness_SamplerLoad :
    (let s := withLanes 1 [(3, 124)]
     let l : SampLine := { core := 0, ctx := 0, pennant := 0, line := 0x800, data := List.replicate 128 7 }
     let u := { s with caches := { s.caches with samp := [l] } }
     (Plain s ∧ acc32.dst.toNat + typeRegs acc32.ty.toNat ≤ 128 ∧ LanesIn s acc32 4 ∧ s.caches.samp = []) ∧ (Plain u ∧ LanesIn u acc32 4 ∧
      u.t.parts acc32 = [0] ∧ u.caches.samp = [l] ∧ l.core = u.t.core ∧ l.ctx = u.t.ctx ∧ l.pennant = 0 ∧
      128 * l.line ≤ (u.t.ea acc32 0).toNat ∧ (u.t.ea acc32 0).toNat + 4 ≤ 128 * l.line + 128)) := by
  refine ⟨⟨plain_of (by decide +kernel), ?_⟩, plain_of (by decide +kernel), ?_⟩
  · unfold LanesIn
    decide +kernel
  · unfold LanesIn
    decide +kernel

/-- An image of one .F32 texel, all ones, at 0x50000; its descriptor at x7; v2 and v3 the coordinates. -/
def imaged (u v : Word) : State :=
  State.put (withLanes 1 [(2, u), (3, v)])
    [(0x40000, leBytes 8 0x50000 ++ leBytes 2 1 ++ leBytes 2 1 ++ leBytes 4 16 ++ [0, 0] ++ List.replicate 14 0)]

/-- SAMPLE v4, v2, [x7]. -/
def sampleW : LWord := { LWord.zero with dst := 4, src1 := 2, src2 := 7, ty := 15, i := true, x2 := true, aw := true }

theorem witness_ImageSample :
    (let s := imaged 0x3f000000 0
     let at_ := s.t.snapX 7
     (Plain s ∧ s.caches.samp = [] ∧ s.t.parts sampleW = [0] ∧ at_.toNat % 32 = 0 ∧ at_.toNat + 32 ≤ 0x1000000000 ∧
      (∃ m, imageOf (memBytes s.mem at_.toNat 32) = some m ∧ m.base + m.h * m.pitch ≤ 0x1000000000) ∧ sampleW.dst.toNat + 4 ≤ 128) ∧
     (fin32 (BitVec.ofNat 32 (s.t.a sampleW 0 2)) = true ∧ fin32 (BitVec.ofNat 32 (s.t.a sampleW 0 2 / 2 ^ 32)) = true ∧ sampleW.fn = 0) ∧
     (fin32 (fsub32 (fmul32 (BitVec.ofNat 32 (s.t.a sampleW 0 2)) (ofInt32 1)) 0x3f000000) = true)) ∧
    fin32 (BitVec.ofNat 32 ((imaged 0x7f800000 0).t.a sampleW 0 2)) = false ∧ ({ sampleW with fn := 1 }.fn.toNat ≤ 1) ∧
    (let s := withLanes 1 []
     Plain s ∧ s.caches.samp = [] ∧ s.t.parts sampleW ≠ [] ∧ (s.t.snapX 7).toNat % 32 = 0 ∧ (s.t.snapX 7).toNat + 32 ≤ 0x1000000000 ∧
     imageOf (memBytes s.mem (s.t.snapX 7).toNat 32) = none) ∧
    ((withLanes 1 []).t.snapX 7 + ({ sampleW with hi := 16 }.hi.signExtend 64)).toNat % 32 ≠ 0 := by
  refine ⟨⟨⟨plain_of (by decide +kernel), ?_, ?_, ?_, ?_, ⟨_, rfl, ?_⟩, ?_⟩, ?_, ?_⟩, ?_, ?_, ⟨plain_of (by decide +kernel), ?_⟩, ?_⟩ <;>
    decide +kernel

/-- TRACE v8, v4, v0, x7. -/
def traceW : LWord := { LWord.zero with dst := 8, src1 := 4, src2 := 0, ty := 15, hi := 7 }

theorem witness_RayTrace :
    (let s := State.put (withLanes 1 []) [(0x4001c, [1])]
     Plain s ∧ s.t.parts traceW = [0] ∧ (s.t.snapX 7).toNat % 32 = 0 ∧ (s.t.snapX 7).toNat + 32 ≤ 0x1000000000 ∧ traceW.dst.toNat + 4 ≤ 128 ∧
     accelOf (memBytes s.mem (s.t.snapX 7).toNat 32) = none) ∧
    (let s := State.put (withLanes 1 []) [(0x40013, [0x80])]
     Plain s ∧ accelOf (memBytes s.mem (s.t.snapX 7).toNat 32) = some ({ nb := 0, tb := 0 }, 0x80000000) ∧
     (0x80000000 : Word).getLsbD 31 = true ∧ 0 + 48 * ((0x80000000 : Word).toNat % 2 ^ 31) + 48 ≤ 0x1000000000) ∧
    ((withLanes 1 []).upd (fun t => { t with running := t.running.map (fun b => { b with snap := [(7, 0x40010)] }) })).t.snapX 7 = 0x40010 := by
  refine ⟨⟨plain_of (by decide +kernel), ?_⟩, ⟨plain_of (by decide +kernel), ?_⟩, ?_⟩ <;> decide +kernel

/-- A node over two triangles, one of them the last a reference can name in memory. -/
def tree : Bvh := .node 1 (.tri 0x80000000) (.tri 0x80000001)
def treed : State := State.put (withLanes 1 []) [(0x40000, leBytes 8 0x50000 ++ leBytes 8 0x60000 ++ leBytes 4 1), (0x50070, leBytes 4 0x80000000 ++ leBytes 4 0x80000001)]

theorem witness_RayTrace_tree :
    Plain treed ∧ accelOf (memBytes treed.mem (treed.t.snapX 7).toNat 32) = some ({ nb := 0x50000, tb := 0x60000 }, tree.ref) ∧
    tree.At treed.mem { nb := 0x50000, tb := 0x60000 } ∧ tree.nodes ≤ 2 ^ 20 ∧
    (Bvh.tri 0xd5555553).At [] { nb := 0, tb := 0 } ∧ traceW.dst.toNat + 4 ≤ 128 := by
  refine ⟨plain_of (by decide +kernel), by decide +kernel, ?_, by decide +kernel, ?_, by decide +kernel⟩
  · unfold tree Bvh.At Bvh.At
    decide +kernel
  · unfold Bvh.At
    decide +kernel

/-- LAUNCH v4, p2, [x7 + v3]: the record at 0x40000 is a launch. -/
def launchW : LWord := { LWord.zero with dst := 4, src1 := 3, src2 := 7, x2 := true, hi := 2 }

/-- A part whose context may hold `quota` records in the store, with an overflow list of `2 ^ 4` records, `owed` places of the store owed to it. -/
def launching (quota tail owed : Nat) (ls : Mask) : State :=
  { State.put (withLanes ls []) [(0x40000, [4])] with
    ctxs := updNth part.ctxs 0 (fun x => { x with quota := quota, ovk := 4, ovbase := 0x70000, ovTail := tail, ovOwed := owed }) }

theorem witness_LaneLaunch :
    (let s := withLanes 1 [(3, 1)]
     s.t.parts launchW = [0] ∧ (ctxOf s s.t.ctx).trctl = 0 ∧ s.t.oplog = [] ∧ s.caches.quanta = [] ∧ (∀ w ∈ (ctxOf s s.t.ctx).watch, w.ctl = 0) ∧
     (ctxOf s s.t.ctx).hotctl = 0 ∧ (s.t.ea launchW 0).toNat % 64 ≠ 0) ∧
    (let s := withLanes 1 []
     Plain s ∧ (s.t.ea launchW 0).toNat % 64 = 0 ∧ (s.t.ea launchW 0).toNat + 64 ≤ 0x1000000000 ∧
     (packetOf (memBytes s.mem (s.t.ea launchW 0).toNat 64)).kind ≠ 4) ∧
    (let s := launching 2 0 0 3
     Plain s ∧ s.t.parts launchW = [0, 1] ∧ (∀ lane ∈ s.t.parts launchW, (packetOf (memBytes s.mem (s.t.ea launchW lane).toNat 64)).kind = 4) ∧
     (ctxOf s 0).ovOwed = 0 ∧ storeCount s 0 + (s.t.parts launchW).length ≤ (ctxOf s 0).quota ∧ s.store.length + (s.t.parts launchW).length ≤ 256) ∧
    (let s := launching 2 1 1 1
     let x := ctxOf s 0
     Plain s ∧ s.t.parts launchW = [0] ∧ (packetOf (memBytes s.mem (s.t.ea launchW 0).toNat 64)).kind = 4 ∧ x.ovHead + x.ovOwed ≤ x.ovTail ∧
     storeCount s 0 + x.ovOwed < x.quota ∧ s.store.length + x.ovOwed < 256 ∧ ∀ i < x.ovOwed, InMemory s (overflowAt x (x.ovHead + i)) 64) ∧
    (let s := launching 0 15 0 1
     Plain s ∧ storeRoom s 0 = false ∧ overflowRoom s 0 = true ∧ InMemory s (overflowAt (ctxOf s 0) 15) 64 ∧ 0 < s.ctxs.length) ∧
    (let s := launching 0 16 0 1
     Plain s ∧ storeRoom s 0 = false ∧ overflowRoom s 0 = false) := by
  unfold InMemory
  refine ⟨?_, ⟨plain_of (by decide +kernel), ?_⟩, ⟨plain_of (by decide +kernel), ?_⟩, ⟨plain_of (by decide +kernel), ?_⟩,
    ⟨plain_of (by decide +kernel), ?_⟩, ⟨plain_of (by decide +kernel), ?_⟩⟩ <;> decide +kernel

theorem witness_LaneLaunch_pennant :
    let s (n : Nat) (bs : List Byte) : State := { State.put ((withLanes 1 []).upd (fun t => { t with pennant := 7 })) [(0x40000, bs)] with
      ctxs := updNth part.ctxs 0 (fun x => { x with pens := updNth x.pens 6 (fun q => { q with pushes := List.replicate n (packet 4), appending := [packet 4] }) }) }
    let kind (t : State) : Nat := (packetOf (pennantView t (t.t.ea launchW 0).toNat 64)).kind
    let held (t : State) : Nat := (((ctxOf t 0).pen 7).pushes ++ ((ctxOf t 0).pen 7).appending).length
    (Calm (s 14 []) ∧ Calm (s 14 [4]) ∧ Calm (s 15 [4])) ∧ ((s 14 []).t.pennant = 7 ∧ (ctxOf (s 14 []) 0).pens.length = 7 ∧ 0 < (s 14 []).ctxs.length ∧
      (s 14 []).t.parts launchW = [0] ∧ ((s 14 []).t.ea launchW 0).toNat = 0x40000) ∧
    (kind (s 14 []) ≠ 4 ∧ kind (s 14 [4]) = 4 ∧ held (s 14 [4]) < 16 ∧ 16 ≤ held (s 15 [4])) := by
  refine ⟨⟨calm_of (by decide +kernel), calm_of (by decide +kernel), calm_of (by decide +kernel)⟩, ?_⟩
  decide +kernel

/-- A descriptor of one 8 × 32 × 32 op: s8 A under .F16 B (and C, for a TRI), or w1 weights; `split` its split field. -/
def descWord (kind split : Nat) : Nat :=
  (if kind = 2 then 8 * 2 ^ 60 else 8 * 2 ^ 56 + 13 * 2 ^ 51) + (if kind = 1 then 13 * 2 ^ 46 + 2 ^ 44 else 0) + split * 2 ^ 42 +
    2 ^ 23 + 2 ^ 19 + 2 ^ 10

/-- A team with a tile of 8 × 32 and that descriptor at offset 0 of its claim; x5, x6 and x7 are the operands. -/
def cubed (kind split : Nat) : State :=
  (withX [(5, 0x200), (6, 0x400)]).upd (fun t =>
    { t with claim := 8192, shapes := [(0, (8, 32))], spad := memSet [] 0 (leBytes 8 (descWord kind split)), guards := [(1, .resolved false)] })

/-- The op that descriptor describes. -/
def cubeOp (kind split : Nat) (lane : Bool) : CubeOp :=
  { kind := kind, aOff := 0x200, bOff := 0x400, descOff := 0, desc := [BitVec.ofNat 64 (descWord kind split), 0, 0, 0]
    rows := BitVec.allOnes 128, rowOff := 0, lane := lane }

/-- An entry of a queue. -/
def entry (body : EngBody) (stage : EngStage) : EngCmd :=
  { body := body, batch := none, guard := none, stage := stage, progress := 0, panels := [], order := 0, undo := [], pc := 0, tag := 0 }

theorem witness_EngineCommands :
    (∀ k < 3, (cubed k 0).t.cubeOk k 0x200 0x400 0 0 false (descOf ((cubed k 0).t.readDesc 0 false)) = true) ∧
    (cubed 0 0).t.cubeOk 1 0x200 0x400 0 0 false (descOf ((cubed 0 0).t.readDesc 0 false)) = false ∧ part.t.ctx < part.ctxs.length ∧
    (cubed 0 0).t.guard 1 = .resolved false ∧ (List.replicate 31 (queued none none)).length < 32 ∧
    32 ≤ (List.replicate 32 (queued none none)).length ∧
    (cubed 0 0).t.moveOk 0 (BitVec.ofNat 64 (7 * 2 ^ 25 + 31 * 2 ^ 16)) 128 = true ∧
    (cubed 0 0).t.moveOk 0 (BitVec.ofNat 64 (8 * 2 ^ 25 + 31 * 2 ^ 16)) 128 = false ∧
    copyOk 8192 0x1f00 0x30000 0x8000010000000000 = true ∧ copyOk 8192 0x1f10 0x30000 0x8000010000000000 = false ∧
    (3 : DWord) ≠ 0 ∧ (3 : DWord).toNat ≤ 3 ∧ 3 < (4 : DWord).toNat ∧ (3 : DWord).getLsbD 0 = true ∧ (2 : DWord).getLsbD 1 = true ∧
    64 ≤ (List.replicate 64 (queued none none)).length := by decide +kernel

/-- A quarter of lanes with that claim; v1 its row offset, v2 and v3 its A and B offsets. -/
def quarter : State :=
  (withLanes 0xff [(2, 0x200), (3, 0x400)]).upd (fun t =>
    { t with claim := 8192, shapes := [(0, (8, 32))], spad := memSet [] 0 (leBytes 8 (descWord 0 0)) })

/-- MMA v1, v2, v3, #0. -/
def mmaW : LWord := { LWord.zero with dst := 1, src1 := 2, src2 := 3, i := true }

theorem witness_LaneEngineCommands :
    (∀ p ∈ quarter.t.paths, p.idx = quarter.t.curPath → p.hold = .none) ∧
    ((quarter.t.quarterOps 0 mmaW).all (fun o => quarter.t.cubeOk 0 o.aOff o.bOff o.descOff o.rowOff true (descOf o.desc)) = true) ∧
    quarter.t.tileQ.length + (quarter.t.quarterOps 0 mmaW).length ≤ 32 ∧
    (let u := quarter.upd (fun t => { t with tileQ := List.replicate 32 (queued none none) })
     (u.t.quarterOps 0 mmaW).all (fun o => u.t.cubeOk 0 o.aOff o.bOff o.descOff o.rowOff true (descOf o.desc)) = true ∧
     32 < u.t.tileQ.length + (u.t.quarterOps 0 mmaW).length) ∧
    ((quarter.t.quarterOps 1 mmaW).all (fun o => quarter.t.cubeOk 1 o.aOff o.bOff o.descOff o.rowOff true (descOf o.desc)) = false) ∧
    (quarter.t.quarterOp 0 mmaW 0).isSome = true ∧
    (let s := (withLanes 1 [(4, 4092)]).upd (fun t => { t with claim := 4096 })
     Plain s ∧ s.t.cpyBad acc32 = none ∧ logUsed s s.t.core ≤ 64 ∧
      s.t.copyQ.length + (logGroups [{ lane := 0, addr := s.t.ea acc32 0, data := 4092 }]).length ≤ 64) ∧
    ((withLanes 1 [(4, 4092)]).upd (fun t => { t with claim := 4095 })).t.cpyBad acc32 = some 0 ∧ part.t.ctx < part.ctxs.length := by
  refine ⟨by decide +kernel, by decide +kernel, by decide +kernel, by decide +kernel, by decide +kernel, by decide +kernel,
    ⟨plain_of (by decide +kernel), by decide +kernel⟩, by decide +kernel⟩

theorem witness_ArraySteps :
    (let s (b : EngBody) (g : EngStage) := (cubed 0 0).upd (fun t => { t with tileQ := [entry b g] })
     (∀ t ∈ (s (.cube (cubeOp 0 0 false)) .queued).teams, t.core = 0 → t.headStarted = false) ∧
     nextServed (s (.cube (cubeOp 0 0 false)) .queued) 0 = some 0 ∧
     (s (.cube (cubeOp 0 0 false)) .queued).focus 0 0 = some (s (.cube (cubeOp 0 0 false)) .queued) ∧
     (let u := s (.cube (cubeOp 0 0 false)) .started
      u.focus 0 0 = some u ∧ u.t.core = 0 ∧ u.t.slot = 0 ∧ (∀ t ∈ u.teams, t.core = 0 → t.headStarted = true → t.slot = 0) ∧
      u.t.tileQ = entry (.cube (cubeOp 0 0 false)) .started :: [] ∧ u.t.splitHead = none) ∧
     (let u := s (.cube (cubeOp 0 0 false)) .done
      u.focus 0 0 = some u ∧ u.t.alive = true ∧ u.t.tileQ = entry (.cube (cubeOp 0 0 false)) .done :: [])) ∧
    (let u (c : EngCmd) := part.upd (fun t => { t with tileQ := [entry (.join 5 3) .queued], copyQ := [c] })
     (u (entry (.join 5 3) .queued)).focus 0 0 = some (u (entry (.join 5 3) .queued)) ∧ (u (entry (.join 5 3) .queued)).t.alive = true ∧
     atJoin 5 (u (queued none none)).t.copyQ = false) := by decide +kernel

/-- An op of two row groups, two column panels and two k-panels. -/
def op222 (kind : Nat) : CubeOp := { cubeOp kind 0 false with desc := [BitVec.ofNat 64 (descWord kind 0 + 2 ^ 23 + 2 ^ 19 + 2 ^ 10), 0, 0, 0] }

theorem witness_ArraySteps_ops :
    (∀ k < 3, part.t.splitKind (descOf (op222 k).desc) = 0 ∧ part.t.fits (op222 k) (descOf (op222 k).desc) ∧ (op222 k).kind = k ∧
      part.t.share (descOf (op222 k).desc) = { mc := 16, nc := 64, kc := 64 }) ∧ (descOf (op222 1).desc).place ≠ 0 ∧
    (let g := regionOf2 (BitVec.ofNat 64 (504 * 2 ^ 43 + 480 * 2 ^ 34 + 7 * 2 ^ 25 + 31 * 2 ^ 16))
     g.rows = 8 ∧ g.cols = 32 ∧ g.row + g.rows ≤ 512 ∧ g.col + g.cols ≤ 512 ∧ 4 * g.cols ≤ 128) := by
  unfold Team.fits
  decide +kernel

/-- A team whose copy queue holds a copy of shape `d`, `k` chunks of which are done. -/
def copying (dst src d : DWord) (k : Nat) : State :=
  part.upd (fun t => { t with
    claim := 8192, copyQ := [{ entry (.copy dst src d) (if k = 0 then .queued else .started) with progress := k }] })

/-- A copy of two rows of 4,096 bytes, 8,192 apart, that has its second chunk next meets the premises. -/
def copyGoes (shape : DWord) : Prop :=
  let h := shapeOf shape
  let u := copying 0x1000 0x30000 shape 1
  u.focus 0 0 = some u ∧ u.t.alive = true ∧ (Flat u 0 ∧ u.t.pennant = 0 ∧ u.caches.wc = []) ∧ h.rows = 2 ∧ 4096 * 1 < h.total ∧
    0x1000 + h.dstr * (h.rows - 1) + h.rb ≤ 0x1000000000 ∧ 0x30000 + h.sstr * (h.rows - 1) + h.rb ≤ 0x1000000000 ∧ (h.rb ≤ h.dstr ∨ h.rows = 1)

theorem witness_TileCopies : copyGoes 0x1100008000200 := by unfold copyGoes Flat; decide +kernel
theorem witness_TileCopies_claim : copyGoes 0xc001100008000200 := by unfold copyGoes Flat; decide +kernel
theorem witness_TileCopies_out : copyGoes 0x4001100008000200 := by unfold copyGoes Flat; decide +kernel
theorem witness_TileCopies_in : copyGoes 0x8001100008000200 := by unfold copyGoes Flat; decide +kernel

/-- No source byte of a row of 256 is its own destination. -/
theorem witness_TileCopies_apart :
    let h := shapeOf 0xc000001000000000
    h.dk = h.sk ∧ h.rows = 1 ∧ 0 < h.total ∧ ∀ j < h.total, 0x1000 + h.sstr * (j / h.rb) + j % h.rb ≠ 0x1010 + h.dstr * (j / h.rb) + j % h.rb := by
  decide +kernel

/-- A team whose copy queue holds a pass of two lanes, into its claim (fn 0) or out of it. -/
theorem witness_TileCopies_lanes :
    let ls : List LogLane := [{ lane := 0, addr := 0x60000, data := 16 }, { lane := 1, addr := 0x60100, data := 32 }]
    let c (f : BitVec 3) : EngCmd := entry (.laneCopy { LWord.zero with ty := 2, fn := f } 0 0 ls) .queued
    let u (f : BitVec 3) : State := part.upd (fun t => { t with claim := 4096, copyQ := [c f] })
    (∀ f ∈ [0, 1], (u f).focus 0 0 = some (u f) ∧ (u f).t.alive = true ∧ (u f).t.copyQ = c f :: [] ∧ Flat (u f) 0 ∧ (u f).t.pennant = 0 ∧
      (u f).caches.wc = [] ∧ (u f).t.oplog.any (c f).passOf = false) ∧
    (∀ l ∈ ls, l.addr.toNat + 4 ≤ 0x1000000000) ∧
    ∀ l ∈ ls, ∀ m ∈ ls, l ≠ m → (l.data + 4 ≤ m.data ∨ m.data + 4 ≤ l.data) ∧ (l.addr.toNat + 4 ≤ m.addr.toNat ∨ m.addr.toNat + 4 ≤ l.addr.toNat) := by
  unfold Flat
  decide +kernel

/-- Two teams of a cluster of one row and two columns whose heads are ops split by rows and columns. -/
def clustered (d : Nat) (st : EngStage) : State :=
  let t (i : Nat) (w : Nat) : Team := { (cubed 0 1).t with
    core := i, clcols := 2, clidx := i, tileQ := [{ (entry (.cube { cubeOp 0 1 false with desc := [BitVec.ofNat 64 w, 0, 0, 0] }) st) with order := if st = .queued then 0 else 1 }] }
  { cubed 0 1 with t := t 0 (descWord 0 1), others := [t 1 d] }

theorem witness_SplitOps :
    (let u := clustered (descWord 0 1) .queued
     u.focus 0 0 = some u ∧ (clusterTeams u u.t).length = u.t.clusterSize ∧ (∀ v ∈ clusterTeams u u.t, v.atRendezvous = true) ∧
     (clusterTeams u u.t).all (fun v => (clusterTeams u u.t).all (fun w =>
      decide (v.splitHead.map (fun h => sharedBits h.2.1) = w.splitHead.map (fun h => sharedBits h.2.1)))) = true) ∧
    (let u := clustered (descWord 0 1 + 2 ^ 19) .queued
     (clusterTeams u u.t).length = u.t.clusterSize ∧ (∀ v ∈ clusterTeams u u.t, v.atRendezvous = true) ∧
     (u.teams.map (fun v => (v.core, v.slot))).Nodup ∧ ∃ v ∈ clusterTeams u u.t, ∃ w ∈ clusterTeams u u.t,
      v.splitHead.map (fun h => sharedBits h.2.1) ≠ w.splitHead.map (fun h => sharedBits h.2.1)) ∧
    (let u := clustered (descWord 0 1) .ready
     let v := u.seePort
     ¬ (∀ v ∈ clusterTeams u u.t, v.atRendezvous = true) ∧ v.t.nextPanel.isSome = true ∧
     (clusterTeams v v.t).all (fun w => panelRoom v w) = true) ∧
    (let u := clustered (descWord 0 1) .ready
     let v := ({ u with others := u.others.map (fun t => { t with tileQ := [] }) } : State).seePort
     v.t.nextPanel.isSome = true ∧ (clusterTeams v v.t).any (fun w => w.clusterCol == 1 && !panelRoom v w) = true) := by decide +kernel

/-- Two such teams, core `c`'s in focus, whose heads' columns and k are large enough to share by halves; `n` panels have come to each, of which
each holds `held`. -/
def meshed (split c n held : Nat) : State :=
  let op : CubeOp := { cubeOp 0 split false with desc := [BitVec.ofNat 64 (descWord 0 split + 2 ^ 19 + 7 * 2 ^ 10), 0, 0, 0] }
  let t (i : Nat) : Team := { (cubed 0 split).t with
    core := i, clcols := 2, clidx := i, tileQ := [{ entry (.cube op) .started with order := 1, panels := List.replicate held [], progress := n }] }
  { cubed 0 split with t := t c, others := [t (1 - c)] }

/-- Descriptor of `meshed`. -/
def meshedDesc (split : Nat) : Desc := descOf [BitVec.ofNat 64 (descWord 0 split + 2 ^ 19 + 7 * 2 ^ 10), 0, 0, 0]

/-- A panel goes to column 0 or 1 of the cluster, to teams that hold two or four. -/
theorem witness_SplitOps_sent : ∀ n ∈ [2, 4, 10, 12],
    let u := meshed 1 0 n (n % 8)
    let v := u.seePort
    u.focus 0 0 = some u ∧ v.t.nextPanel.map (fun p => p.2) = some (n / 8) ∧
    (clusterTeams v v.t).all (fun w => decide (w.clusterCol ≠ n / 8) || panelRoom v w) = true ∧ (u.teams.map (fun w => (w.core, w.slot))).Nodup ∧
    (∀ w ∈ clusterTeams v v.t, w.clidx = 0 → w = v.t) ∧ (clusterTeams v v.t).map (fun w => w.clusterCol) = [0, 1] ∧
    (∀ w ∈ clusterTeams v v.t, w.splitHead.map (fun h => (h.1.panels.length, h.2.2)) = some (n % 8, meshedDesc 1) ∧
      w.tileQ.length = 1 ∧ w.fits (cubeOp 0 1 false) (meshedDesc 1) ∧ 0 < sharePanels (w.share (meshedDesc 1))) := by
  unfold Team.fits
  decide +kernel

/-- Core 1's share ends with the last two of its eight panels held, core 0's once it has sent all sixteen. -/
theorem witness_SplitOps_end : ∀ c < 2,
    let u := meshed 1 c (8 + 8 * (1 - c)) 2
    let v := u.seePort
    u.focus c 0 = some u ∧ u.t.core = c ∧ u.t.slot = 0 ∧ (∀ t ∈ u.teams, t.core = c → t.headStarted = true → t.slot = 0) ∧
    v.t.splitHead.map (fun h => (h.1.stage, h.1.panels.length, h.2.2)) = some (.started, 2, meshedDesc 1) ∧ v.t.tileQ.length = 1 ∧
    v.t.splitKind (meshedDesc 1) = 1 ∧ v.t.fits (cubeOp 0 1 false) (meshedDesc 1) ∧ v.t.panelsIn = sharePanels (v.t.share (meshedDesc 1)) ∧
    (v.t.clidx ≠ 0 ∨ v.t.nextPanel = none) ∧ 2 ≤ sharePanels (v.t.share (meshedDesc 1)) := by
  unfold Team.fits
  decide +kernel

theorem witness_SplitOps_K :
    let u := meshed 2 0 0 0
    let v := u.seePort
    let us := clusterTeams v v.t
    let member (i : Nat) : Team := us.getD i v.t
    let op : CubeOp := { cubeOp 0 2 false with desc := [BitVec.ofNat 64 (descWord 0 2 + 2 ^ 19 + 7 * 2 ^ 10), 0, 0, 0] }
    u.focus 0 0 = some u ∧ (∀ t ∈ u.teams, t.core = 0 → t.headStarted = true → t.slot = 0) ∧
    (u.teams.map (fun w => (w.core, w.slot))).Nodup ∧ us.length = v.t.clusterSize ∧ v.t.splitKind (meshedDesc 2) = 2 ∧
    (∀ i < 2, member i ∈ us ∧ (member i).clidx = i ∧ (member i).share (meshedDesc 2) = { mc := 8, nc := 64, kc := 128 } ∧
      (member i).splitHead = some ({ entry (.cube op) .started with order := 1 }, op, meshedDesc 2) ∧ (member i).fits op (meshedDesc 2)) ∧
    (∀ w ∈ us, w.clidx < us.length ∧ w = member w.clidx ∧ w.headStarted = true) ∧ op.kind ≤ 1 ∧ op.rows = BitVec.allOnes 128 ∧ op.rowOff = 0 := by
  unfold Team.fits
  decide +kernel

theorem witness_LaneIntegers :
    let w : LWord := { LWord.zero with dst := 126, ty := 12 }
    w.n ≤ 2 ∧ w.ty ≠ 16 ∧ w.dst.toNat + w.n ≤ 128 ∧ (w.ty = 10 ∨ w.ty = 12) ∧ ¬ ({ w with ty := 3 }.ty = 10 ∨ { w with ty := 3 }.ty = 12) ∧
    ({ w with fn := 2 }.fn.toNat ≤ 2 ∧ 8 * 2 ^ 2 ≤ 32 * w.n) ∧ w.n = 2 ∧ { w with fn := 5 }.fn.toNat ≤ 5 ∧
    ({ w with dst := 124, ty := 4 }.n = 4 ∧ (124 : BitVec 7).toNat + 4 ≤ 128) ∧ ({ w with ty := 16 }.ty = 16 ∧ w.dst.toNat + 2 ≤ 128) := by decide

theorem witness_FloatMinMax :
    ({ LWord.zero with dst := 126, ty := 16 } : LWord).dst.toNat + ({ LWord.zero with dst := 126, ty := 16 } : LWord).n ≤ 128 ∧
    (0x7e00 < 2 ^ f16.width ∧ f16.value 0x7e00 = .nan ∧ f16.value 0x3c00 ≠ .nan ∧
      Machine.Num.lt (f16.value 0x3c00) (f16.value 0x4000) = true ∧ Machine.Num.eq (f16.value 0x8000) (f16.value 0) = true ∧
      (0x8000 : Nat).testBit 15 = true ∧ (0 : Nat).testBit 15 = false) := by decide +kernel

theorem witness_LaneFloats :
    ({ LWord.zero with dst := 126, ty := 16 } : LWord).dst.toNat + ({ LWord.zero with dst := 126, ty := 16 } : LWord).n ≤ 128 ∧
    ({ LWord.zero with dst := 127, ty := 19 } : LWord).dst.toNat + ({ LWord.zero with dst := 127, ty := 19 } : LWord).n ≤ 128 := by decide

/-- Finite operands on both sides of each bound, and at it: the least subnormal, 2^7, −1, 1, 1.5, 1/2 and 1/4. -/
theorem witness_LaneFloats_values :
    v32 0x7fc00000 = .nan ∧
    (v32 1 = .fin false 1 (-149) ∧ v32 0x43000000 = .fin false 0x800000 (-16) ∧ v32 0xbf800000 = .fin true 0x800000 (-23) ∧
      v32 0x3f800000 = .fin false 0x800000 (-23) ∧ v32 0x3fc00000 = .fin false 0xc00000 (-23) ∧ v32 0x3f000000 = .fin false 0x800000 (-24) ∧
      v32 0x3e800000 = .fin false 0x800000 (-25)) ∧
    (2 : ℚ) ^ 128 ≤ |(Machine.Num.rat (.fin false 1 (-149)))⁻¹| ∧ 128 ≤ Machine.Num.rat (.fin false 0x800000 (-16)) ∧ Machine.Num.rat (.fin true 0x800000 (-23)) < 0 ∧
    (Machine.Num.rat (.fin false 0x800000 (-23)) = ((1 : ℤ) : ℚ) ∧ Machine.Num.rat (.fin false 0x800000 (-23)) = 2 ^ (0 : ℤ) ∧
      |(Machine.Num.rat (.fin false 0x800000 (-23)))⁻¹| < 2 ^ 128) ∧
    Machine.Num.rat (.fin false 0xc00000 (-23)) = ((3 * 2 ^ 199 : ℕ) : ℚ) / 2 ^ 200 * 2 ^ (0 : ℤ) ∧ 2 ^ 200 < 3 * 2 ^ 199 ∧ 3 * 2 ^ 199 < 2 ^ 201 ∧
    Machine.Num.rat (.fin false 0x800000 (-24)) = ((1 : ℤ) : ℚ) / 2 ∧
    ((2 ^ 198 : ℕ) : ℚ) / 2 ^ 200 = Machine.Num.rat (.fin false 0x800000 (-25)) - 2 * 0 ∧ 2 ^ 198 < 2 ^ 201 ∧ 2 ^ 198 % 2 ^ 199 ≠ 0 ∧
    ⌊Machine.Num.rat (.fin false 0x800000 (-25)) / 2⌋ = 0 := by
  refine ⟨by decide, ⟨by decide, by decide, by decide, by decide, by decide, by decide, by decide⟩, ?_⟩
  simp only [Machine.Num.rat]
  norm_num

theorem witness_LaneConversions :
    let w (d c : Nat) : LWord := { LWord.zero with dst := 126, ty := BitVec.ofNat 5 d, hi := BitVec.ofNat 32 (128 * c) }
    (w 15 21).dst.toNat + 2 ≤ 128 ∧ 21 ≤ ((w 15 21).modb.extractLsb' 0 5).toNat ∧
    (((w 25 15).modb.extractLsb' 0 5).toNat < 21 ∧ 21 ≤ (w 25 15).ty.toNat) ∧ ((w 20 15).ty = 20 ∧ (w 18 15).ty.toNat < 19 ∧ (w 18 15).n ≤ 2) := by
  decide

/-- Blocks with a NaN, all zero, with an infinity of either sign, and of one 1 among zeros, whose largest magnitude is 2^0. -/
theorem witness_LaneConversions_blocks :
    let xs (r : Nat) : List Machine.Num := f32.value r :: List.replicate 7 (f32.value 0)
    (∀ r ∈ [0, 0x3f800000, 0x7f800000, 0xff800000, 0x7fc00000], (xs r).length = 8 ∧ r < 2 ^ 32 ∧ (.nan ∈ xs r ↔ r = 0x7fc00000)) ∧
    .inf false ∈ xs 0x7f800000 ∧ .inf true ∈ xs 0xff800000 ∧ f32.value 0x3f800000 = .fin false 0x800000 (-23) ∧ f32.value 0 = .fin false 0 (-149) ∧
    (2 : ℚ) ^ (0 : ℤ) ≤ Machine.Num.rat (.fin false 0x800000 (-23)) ∧ Machine.Num.rat (.fin false 0x800000 (-23)) < 2 ^ ((0 : ℤ) + 1) ∧ Machine.Num.rat (.fin false 0 (-149)) = 0 := by
  refine ⟨by decide, by decide, by decide, by decide, by decide, ?_⟩
  simp only [Machine.Num.rat]
  norm_num

theorem witness_Collectives :
    let w : LWord := { LWord.zero with dst := 126, ty := 3 }
    w.n ≤ 2 ∧ w.dst.toNat + w.n ≤ 128 ∧ w.fn = 0 ∧ { w with fn := 1 }.fn = 1 ∧ { w with fn := 2 }.fn = 2 ∧ { w with fn := 3 }.fn = 3 := by decide

/-- A scalar LD parked under ID 9. -/
def parkedEntry : OpEntry :=
  { id := 9, record := true, instr := some (.ld 0 0 0 0 3 1 5), tag := 0, access := 0, scalar := true, pc := 0x10000, path := 0, group := 0
    va := 0x60000, lanes := [{ lane := 0, addr := 0x60000, data := 0 }] }

/-- Lanes 0 and 1 on one path; p1 true in lane 1. -/
def forked : State := (withLanes 3 [(129, 4)]).upd (fun t => { t with p := [(1, 2)] })

/-- The table full, as 64 paths. -/
def fullTable : State :=
  forked.upd (fun t => { t with paths := t.paths ++ (List.range 63).map (fun i => { t.path 0 with idx := i + 1, mask := 0 }) })

theorem witness_LanePaths :
    let w : LWord := { LWord.zero with pred := 1, src1 := 1, i := true }
    forked.t.partMask { LWord.zero with pred := 2 } = 0 ∧ (forked.t.partMask LWord.zero ≠ 0 ∧ forked.t.cur.mask &&& ~~~ forked.t.partMask LWord.zero = 0) ∧
    (forked.t.partMask w ≠ 0 ∧ forked.t.cur.mask &&& ~~~ forked.t.partMask w ≠ 0 ∧ forked.t.Issues) ∧ forked.t.freeEntries.head? = some 1 ∧
    (fullTable.t.freeEntries = [] ∧ fullTable.t.partMask w ≠ 0 ∧ fullTable.t.cur.mask &&& ~~~ fullTable.t.partMask w ≠ 0 ∧
      fullTable.t.ctx < fullTable.ctxs.length) ∧
    lanesIn (laneCount part.t.gmax) part.t.cur.mask = [] ∧ lanesIn (laneCount forked.t.gmax) forked.t.cur.mask = [0, 1] ∧
    (brxArms forked.t w).length = 2 ∧ 2 ≤ forked.t.freeEntries.length + 1 ∧ fullTable.t.freeEntries.length + 1 < (brxArms fullTable.t w).length ∧
    ((brxArms forked.t { w with pred := 2 }).length = 1) ∧
    (forked.t.cur.rstack.length < 16 ∧ 16 ≤ (List.replicate 16 (0 : DWord)).length ∧ forked.t.cur.rstack = []) ∧
    maskOf ((forked.t.parts LWord.zero).filter forked.t.pending) = 0 ∧
    (let u := forked.upd (fun t => { t with oplog := [{ parkedEntry with scalar := false, lanes := [{ lane := 1, addr := 0x60000, data := 0 }] }] })
     maskOf ((u.t.parts LWord.zero).filter u.t.pending) = 2) := by
  unfold Team.Issues
  decide +kernel

theorem witness_Barriers :
    (forked.t.flags 3 &&& forked.t.cur.mask = 0) ∧
    (let u := forked.upd (fun t => { t with barriers := [(3, 3)] })
     u.t.flags 3 &&& u.t.cur.mask ≠ 0 ∧ u.focus 0 0 = some u ∧ u.t.moves = true ∧ u.t.paused = false ∧
     u.t.flags 3 ≠ 0 ∧ u.t.counted &&& ~~~ u.t.flags 3 = 0) ∧
    (let u := forked.upd (fun t => { t with
      barriers := [(3, 3)], paths := t.paths.map (fun p => { p with hold := .barrier 3 true }) })
     u.t.paths.any (fun q => q.waitsAt 3 true) = true) ∧
    (let u := forked.upd (fun t => { t with barriers := [(3, 1)] })
     ¬ (u.t.flags 3 ≠ 0 ∧ u.t.counted &&& ~~~ u.t.flags 3 = 0)) ∧
    (let x : Split := { id := 0, parent := 0, outer := none, prio := 4, rejoin := 0x10024, arms := [0, 1], arm := 0, conc := true }
     let u := forked.upd (fun t => { t with
      splits := [x], arms := []
      paths := [{ t.path 0 with mask := 1, split := some 0, pc := 0x10024 }, { t.path 0 with idx := 1, mask := 2, split := some 0, pc := 0x10024 }] })
     u.focus 0 0 = some u ∧ u.t.moves = true ∧ u.t.paused = false ∧ u.t.splits.find? (fun y => y.id == 0) = some x ∧ u.t.canMerge x = true) := by
  decide +kernel

/-- A part whose pennants 1 to 7 stand as given, the last FORK having named pennant 1; x5 holds 2, x6 the control block, x7 0x40000. -/
def penned (sts : List PState) : State :=
  { withX [(5, 2), (6, 0x20000), (7, 0x40000)] with
    ctxs := updNth part.ctxs 0 (fun x => { x with pens := sts.map (fun p => { Pennant.reset with st := p }), forkMask := 2 }) }

/-- Every pennant Free, pennant 1 Live, and pennant 1 Committing. -/
def allFree : State := penned (List.replicate 7 .free)
def oneLive : State := penned (.live :: List.replicate 6 .free)
def oneGoing : State := penned (.committing :: List.replicate 6 .free)

theorem still_part : Still allFree 0 ∧ Still oneLive 0 ∧ Still oneGoing 0 := by
  unfold Still Flat
  decide +kernel

theorem pcb_part : PcbAt allFree 0 0x20000 ∧ PcbAt oneLive 0 0x20000 ∧ PcbAt oneGoing 0 0x20000 := by
  unfold PcbAt
  decide +kernel

/-- A WARP block at x7: one pixel from 0x60000 to 0x70000 under pennant `q`. -/
def warped (q : Nat) : State :=
  State.put oneLive [(0x40000, leBytes 8 0x60000 ++ leBytes 8 0x70000 ++ leBytes 4 1 ++ leBytes 4 1 ++ leBytes 4 4 ++ leBytes 4 4 ++
    List.replicate 16 0 ++ leBytes 4 q)]

theorem witness_Futures_fork :
    (let s := allFree.upd (fun t => { t with pennant := 1 })
     s.t.pennant ≠ 0 ∧ s.t.wait = .none) ∧
    (allFree.t.pennant = 0 ∧ (3 % 2 ≠ 0 ∨ 3 = 0)) ∧
    (allFree.t.xr 6 = 0x20000 ∧ (0x20000 : DWord).toNat % 1024 = 0 ∧ (ctxOf allFree 0).forks = [] ∧ (ctxOf allFree 0).pensIn .committing = [] ∧
      (ctxOf allFree 0).pensIn .dropping = [] ∧ (ctxOf allFree 0).pensIn .live = [] ∧ Still allFree 0 ∧ (ctxOf allFree 0).held = [] ∧
      0 < allFree.ctxs.length ∧ (ctxOf allFree 0).pens.length = 7 ∧ (allFree.t.xr 5).toNat = 2 ∧ allFree.t.tileQ = [] ∧ allFree.t.copyQ = []) ∧
    (ctxOf oneGoing 0).pensIn .committing ≠ [] ∧ (ctxOf oneLive 0).forks = [] ∧ (ctxOf oneLive 0).pensIn .committing = [] ∧
    (ctxOf oneLive 0).pensIn .dropping = [] ∧ (ctxOf oneLive 0).pensIn .live ≠ [] ∧
    -- the team on core 1 waits to FORK before this one; this one goes on with its own
    (let s : State := { allFree with
       others := [{ placeTeam with core := 1, clidx := 1 }], ctxs := updNth allFree.ctxs 0 (fun x => { x with forks := [(0, 0, 1)] }) }
     (ctxOf s 0).forks = [(0, 0, 1)] ∧ (0, 0, 1) ≠ s.t.ident ∧ ∃ u ∈ s.teams, u.ctx = 0 ∧ u.ident = (0, 0, 1) ∧ u.alive = true) ∧
    (let s := allFree.upd (fun t => { t with wait := .fork (.fork 5 5 6) })
     s.t.wait = .fork (.fork 5 5 6) ∧ s.t.pennant = 0 ∧ (s.t.xr 5).toNat % 2 = 0 ∧ (s.t.xr 5).toNat ≠ 0 ∧ (s.t.xr 5).toNat < 256) := by
  simp only [show Still allFree 0 from still_part.1, true_and]
  decide +kernel

theorem witness_Futures_ends :
    ((part.upd (fun t => { t with wait := .squash 5 1 })).t.wait ≠ .none) ∧
    ((ctxOf allFree 0).pen 7).st ≠ .live ∧ ((ctxOf oneLive 0).pen 1).st = .live ∧ (ctxOf oneLive 0).commit = none ∧
    (ctxOf oneGoing 0).pensIn .committing ≠ [] ∧ Still oneLive 0 ∧ PcbAt oneLive 0 0x20000 :=
  ⟨by decide +kernel, by decide +kernel, by decide +kernel, by decide +kernel, by decide +kernel, still_part.2.1, pcb_part.2.1⟩

/-- A higher core's change stands at the pennant table in this mesh clock; a lower core's, or an older one, does not hold this core up. A FORK
whose steps 1 to 4 are issued goes on with its own. -/
theorem witness_Futures_order :
    (let s (c n : Nat) : State := { allFree.upd (fun t => { t with core := 3, clidx := 3, wait := .forked (.fork 5 5 6) }) with
       ctxs := updNth allFree.ctxs 0 (fun x => { x with tableAt := some (c, n), forks := [(0, 0, 3)], pcb := some 0x20000 }) }
     ((ctxOf (s (meshClock part) 4) 0).tableAt = some (meshClock (s 0 0), 4) ∧ (s 0 0).t.core < 4) ∧
     ((ctxOf (s (meshClock part) 2) 0).tableAt = some (meshClock (s 0 0), 2) ∧ ¬ (s 0 0).t.core < 2) ∧
     ((s 9 4).t.wait = .forked (.fork 5 5 6) ∧ meshClock (s 9 4) ≠ 9 ∧ (s 9 4).t.tileQ = [] ∧ (s 9 4).t.copyQ = [] ∧ Still (s 9 4) 0 ∧
       PcbAt (s 9 4) 0 0x20000)) ∧
    (ctxOf allFree 0).tableAt = none ∧ (ctxOf allFree 0).forks = [] ∧ allFree.t.wait = .none := by
  unfold Still Flat PcbAt
  decide +kernel

/-- An entry that a stalling instruction holds in its queue. -/
def held : EngCmd := { queued none none with body := .stall }

/-- A RANK that waits for its turn, that has its turn, and that has begun over pennants 1 and 2. -/
theorem witness_Futures_rank :
    (ctxOf State.reset 0).pcb = none ∧ (ctxOf oneLive 0).pcb = some 0x20000 ∧ (ctxOf oneLive 0).pensIn .live ≠ [] ∧
    (oneLive.t.tileQ = [] ∧ natAt (memBytes oneLive.mem (0x20000 + 0x230) 8) 0 8 = 0) ∧ 32 ≤ (List.replicate 32 (queued none none)).length ∧
    (let keep (q : List EngCmd) := q.filter (fun e => decide (e.body ≠ .stall))
     [queued none none] ≠ [] ∧ keep [queued none none] = [queued none none] ∧ keep [] = [] ∧ held.body = .stall ∧
     (queued none none).body ≠ .stall) ∧
    (let s := oneLive.upd (fun t => { t with wait := .rank (.rank 5) 0 [1, 2], tileQ := [held] })
     s.t.wait = .rank (.rank 5) 0 [1, 2] ∧ [1, 2].filter (fun p => decide (((ctxOf s 0).pen p).st = .live)) ≠ [] ∧ s.t.tileQ = [held]) ∧
    (let s := oneLive.upd (fun t => { t with wait := .queued (.rank 5), tileQ := [held] })
     s.t.wait = .queued (.rank 5) ∧ s.t.tileQ = [held] ∧ s.t.pennant = 0) := by decide +kernel

theorem witness_Futures_warp :
    (let b := warpBlock (memBytes (warped 1).mem 0x40000 52)
     (warped 1).t.copyQ = [] ∧ b.sizesOk = true ∧ b.q = 1 ∧ bit (ctxOf (warped 1) 0).forkMask 1 = true ∧
     b.src.toNat + b.h * b.sp ≤ 0x1000000000 ∧ b.dst.toNat + b.h * b.dp ≤ 0x1000000000 ∧ 0x40000 % 128 = 0) ∧
    (7 < (warpBlock (memBytes (warped 8).mem 0x40000 52)).q ∧ bit (ctxOf (warped 7) 0).forkMask 7 = false ∧
      (warpBlock (memBytes (warped 7).mem 0x40000 52)).q ≤ 7) ∧ 64 ≤ (List.replicate 64 (queued none none)).length ∧
    (let g := warpBlock (memBytes (warped 1).mem 0x40000 52)
     let r : WarpRun := { blk := g, mat := [], pos := 0, begun := true, snap := [] }
     let s := (warped 1).upd (fun t => { t with wait := .warp (.warp 5 7) r, copyQ := [held] })
     s.t.wait = .warp (.warp 5 7) r ∧ s.t.copyQ = [held] ∧ s.t.tileQ = [] ∧ g.sizesOk = true ∧ 0 < g.w * g.h ∧
     g.src.toNat + g.h * g.sp ≤ 0x1000000000 ∧ g.dst.toNat + g.h * g.dp ≤ 0x1000000000 ∧
     ∀ y < g.h, ∀ z < g.h, g.src.toNat + y * g.sp + 4 * g.w ≤ g.dst.toNat + z * g.dp ∨ g.dst.toNat + z * g.dp + 4 * g.w ≤ g.src.toNat + y * g.sp) := by
  decide +kernel

theorem witness_Futures_still : Still (warped 1) 0 ∧ PcbAt (warped 1) 0 0x20000 := by
  unfold Still Flat PcbAt
  decide +kernel

theorem witness_Futures_flip :
    (let s (n : Nat) := { part with heads := updNth part.heads 3 (fun d =>
       { d with hcfg := 0x11, queue := List.replicate n { head := 3, surface := 0x100, ctx := 0 } }) }
     (headOf (s 16) 3).room = false ∧ (headOf (s 15) 3).room = true ∧ (headOf (s 15) 3).enabled = true ∧ 3 < (s 15).heads.length) ∧
    (4 ≤ (List.replicate 4 ({ head := 0, surface := 0, ctx := 0 } : Flip)).length ∧ ((ctxOf allFree 0).pen 7).flips.length < 4) := by
  decide +kernel

/-- Pennant 1 committing, its switch made or not, with its version of line 0x600. -/
def committing (switched : Bool) : State :=
  { oneGoing with
    ctxs := updNth oneGoing.ctxs 0 (fun x => { x with commit := some { pennant := 1, queue := none, pc := 0, stat := 0, switched := switched } })
    caches := { part.caches with vers := [{ ctx := 0, pennant := 1, line := 0x600, data := List.replicate 128 7, prio := 3 }] }
    t := { oneGoing.t with wait := .commit 5 1 } }

theorem witness_FutureSteps :
    (let s := committing false
     Still s 0 ∧ PcbAt s 0 0x20000 ∧ (ctxOf s 0).commit = some { pennant := 1, queue := none, pc := 0, stat := 0, switched := false } ∧
     pcbParked s 0 = false ∧ s.caches.vers = [{ ctx := 0, pennant := 1, line := 0x600, data := List.replicate 128 7, prio := 3 }] ∧
     s.caches.logs = [] ∧ ((ctxOf s 0).pen 1).pushes = [] ∧ ((ctxOf s 0).pen 1).appending = []) ∧
    (let s := committing true
     0 < s.ctxs.length ∧ (ctxOf s 0).commit = some { pennant := 1, queue := none, pc := 0, stat := 0, switched := true } ∧ pcbParked s 0 = false ∧
     (ctxOf s 0).commitQ = [] ∧ (ctxOf s 0).pens.length = 7 ∧ s.t.ctx = 0 ∧ s.t.wait = .commit 5 1) ∧
    -- a COMMIT behind it: of the pennant it frees, of one not Live and of one that is
    (let s (n : Nat) := (committing true).upd (fun t => { t with wait := .behind 5 n })
     let u := { s 3 with ctxs := updNth (s 3).ctxs 0 (fun x => { x with pens := updNth x.pens 2 (fun k => { k with st := .live }) }) }
     (s 1).t.wait = .behind 5 1 ∧ (s 3).t.wait = .behind 5 3 ∧ ((ctxOf (s 3) 0).pen 3).st ≠ .live ∧ u.t.wait = .behind 5 3 ∧
     ((ctxOf u 0).pen 3).st = .live ∧ pcbParked u 0 = false ∧ (ctxOf u 0).commit = (ctxOf (committing true) 0).commit) ∧
    (ctxOf allFree 0).commit = none ∧ ((ctxOf allFree 0).pen 1).st ≠ .dropping ∧
    (let s := { penned (.dropping :: List.replicate 6 .free) with t := { part.t with wait := .squash 5 1 } }
     Still s 0 ∧ PcbAt s 0 0x20000 ∧ ((ctxOf s 0).pen 1).st = .dropping ∧ ((ctxOf s 0).pen 1).auto = false ∧ pcbParked s 0 = false ∧
     parkedAgain s (.dropComplete 0 1) = false ∧ s.t.wait = .squash 5 1) ∧
    ((ctxOf allFree 0).pen 1).appending = [] ∧ (storeRoom allFree 0 = false ∧ overflowRoom allFree 0 = false ∧ (ctxOf allFree 0).ovOwed = 0) ∧
    (let s := { allFree with ctxs := updNth allFree.ctxs 0 (fun x =>
       { x with quota := 1, pens := updNth x.pens 6 (fun n => { n with appending := [packet 4] }) }) }
     0 < s.ctxs.length ∧ (ctxOf s 0).pens.length = 7 ∧ ((ctxOf s 0).pen 7).appending = [packet 4] ∧ storeRoom s 0 = true ∧
     (ctxOf s 0).ovOwed = 0) := by
  unfold Still Flat PcbAt
  decide +kernel

theorem witness_TeamMoves :
    (let s := part.upd (fun t => { t with clcols := 2 })
     ¬ (s.t.clrows * s.t.clcols ≤ 1)) ∧
    (part.t.clrows * part.t.clcols ≤ 1 ∧ ¬ (144 ≤ 143) ∧ partitionOf 1 = partitionOf part.t.core ∧ partitionOf 143 ≠ partitionOf part.t.core) ∧
    (let s := part.upd (fun t => { t with copyQ := [queued none none] })
     ¬ (s.t.oplog = [] ∧ (∀ p ∈ s.t.paths, p.inside = false) ∧ queueHeld s.t.tileQ = true ∧ queueHeld s.t.copyQ = true)) ∧
    (let s := part.upd (fun t => { t with copyQ := [queued none (some 1)] })
     (s.t.oplog = [] ∧ (∀ p ∈ s.t.paths, p.inside = false) ∧ queueHeld s.t.tileQ = true ∧ queueHeld s.t.copyQ = true) ∧ ¬ (s.t.tileQ = [] ∧ s.t.copyQ = [])) ∧
    (let s := { part with others := (List.range 4).map (fun k => { placeTeam with core := 1, slot := k }) }
     freeSlots s 1 = []) ∧
    (let s := { part with taken := [(1, meshClock part, 256)] }
     (1, meshClock s, 256) ∈ s.taken ∧ s.t.core < 256) ∧ part.taken = [] ∧
    (freeSlots part 1 = 0 :: [1, 2, 3] ∧ agedOn part 1 = false ∧ unitsClaimed part 1 + claimUnits part.t.claim ≤ 128 ∧
      elementsHeld part 1 + part.t.elements ≤ 16384) ∧
    (let u := part.upd (fun t => { t with why := .transit, wait := .migrate 5 0, life := .stopped, before := .running })
     u.focus 0 0 = some u ∧ u.t.why = .transit ∧ u.t.wait = .migrate 5 0 ∧ fileUsed u 0 ≤ 6144) ∧
    (let u (q : List EngCmd) := part.upd (fun t => { t with life := .retiring, tileQ := q, cell := some 3 })
     (u []).focus 0 0 = some (u []) ∧ (u []).t.moves = true ∧ (u []).t.idleLanes = true ∧ (u []).t.retirable = true ∧
     (u [queued none none]).t.retirable = false) := by decide +kernel

/-- A running launch of `nx` cells whose next index is `next`; with coverage, or none. -/
def launched (cov : Option CovBlock) (next : Nat) (ext : Nat × Nat × Nat) : State :=
  { part with launches := [{ Launch.spent 0 0 0x9000 0 with cut := false, cov := cov, next := next, ext := ext, cblk := 0x40000, errN := 1 }] }

/-- A coverage block over `w` × `h` elements of four bytes at 0x50000. -/
def block (w h : Nat) : CovBlock :=
  { base := 0x50000, pitch := 0x10000, w := w, h := h, elem := 2, kern := 0, aud := true, tgt := 0, kp := 0, ki := 0, fmin := 0x3f800000
    fmax := 0x43800000, ecap := 0x3f800000, map := 0 }

theorem witness_Coverage :
    launchOf part part.t.launch = none ∧
    (let s := launched none 7 (2, 2, 2)
     (launchOf s s.t.launch).map (fun l => (l.cov, decide (l.next < l.ext.1 * l.ext.2.1 * l.ext.2.2))) = some (none, true)) ∧
    (let s := launched none 8 (2, 2, 2)
     (launchOf s s.t.launch).map (fun l => decide (l.ext.1 * l.ext.2.1 * l.ext.2.2 ≤ l.next)) = some true) ∧
    (let s (n : Nat) := launched (some (block 4096 32)) n (0, 0, 0)
     (launchOf (s 0) 0).bind (fun l => l.cov) = some (block 4096 32) ∧ ((s 0).upd (fun t => { t with inh := true })).t.inh = true ∧
     (withLanes 1 []).t.idleLanes = false ∧ ((s 0).t.inh = false ∧ (s 0).t.idleLanes = true ∧ (s 0).t.tileQ = []) ∧
     ((queued (some 1) none).batch.isSome = true ∧ (queued none none).batch.isSome = false) ∧
     (launchOf (s 256) 0).map (fun l => l.errN) = some 1 ∧ (block 4096 32).aud = true ∧
     (ceilDiv 4096 16 * ceilDiv 32 16 ≤ 512 ∧ 511 < ceilDiv 4096 16 * ceilDiv 32 16 ∧ ¬ (511 % 256 = 0)) ∧
     (256 % 256 = 0 ∧ 0 < 256 ∧ 256 < ceilDiv 4096 16 * ceilDiv 32 16) ∧ Still (s 256) 0 ∧ 0x40000 + 128 ≤ 0x1000000000) ∧
    (withX [(6, 5)]).t.xr 6 = 5 ∧ (part.upd (fun t => { t with pennant := 1 })).t.pennant ≠ 0 ∧ 0x40040 % 128 ≠ 0 ∧
    leNat (memBytes part.mem (0x40000 + 0x30) 8) + 64 ≤ 0x1000000000 := by
  unfold Still Flat
  decide +kernel

/-- Of two latched maps the one of another mesh clock is due at a wave start; one of this clock is not, and outranks a lower core's. -/
theorem witness_Coverage_latched :
    let s := launched (some (block 4096 32)) 256 (0, 0, 0)
    let ls := [(meshClock s + 1, 3, [(5 : Byte)]), (meshClock s, 2, [(6 : Byte)])]
    (ls.filter (fun e => e.1 != meshClock s)).getLast? = some (meshClock s + 1, 3, [5]) ∧
    ls.filter (fun e => e.1 == meshClock s) = [(meshClock s, 2, [6])] ∧ s.t.core < 2 ∧
    (launchOf s 0).map (fun l => (l.ctx, l.cblk, l.cov.isSome, decide (l.st = .running))) = some (0, 0x40000, true, true) := by decide +kernel

/-- A pixel item of sequence number 5, bound to lane 0, its token held or not. -/
def item : PixItem := { ctx := 0, pennant := 0, endMark := false, draw := (0, 0, 0), x := 3, y := 4, seq := 5, prim := 0, tri := 0 }
def bound (token : Bool) : State :=
  (withLanes 1 []).upd (fun t => { t with bindings := [{ lane := 0, item := item, token := token, lost := false, since := 0 }] })

/-- A block of one triangle of three vertices on a surface of 16 × 16. -/
def primBytes (n : Nat) : List Byte :=
  leBytes 2 3 ++ leBytes 2 n ++ leBytes 4 5 ++ leBytes 2 16 ++ leBytes 2 16 ++ [0, 0, 0, 0] ++
    (leBytes 16 0 ++ (leBytes 4 0x41000000 ++ leBytes 12 0) ++ (leBytes 4 0 ++ leBytes 4 0x41000000 ++ leBytes 8 0)) ++
    (if n = 0 then [] else [0, 2, 1])

/-- A lane whose v1 and v2 hold an offset and a count, in a team with a claim of 20 KB, `bs` at offset 16 and rings as given. -/
def emitting (off n : Word) (bs : List Byte) (ring : List Payload) : State :=
  { (withLanes 1 [(1, off), (2, n)]).upd (fun t => { t with claim := 20480, spad := memSet [] 16 bs }) with
    front := { part.front with ring := ring } }

/-- SRC1 = 1 and SRC2 = 2. -/
def emitW : LWord := { LWord.zero with dst := 8, src1 := 1, src2 := 2 }

/-- Payloads of this core and of another. -/
def mine : Payload := { core := 0, ctx := 0, pennant := 0, data := [1, 2, 3] }
def other : Payload := { core := 1, ctx := 0, pennant := 0, data := [] }

/-- The attribute store of core 0 full: 64 blocks of 4 KB, each with a triangle left to rasterise. -/
def storeFull (s : State) : State :=
  { s with front := { s.front with
    prims := (List.range 64).map (fun i =>
      { id := i, core := 0, launch := 0, clorg := 0, clidx := 0, ctx := 0, pennant := 0, data := List.replicate 4096 0, thr := 0 })
    bins := (List.range 64).map (fun i =>
      { core := 0, slot := 0, launch := 0, clorg := 0, clidx := 0, ctx := 0, pennant := 0, prim := i, tri := 0, seq := 0, fixed := false
        endMark := false, flush := 0 }) } }

theorem witness_FrontEnd_hold :
    (let s := (emitting 16 0 (primBytes 1) []).upd (fun t => { t with paths := t.paths.map (fun p => { p with hold := .prim (primBytes 1) 0 }) })
     s.t.cur.hold = .prim (primBytes 1) 0 ∧ s.t.Issues ∧ primsUsed s.freePrims s.t.core + (primBytes 1).length ≤ 262144 ∧
     ¬ (primsUsed (storeFull s).freePrims s.t.core + (primBytes 1).length ≤ 262144)) ∧
    (let s := storeFull (emitting 16 0 (primBytes 1) [])
     (∀ p ∈ s.t.paths, p.idx = s.t.curPath → p.hold = .none) ∧
     ¬ (primsUsed s.freePrims s.t.core + (s.t.spadLane 16 (primSize (s.t.spadLane 16 16))).length ≤ 262144)) := by
  unfold Team.Issues
  decide +kernel

theorem witness_FrontEnd_emit :
    (withLanes 1 []).t.parts { emitW with pred := 1 } = [] ∧ (emitting 16 4 [] []).t.parts emitW = 0 :: [] ∧
    (let s := emitting 4096 16384 [] [other, mine]
     s.t.a emitW 0 1 % 16 = 0 ∧ s.t.b emitW 0 1 ≤ 16384 ∧ s.t.a emitW 0 1 + s.t.b emitW 0 1 ≤ s.t.claim ∧
     s.t.a emitW 0 1 + 16384 ≤ s.t.claim ∧ s.front.ring = [other] ++ mine :: [] ∧
     ¬ (other.core = s.t.core) ∧ (mine.core = s.t.core ∧ mine.ctx = s.t.ctx ∧ mine.pennant = s.t.pennant)) ∧
    ((emitting 8 0 [] []).t.a emitW 0 1 % 16 ≠ 0 ∧ 16384 < (emitting 0 16385 [] []).t.b emitW 0 1 ∧ part.t.ctx < part.ctxs.length) ∧
    ((List.range 2).all (fun n =>
      let s := emitting 16 0 (primBytes n) []
      let data := s.t.spadLane 16 (primSize (s.t.spadLane 16 16))
      decide (s.t.port = [] ∧ 16 + 16 ≤ s.t.claim ∧ primHeadOk (s.t.spadLane 16 16) = true ∧ 16 + primSize (s.t.spadLane 16 16) ≤ s.t.claim ∧
        primIndexOk data = true ∧ primT data = n ∧ primsUsed s.freePrims s.t.core + data.length ≤ 262144)) = true) ∧
    primHeadOk ((emitting 16 0 [] []).t.spadLane 16 16) = false := by decide +kernel

theorem witness_FrontEnd_pixels :
    (let s := { withLanes 1 [] with front := { part.front with pixels := [(1, item), (0, item), (0, { item with endMark := true })] } }
     s.t.parts { emitW with src1 := 0, src2 := 0 } = [0] ∧ emitW.dst.toNat + 2 ≤ 128 ∧ (∀ b ∈ s.t.bindings, b.lane < 1024) ∧
     s.front.pixels = [(1, item)] ++ (0, item) :: [(0, { item with endMark := true })] ∧ item.endMark = false ∧
     ¬ ((1 : Nat) = s.t.core) ∧ (item.ctx = s.t.ctx ∧ item.pennant = s.t.pennant)) ∧
    (∀ i ∈ part.front.pixels, ¬ (i.1 = part.t.core)) ∧ (∀ b ∈ part.t.bindings, b.lane ≠ 0) ∧
    ((bound true).t.parts LWord.zero = [0] ∧ ((bound true).t.bindings.find? (fun b => b.lane == 0)).map (fun b => (b.token, b.lost)) =
      some (true, false)) ∧
    (tokenHeld (bound false) item = false ∧ ∀ i ∈ (bound false).front.orders, samePixel i item = true → seqBefore i.seq item.seq = false) ∧
    (let s := { bound false with front := { part.front with orders := [{ item with seq := 4 }] } }
     ¬ (tokenHeld s item = false ∧ ∀ i ∈ s.front.orders, samePixel i item = true → seqBefore i.seq item.seq = false)) := by decide +kernel

/-- The block of one triangle, that triangle and its draw's end mark, and a part with either of the two handed in. -/
def oneTri : PrimBlock := { id := 0, core := 0, launch := 0, clorg := 0, clidx := 0, ctx := 0, pennant := 0, data := primBytes 1, thr := 0x400 }
def binned (e : Bool) : BinTri :=
  { core := 0, slot := 0, launch := 0, clorg := 0, clidx := 0, ctx := 0, pennant := 0, prim := 0, tri := 0, seq := 5, fixed := false, endMark := e, flush := 0 }
def tri (e : Bool) : State := { part with front := { part.front with bins := [binned e], prims := [oneTri] } }

/-- That triangle of a team whose lane waits with a block, flushed `n` times, by either rasteriser. -/
def pressed (fix : Bool) (n : Nat) : State :=
  { (tri false).upd (fun t => { t with paths := (withLanes 1 []).t.paths.map (fun p => { p with hold := .prim (primBytes 1) 0 }) }) with
    front := { (tri false).front with bins := [{ binned false with fixed := fix, flush := n }] } }

/-- A buffer of one triangle is flushed for the next; one of two takes both. -/
theorem test_capture : capture 1 [] [binned false, binned false] = [{ binned false with flush := 1 }, binned false] ∧
    capture 2 [] [binned false, binned false] = [binned false, binned false] := by decide

theorem witness_FrontEnd_units :
    (let u (r : List Payload) := (emitting 16 4 [] r).upd (fun t => { t with paths := t.paths.map (fun p => { p with hold := .put 16 4 }) })
     (u []).focus 0 0 = some (u []) ∧ ((u []).t.path 0).hold = .put 16 4 ∧ (u []).t.alive = true ∧ (u []).t.paused = false ∧
     (u []).t.debug = false ∧ ((u []).front.ring.filter (fun r => r.core == 0)).length < 4 ∧
     4 ≤ ((u (List.replicate 4 mine)).front.ring.filter (fun r => r.core == 0)).length) ∧
    (let f := (tri true).front
     binned true ∈ f.bins ∧ (∀ i ∈ f.raster, i.1 ≠ 0) ∧ (∀ y ∈ f.bins, y.team = (binned true).team) ∧
     f.bins.filter (fun y => y.team == (binned true).team) = [] ++ binned true :: [] ∧ (binned true).core = 0 ∧
     (∀ i ∈ f.raster, i.2.draw ≠ (binned true).team) ∧ (f.pixels.filter (fun i => i.1 == 0)).length < 1024) ∧
    (let s := { tri false with front := { (tri false).front with bins := [binned false, binned true] } }
     binned false ∈ s.front.bins ∧ (∀ y ∈ s.front.bins, y.core = 0 ∧ y.slot = 0 ∧ y.team = (binned false).team) ∧
     s.front.bins.filter (fun y => y.team == (binned false).team) = [binned false] ++ binned true :: [] ∧
     (binned false).endMark = false ∧ (binned true).endMark = true ∧ (∀ e ∈ s.front.pixels ++ s.front.raster, e.2.draw ≠ (binned false).team) ∧
     ((binned false).seq - 5).toNat < 2 ^ 31 ∧
     s.front.prims.find? (fun p => p.id == (binned false).prim) = some oneTri ∧
     (primTri oneTri.data (binned false).tri).map (fun v => covers v 0 0) = some true ∧ 0 < natAt oneTri.data 8 2 ∧ 0 < natAt oneTri.data 10 2) ∧
    (storePressed (tri false) 0 = false ∧ storePressed (pressed false 0) 0 = true ∧
      (pressed false 0).front.bins.filter (fun y => y.team == (binned false).team) = [binned false] ∧ (binned false).fixed = false ∧
      (binned false).flush = 0 ∧ (pressed true 0).front.bins = [{ binned false with fixed := true }] ∧
      (pressed false 1).front.bins = [{ binned false with flush := 1 }]) ∧
    (let u := { bound true with time := 0xc35 * 1024 }
     let limit := (ctxOf u u.t.ctx).oslimit.toNat * 1024
     u.focus 0 0 = some u ∧ (u.t.bindings.find? (fun b => b.lane == 0)).map (fun b => decide (limit ≠ 0 ∧ u.t.debug = false ∧ b.token = true ∧
       b.lost = false ∧ limit ≤ u.time - b.since)) = some true ∧ ¬ (limit ≤ u.time - 1 - 0)) := by decide +kernel

/-- Queue 31 Active in context 0 over a ring of 16 packets at 0x90000, its header at 0x91000, with `bs` as its packet 0. -/
def queueing (bs : List Byte) : State :=
  { State.put part [(0x90000, bs)] with queues := updNth part.queues 31 (fun k =>
      { k with qhdr := 0x91000, state := 1, en := true, ring := 0x90000, log2 := 4, tail := 1 }) }

/-- A launch's descriptor of one group and two registers, at 0x40000. -/
def descriptor (groups regs : Nat) : List Byte := leBytes 8 0x10000 ++ [BitVec.ofNat 8 groups, BitVec.ofNat 8 regs]

/-- A LAUNCH packet of that descriptor over one core and one cell. -/
def launchPkt : Packet :=
  { d0 := 4, d1 := 0x40000, d2 := 0, d3 := 0x44900, d4 := 0x10000100001, d5 := 0, d6 := 0, d7 := 0x9000 }

theorem witness_Packets :
    (let s := queueing []
     31 < 32 ∧ s.queues.length = 32 ∧ Still s (queueOf s 31).ctx ∧ (queueOf s 31).ctx < s.ctxs.length ∧ InMemory s (queueOf s 31).qhdr.toNat 0xc0 ∧
     (0xffffffff8 : DWord).toNat + 8 ≤ 0x1000000000) ∧
    (let s := { part with heads := updNth part.heads 3 (fun d => { d with hcfg := 0x11 }) }
     (headOf s 3).room = true ∧ (headOf s 3).enabled = true ∧ 3 < s.heads.length) ∧
    (bits (0x82 : DWord).toNat 16 8 < 1 ∧ 7 < bits (0x80002 : DWord).toNat 16 8 ∧ 1 ≤ bits (0x70002 : DWord).toNat 16 8) ∧
    (let free (s : State) : Bool := (ctxOf s 0).commit.isNone && ((ctxOf s 0).pensIn .committing).isEmpty
     ((ctxOf part 0).pen 7).st ≠ .live ∧ free part = true ∧ (((ctxOf oneLive 0).pen 1).st = .live ∧ free oneLive = true ∧ PcbAt oneLive 0 0x20000) ∧
     free oneGoing = false) ∧
    ((0x40040 : DWord).toNat % 128 ≠ 0 ∧ (0x40000 : DWord).toNat % 128 = 0 ∧ leNat (memBytes part.mem (0x40000 + 0x30) 8) + 64 ≤ 0x1000000000) ∧
    (let s (g n : Nat) := State.put (queueing []) [(0x40000, descriptor g n)]
     let r (g n : Nat) := rejects (ctxOf (s g n) 0) launchPkt (memBytes (s g n).mem 0x40000 64)
       (launchFrom 0 0 (some 31) 0 0 launchPkt (memBytes (s g n).mem 0x40000 64))
     r 0 2 = none ∧ r 32 2 = some 1 ∧ r 31 129 = some 2 ∧ r 31 128 = none ∧ 31 < natAt (memBytes (s 32 2).mem 0x40000 64) 8 1 ∧
     natAt (memBytes (s 31 3).mem 0x40000 64) 9 1 % 2 = 1) ∧
    (let h := shapeOf 0x0000001000000000
     h.dk = false ∧ h.sk = false ∧ h.rows = 1 ∧ 0 < h.rb ∧ 0x50000 + h.rb ≤ 0x1000000000 ∧ 0x50000 + h.rb ≤ 0x50010) ∧
    (let s := { queueing [] with queues := updNth (queueing []).queues 31 (fun k => { k with outstanding := 1 }) }
     (queueOf s 31).outstanding ≠ 0 ∧ (queueOf (queueing []) 31).outstanding = 0) ∧
    (leNat (memBytes part.mem 0x60000 8) < (1 : DWord).toNat ∧ (0 : DWord).toNat ≤ leNat (memBytes part.mem 0x60000 8)) ∧
    (ctxOf part 0).counters.length = 16 := by
  unfold Still Flat PcbAt InMemory
  decide +kernel

/-- The 60 bytes of a copy of SEQ `seq`, and its CRC; a header of a ring of 2 ^ `log2` packets. -/
def copyBytes (seq : Nat) : List Byte :=
  let b := List.replicate 56 0 ++ leBytes 4 seq
  b ++ leBytes 4 (crc32 b)
def headerBytes (tail log2 : Nat) : List Byte := leBytes 8 tail ++ leBytes 8 0x90000 ++ leBytes 8 log2

/-- A disabled queue 31 with a header and copies A and B. -/
def enabling (head a b : List Byte) : State :=
  State.put ({ part with queues := updNth part.queues 31 (fun k => { k with qhdr := 0x91000 }) })
    [(0x91000, head), (0x91040, a), (0x91080, b)]

theorem witness_QueueSteps :
    (let s := enabling (headerBytes 1 4) (copyBytes 7) (copyBytes 8)
     let a := memBytes s.mem 0x91040 64
     let b := memBytes s.mem 0x91080 64
     31 < s.queues.length ∧ s.caches.wc = [] ∧ InMemory s (queueOf s 31).qhdr.toNat 0xc0 ∧ (queueOf s 31).state ≠ 1 ∧
     copyValid a = true ∧ copyValid b = true ∧ wordAt a 0x38 + 1 = wordAt b 0x38 ∧
     ¬ (natAt (memBytes s.mem 0x91000 24) 0x10 1 < 4 ∨ 16 < natAt (memBytes s.mem 0x91000 24) 0x10 1 ∨
       (dwordAt (memBytes s.mem 0x91000 24) 8).toNat % 64 ≠ 0)) ∧
    (let s := enabling (headerBytes 1 3) (copyBytes 7) [1]
     natAt (memBytes s.mem 0x91000 24) 0x10 1 < 4 ∧ copyValid (memBytes s.mem 0x91040 64) = true ∧ copyValid (memBytes s.mem 0x91080 64) = false) ∧
    (let s := enabling (headerBytes 1 17) [1] (copyBytes 7)
     16 < natAt (memBytes s.mem 0x91000 24) 0x10 1 ∧ copyValid (memBytes s.mem 0x91040 64) = false ∧ copyValid (memBytes s.mem 0x91080 64) = true) ∧
    (let s (tail : Nat) := State.put (queueing []) [(0x91000, headerBytes tail 4), (0x91040, copyBytes 7), (0x91080, [1])]
     let k := queueOf (s 16) 31
     let fits (tail : Nat) := tail < 2 * 2 ^ k.log2 ∧ (tail + 2 * 2 ^ k.log2 - k.head % (2 * 2 ^ k.log2)) % (2 * 2 ^ k.log2) ≤ 2 ^ k.log2
     k.state = 1 ∧ fits (leNat (memBytes (s 16).mem 0x91000 4)) ∧ ¬ fits (leNat (memBytes (s 17).mem 0x91000 4)) ∧ (List.range 32).filter (fun i => (queueOf (s 16) i).en && (queueOf (s 16) i).headerOk) = [31] ∧
     copyValid (memBytes (s 16).mem 0x91040 64) = true ∧ copyValid (memBytes (s 16).mem 0x91080 64) = false) ∧
    (List.range 32).filter (fun i => (queueOf part i).en && (queueOf part i).headerOk) = [] ∧
    ((List.range 32).filter (fun i => (queueOf (queueing []) i).en && (queueOf (queueing []) i).headerOk) = [31] ∧
      copyValid (memBytes (queueing []).mem 0x91040 64) = false ∧ copyValid (memBytes (queueing []).mem 0x91080 64) = false) ∧
    (let s := { queueing [] with queues := updNth (queueing []).queues 31 (fun k => { k with head := 1 }) }
     activeQueues s = [31] ∧ storeContexts s = [] ∧ (queueOf s 31).head % (2 * 2 ^ (queueOf s 31).log2) = (queueOf s 31).tail % (2 * 2 ^ (queueOf s 31).log2)) ∧
    (let s (d0 : DWord) (d2 : DWord) := queueing (packetBytes { packet d0 with d1 := 0x60000, d2 := d2 })
     let p (d0 : DWord) (d2 : DWord) := packetOf (memBytes (s d0 d2).mem (packetAt (queueOf (s d0 d2) 31) (queueOf (s d0 d2) 31).head) 64)
     activeQueues (s 7 0) = [31] ∧ storeContexts (s 7 0) = [] ∧ (queueOf (s 7 0) 31).log2 = 4 ∧
     (queueOf (s 7 0) 31).head % 32 ≠ (queueOf (s 7 0) 31).tail % 32 ∧ laneBusy (s 7 0) 31 = false ∧
     InMemory (s 7 0) (packetAt (queueOf (s 7 0) 31) (queueOf (s 7 0) 31).head) 64 ∧
     packetBad (p 11 0) = true ∧ (packetBad (p 7 1) = false ∧ packetPresent (s 7 1) 31 (p 7 1) = false) ∧
     (packetBad (p 7 0) = false ∧ packetPresent (s 7 0) 31 (p 7 0) = true ∧ (p 7 0).kind = 7) ∧
     (packetBad (p 3 0) = false ∧ packetPresent (s 3 0) 31 (p 3 0) = true ∧ (p 3 0).kind = 3)) := by
  unfold InMemory
  decide +kernel

/-- Queues 30 and 31 Active in context 0, with a packet of each kind at their heads. -/
def twoQueues (d e : DWord) : State :=
  { State.put part [(0x90000, packetBytes (packet d)), (0xa0000, packetBytes (packet e))] with
    queues := updNth (updNth part.queues 30 (fun k => { k with qhdr := 0x91000, state := 1, en := true, ring := 0x90000, log2 := 4, tail := 1 }))
      31 (fun k => { k with qhdr := 0xa1000, state := 1, en := true, ring := 0xa0000, log2 := 4, tail := 1 }) }

/-- What the head of a queue must be for its packet to be handed off, and the packet's type. -/
def headKind (s : State) (i : Nat) : Option Nat :=
  let k := queueOf s i
  let p := packetOf (memBytes s.mem (packetAt k k.head) 64)
  if k.head % (2 * 2 ^ k.log2) ≠ k.tail % (2 * 2 ^ k.log2) ∧ laneBusy s i = false ∧ packetBad p = false ∧ packetPresent s i p = true then some p.kind
  else none

theorem witness_QueueSteps_ranks :
    (let s := twoQueues 3 10
     activeQueues s = [30, 31] ∧ storeContexts s = [] ∧ headKind s 30 = some 3 ∧ headKind s 31 = some 10 ∧ 31 < s.queues.length ∧
     (InMemory s (packetAt (queueOf s 30) (queueOf s 30).head) 64 ∧ InMemory s (queueOf s 30).qhdr.toNat 0xc0) ∧
     InMemory s (packetAt (queueOf s 31) (queueOf s 31).head) 64 ∧ InMemory s (queueOf s 31).qhdr.toNat 0xc0) ∧
    (headKind (twoQueues 10 3) 30 = some 10 ∧ headKind (twoQueues 10 3) 31 = some 3) ∧
    (headKind (twoQueues 10 10) 30 = some 10 ∧ headKind (twoQueues 10 10) 31 = some 10) ∧
    (let s := State.put (queueing []) [(0x91000, headerBytes 1 4), (0x91040, copyBytes 7), (0x91080, copyBytes 8)]
     let b := State.put (queueing []) [(0x91000, headerBytes 1 4), (0x91040, copyBytes 9), (0x91080, copyBytes 8)]
     copyValid (memBytes s.mem 0x91040 64) = true ∧ copyValid (memBytes s.mem 0x91080 64) = true ∧
     wordAt (memBytes s.mem 0x91040 64) 0x38 + 1 = wordAt (memBytes s.mem 0x91080 64) 0x38 ∧
     wordAt (memBytes b.mem 0x91080 64) 0x38 + 1 = wordAt (memBytes b.mem 0x91040 64) 0x38) := by
  unfold InMemory
  decide +kernel

/-- The same with one record of context 0 in the pending-launch store, and its overflow list empty or of one record. -/
def pendingIn (s : State) (n : Nat) : State :=
  { s with
    store := [{ ctx := 0, pkt := packet 4 }]
    ctxs := updNth s.ctxs 0 (fun x => { x with quota := 1, ovbase := 0xb0000, ovk := 6, ovTail := n }) }

theorem witness_QueueSteps_store :
    (let s := pendingIn part 0
     storeContexts s = [0] ∧ s.store.find? (fun r => r.ctx == 0) = some { ctx := 0, pkt := packet 4 } ∧ (ctxOf s 0).ovOwed = 0 ∧ 0 < s.ctxs.length ∧
     activeQueues s = [] ∧ arbiterUsed s < 64 ∧ (ctxOf s 0).ovTail ≤ (ctxOf s 0).ovHead) ∧
    (let s := pendingIn part 1
     (ctxOf s 0).ovTail = (ctxOf s 0).ovHead + 1 ∧ storeCount s 0 = (ctxOf s 0).quota ∧ s.store.length ≤ 256 ∧
     InMemory s (overflowAt (ctxOf s 0) (ctxOf s 0).ovHead) 64) ∧
    (let s := { pendingIn part 0 with launches := (List.range 64).map (fun i => { Launch.spent i 0 0x9000 0 with st := .held, cut := false }) }
     activeQueues s = [] ∧ 64 ≤ arbiterUsed s) ∧
    (let s (d : DWord) := pendingIn (queueing (packetBytes (packet d))) 0
     storeContexts (s 3) = [0] ∧ activeQueues (s 3) = [31] ∧ arbiterUsed (s 3) < 63 ∧ headKind (s 3) 31 = some 3 ∧ headKind (s 4) 31 = some 4 ∧
     headKind (s 10) 31 = some 10 ∧ InMemory (s 3) (packetAt (queueOf (s 3) 31) (queueOf (s 3) 31).head) 64 ∧
     InMemory (s 3) (queueOf (s 3) 31).qhdr.toNat 0xc0) := by
  unfold InMemory
  decide +kernel

/-- A held launch on core 1 with coverage pattern `pattern` and its block at 0x40000, under pennant `p`. -/
def holding (pattern p : Nat) (bs : List Byte) : State :=
  { State.put part [(0x40000, bs)] with launches := [{ Launch.spent 3 0 0x9000 0 with
      cut := false, st := .held, origin := 1, pattern := pattern, pennant := p, cblk := 0x40000 }] }

/-- A control block Table 11.1 accepts: one .F32 element of kernel 0, gains 0, F from 1 to 256, a positive cap. -/
def coverBytes : List Byte :=
  leBytes 8 0x50000 ++ leBytes 4 128 ++ leBytes 2 1 ++ leBytes 2 1 ++ leBytes 16 0 ++ leBytes 4 0x3f800000 ++ leBytes 4 0x43800000 ++
    leBytes 4 0x3f800000 ++ List.replicate 80 0

/-- What makes a launch ready to be placed. -/
def readyB (s : State) (l : Launch) : Bool :=
  decide (l.st = .held) && !orderedBehind s l && !stillHeld s l && !parkedAgain s (.launchPlacement l.id) && l.cores.all (coreTakes s l) &&
    s.launches.all (fun k => decide (l.id ≤ k.id) || !placeable s k)

/-- A running launch with no team, its one cell handed out with coverage `c`. -/
def finishing (cov : Option CovBlock) (c : Nat) (done : List Nat) : State :=
  { part with
    t := Team.none
    launches := [{ Launch.spent 3 0 0x9000 0 with
      cut := false, cov := cov, covers := [(0, (c, 0))], finished := [0], done := done, pattern := 1, cblk := 0x40000 }] }

/-- The first launch. -/
def launch0 (s : State) : Launch := s.launches.headD (Launch.spent 0 0 0 0)

theorem witness_LaunchSteps :
    (let s := holding 0 0 []
     launchOf s 3 = some (launch0 s) ∧ readyB s (launch0 s) = true ∧ (ctxOf s 0).mayRun 0 = true ∧ (launch0 s).pattern = 0 ∧
     (launch0 s).cores = [1] ∧ freeSlots (s.forLaunch (launch0 s)) 1 = 0 :: [1, 2, 3]) ∧
    (let s := holding 0 7 []
     readyB s (launch0 s) = true ∧ (ctxOf s 0).mayRun (launch0 s).pennant = false ∧ Still s 0 ∧ (launch0 s).stat.toNat + 8 ≤ 0x1000000000 ∧
     (launch0 s).queue = none) ∧
    (let s := { holding 0 0 [] with others := (List.range 4).map (fun k => { placeTeam with core := 1, slot := k }) }
     readyB s (launch0 s) = false) ∧
    (let s := holding 1 0 coverBytes
     readyB s (launch0 s) = true ∧ (launch0 s).pattern ≠ 0 ∧ Still s 0 ∧ (launch0 s).cblk.toNat + 128 ≤ 0x1000000000 ∧
     covOk (memBytes s.mem (launch0 s).cblk.toNat 128) = true ∧ dwordAt (memBytes s.mem (launch0 s).cblk.toNat 128) 0x30 = 0) ∧
    covOk (memBytes (holding 1 0 []).mem 0x40000 128) = false ∧
    (let s := finishing none 0 []
     launchOver s (launch0 s) = true ∧ parkedWrites s 0 ((launch0 s).cblk + 0x40) 0x18 = false ∧ Still s 0 ∧ (launch0 s).stat.toNat + 8 ≤ 0x1000000000) ∧
    (let s := finishing (some (block 1 1)) 0 []
     launchOver s (launch0 s) = false ∧ (launch0 s).cov = some (block 1 1) ∧ fondantReady s (launch0 s) (block 1 1) 0 = true ∧
     fondantReady s (launch0 s) (block 1 1) 1 = false ∧ parkedAgain s (.fondantReconstructCell 3 0) = false ∧ Still s 0 ∧
     (launch0 s).pennant = 0 ∧ (block 1 1).w = 1 ∧ (block 1 1).h = 1 ∧ (block 1 1).base.toNat + 8 ≤ 0x1000000000 ∧
     (sget (0, 0) (launch0 s).covers 0).1 ≤ (launch0 s).rankAt 0 0 ∧ (sget (0, 0) (launch0 s).covers 0).2 = 0) ∧
    (let s := finishing (some (block 1 1)) 256 []
     fondantReady s (launch0 s) (block 1 1) 0 = true ∧ 256 ≤ (sget (0, 0) (launch0 s).covers 0).1 ∧ (launch0 s).pattern < 6) := by
  unfold Still Flat
  decide +kernel

/-- The launch whose cell is finished; and one with a point whose access has been refused. -/
theorem witness_LaunchSteps_done :
    (let s := finishing (some (block 1 1)) 256 [0]
     launchOver s (launch0 s) = true ∧ (block 1 1).cellsX * (block 1 1).cellsY ≤ (launch0 s).done.length ∧ (launch0 s).cblk.toNat + 128 ≤ 0x1000000000) ∧
    (let s := finishing (some (block 1 1)) 0 []
     let u := { s with launches := s.launches.map (fun l => { l with lost := [(0, 0)] }) }
     fondantReady u (launch0 u) (block 1 1) 0 = true ∧ parkedAgain u (.fondantReconstructCell 3 0) = false ∧
     (launch0 u).lost.contains (0, 0) = true ∧ (launch0 s).lost.contains (0, 0) = false) := by decide +kernel

/-- The same launch, cut before its cell is finished. -/
def cutDown : State :=
  { finishing (some (block 1 1)) 0 [] with
    launches := (finishing (some (block 1 1)) 0 []).launches.map (fun l => { l with cut := true, status := 8 }) }

theorem witness_LaunchSteps_cut : launchOver cutDown (launch0 cutDown) = true ∧ (launch0 cutDown).done.length < (block 1 1).cellsX * (block 1 1).cellsY ∧
    (launch0 cutDown).cov = some (block 1 1) := by decide +kernel

/-- A fixed unit's access parked under ID 9. -/
def parked (w : FixedWork) : State := { part with fixed := [{ ctx := 0, id := 9, pennant := 0, addr := 0x60000, work := w }] }

def parkedLoad : State := (withX [(1, 0x60000)]).upd (fun t => { t with oplog := [parkedEntry], sPark := some (9, 4, 5) })

theorem witness_Replies :
    ((fixedOf (parked (.again (.launchPlacement 3))) 0 9).map (fun f => f.work) = some (.again (.launchPlacement 3))) ∧
    (let s := parked (.writes 0 (some 31) [(0xffffffff0, List.replicate 16 1)])
     (fixedOf s 0 9).map (fun f => (f.work, f.pennant)) = some (.writes 0 (some 31) [(0xffffffff0, List.replicate 16 1)], 0) ∧ Still s 0 ∧ 31 < s.queues.length ∧
     (List.replicate 16 (1 : Byte)).length ≤ 4096 ∧
     (0xffffffff0 : DWord).toNat + (List.replicate 16 (1 : Byte)).length ≤ 0x1000000000) ∧
    (let s := parkedLoad
     fixedOf s 0 9 = none ∧ (parkedEntry.record = true ∧ parkedEntry.id = 9 ∧ s.t.oplog = [parkedEntry] ∧ s.t.ctx = 0 ∧ s.t.alive = true) ∧
     parkedEntry.scalar = true ∧ parkedEntry.instr = some (.ld 0 0 0 0 3 1 5) ∧ Flat s 0 ∧ s.t.pennant = 0 ∧ Unbuffered s 0x60000 8 ∧
     0 < s.ctxs.length) ∧
    (fixedOf part 0 9 = none ∧ ownerOf part 0 9 = none) ∧
    (let p : Packet := { packet 7 with d1 := 0x60000 }
     (fixedOf (parked (.again (.waitPacket 31 p))) 0 9).map (fun f => f.work) = some (.again (.waitPacket 31 p)) ∧
     31 < (parked (.again (.waitPacket 31 p))).queues.length) ∧
    (parkedLoad.t.life ≠ .retired ∧ parkedLoad.t.named 0 9 = true ∧ parkedLoad.t.headStarted = false ∧ parkedLoad.t.headReady = false) ∧
    part.teams.any (fun t => t.named 0 9) = false := by
  unfold Still Flat Unbuffered
  decide +kernel

/-- A team with an entry under ID 9, saved in partition 2's slot, whose save area is at 0x4000000. -/
def evicted : State :=
  { part with
    t := Team.none
    shadows := updNth part.shadows 2 (fun h => { h with
      pstat := 3, area := some (0x4000000, 5), teams := [{ parkedLoad.t with life := .stopped, why := .saved }] }) }

theorem witness_Replies_evicted :
    fixedOf evicted 0 9 = none ∧ ownerOf evicted 0 9 = none ∧ evicted.shadows.length = 4 ∧ (shadowOf evicted 2).area = some (0x4000000, 5) ∧
    (∀ j < 4, (shadowOf evicted j).teams.any (fun t => t.ctx == 0 && t.ownsEntry 9) = decide (j = 2)) ∧ evicted.caches.wc = [] ∧
    (part.shadows.length = 4 ∧ ∀ h ∈ part.shadows, h.area = none) := by decide +kernel

/-- Tables at 0x100000 to 0x103000 that lead on for addresses below 1 GB; `low` in entry 0 of the node of level 1, `leaf` in entry 0x123 of
the node of level 0 at 0x104000; no range entry covers anything. -/
def tabled (low leaf : DWord) : State :=
  { part with
    mem := memSet (memSet (memSet (memSet (memSet [] 0x100000 (leBytes 8 0x101001)) 0x101000 (leBytes 8 0x102001)) 0x102000 (leBytes 8 0x103001))
      0x103000 (leBytes 8 low.toNat)) 0x104918 (leBytes 8 leaf.toNat)
    ctxs := updNth part.ctxs 0 (fun x => { x with root := 0x100000, ranges := List.replicate 4 RangeEnt.reset }) }

def walkAddr : DWord := 0x123456

theorem leads_one (m : Mem) (a : entryOf m 0x100000 = 0x101001) (b : entryOf m 0x101000 = 0x102001) (c : entryOf m 0x102000 = 0x103001) :
    Leads m walkAddr 4 0x100000 1 0x103000 := by
  have p4 : entryPlace walkAddr 4 0x100000 = 0x100000 := by decide
  have p3 : entryPlace walkAddr 3 0x101000 = 0x101000 := by decide
  have p2 : entryPlace walkAddr 2 0x102000 = 0x102000 := by decide
  have on (e : DWord) (h : e = 0x101001 ∨ e = 0x102001 ∨ e = 0x103001) : leadsOn e := by
    rcases h with rfl | rfl | rfl <;> (unfold leadsOn; decide)
  refine .down 3 _ _ _ (by decide) (on _ (by rw [p4, a]; decide)) ?_
  rw [p4, a, show entryPa 0x101001 = 0x101000 by decide]
  refine .down 2 _ _ _ (by decide) (on _ (by rw [p3, b]; decide)) ?_
  rw [p3, b, show entryPa 0x102001 = 0x102000 by decide]
  refine .down 1 _ _ _ (by decide) (on _ (by rw [p2, c]; decide)) ?_
  rw [p2, c, show entryPa 0x103001 = 0x103000 by decide]
  exact .here _ _ (by decide)

theorem leads_zero (m : Mem) (a : entryOf m 0x100000 = 0x101001) (b : entryOf m 0x101000 = 0x102001) (c : entryOf m 0x102000 = 0x103001)
    (d : entryOf m 0x103000 = 0x104001) : Leads m walkAddr 4 0x100000 0 0x104000 := by
  have step (n q : Nat) (h : Leads m walkAddr n q 1 0x103000) : Leads m walkAddr n q 0 0x104000 := by
    generalize hk : 1 = k at h
    generalize hr : 0x103000 = r at h
    induction h with
    | here n p hp =>
      subst hk hr
      have p1 : entryPlace walkAddr 1 0x103000 = 0x103000 := by decide
      refine .down 0 _ _ _ hp (by rw [p1, d]; unfold leadsOn; decide) ?_
      rw [p1, d, show entryPa 0x104001 = 0x104000 by decide]
      exact .here _ _ (by decide)
    | down n p k q hp hl _ ih => exact .down n p 0 _ hp hl (ih hk hr)
  exact step _ _ (leads_one m a b c)

/-- A leaf that maps the page, with every right, not yet used; and the two forms of a fault at level 0. -/
theorem witness_Contexts_walk :
    let s := tabled 0x104001 0x7f03f
    Leads s.mem walkAddr 4 (ctxOf s 0).root.toNat 0 0x104000 ∧ s.win.memCode ≠ 0 ∧ s.caches.wc = [] ∧ canonical walkAddr = true ∧
    (∀ i, (sget LastPage.none s.t.lastPages i).bits.getLsbD 0 = false) ∧ (∀ r ∈ (ctxOf s 0).ranges, r.perm.getLsbD 0 = false) ∧
    s.caches.tlb = [] ∧ entryOf s.mem (entryPlace walkAddr 0 0x104000) = 0x7f03f ∧ entryPa 0x7f03f = 0x7f000 ∧
    entryOf (tabled 0x104001 0).mem 0x104918 = 0 ∧ entryOf (tabled 0x104001 (2 ^ 63 + 0x7f03f)).mem 0x104918 = 2 ^ 63 + 0x7f03f := by
  exact ⟨leads_zero _ (by decide +kernel) (by decide +kernel) (by decide +kernel) (by decide +kernel), by decide +kernel, by decide +kernel,
    by decide, fun i => show (sget LastPage.none [] i).bits.getLsbD 0 = false by simp [sget, LastPage.none], by decide +kernel, by decide +kernel, by decide +kernel,
    by decide, by decide +kernel, by decide +kernel⟩

/-- The same with entries of level 1 that mark a node as not resident, as remote and as of another memory type, and with a bad leaf. -/
theorem witness_Contexts_nodes :
    let s := tabled (2 ^ 51 + 0x104001) 0
    Leads s.mem walkAddr 4 (ctxOf s 0).root.toNat 1 0x103000 ∧
    entryOf s.mem (entryPlace walkAddr 1 0x103000) = 2 ^ 51 + 0x104001 ∧
    entryOf (tabled (2 ^ 53 + 0x104001) 0).mem 0x103000 = 2 ^ 53 + 0x104001 ∧ entryOf (tabled 0x104801 0).mem 0x103000 = 0x104801 ∧
    entryOf (tabled 0x10403f 0).mem 0x103000 = 0x10403f ∧ entryPa 0x10403f % 2 ^ 21 ≠ 0 := by
  exact ⟨leads_one _ (by decide +kernel) (by decide +kernel) (by decide +kernel), by decide +kernel, by decide +kernel, by decide +kernel,
    by decide +kernel, by decide⟩

/-- The cached leaf is clean and the entry in memory is no longer valid. -/
theorem witness_Contexts_stale :
    let y : TlbEnt := { core := 0, ctx := 0, vpn := 0x123, lvl := 0, entry := 0x7f07f, at_ := 0x104918 }
    let s := { tabled 0x104001 0x7f03e with caches := { part.caches with tlb := [y] } }
    Leads s.mem walkAddr 4 (ctxOf s 0).root.toNat y.lvl 0x104000 ∧ entryPlace walkAddr y.lvl 0x104000 = y.at_ ∧
    (entryOf s.mem y.at_).getLsbD 0 = false ∧ y.entry.getLsbD 7 = false ∧ InMemory s y.at_ 8 ∧ s.caches.wc = [] ∧ s.win.memCode ≠ 0 ∧
    canonical walkAddr = true ∧ (∀ i, (sget LastPage.none s.t.lastPages i).bits.getLsbD 0 = false) ∧
    (∀ r ∈ (ctxOf s 0).ranges, r.perm.getLsbD 0 = false) ∧ y.entry.extractLsb' 8 2 = 0 ∧
    s.caches.tlb.filter (fun z => z.core == 0 && z.ctx == 0 && z.vpn / z.run == vpnAt z.lvl walkAddr / z.run) = [y] := by
  exact ⟨leads_zero _ (by decide +kernel) (by decide +kernel) (by decide +kernel) (by decide +kernel), by decide, by decide +kernel, by decide,
    by unfold InMemory; decide +kernel, by decide +kernel, by decide +kernel, by decide,
    fun i => show (sget LastPage.none [] i).bits.getLsbD 0 = false by simp [sget, LastPage.none], by decide +kernel, by decide, by decide +kernel⟩

/-- A page of the TLB, clean; a range entry, one of another memory type and one that grants no right; a last-page register. -/
theorem witness_Contexts_cached :
    let y : TlbEnt := { core := 0, ctx := 0, vpn := 0x123, lvl := 0, entry := 0x7f07f, at_ := 0x104918 }
    let s := { tabled 0x104001 0x7f07f with caches := { part.caches with tlb := [y] } }
    (y.entry.extractLsb' 8 2 = 0 ∧ y.lvl ≤ 2 ∧
      s.caches.tlb.filter (fun z => z.core == 0 && z.ctx == 0 && z.vpn / z.run == vpnAt z.lvl walkAddr / z.run) = [y] ∧
      entryPa y.entry % 4096 = 0 ∧ y.entry.getLsbD 7 = false ∧ (entryOf s.mem y.at_).getLsbD 0 = true) ∧
    (canonical 0x100000000000000 = false ∧ canonical walkAddr = true ∧ flatRange.perm.getLsbD 0 = true ∧
      (ctxOf part 0).ranges = [] ++ flatRange :: List.replicate 3 RangeEnt.reset ∧
      flatRange.vbase.toNat ≤ walkAddr.toNat ∧ walkAddr.toNat < flatRange.vlim.toNat ∧ InMemory part 0x123456 1) ∧
    ((({ flatRange with perm := 0xc3d } : RangeEnt).perm.extractLsb' 10 2).toNat = 3 ∧ (0x31 : DWord).getLsbD 2 = false) ∧
    (let u := part.upd (fun t => { t with lastPages := [(5, { vpn := 0x123, ppn := 0x7f, bits := 0xff })] })
     (sget LastPage.none u.t.lastPages 5).bits.getLsbD 0 = true ∧ (sget LastPage.none u.t.lastPages 5).vpn = walkAddr.toNat % 2 ^ 57 / 4096 ∧
     (sget LastPage.none u.t.lastPages 5).bits.getLsbD 7 = true ∧ (sget LastPage.none u.t.lastPages 4).bits.getLsbD 0 = false) := by
  unfold InMemory
  decide +kernel

/-- A context record that LOAD accepts, but for the byte WSTRIDE stands in. -/
def recordBytes (wstride : Nat) : List Byte :=
  leBytes 8 0 ++ leBytes 8 (8 * wstride) ++ leBytes 8 0x8000 ++ leBytes 8 0x50000 ++ leBytes 4 0xc35 ++ leBytes 2 256 ++ [4, 4] ++
    leBytes 8 0x60000 ++ leBytes 8 0 ++ leBytes 4 0x10000 ++ leBytes 4 0

/-- Context 0 loading a record at 0x30000. -/
def loadingFrom (bs : List Byte) : State :=
  { State.put part [(0x30000, bs)] with ctxs := updNth part.ctxs 0 (fun x => { x with ctxrec := 0x30000, loading := true }) }

/-- A fault record waiting in context 0, whose ring of 16 starts at 0x50000 and has `bs` in its first slot. -/
def recording (bs : List Byte) : State :=
  { State.put part [(0x50000, bs)] with ctxs := updNth part.ctxs 0 (fun x =>
      { x with frbase := 0x50000, frlog2 := 4, faultQ := [{ time := 0, addr := 0, pc := 0, info := 0, lanes := 0, id := 1 }] }) }

theorem witness_Contexts :
    (ctxOf part 0).loading = false ∧
    (let s := loadingFrom (recordBytes 1)
     (ctxOf s 0).loading = true ∧ 0 < s.ctxs.length ∧ s.caches.wc = [] ∧ InMemory s (ctxOf s 0).ctxrec.toNat 256 ∧
     recordOk (ctxOf s 0).ctxrec (memBytes s.mem 0x30000 256) = true) ∧
    (let s := loadingFrom (recordBytes 0)
     recordOk (ctxOf s 0).ctxrec (memBytes s.mem 0x30000 256) = false) ∧
    (12 ≤ (12 : BitVec 6).toNat ∧ (34 : BitVec 6).toNat ≤ 34 ∧ 34 < (35 : BitVec 6).toNat ∧ (11 : BitVec 6).toNat < 12) ∧
    part.win.invCtx = none ∧ ({ part with win := { part.win with invCtx := some (0, 1, 2) } }).win.invCtx = some (0, 1, 2) ∧
    (ctxOf part 0).faultQ = [] ∧
    (let s := recording []
     (ctxOf s 0).faultQ = { time := 0, addr := 0, pc := 0, info := 0, lanes := 0, id := 1 } :: [] ∧ 0 < s.ctxs.length ∧ s.caches.wc = [] ∧
     InMemory s 0x50000 64 ∧ (sget 0 s.mem 0x5001f).getLsbD 7 = false ∧ (ctxOf s 0).lastIrq = 0) ∧
    (sget 0 (recording (List.replicate 31 0 ++ [0x80])).mem 0x5001f).getLsbD 7 = true := by
  unfold InMemory
  decide +kernel

/-- Partition 0's slot with an operation under way, and a saved team. -/
def shadowed (pstat pending op : Nat) (ts : List Team) : State :=
  { part with
    t := Team.none, order := if op = 0 then [] else [(0, op)]
    shadows := updNth part.shadows 0 (fun h => { h with pstat := pstat, pending := pending, teams := ts }) }

/-- A restore from a save area that holds the bytes an evict has written. -/
theorem witness_Preemption_area (n : Nat) : memBytes (memSet part.mem 0x8000000 (areaBytes n)) 0x8000000 (2 ^ 26) = areaBytes n := by
  have key (bs : List Byte) (k : Nat) (h : bs.length = k) : memBytes (memSet part.mem 0x8000000 bs) 0x8000000 k = bs := by
    subst h; exact memBytes_memSet
  exact key _ _ (by rw [areaBytes, List.length_map, List.length_range, areaSize])

theorem witness_Preemption :
    0 ≤ 3 ∧ part.shadows.length = 4 ∧ (shadowOf (shadowed 2 0 0 []) 0).pstat ≠ 0 ∧
    (let h := shadowOf part 0
     h.pstat = 0 ∧ h.pending = 0 ∧ part.t.life ≠ .retired ∧ partitionOf part.t.core = 0 ∧ part.t.wait = .none ∧ part.t.headStarted = false ∧
     part.t.headReady = false ∧ part.t.why = .none ∧ part.others = []) ∧
    (part.upd (fun t => { t with wait := .icflush 4 0x1000 64 })).t.wait = .icflush 4 0x1000 64 ∧
    (shadowOf part 0).pending ≠ 1 ∧ ((shadowOf (shadowed 1 1 1 []) 0).pending = 1 ∧ (shadowed 1 1 1 []).order = [(0, 1)]) ∧
    ((shadowOf part 0).pstat ≠ 2 ∧ (shadowOf part 0).pstat ≠ 3) ∧ ((shadowOf (shadowed 3 0 0 []) 0).pstat = 3 ∧
      (shadowOf (shadowed 3 0 0 []) 0).pending = 0) ∧
    (let u : Team := { placeTeam with why := .saved, life := .stopped, before := .running }
     let s := shadowed 1 2 2 [u]
     (shadowOf s 0).pending = 2 ∧ s.order = [(0, 2)] ∧ canRestore s 0 = true ∧ (shadowOf s 0).teams = [u] ∧ u.why = .saved ∧ u.life = .stopped ∧
     u.before ≠ .retired ∧ fileUsed s u.core + u.file.length ≤ 6144) ∧
    ((shadowOf (shadowed 2 0 0 []) 0).pstat = 2 ∧ (shadowOf (shadowed 2 0 0 []) 0).pending = 0 ∧ (shadowOf (shadowed 1 3 0 []) 0).pending = 3 ∧
      (shadowed 1 3 0 []).caches.wc = []) ∧
    (let s := part.upd (fun t => { t with debug := true })
     s.t.debug = true ∧ s.t.life ≠ .retired ∧ s.t.srTeamid ≠ s.t.srTeamid + 1) := by decide +kernel

/-- A restore of a team on core 1 waits for the launch on core 1 that had aged, not for one on core 2; and a saved team stopped at a debug event. -/
theorem witness_Preemption_behind :
    let u : Team := { placeTeam with core := 1, clidx := 1, why := .saved, life := .stopped, before := .running }
    let l (n c : Nat) : Launch := { Launch.spent n 0 0x9000 0 with cut := false, st := .held, aged := true, origin := c }
    let s (n c : Nat) : State := { shadowed 1 2 2 [u] with
      launches := [l n c], shadows := updNth (shadowed 1 2 2 [u]).shadows 0 (fun h => { h with behind := [3] }) }
    ((l 3 1).st = .held ∧ (l 3 1).id ∈ (shadowOf (s 3 1) 0).behind ∧ ∃ u ∈ (shadowOf (s 3 1) 0).teams, u.core ∈ (l 3 1).cores) ∧
    canRestore (s 3 1) 0 = false ∧ canRestore (s 3 2) 0 = true ∧ canRestore (s 4 1) 0 = true ∧
    (let s := shadowed 2 0 0 [{ u with debug := true }]
     (∀ w ∈ s.teams, ¬ (w.debug = true)) ∧ (∀ g ∈ s.shadows, g.area = none) ∧
     ∃ g ∈ (shadowOf s 0).teams, g.debug = true ∧ g.life ≠ .retired ∧ g.srTeamid = { u with debug := true }.srTeamid) := by decide +kernel

theorem witness_DriverRegisters :
    (let v : DWord := 0x1006e1a4
     let g := bits v.toNat 16 9
     g = 6 ∧ bits v.toNat 9 7 = 112 ∧ ¬ (bits v.toNat 9 7 ≤ 110)) ∧
    (let v : Nat := 256 * 2 ^ 16 + 110 * 2 ^ 9 + 420
     1 ≤ bits v 16 9 ∧ bits v 16 9 ≤ 256 ∧ 60 ≤ bits v 9 7 ∧ bits v 9 7 ≤ 110 ∧ 150 ≤ bits v 0 9 ∧ bits v 0 9 ≤ 420) ∧
    (31 < part.queues.length ∧ (1 : DWord).getLsbD 0 = true ∧ (3 : DWord).getLsbD 1 = true) ∧
    (3 < part.heads.length ∧ bits (0x11 : DWord).toNat 4 18 ≠ 0 ∧ (headOf part 3).enabled = false) ∧
    (let s := { part with time := 9, heads := updNth part.heads 3 (fun d =>
       { d with hcfg := 0x11, blankAt := 9, outside := [{ head := 3, surface := 0x100, ctx := 0 }] }) }
     (headOf s 3).enabled = true ∧ (headOf s 3).blankAt ≤ s.time ∧ (headOf s 3).outside = { head := 3, surface := 0x100, ctx := 0 } :: [] ∧
     { s with time := 8 }.time < (headOf s 3).blankAt) ∧
    (Machine.enabling part 31 = false ∧ Machine.enabling { part with agenda := [.queueEnable 31] } 31 = true) ∧
    (let s := { part with heads := updNth part.heads 3 (fun d => { d with hcfg := 0x11, queue := [{ head := 3, surface := 0xffffffff8, ctx := 0 }] }) }
     (headOf s 3).shown = none ∧ (headOf s 3).queue.head? = some { head := 3, surface := 0xffffffff8, ctx := 0 } ∧ Still s 0 ∧
     0xffffffff8 + (bits (headOf s 3).hcfg.toNat 38 13 + 1) * (256 * bits (headOf s 3).hcfg.toNat 22 16) +
       4 * (bits (headOf s 3).hcfg.toNat 51 13 + 1) ≤ 0x1000000000) ∧
    (let s := { part with time := 3200000 }
     s.gov.exceeded = false ∧ s.gov.metAt + 3200000 ≤ s.time ∧ part.time < part.gov.metAt + 3200000 ∧ 143 ∉ s.gov.gated ∧
     sget 0 s.gov.issuedAt 143 + 1000 ≤ s.time) ∧
    (let s := { part with t := Team.none, win := { part.win with lattol := 300 } }
     s.teams = [] ∧ (∀ q ∈ s.queues, q.outstanding = 0 ∧ (q.en = true → q.pending = 0)) ∧ 300 ≤ s.win.lattol.toNat ∧
     20 ≤ (299 : Word).toNat ∧ (299 : Word).toNat < 300) ∧ part.teams ≠ [] ∧
    (let s := { part with gov := { part.gov with recovering := true, point := 3, cap := 5 } }
     (5 ≤ s.gov.cap ∧ 5 ≤ s.win.platTop) ∧ ¬ (6 ≤ s.gov.point ∨ (s.gov.recovering = true ∧ 6 ≤ s.gov.cap ∧ 6 ≤ s.win.platTop))) := by
  unfold Still Flat
  decide +kernel

/-- Core 0 holds a line of block 2 in its sampler cache and asks for a block. -/
def asking : State :=
  { part with
    linkUp := true
    caches := { part.caches with
      samp := [{ core := 0, ctx := 0, pennant := 0, line := 0x1fffffff, data := List.replicate 128 7 }]
      persist := [{ block := 2, holder := 1, write := true, active := false, at_ := 0 }] } }

/-- A pending operand of two teams, one of whose shares met a damaged word. -/
theorem witness_UnitSteps_marked :
    let s := { buffered with time := 64, caches := { buffered.caches with
      spoilt := [(0x400, 0, 0)], quanta := buffered.caches.quanta.map (fun q : Quantum => { q with shares := q.shares ++ [({ slot := 1, lane := 0, val := 2 } : QShare)] }) } }
    (∀ x ∈ s.caches.quanta, x.since + 64 ≤ s.time ∧ x.core = 0 ∧ (∃ y ∈ x.shares, (x.pa / 64, x.core, y.slot) ∈ s.caches.spoilt) ∧
      ∃ y ∈ x.shares, (x.pa / 64, x.core, y.slot) ∉ s.caches.spoilt) ∧ s.caches.quanta.length = 1 := by decide +kernel

/-- A version holds the damaged half of its line, a sampler line of the core the damaged block; no core's line holds the
block of other tokens. -/
theorem witness_UnitSteps_blocks :
    (verOf versioned 0 1 (0xc01 / 2)).isSome = true ∧ asking.focus 0 0 = some asking ∧
    (∃ k ∈ asking.caches.samp, k.core = 0 ∧ k.line = (128 * 0x1fffffff + 70) / 128) ∧
    (let k : Tokens := { block := 10, holder := 3, count := 1, owner := false }
     k.block ≠ 2 ∧ k.block ≠ 3 ∧ k.block + 1 ≠ 2 ∧ ∀ l ∈ asking.caches.l1, ¬ (k.block = l.block ∨ k.block = l.block + 1)) := by decide +kernel

/-- A pending operand whose block a damaged word lies in; a saved team that an acknowledgement is owed to, and a resident one. -/
theorem witness_UnitSteps_owed :
    (∀ x ∈ buffered.caches.quanta, ∀ y ∈ x.shares,
      (x.pa / 64, x.core, y.slot) ∈ ({ buffered.caches with spoilt := [(0x400, 0, 0)] } : Caches).spoilt) ∧
    (let s := { part with shadows := updNth part.shadows 2 (fun h => { h with teams := [{ placeTeam with core := 72, slot := 1, linkOut := 3 }] }) }
     s.shadows.length = 4 ∧ .ack 72 1 ∉ (shadowOf s 2).replies ∧ ∃ u ∈ (shadowOf s 2).teams, u.core = 72 ∧ u.slot = 1 ∧ u.linkOut ≠ 0) ∧
    (inSlot 0 0 part.t = true ∧ ∀ h ∈ part.shadows, h.teams = []) := by decide +kernel

theorem witness_UnitSteps :
    ((buffered.caches.wc.filter (fun l => l.core == 0))[0]?.isSome = true ∧ (buffered.caches.wc.filter (fun l => l.core == 0))[1]? = none ∧
      (buffered.caches.quanta.filter (fun q => q.core == 0))[0]?.isSome = true) ∧
    (256 * 8 ≤ { buffered with clk := 2048 }.clk - 0 ∧ { buffered with clk := 2047 }.clk - 0 < 256 * 8) ∧
    (∀ l ∈ buffered.caches.wc, (l.pennant = 0 ∧ l.line = 0x400) ∧ (l.bytes.map (fun b => b.off)).Nodup) ∧ buffered.caches.wc.length = 1 ∧
    (let s := { buffered with time := 64, caches := { buffered.caches with wc := [] } }
     0 + 64 ≤ s.time ∧ s.caches.quanta.map (fun q => q.shares) = [[{ slot := 0, lane := 0, val := 1 }]] ∧ s.caches.wc = [] ∧ s.caches.spoilt = []) ∧
    (asking.caches.samp.any (fun k => k.core == 0 && k.ctx == 0 && k.pennant == 0 && k.line == 0x1fffffff) = true ∧
      InMemory asking (128 * 0x1fffffff) 128 ∧ Unbuffered asking (128 * 0x1fffffff) 128 ∧ part.caches.samp.any (fun k => k.core == 0 && k.ctx == 0 && k.pennant == 0 && k.line == 1) = false) ∧
    (asking.caches.persist.any (fun r => r.block == 2 && r.holder == 144)) = false ∧
    (∀ x ∈ asking.caches.persist, x = { block := 2, holder := 1, write := true, active := false, at_ := 0 }) ∧ asking.caches.tokens = [] ∧
    (part.focus 0 0 = some part ∧ 1023 < 1024 ∧ 127 < 128 ∧ inSlot 0 0 part.t = true ∧ part.t.why ≠ .saved ∧ part.t.headStarted = false ∧
      part.t.headReady = false) ∧
    bits (ctxOf part 0).trctl.toNat 5 5 = 0 ∧
    (let s (b : Byte) := State.put ({ part with ctxs := updNth part.ctxs 0 (fun x => { x with trctl := 0x8020, trbase := 0x50000 }) }) [(0x50010, [b])]
     bits (ctxOf (s 1) 0).trctl.toNat 5 5 ≠ 0 ∧ (s 1).teams.filter (fun t => t.ctx == 0 && decide (t.life = .running)) = [(s 1).t] ∧
     0 < (s 1).ctxs.length ∧ (s 1).caches.wc = [] ∧ InMemory (s 1) 0x50000 64 ∧ (sget 0 (s 1).mem 0x50010).getLsbD 0 = true ∧ (sget 0 (s 0).mem 0x50010).getLsbD 0 = false) ∧
    (part.caches.wc = [] ∧ part.win.memCode ≠ 0 ∧ 0xffffffffe + [(1 : Byte)].length < 0x1000000000 ∧ 0x30000 + 64 < 0x1000000000) ∧
    regionOf part.win.memCode 0x1000000000 ≠ .gddr ∧ regionOf part.win.memCode 0x1000000000 ≠ .absent ∧
    regionOf 0 0xc00000000 = .absent := by
  unfold InMemory Unbuffered
  decide +kernel

end Sys2Proof.Tests
end

/-! Lane system registers: a participating lane's index as sr.laneid gives it, and what reading and writing that register leave
(O22; R26, R388, Table 2.3). -/

namespace Sys2Proof.Machine

/-! ## Lane indices (R26, R27) -/

/-- A team has at most 32 groups of 32 lanes. -/
theorem laneCount_le (gmax : BitVec 5) : laneCount gmax ≤ 1024 := by
  have := gmax.isLt
  unfold laneCount
  omega

theorem Team.lt_of_mem_parts {t : Team} {w : LWord} {lane : Nat} (h : lane ∈ t.parts w) : lane < 1024 :=
  ((t.mem_parts w lane).1 h).1.trans_le (laneCount_le t.gmax)

/-- A lane's index as a register word, field by field (Table 2.3). -/
theorem laneWord_fields {lane : Nat} (h : lane < 1024) :
    let v : Word := BitVec.ofNat 32 lane
    (v.extractLsb' 10 22).toNat = 0 ∧ (v.extractLsb' 5 5).toNat = lane / 32 ∧ (v.extractLsb' 0 5).toNat = lane % 32 ∧
      (v.extractLsb' 3 2).toNat = lane % 32 / 8 ∧ (v.extractLsb' 0 10).toNat = lane := by
  have hv : lane % 2 ^ 32 = lane := Nat.mod_eq_of_lt (by omega)
  simp only [BitVec.extractLsb'_toNat, BitVec.toNat_ofNat, hv, Nat.shiftRight_eq_div_pow]
  omega

/-! ## SRRD and SRWR of sr.laneid (R388) -/

/-- SRRD of sr.laneid is a lane result of one register: the lane's own index. -/
theorem exec_srrdLane_laneid {w : LWord} (hw : w.srNum = 0x100) (s : State) :
    exec (.srrdLane w) s = laneResult w 1 (fun _ lane => lane) s := by
  show execSrrdLane w s = _
  simp only [execSrrdLane, hw, if_true]

/-- SRWR of a lane system register other than sr.prio writes nothing, whether or not a lane takes part. -/
theorem passesL_srwrLane {w : LWord} (hw : w.srNum ≠ 0x101) (s : State) : PassesL (.srwrLane w) s := by
  show execSrwrLane w s = _
  unfold execSrwrLane
  cases s.t.parts w with
  | nil => rfl
  | cons lane rest => exact if_neg hw

/-! ## O22 -/

/-- Settles O22: SRRD is a lane result, SRWR passes, and every participating lane's index lies below 1024. -/
theorem laneId : Obligations.LaneId := by
  intro s w hw
  have hdst : w.dst.toNat + 1 ≤ 128 := w.dst.isLt
  refine ⟨writesV_of_laneResult hdst (exec_srrdLane_laneid hw s), passesL_srwrLane (by rw [hw]; decide) s, ?_⟩
  rintro lane hlane v rfl
  exact laneWord_fields (Team.lt_of_mem_parts hlane)

end Sys2Proof.Machine

/-! FMIN and FMAX: the order of the non-NaN values with −0 below +0, the operand each takes of a pair, and what every lane is given
(O42; R355). -/

namespace Sys2Proof.Machine

/-! ## Comparison of exact values (R117, R118) -/

theorem Num.isNan_iff {v : Num} : v.isNan = true ↔ v = .nan := by
  cases v <;> simp [Num.isNan]

/-- No value lies both below and above another: two finite ones are compared over one common step. -/
theorem Num.lt_asymm {a b : Num} (h : Num.lt a b = true) : Num.lt b a = false := by
  cases a with
  | nan => simp [Num.lt] at h
  | inf x =>
    cases b with
    | nan => simp [Num.lt] at h
    | inf y => simp_all [Num.lt]
    | fin y n g => simpa [Num.lt] using h
  | fin x m e =>
    cases b with
    | nan => simp [Num.lt] at h
    | inf y => simpa [Num.lt] using h
    | fin y n g =>
      simp only [Num.lt, decide_eq_true_eq, decide_eq_false_iff_not] at h ⊢
      rw [min_comm g e]
      exact h.asymm

/-- Equal values are not ordered, whichever way round. -/
theorem Num.not_lt_of_eq {a b : Num} (h : Num.eq a b = true) : Num.lt a b = false ∧ Num.lt b a = false := by
  unfold Num.eq at h
  split at h
  · exact absurd h Bool.false_ne_true
  · exact absurd h Bool.false_ne_true
  · simpa using h

/-- The order of FMIN and FMAX: by value, and of two equal values the negative one first, so −0 before +0 (R355). -/
def Num.before (a b : Num) : Bool := Num.lt a b || (Num.eq a b && a.sign && !b.sign)

theorem Num.before_of_lt {a b : Num} (h : Num.lt a b = true) : Num.before a b = true := by
  simp [Num.before, h]

theorem Num.not_before_of_gt {a b : Num} (h : Num.lt b a = true) : Num.before a b = false := by
  have hne : Num.eq a b = false :=
    Bool.eq_false_iff.2 fun he => Bool.false_ne_true ((Num.not_lt_of_eq he).2.symm.trans h)
  simp [Num.before, Num.lt_asymm h, hne]

/-- Of two equal values the signs alone decide. -/
theorem Num.before_of_eq {a b : Num} (h : Num.eq a b = true) : Num.before a b = (a.sign && !b.sign) := by
  simp [Num.before, (Num.not_lt_of_eq h).1, h]

/-- The sign of a pattern that is no NaN is its top bit. -/
theorem Fmt.sign_value {f : Fmt} {x : Nat} (h : f.value x ≠ .nan) : (f.value x).sign = x.testBit (f.width - 1) := by
  rw [show f.width - 1 = f.ebits + f.fbits by unfold Fmt.width; omega]
  unfold Fmt.value at h ⊢
  dsimp only at h ⊢
  split_ifs at h ⊢
  · exact absurd rfl h
  · rfl
  · rfl
  · rfl
  · exact absurd rfl h
  · rfl
  · rfl

/-! ## The operand FMIN and FMAX take (R355) -/

section
variable {f : Fmt} {a b : Nat}

theorem Fmt.minmax_of_nans (ha : f.value a = .nan) (hb : f.value b = .nan) (m : Bool) : f.minmax m a b = f.nan := by
  simp [Fmt.minmax, ha, hb, Num.isNan]

theorem Fmt.minmax_of_nan_left (ha : f.value a = .nan) (hb : f.value b ≠ .nan) (m : Bool) : f.minmax m a b = b := by
  simp [Fmt.minmax, Num.isNan_iff, ha, hb]

theorem Fmt.minmax_of_nan_right (ha : f.value a ≠ .nan) (hb : f.value b = .nan) (m : Bool) : f.minmax m a b = a := by
  simp [Fmt.minmax, Num.isNan_iff, ha, hb]

variable (ha : f.value a ≠ .nan) (hb : f.value b ≠ .nan)
include ha hb

/-- Without a NaN, FMAX takes the second operand where the first comes before it, and FMIN where it does not. -/
theorem Fmt.minmax_of_not_nan (m : Bool) : f.minmax m a b = if m = Num.before (f.value a) (f.value b) then b else a := by
  unfold Fmt.minmax
  rw [if_neg (by simp [Num.isNan_iff, ha]), if_neg (by simp [Num.isNan_iff, ha]), if_neg (by simp [Num.isNan_iff, hb])]
  rfl

theorem Fmt.minmax_of_before (h : Num.before (f.value a) (f.value b) = true) : f.minmax false a b = a ∧ f.minmax true a b = b := by
  simp [Fmt.minmax_of_not_nan ha hb, h]

theorem Fmt.minmax_of_not_before (h : Num.before (f.value a) (f.value b) = false) :
    f.minmax false a b = b ∧ f.minmax true a b = a := by
  simp [Fmt.minmax_of_not_nan ha hb, h]

/-- Without a NaN the result is one of the operands. -/
theorem Fmt.minmax_mem (m : Bool) : f.minmax m a b = a ∨ f.minmax m a b = b := by
  rw [Fmt.minmax_of_not_nan ha hb]
  exact (ite_eq_or_eq _ b a).symm

/-- Two equal values are ordered by the top bits of their patterns. -/
theorem Fmt.before_of_eq (h : Num.eq (f.value a) (f.value b) = true) :
    Num.before (f.value a) (f.value b) = (a.testBit (f.width - 1) && !b.testBit (f.width - 1)) := by
  rw [Num.before_of_eq h, Fmt.sign_value ha, Fmt.sign_value hb]

end

/-! ## Every lane's result -/

/-- FMIN and FMAX are a binary operation on each element's pattern, of every TYPE. -/
theorem exec_fminmax (w : LWord) (s : State) (wantMax : Bool) :
    exec (if wantMax then .fmax w else .fmin w) s = floatBinary w (w.fmt.minmax wantMax) s := by
  cases wantMax with
  | false => rfl
  | true => rfl

/-! ## O42 -/

/-- Settles O42: the lane result of `Fmt.minmax`, and its operand by the order of the values, of which the four formats need nothing
of their own. -/
theorem floatMinMax : Obligations.FloatMinMax := by
  refine ⟨fun s w hd wantMax => writesV_of_laneResult hd (exec_fminmax w s wantMax), ?_⟩
  intro f _ a b _ _
  dsimp only
  refine ⟨Fmt.minmax_of_nans, Fmt.minmax_of_nan_left, Fmt.minmax_of_nan_right, fun ha hb => ⟨Fmt.minmax_mem ha hb, ?_, ?_, ?_, ?_⟩⟩
  · exact fun h => Fmt.minmax_of_before ha hb (Num.before_of_lt h)
  · exact fun h => Fmt.minmax_of_not_before ha hb (Num.not_before_of_gt h)
  · intro h hna hnb
    exact Fmt.minmax_of_before ha hb (by rw [Fmt.before_of_eq ha hb h, hna, hnb]; rfl)
  · intro h hna hnb
    exact Fmt.minmax_of_not_before ha hb (by rw [Fmt.before_of_eq ha hb h, hna]; rfl)

end Sys2Proof.Machine

/-! SHL, SHR and SRA: what a shift by a count of any size gives, the lane form's operand and count, and what each form writes
(O15; R379). -/

namespace Sys2Proof.Machine

/-! ## Shifts at every width (R379) -/

section
variable {n : Nat} (a : BitVec n) (c : Nat)

theorem ishl_eq : ishl n a c = BitVec.ofNat n (a.toNat * 2 ^ c) := by
  have hshift : a <<< c = BitVec.ofNat n (a.toNat * 2 ^ c) := by
    apply BitVec.eq_of_toNat_eq
    rw [BitVec.toNat_shiftLeft, BitVec.toNat_ofNat, Nat.shiftLeft_eq]
  unfold ishl
  split
  case isTrue h => rw [← hshift, BitVec.shiftLeft_eq_zero h]; rfl
  case isFalse => exact hshift

theorem ishr_eq : ishr n a c = BitVec.ofNat n (a.toNat / 2 ^ c) := by
  have hshift : a >>> c = BitVec.ofNat n (a.toNat / 2 ^ c) := by
    apply BitVec.eq_of_toNat_eq
    rw [BitVec.toNat_ushiftRight, BitVec.toNat_ofNat, Nat.shiftRight_eq_div_pow,
      Nat.mod_eq_of_lt ((Nat.div_le_self _ _).trans_lt a.isLt)]
  unfold ishr
  split
  case isTrue h => rw [← hshift, BitVec.ushiftRight_eq_zero h]; rfl
  case isFalse => exact hshift

/-- An arithmetic shift by the whole width leaves copies of the sign alone, so a count past the width gives no more. -/
theorem sshiftRight_min_width : a.sshiftRight (min c n) = a.sshiftRight c := by
  rcases Nat.le_total c n with h | h
  · rw [Nat.min_eq_left h]
  · rw [Nat.min_eq_right h]
    apply BitVec.eq_of_getLsbD_eq
    intro i _
    rw [BitVec.getLsbD_sshiftRight, BitVec.getLsbD_sshiftRight, if_neg (by omega), if_neg (by omega)]

theorem isra_eq : isra n a c = BitVec.ofInt n (a.toInt / 2 ^ c) := by
  calc isra n a c = a.sshiftRight c := sshiftRight_min_width a c
    _ = BitVec.ofInt n (a.toInt >>> c) := rfl
    _ = BitVec.ofInt n (a.toInt / 2 ^ c) := by rw [Int.shiftRight_eq_div_pow]; norm_cast

end

/-! ## A lane shift's operand and count (R76, R346) -/

theorem Team.vrs_lt (t : Team) (lane : Nat) : ∀ n r, t.vrs lane r n < 2 ^ (32 * n)
  | 0, _ => Nat.one_pos
  | n + 1, r => by
    have hword := (t.vr lane r).isLt
    have hrest := t.vrs_lt lane n (r + 1)
    unfold Team.vrs
    rw [Nat.mul_succ, pow_add]
    omega

/-- A source of `n` registers fits them. -/
theorem Team.src_lt (t : Team) (lane n : Nat) (isX : Bool) (f : BitVec 7) : t.src lane n isX f < 2 ^ (32 * n) := by
  unfold Team.src
  split
  · exact Nat.mod_lt _ (Nat.two_pow_pos _)
  · exact t.vrs_lt lane n _

/-- Reading SRC1 at the width of its registers loses nothing. -/
theorem Team.toNat_ofNat_a (t : Team) (w : LWord) (lane n : Nat) : (BitVec.ofNat (32 * n) (t.a w lane n)).toNat = t.a w lane n :=
  (BitVec.toNat_ofNat _ _).trans (Nat.mod_eq_of_lt (t.src_lt lane n w.x1 w.src1))

/-- At an integer TYPE of either width, SRC2 as a single register is the register or the immediate's unsigned value. -/
theorem Team.b_one {w : LWord} (hty : w.ty = 2 ∨ w.ty = 3) (t : Team) (lane : Nat) :
    t.b w lane 1 = if w.i then w.hi.toNat else t.src lane 1 w.x2 w.src2 := by
  have hfloat : w.ty.toNat ≠ 16 := by rcases hty with h | h <;> simp [h]
  simp [Team.b, immValue, hfloat]

/-! ## The results of both streams -/

/-- A scalar result, with its value in another form. -/
theorem writesX_of_scalarResult_eq {i : Instr} {s : State} {d : BitVec 5} {v : DWord} {f : Team → DWord}
    (h : exec i s = scalarResult d f s) (hv : f s.t = v) : WritesX i s d v :=
  hv ▸ writesX_of_scalarResult h

/-- What a lane result leaves depends on its values only through the bits that are written. -/
theorem WritesV.congr_mod {i : Instr} {s : State} {w : LWord} {n : Nat} {f g : Nat → Nat} (h : WritesV i s w n f)
    (hfg : ∀ lane, f lane % 2 ^ (32 * n) = g lane % 2 ^ (32 * n)) : WritesV i s w n g := by
  obtain ⟨t, hexec, hin, hout, hmoved, hframe⟩ := h
  exact ⟨t, hexec, fun lane hl => (hin lane hl).trans (hfg lane), hout, hmoved, hframe⟩

theorem LWord.n_of_integer {w : LWord} (hty : w.ty = 2 ∨ w.ty = 3) : w.n = 1 ∨ w.n = 2 := by
  rcases hty with h | h <;> simp [LWord.n, typeRegs, h]

/-- An operation by a count at TYPE .32 or .64 is the operation on bit vectors of the TYPE's width. -/
theorem atWidth_count {n : Nat} (hn : n = 1 ∨ n = 2) (f : (n : Nat) → BitVec n → Nat → BitVec n) (a c b : Nat) :
    atWidth (n == 2) (fun n a _ => f n a c) a b = (f (32 * n) (BitVec.ofNat (32 * n) a) c).toNat := by
  rcases hn with rfl | rfl
  · rfl
  · rfl

/-- An operation by a count writes `g` where it gives `g`'s bits from SRC1 and the unsigned count. -/
theorem writesV_of_laneCount32 {i : Instr} {s : State} {w : LWord} {f : (n : Nat) → BitVec n → Nat → BitVec n} {g : Nat → Nat}
    (hty : w.ty = 2 ∨ w.ty = 3) (hd : w.dst.toNat + w.n ≤ 128) (h : exec i s = laneCount32 w f s)
    (hg : ∀ lane, (f (32 * w.n) (BitVec.ofNat (32 * w.n) (s.t.a w lane w.n))
      (if w.i then w.hi.toNat else s.t.src lane 1 w.x2 w.src2)).toNat = g lane % 2 ^ (32 * w.n)) : WritesV i s w w.n g := by
  refine (writesV_of_laneResult hd h).congr_mod fun lane => ?_
  rw [atWidth_count (LWord.n_of_integer hty), Team.b_one hty, hg, Nat.mod_mod]

/-! ## O15 -/

/-- Settles O15: the two scalar forms, and the three lane operations by a count, through one equation for each shift. -/
theorem shifts : Obligations.Shifts := by
  refine ⟨fun s d a b c => ⟨⟨?_, ?_, ?_⟩, ?_, ?_, ?_⟩, fun s w hty hd => ⟨?shl, ?shr, ?sra⟩⟩
  · exact writesX_of_scalarResult_eq rfl (ishl_eq (s.t.xr a) (s.t.xr b).toNat)
  · exact writesX_of_scalarResult_eq rfl (ishr_eq (s.t.xr a) (s.t.xr b).toNat)
  · exact writesX_of_scalarResult_eq rfl (isra_eq (s.t.xr a) (s.t.xr b).toNat)
  · exact writesX_of_scalarResult_eq rfl (ishl_eq (s.t.xr a) c.toNat)
  · exact writesX_of_scalarResult_eq rfl (ishr_eq (s.t.xr a) c.toNat)
  · exact writesX_of_scalarResult_eq rfl (isra_eq (s.t.xr a) c.toNat)
  case shl =>
    refine writesV_of_laneCount32 hty hd (f := ishl) rfl fun lane => ?_
    rw [ishl_eq, BitVec.toNat_ofNat, Team.toNat_ofNat_a]
  case shr =>
    refine writesV_of_laneCount32 hty hd (f := ishr) rfl fun lane => ?_
    rw [ishr_eq, BitVec.toNat_ofNat, Team.toNat_ofNat_a]
  case sra =>
    refine writesV_of_laneCount32 hty hd (f := isra) rfl fun lane => ?_
    rw [isra_eq, Nat.mod_eq_of_lt (BitVec.isLt _)]

end Sys2Proof.Machine
